-- ==== Sys2Proof/Word.lean ====
section
/-! DEFINITION. The word types of the machine: the 8-bit data width (R7), the 16-bit address, register-pair and
port width (R8, R9) and the 32-bit result of the address translation hook (R10). -/

namespace Sys2Proof

/-- A data byte (R7). -/
abbrev Byte := BitVec 8

/-- A 16-bit register pair, memory address or port address (R8, R9). -/
abbrev Word := BitVec 16

/-- A translated address, the `u32` of `translate(u16) -> u32` (R10). -/
abbrev Phys := BitVec 32

end Sys2Proof
end

