-- ==== Sys2Proof/Syntax.lean ====
section
/-! DEFINITION. The instructions: one constructor of `Instr` per row of spec/opcode_table.json, in the table's order
(but for the operand-free `ED 47` to `ED BB` rows, which stand last: Lean's compiler numbers constructors with arguments
up to 244). Every field of an encoding is an argument, the don't-care bits of a mirror too, so that `encode` loses nothing.

The rows of a prefix are constructors as well (log 6). A prefix that selects a table (`prefixCb` to `prefixFdCb`) has
length 0 in the table: its byte is counted in the instruction it begins. A prefix that is superseded or ignored (R124,
R662) is a row of length 1 that names the byte after it, which decides that it is ignored. -/

namespace Sys2Proof

/-- The 8-bit registers of `r[k]`, k ≠ 6 (R130). -/
inductive Reg8 where
  | b
  | c
  | d
  | e
  | h
  | l
  | a
deriving DecidableEq, Repr

/-- A half of an index register (R36): `IXh`/`IYh` or `IXl`/`IYl`. -/
inductive IdxHalf where
  | hi
  | lo
deriving DecidableEq, Repr

/-- The 8-bit registers of `r[k]` under index substitution (R133): `H` and `L` are the index halves. -/
inductive IdxReg8 where
  | b
  | c
  | d
  | e
  | hi
  | lo
  | a
deriving DecidableEq, Repr

/-- The pairs `rp[p]` (R131). -/
inductive Pair where
  | bc
  | de
  | hl
  | sp
deriving DecidableEq, Repr

/-- The pairs `rp2[p]` of `PUSH` and `POP` (R131). -/
inductive PairQ where
  | bc
  | de
  | hl
  | af
deriving DecidableEq, Repr

/-- The pairs `pp` of `ADD IX,pp` (R131): `rp[p]` with HL replaced by the index register. -/
inductive PairP where
  | bc
  | de
  | idx
  | sp
deriving DecidableEq, Repr

/-- The eight conditions (R42). -/
inductive Cond where
  | nz
  | z
  | nc
  | c
  | po
  | pe
  | p
  | m
deriving DecidableEq, Repr

/-- The four conditions of `JR cc,e` (R132). -/
inductive CondJr where
  | nz
  | z
  | nc
  | c
deriving DecidableEq, Repr

/-- The prefix byte that supersedes a `DD` or `FD` before it (R124). -/
inductive NextPrefix where
  | dd
  | ed
  | fd
deriving DecidableEq, Repr

/-- The index register a `DD` or `FD` prefix selects (R133). -/
inductive Idx where
  | ix
  | iy
deriving DecidableEq, Repr

/-- The instructions of spec/opcode_table.json. -/
inductive Instr where
  /-- NOP (R650) -/
  | nop
  /-- EX AF,AF' (R265) -/
  | exAfAf
  /-- DJNZ e (R506) -/
  | djnz (e : Byte)
  /-- JR e (R502) -/
  | jr (e : Byte)
  /-- JR cc,e (R503) -/
  | jrCc (cc : CondJr) (e : Byte)
  /-- LD dd,nn (R250) -/
  | ldDdNn (dd : Pair) (nn : Word)
  /-- ADD HL,ss (R353) -/
  | addHlSs (ss : Pair)
  /-- LD (BC),A (R208) -/
  | ldMemBcA
  /-- LD (DE),A (R209) -/
  | ldMemDeA
  /-- LD (nn),HL (R255) -/
  | ldMemNnHl (nn : Word)
  /-- LD (nn),A (R210) -/
  | ldMemNnA (nn : Word)
  /-- LD A,(BC) (R205) -/
  | ldAMemBc
  /-- LD A,(DE) (R206) -/
  | ldAMemDe
  /-- LD HL,(nn) (R252) -/
  | ldHlMemNn (nn : Word)
  /-- LD A,(nn) (R207) -/
  | ldAMemNn (nn : Word)
  /-- INC ss (R357) -/
  | incSs (ss : Pair)
  /-- DEC ss (R359) -/
  | decSs (ss : Pair)
  /-- INC r (R340) -/
  | incR (r : Reg8)
  /-- INC (HL) (R341) -/
  | incHl
  /-- DEC r (R344) -/
  | decR (r : Reg8)
  /-- DEC (HL) (R345) -/
  | decHl
  /-- LD r,n (R201) -/
  | ldRN (r : Reg8) (n : Byte)
  /-- LD (HL),n (R204) -/
  | ldHlN (n : Byte)
  /-- RLCA (R400) -/
  | rlca
  /-- RRCA (R402) -/
  | rrca
  /-- RLA (R401) -/
  | rla
  /-- RRA (R403) -/
  | rra
  /-- DAA (R348) -/
  | daa
  /-- CPL (R349) -/
  | cpl
  /-- SCF (R352) -/
  | scf
  /-- CCF (R351) -/
  | ccf
  /-- HALT (R651) -/
  | halt
  /-- LD r,r' (R200) -/
  | ldRR (dst : Reg8) (src : Reg8)
  /-- LD r,(HL) (R202) -/
  | ldRHl (dst : Reg8)
  /-- LD (HL),r (R203) -/
  | ldHlR (src : Reg8)
  /-- ADD A,r (R300) -/
  | addAR (r : Reg8)
  /-- ADD A,(HL) (R302) -/
  | addAHl
  /-- ADD A,n (R301) -/
  | addAN (n : Byte)
  /-- ADC A,r (R305) -/
  | adcAR (r : Reg8)
  /-- ADC A,(HL) (R307) -/
  | adcAHl
  /-- ADC A,n (R306) -/
  | adcAN (n : Byte)
  /-- SUB r (R310) -/
  | subR (r : Reg8)
  /-- SUB (HL) (R312) -/
  | subHl
  /-- SUB n (R311) -/
  | subN (n : Byte)
  /-- SBC A,r (R315) -/
  | sbcAR (r : Reg8)
  /-- SBC A,(HL) (R317) -/
  | sbcAHl
  /-- SBC A,n (R316) -/
  | sbcAN (n : Byte)
  /-- AND r (R320) -/
  | andR (r : Reg8)
  /-- AND (HL) (R322) -/
  | andHl
  /-- AND n (R321) -/
  | andN (n : Byte)
  /-- XOR r (R325) -/
  | xorR (r : Reg8)
  /-- XOR (HL) (R327) -/
  | xorHl
  /-- XOR n (R326) -/
  | xorN (n : Byte)
  /-- OR r (R330) -/
  | orR (r : Reg8)
  /-- OR (HL) (R332) -/
  | orHl
  /-- OR n (R331) -/
  | orN (n : Byte)
  /-- CP r (R335) -/
  | cpR (r : Reg8)
  /-- CP (HL) (R337) -/
  | cpHl
  /-- CP n (R336) -/
  | cpN (n : Byte)
  /-- RET cc (R510) -/
  | retCc (cc : Cond)
  /-- POP qq (R262) -/
  | popQq (qq : PairQ)
  /-- RET (R509) -/
  | ret
  /-- EXX (R266) -/
  | exx
  /-- JP (HL) (R504) -/
  | jpHl
  /-- LD SP,HL (R258) -/
  | ldSpHl
  /-- JP cc,nn (R501) -/
  | jpCcNn (cc : Cond) (nn : Word)
  /-- JP nn (R500) -/
  | jpNn (nn : Word)
  /-- OUT (n),A (R603) -/
  | outNA (n : Byte)
  /-- IN A,(n) (R600) -/
  | inAN (n : Byte)
  /-- EX (SP),HL (R267) -/
  | exSpHl
  /-- EX DE,HL (R264) -/
  | exDeHl
  /-- DI (R652) -/
  | di
  /-- EI (R653) -/
  | ei
  /-- CALL cc,nn (R508) -/
  | callCcNn (cc : Cond) (nn : Word)
  /-- PUSH qq (R260) -/
  | pushQq (qq : PairQ)
  /-- CALL nn (R507) -/
  | callNn (nn : Word)
  /-- RST p (R513) -/
  | rst (t : BitVec 3)
  /-- prefix CB (R124) -/
  | prefixCb
  /-- prefix DD (R124) -/
  | prefixDd
  /-- prefix ED (R124) -/
  | prefixEd
  /-- prefix FD (R124) -/
  | prefixFd
  /-- RLC r (R404) -/
  | rlcR (r : Reg8)
  /-- RLC (HL) (R405) -/
  | rlcHl
  /-- RRC r (R408) -/
  | rrcR (r : Reg8)
  /-- RRC (HL) (R409) -/
  | rrcHl
  /-- RL r (R412) -/
  | rlR (r : Reg8)
  /-- RL (HL) (R413) -/
  | rlHl
  /-- RR r (R416) -/
  | rrR (r : Reg8)
  /-- RR (HL) (R417) -/
  | rrHl
  /-- SLA r (R420) -/
  | slaR (r : Reg8)
  /-- SLA (HL) (R421) -/
  | slaHl
  /-- SRA r (R424) -/
  | sraR (r : Reg8)
  /-- SRA (HL) (R425) -/
  | sraHl
  /-- SLL r (R428) -/
  | sllR (r : Reg8)
  /-- SLL (HL) (R429) -/
  | sllHl
  /-- SRL r (R432) -/
  | srlR (r : Reg8)
  /-- SRL (HL) (R433) -/
  | srlHl
  /-- BIT b,r (R450) -/
  | bitBR (b : BitVec 3) (r : Reg8)
  /-- BIT b,(HL) (R451) -/
  | bitBHl (b : BitVec 3)
  /-- RES b,r (R457) -/
  | resBR (b : BitVec 3) (r : Reg8)
  /-- RES b,(HL) (R458) -/
  | resBHl (b : BitVec 3)
  /-- SET b,r (R453) -/
  | setBR (b : BitVec 3) (r : Reg8)
  /-- SET b,(HL) (R454) -/
  | setBHl (b : BitVec 3)
  /-- IN r,(C) (R601) -/
  | inRC (r : Reg8)
  /-- IN (C) (R602) -/
  | inC
  /-- OUT (C),r (R604) -/
  | outCR (r : Reg8)
  /-- OUT (C),0 (R605) -/
  | outC0
  /-- SBC HL,ss (R355) -/
  | sbcHlSs (ss : Pair)
  /-- ADC HL,ss (R354) -/
  | adcHlSs (ss : Pair)
  /-- LD (nn),dd (R256) -/
  | ldMemNnDd (dd : Pair) (nn : Word)
  /-- LD dd,(nn) (R253) -/
  | ldDdMemNn (dd : Pair) (nn : Word)
  /-- NEG (R350) -/
  | neg (y : BitVec 3)
  /-- RETN (R512) -/
  | retn (y : BitVec 3)
  /-- RETI (R511) -/
  | reti
  /-- IM 0 (R654) -/
  | im0 (y5 : BitVec 1) (y3 : BitVec 1)
  /-- IM 1 (R655) -/
  | im1 (y5 : BitVec 1)
  /-- IM 2 (R656) -/
  | im2 (y5 : BitVec 1)
  /-- NONI (ED 00-3F) (R661) -/
  | noni00 (z : BitVec 6)
  /-- NONI (ED C0-FF) (R661) -/
  | noniC0 (z : BitVec 6)
  /-- NONI (ED 80-9F) (R661) -/
  | noni80 (z : BitVec 5)
  /-- NONI (ED A4-A7,AC-AF,B4-B7,BC-BF) (R661) -/
  | noniA4 (hi : BitVec 2) (lo : BitVec 2)
  /-- ADD IX,pp (R356) -/
  | addIxPp (pp : PairP)
  /-- LD IX,nn (R251) -/
  | ldIxNn (nn : Word)
  /-- LD (nn),IX (R257) -/
  | ldMemNnIx (nn : Word)
  /-- INC IX (R358) -/
  | incIx
  /-- DEC IX (R360) -/
  | decIx
  /-- LD IX,(nn) (R254) -/
  | ldIxMemNn (nn : Word)
  /-- INC IXh/IXl (R343) -/
  | incIxHalf (half : IdxHalf)
  /-- DEC IXh/IXl (R347) -/
  | decIxHalf (half : IdxHalf)
  /-- LD IXh/IXl,n (R215) -/
  | ldIxHalfN (half : IdxHalf) (n : Byte)
  /-- INC (IX+d) (R342) -/
  | incIxD (d : Byte)
  /-- DEC (IX+d) (R346) -/
  | decIxD (d : Byte)
  /-- LD (IX+d),n (R213) -/
  | ldIxDN (d : Byte) (n : Byte)
  /-- LD r,(IX+d) (R211) -/
  | ldRIxD (r : Reg8) (d : Byte)
  /-- LD (IX+d),r (R212) -/
  | ldIxDR (d : Byte) (r : Reg8)
  /-- LD r',r'' (IXh/IXl) (R214) -/
  | ldRRIx (dst : IdxReg8) (src : IdxReg8)
  /-- ADD A,IXh/IXl (R304) -/
  | addAIxHalf (half : IdxHalf)
  /-- ADD A,(IX+d) (R303) -/
  | addAIxD (d : Byte)
  /-- ADC A,IXh/IXl (R309) -/
  | adcAIxHalf (half : IdxHalf)
  /-- ADC A,(IX+d) (R308) -/
  | adcAIxD (d : Byte)
  /-- SUB IXh/IXl (R314) -/
  | subIxHalf (half : IdxHalf)
  /-- SUB (IX+d) (R313) -/
  | subIxD (d : Byte)
  /-- SBC A,IXh/IXl (R319) -/
  | sbcAIxHalf (half : IdxHalf)
  /-- SBC A,(IX+d) (R318) -/
  | sbcAIxD (d : Byte)
  /-- AND IXh/IXl (R324) -/
  | andIxHalf (half : IdxHalf)
  /-- AND (IX+d) (R323) -/
  | andIxD (d : Byte)
  /-- XOR IXh/IXl (R329) -/
  | xorIxHalf (half : IdxHalf)
  /-- XOR (IX+d) (R328) -/
  | xorIxD (d : Byte)
  /-- OR IXh/IXl (R334) -/
  | orIxHalf (half : IdxHalf)
  /-- OR (IX+d) (R333) -/
  | orIxD (d : Byte)
  /-- CP IXh/IXl (R339) -/
  | cpIxHalf (half : IdxHalf)
  /-- CP (IX+d) (R338) -/
  | cpIxD (d : Byte)
  /-- POP IX (R263) -/
  | popIx
  /-- EX (SP),IX (R268) -/
  | exSpIx
  /-- PUSH IX (R261) -/
  | pushIx
  /-- JP (IX) (R505) -/
  | jpIx
  /-- LD SP,IX (R259) -/
  | ldSpIx
  /-- prefix DD CB (indexed bit table) (R124) -/
  | prefixDdCb
  /-- prefix DD then DD/ED/FD: DD ignored (R124) -/
  | supersededDd (next : NextPrefix)
  /-- DD ignored, then unprefixed opcode (R662) -/
  | ignoredDd (op : Byte)
  /-- ADD IY,pp (R356) -/
  | addIyPp (pp : PairP)
  /-- LD IY,nn (R251) -/
  | ldIyNn (nn : Word)
  /-- LD (nn),IY (R257) -/
  | ldMemNnIy (nn : Word)
  /-- INC IY (R358) -/
  | incIy
  /-- DEC IY (R360) -/
  | decIy
  /-- LD IY,(nn) (R254) -/
  | ldIyMemNn (nn : Word)
  /-- INC IYh/IYl (R343) -/
  | incIyHalf (half : IdxHalf)
  /-- DEC IYh/IYl (R347) -/
  | decIyHalf (half : IdxHalf)
  /-- LD IYh/IYl,n (R215) -/
  | ldIyHalfN (half : IdxHalf) (n : Byte)
  /-- INC (IY+d) (R342) -/
  | incIyD (d : Byte)
  /-- DEC (IY+d) (R346) -/
  | decIyD (d : Byte)
  /-- LD (IY+d),n (R213) -/
  | ldIyDN (d : Byte) (n : Byte)
  /-- LD r,(IY+d) (R211) -/
  | ldRIyD (r : Reg8) (d : Byte)
  /-- LD (IY+d),r (R212) -/
  | ldIyDR (d : Byte) (r : Reg8)
  /-- LD r',r'' (IYh/IYl) (R214) -/
  | ldRRIy (dst : IdxReg8) (src : IdxReg8)
  /-- ADD A,IYh/IYl (R304) -/
  | addAIyHalf (half : IdxHalf)
  /-- ADD A,(IY+d) (R303) -/
  | addAIyD (d : Byte)
  /-- ADC A,IYh/IYl (R309) -/
  | adcAIyHalf (half : IdxHalf)
  /-- ADC A,(IY+d) (R308) -/
  | adcAIyD (d : Byte)
  /-- SUB IYh/IYl (R314) -/
  | subIyHalf (half : IdxHalf)
  /-- SUB (IY+d) (R313) -/
  | subIyD (d : Byte)
  /-- SBC A,IYh/IYl (R319) -/
  | sbcAIyHalf (half : IdxHalf)
  /-- SBC A,(IY+d) (R318) -/
  | sbcAIyD (d : Byte)
  /-- AND IYh/IYl (R324) -/
  | andIyHalf (half : IdxHalf)
  /-- AND (IY+d) (R323) -/
  | andIyD (d : Byte)
  /-- XOR IYh/IYl (R329) -/
  | xorIyHalf (half : IdxHalf)
  /-- XOR (IY+d) (R328) -/
  | xorIyD (d : Byte)
  /-- OR IYh/IYl (R334) -/
  | orIyHalf (half : IdxHalf)
  /-- OR (IY+d) (R333) -/
  | orIyD (d : Byte)
  /-- CP IYh/IYl (R339) -/
  | cpIyHalf (half : IdxHalf)
  /-- CP (IY+d) (R338) -/
  | cpIyD (d : Byte)
  /-- POP IY (R263) -/
  | popIy
  /-- EX (SP),IY (R268) -/
  | exSpIy
  /-- PUSH IY (R261) -/
  | pushIy
  /-- JP (IY) (R505) -/
  | jpIy
  /-- LD SP,IY (R259) -/
  | ldSpIy
  /-- prefix FD CB (indexed bit table) (R124) -/
  | prefixFdCb
  /-- prefix FD then DD/ED/FD: FD ignored (R124) -/
  | supersededFd (next : NextPrefix)
  /-- FD ignored, then unprefixed opcode (R662) -/
  | ignoredFd (op : Byte)
  /-- RLC (IX+d) (R406) -/
  | rlcIxD (d : Byte)
  /-- LD r,RLC (IX+d) (R407) -/
  | ldRRlcIxD (r : Reg8) (d : Byte)
  /-- RRC (IX+d) (R410) -/
  | rrcIxD (d : Byte)
  /-- LD r,RRC (IX+d) (R411) -/
  | ldRRrcIxD (r : Reg8) (d : Byte)
  /-- RL (IX+d) (R414) -/
  | rlIxD (d : Byte)
  /-- LD r,RL (IX+d) (R415) -/
  | ldRRlIxD (r : Reg8) (d : Byte)
  /-- RR (IX+d) (R418) -/
  | rrIxD (d : Byte)
  /-- LD r,RR (IX+d) (R419) -/
  | ldRRrIxD (r : Reg8) (d : Byte)
  /-- SLA (IX+d) (R422) -/
  | slaIxD (d : Byte)
  /-- LD r,SLA (IX+d) (R423) -/
  | ldRSlaIxD (r : Reg8) (d : Byte)
  /-- SRA (IX+d) (R426) -/
  | sraIxD (d : Byte)
  /-- LD r,SRA (IX+d) (R427) -/
  | ldRSraIxD (r : Reg8) (d : Byte)
  /-- SLL (IX+d) (R430) -/
  | sllIxD (d : Byte)
  /-- LD r,SLL (IX+d) (R431) -/
  | ldRSllIxD (r : Reg8) (d : Byte)
  /-- SRL (IX+d) (R434) -/
  | srlIxD (d : Byte)
  /-- LD r,SRL (IX+d) (R435) -/
  | ldRSrlIxD (r : Reg8) (d : Byte)
  /-- BIT b,(IX+d) (R452) -/
  | bitBIxD (b : BitVec 3) (z : BitVec 3) (d : Byte)
  /-- RES b,(IX+d) (R459) -/
  | resBIxD (b : BitVec 3) (d : Byte)
  /-- LD r,RES b,(IX+d) (R460) -/
  | ldRResBIxD (r : Reg8) (b : BitVec 3) (d : Byte)
  /-- SET b,(IX+d) (R455) -/
  | setBIxD (b : BitVec 3) (d : Byte)
  /-- LD r,SET b,(IX+d) (R456) -/
  | ldRSetBIxD (r : Reg8) (b : BitVec 3) (d : Byte)
  /-- RLC (IY+d) (R406) -/
  | rlcIyD (d : Byte)
  /-- LD r,RLC (IY+d) (R407) -/
  | ldRRlcIyD (r : Reg8) (d : Byte)
  /-- RRC (IY+d) (R410) -/
  | rrcIyD (d : Byte)
  /-- LD r,RRC (IY+d) (R411) -/
  | ldRRrcIyD (r : Reg8) (d : Byte)
  /-- RL (IY+d) (R414) -/
  | rlIyD (d : Byte)
  /-- LD r,RL (IY+d) (R415) -/
  | ldRRlIyD (r : Reg8) (d : Byte)
  /-- RR (IY+d) (R418) -/
  | rrIyD (d : Byte)
  /-- LD r,RR (IY+d) (R419) -/
  | ldRRrIyD (r : Reg8) (d : Byte)
  /-- SLA (IY+d) (R422) -/
  | slaIyD (d : Byte)
  /-- LD r,SLA (IY+d) (R423) -/
  | ldRSlaIyD (r : Reg8) (d : Byte)
  /-- SRA (IY+d) (R426) -/
  | sraIyD (d : Byte)
  /-- LD r,SRA (IY+d) (R427) -/
  | ldRSraIyD (r : Reg8) (d : Byte)
  /-- SLL (IY+d) (R430) -/
  | sllIyD (d : Byte)
  /-- LD r,SLL (IY+d) (R431) -/
  | ldRSllIyD (r : Reg8) (d : Byte)
  /-- SRL (IY+d) (R434) -/
  | srlIyD (d : Byte)
  /-- LD r,SRL (IY+d) (R435) -/
  | ldRSrlIyD (r : Reg8) (d : Byte)
  /-- BIT b,(IY+d) (R452) -/
  | bitBIyD (b : BitVec 3) (z : BitVec 3) (d : Byte)
  /-- RES b,(IY+d) (R459) -/
  | resBIyD (b : BitVec 3) (d : Byte)
  /-- LD r,RES b,(IY+d) (R460) -/
  | ldRResBIyD (r : Reg8) (b : BitVec 3) (d : Byte)
  /-- SET b,(IY+d) (R455) -/
  | setBIyD (b : BitVec 3) (d : Byte)
  /-- LD r,SET b,(IY+d) (R456) -/
  | ldRSetBIyD (r : Reg8) (b : BitVec 3) (d : Byte)
  /-- LD I,A (R659) -/
  | ldIA
  /-- LD R,A (R660) -/
  | ldRA
  /-- LD A,I (R657) -/
  | ldAI
  /-- LD A,R (R658) -/
  | ldAR
  /-- RRD (R437) -/
  | rrd
  /-- RLD (R436) -/
  | rld
  /-- NONI (ED 77) (R661) -/
  | noni77
  /-- NONI (ED 7F) (R661) -/
  | noni7F
  /-- LDI (R550) -/
  | ldi
  /-- CPI (R554) -/
  | cpi
  /-- INI (R558) -/
  | ini
  /-- OUTI (R562) -/
  | outi
  /-- LDD (R552) -/
  | ldd
  /-- CPD (R556) -/
  | cpd
  /-- IND (R560) -/
  | ind
  /-- OUTD (R564) -/
  | outd
  /-- LDIR (R551) -/
  | ldir
  /-- CPIR (R555) -/
  | cpir
  /-- INIR (R559) -/
  | inir
  /-- OTIR (R563) -/
  | otir
  /-- LDDR (R553) -/
  | lddr
  /-- CPDR (R557) -/
  | cpdr
  /-- INDR (R561) -/
  | indr
  /-- OTDR (R565) -/
  | otdr
deriving DecidableEq, Repr

end Sys2Proof
end

