-- ==== Sys2Proof/WellFormed.lean ====
section
/-! DEFINITION. The checks an instruction must pass beyond its type: what the encodings of rules R129, R145, R146 and
R214 ask of the fields of a row. -/

namespace Sys2Proof

/-- The register is an index-register half. -/
def IdxReg8.isHalf : IdxReg8 → Bool
  | .hi => true
  | .lo => true
  | _ => false

/-- The main-table opcodes whose meaning a `DD` or `FD` prefix changes (R129), `CB` among them. -/
def affectedByIndex (op : Byte) : Bool :=
  let y := op.extractLsb' 3 3
  let z := op.extractLsb' 0 3
  -- the HL-pair forms, then the H/L forms, then the (HL) forms, then CB
  [0x09#8, 0x19#8, 0x29#8, 0x39#8, 0x21#8, 0x22#8, 0x23#8, 0x2A#8, 0x2B#8,
    0xE1#8, 0xE3#8, 0xE5#8, 0xE9#8, 0xF9#8].contains op
  || [0x24#8, 0x25#8, 0x26#8, 0x2C#8, 0x2D#8, 0x2E#8].contains op
  || [0x34#8, 0x35#8, 0x36#8].contains op
  || (op.extractLsb' 6 2 == 1#2 && op != 0x76#8 && ([4#3, 5#3, 6#3].contains y || [4#3, 5#3, 6#3].contains z))
  || (op.extractLsb' 6 2 == 2#2 && [4#3, 5#3, 6#3].contains z)
  || op == 0xCB#8

/-- A `DD` or `FD` before this opcode is ignored (R662): the opcode is not affected and is no prefix. -/
def ignoresIndex (op : Byte) : Bool :=
  !affectedByIndex op && !([0xDD#8, 0xED#8, 0xFD#8].contains op)

/-- The well-formed instructions: those that stand for a cell of the opcode tables. -/
def Instr.wf : Instr → Bool
  | .ldRRIx dst src => dst.isHalf || src.isHalf  -- R214: y or z in 4..5
  | .ldRRIy dst src => dst.isHalf || src.isHalf
  | .retn y => y != 1#3                          -- R145: y = 1 is RETI
  | .ignoredDd op => ignoresIndex op             -- R662
  | .ignoredFd op => ignoresIndex op
  | _ => true

end Sys2Proof
end

