-- ==== Sys2Proof/Decode.lean ====
section
/-! DEFINITION. The decoder (R120 to R148): total on any byte window, table by table as the spec lays the tables out;
and after it the encoder, written from the encodings of the instruction rules. -/

namespace Sys2Proof

/-! ### Bytes and fields -/

/-- `hi : lo`, the concatenation of two bytes (R14). -/
def wordOf (hi lo : Byte) : Word := hi ++ lo

/-- Bits 15 to 8 of a word. -/
def hiByte (w : Word) : Byte := w.extractLsb' 8 8

/-- Bits 7 to 0 of a word. -/
def loByte (w : Word) : Byte := w.extractLsb' 0 8

/-- The field `x = b[7:6]` (R122). -/
def fx (op : Byte) : BitVec 2 := op.extractLsb' 6 2

/-- The field `y = b[5:3]` (R122). -/
def fy (op : Byte) : BitVec 3 := op.extractLsb' 3 3

/-- The field `z = b[2:0]` (R122). -/
def fz (op : Byte) : BitVec 3 := op.extractLsb' 0 3

/-- The field `p = b[5:4]` (R122). -/
def fp (op : Byte) : BitVec 2 := op.extractLsb' 4 2

/-- The field `q = b[3]` (R122). -/
def fq (op : Byte) : BitVec 1 := op.extractLsb' 3 1

/-! ### Operand tables -/

/-- `r[k]` (R130); `none` for k = 6, the memory operand `(HL)`. -/
def Reg8.ofCode (k : BitVec 3) : Option Reg8 :=
  match k with
  | 0#3 => some .b
  | 1#3 => some .c
  | 2#3 => some .d
  | 3#3 => some .e
  | 4#3 => some .h
  | 5#3 => some .l
  | 6#3 => none
  | _ => some .a

/-- `r[k]` under index substitution (R133); `none` for k = 6. -/
def IdxReg8.ofCode (k : BitVec 3) : Option IdxReg8 :=
  match k with
  | 0#3 => some .b
  | 1#3 => some .c
  | 2#3 => some .d
  | 3#3 => some .e
  | 4#3 => some .hi
  | 5#3 => some .lo
  | 6#3 => none
  | _ => some .a

/-- `rp[p]` (R131). -/
def Pair.ofCode (p : BitVec 2) : Pair :=
  match p with
  | 0#2 => .bc
  | 1#2 => .de
  | 2#2 => .hl
  | _ => .sp

/-- `rp2[p]` (R131). -/
def PairQ.ofCode (p : BitVec 2) : PairQ :=
  match p with
  | 0#2 => .bc
  | 1#2 => .de
  | 2#2 => .hl
  | _ => .af

/-- `pp` of `ADD IX,pp` (R131). -/
def PairP.ofCode (p : BitVec 2) : PairP :=
  match p with
  | 0#2 => .bc
  | 1#2 => .de
  | 2#2 => .idx
  | _ => .sp

/-- `cc[y]` (R42, R132). -/
def Cond.ofCode (y : BitVec 3) : Cond :=
  match y with
  | 0#3 => .nz
  | 1#3 => .z
  | 2#3 => .nc
  | 3#3 => .c
  | 4#3 => .po
  | 5#3 => .pe
  | 6#3 => .p
  | _ => .m

/-- `cc[y-4]` of `JR cc,e` (R132), from its two low bits. -/
def CondJr.ofCode (k : BitVec 2) : CondJr :=
  match k with
  | 0#2 => .nz
  | 1#2 => .z
  | 2#2 => .nc
  | _ => .c

/-! ### The unprefixed table -/

/-- `alu[y] r` (R135, R142). -/
def aluR (y : BitVec 3) (r : Reg8) : Instr :=
  match y with
  | 0#3 => .addAR r
  | 1#3 => .adcAR r
  | 2#3 => .subR r
  | 3#3 => .sbcAR r
  | 4#3 => .andR r
  | 5#3 => .xorR r
  | 6#3 => .orR r
  | _ => .cpR r

/-- `alu[y] (HL)` (R135, R142). -/
def aluHl (y : BitVec 3)  : Instr :=
  match y with
  | 0#3 => .addAHl
  | 1#3 => .adcAHl
  | 2#3 => .subHl
  | 3#3 => .sbcAHl
  | 4#3 => .andHl
  | 5#3 => .xorHl
  | 6#3 => .orHl
  | _ => .cpHl

/-- `alu[y] n` (R135, R143). -/
def aluN (y : BitVec 3) (n : Byte) : Instr :=
  match y with
  | 0#3 => .addAN n
  | 1#3 => .adcAN n
  | 2#3 => .subN n
  | 3#3 => .sbcAN n
  | 4#3 => .andN n
  | 5#3 => .xorN n
  | 6#3 => .orN n
  | _ => .cpN n

/-- The unprefixed table, x = 0 (R140). -/
def decodeMain0 (op b1 b2 : Byte) : Instr :=
  match fz op with
  | 0#3 =>
    match fy op with
    | 0#3 => .nop
    | 1#3 => .exAfAf
    | 2#3 => .djnz b1
    | 3#3 => .jr b1
    | _ => .jrCc (CondJr.ofCode (op.extractLsb' 3 2)) b1
  | 1#3 =>
    match fq op with
    | 0#1 => .ldDdNn (Pair.ofCode (fp op)) (wordOf b2 b1)
    | _ => .addHlSs (Pair.ofCode (fp op))
  | 2#3 =>
    match fq op, fp op with
    | 0#1, 0#2 => .ldMemBcA
    | 0#1, 1#2 => .ldMemDeA
    | 0#1, 2#2 => .ldMemNnHl (wordOf b2 b1)
    | 0#1, _ => .ldMemNnA (wordOf b2 b1)
    | _, 0#2 => .ldAMemBc
    | _, 1#2 => .ldAMemDe
    | _, 2#2 => .ldHlMemNn (wordOf b2 b1)
    | _, _ => .ldAMemNn (wordOf b2 b1)
  | 3#3 =>
    match fq op with
    | 0#1 => .incSs (Pair.ofCode (fp op))
    | _ => .decSs (Pair.ofCode (fp op))
  | 4#3 =>
    match Reg8.ofCode (fy op) with
    | some r => .incR r
    | none => .incHl
  | 5#3 =>
    match Reg8.ofCode (fy op) with
    | some r => .decR r
    | none => .decHl
  | 6#3 =>
    match Reg8.ofCode (fy op) with
    | some r => .ldRN r b1
    | none => .ldHlN b1
  | _ =>
    match fy op with
    | 0#3 => .rlca
    | 1#3 => .rrca
    | 2#3 => .rla
    | 3#3 => .rra
    | 4#3 => .daa
    | 5#3 => .cpl
    | 6#3 => .scf
    | _ => .ccf

/-- The unprefixed table, x = 1 (R141). -/
def decodeMain1 (op : Byte) : Instr :=
  match Reg8.ofCode (fy op), Reg8.ofCode (fz op) with
  | some dst, some src => .ldRR dst src
  | some dst, none => .ldRHl dst
  | none, some src => .ldHlR src
  | none, none => .halt

/-- The unprefixed table, x = 2 (R142). -/
def decodeMain2 (op : Byte) : Instr :=
  match Reg8.ofCode (fz op) with
  | some r => aluR (fy op) r
  | none => aluHl (fy op)

/-- The unprefixed table, x = 3 (R143). The four prefix cells decode to their own rows. -/
def decodeMain3 (op b1 b2 : Byte) : Instr :=
  match fz op with
  | 0#3 => .retCc (Cond.ofCode (fy op))
  | 1#3 =>
    match fq op, fp op with
    | 0#1, p => .popQq (PairQ.ofCode p)
    | _, 0#2 => .ret
    | _, 1#2 => .exx
    | _, 2#2 => .jpHl
    | _, _ => .ldSpHl
  | 2#3 => .jpCcNn (Cond.ofCode (fy op)) (wordOf b2 b1)
  | 3#3 =>
    match fy op with
    | 0#3 => .jpNn (wordOf b2 b1)
    | 1#3 => .prefixCb
    | 2#3 => .outNA b1
    | 3#3 => .inAN b1
    | 4#3 => .exSpHl
    | 5#3 => .exDeHl
    | 6#3 => .di
    | _ => .ei
  | 4#3 => .callCcNn (Cond.ofCode (fy op)) (wordOf b2 b1)
  | 5#3 =>
    match fq op, fp op with
    | 0#1, p => .pushQq (PairQ.ofCode p)
    | _, 0#2 => .callNn (wordOf b2 b1)
    | _, 1#2 => .prefixDd
    | _, 2#2 => .prefixEd
    | _, _ => .prefixFd
  | 6#3 => aluN (fy op) b1
  | _ => .rst (fy op)

/-- The unprefixed table. `b1` and `b2` are the bytes after the opcode; `nn` has its low byte first (R128). -/
def decodeMain (op b1 b2 : Byte) : Instr :=
  match fx op with
  | 0#2 => decodeMain0 op b1 b2
  | 1#2 => decodeMain1 op
  | 2#2 => decodeMain2 op
  | _ => decodeMain3 op b1 b2

/-! ### The CB table -/

/-- `rot[y] r` (R136, R144). -/
def rotR (y : BitVec 3) (r : Reg8) : Instr :=
  match y with
  | 0#3 => .rlcR r
  | 1#3 => .rrcR r
  | 2#3 => .rlR r
  | 3#3 => .rrR r
  | 4#3 => .slaR r
  | 5#3 => .sraR r
  | 6#3 => .sllR r
  | _ => .srlR r

/-- `rot[y] (HL)` (R136, R144). -/
def rotHl (y : BitVec 3) : Instr :=
  match y with
  | 0#3 => .rlcHl
  | 1#3 => .rrcHl
  | 2#3 => .rlHl
  | 3#3 => .rrHl
  | 4#3 => .slaHl
  | 5#3 => .sraHl
  | 6#3 => .sllHl
  | _ => .srlHl

/-- The `CB` table (R144). -/
def decodeCb (op : Byte) : Instr :=
  match fx op, Reg8.ofCode (fz op) with
  | 0#2, some r => rotR (fy op) r
  | 0#2, none => rotHl (fy op)
  | 1#2, some r => .bitBR (fy op) r
  | 1#2, none => .bitBHl (fy op)
  | 2#2, some r => .resBR (fy op) r
  | 2#2, none => .resBHl (fy op)
  | _, some r => .setBR (fy op) r
  | _, none => .setBHl (fy op)

/-! ### The ED table -/

/-- The block instructions `bli[y,z]`, y ≥ 4 and z ≤ 3 (R138). -/
def blockOf (y z : BitVec 3) : Instr :=
  match y, z with
  | 4#3, 0#3 => .ldi
  | 4#3, 1#3 => .cpi
  | 4#3, 2#3 => .ini
  | 4#3, _ => .outi
  | 5#3, 0#3 => .ldd
  | 5#3, 1#3 => .cpd
  | 5#3, 2#3 => .ind
  | 5#3, _ => .outd
  | 6#3, 0#3 => .ldir
  | 6#3, 1#3 => .cpir
  | 6#3, 2#3 => .inir
  | 6#3, _ => .otir
  | _, 0#3 => .lddr
  | _, 1#3 => .cpdr
  | _, 2#3 => .indr
  | _, _ => .otdr

/-- The `ED` table, x = 1 (R145); the mirrors keep their don't-care bits. -/
def decodeEd1 (op b1 b2 : Byte) : Instr :=
  match fz op with
  | 0#3 =>
    match Reg8.ofCode (fy op) with
    | some r => .inRC r
    | none => .inC
  | 1#3 =>
    match Reg8.ofCode (fy op) with
    | some r => .outCR r
    | none => .outC0
  | 2#3 =>
    match fq op with
    | 0#1 => .sbcHlSs (Pair.ofCode (fp op))
    | _ => .adcHlSs (Pair.ofCode (fp op))
  | 3#3 =>
    match fq op with
    | 0#1 => .ldMemNnDd (Pair.ofCode (fp op)) (wordOf b2 b1)
    | _ => .ldDdMemNn (Pair.ofCode (fp op)) (wordOf b2 b1)
  | 4#3 => .neg (fy op)
  | 5#3 => if fy op = 1#3 then .reti else .retn (fy op)
  | 6#3 =>
    -- im[y] (R137): bit 4 clear is mode 0; with bit 4 set, bit 3 chooses between modes 1 and 2
    match op.extractLsb' 4 1, fq op with
    | 0#1, y3 => .im0 (op.extractLsb' 5 1) y3
    | _, 0#1 => .im1 (op.extractLsb' 5 1)
    | _, _ => .im2 (op.extractLsb' 5 1)
  | _ =>
    match fy op with
    | 0#3 => .ldIA
    | 1#3 => .ldRA
    | 2#3 => .ldAI
    | 3#3 => .ldAR
    | 4#3 => .rrd
    | 5#3 => .rld
    | 6#3 => .noni77
    | _ => .noni7F

/-- The `ED` table (R145), its holes included (R148). -/
def decodeEd (op b1 b2 : Byte) : Instr :=
  match fx op with
  | 0#2 => .noni00 (op.extractLsb' 0 6)
  | 1#2 => decodeEd1 op b1 b2
  | 2#2 =>
    if op.extractLsb' 5 1 = 0#1 then .noni80 (op.extractLsb' 0 5)
    else if op.extractLsb' 2 1 = 1#1 then .noniA4 (op.extractLsb' 3 2) (op.extractLsb' 0 2)
    else blockOf (fy op) (fz op)
  | _ => .noniC0 (op.extractLsb' 0 6)

/-! ### The DD and FD tables -/

/-- `alu[y]` on a half of IX (R146). -/
def aluIxHalf (y : BitVec 3) (half : IdxHalf) : Instr :=
  match y with
  | 0#3 => .addAIxHalf half
  | 1#3 => .adcAIxHalf half
  | 2#3 => .subIxHalf half
  | 3#3 => .sbcAIxHalf half
  | 4#3 => .andIxHalf half
  | 5#3 => .xorIxHalf half
  | 6#3 => .orIxHalf half
  | _ => .cpIxHalf half

/-- `alu[y] (IX+d)` (R146). -/
def aluIxD (y : BitVec 3) (d : Byte) : Instr :=
  match y with
  | 0#3 => .addAIxD d
  | 1#3 => .adcAIxD d
  | 2#3 => .subIxD d
  | 3#3 => .sbcAIxD d
  | 4#3 => .andIxD d
  | 5#3 => .xorIxD d
  | 6#3 => .orIxD d
  | _ => .cpIxD d

/-- The choice among `r[y]` for y = 4, 5 (a half), y = 6 (the indexed byte) and the other y (R146). -/
def decodeHalfOr (y : BitVec 3) (half : IdxHalf → Instr) (indexed ignored : Instr) : Instr :=
  match y with
  | 4#3 => half .hi
  | 5#3 => half .lo
  | 6#3 => indexed
  | _ => ignored

/-- The `DD` table (R146): the affected opcodes with index substitution, a prefix that supersedes this one, the
`DD CB` table, and for every other opcode the ignored prefix. -/
def decodeDd (op b1 b2 : Byte) : Instr :=
  match fx op with
  | 0#2 =>
    match fz op, fq op with
    | 1#3, 0#1 => if fp op = 2#2 then .ldIxNn (wordOf b2 b1) else .ignoredDd op
    | 1#3, _ => .addIxPp (PairP.ofCode (fp op))
    | 2#3, 0#1 => if fp op = 2#2 then .ldMemNnIx (wordOf b2 b1) else .ignoredDd op
    | 2#3, _ => if fp op = 2#2 then .ldIxMemNn (wordOf b2 b1) else .ignoredDd op
    | 3#3, 0#1 => if fp op = 2#2 then .incIx else .ignoredDd op
    | 3#3, _ => if fp op = 2#2 then .decIx else .ignoredDd op
    | 4#3, _ => decodeHalfOr (fy op) .incIxHalf (.incIxD b1) (.ignoredDd op)
    | 5#3, _ => decodeHalfOr (fy op) .decIxHalf (.decIxD b1) (.ignoredDd op)
    | 6#3, _ => decodeHalfOr (fy op) (.ldIxHalfN · b1) (.ldIxDN b1 b2) (.ignoredDd op)
    | _, _ => .ignoredDd op
  | 1#2 =>
    match IdxReg8.ofCode (fy op), IdxReg8.ofCode (fz op) with
    | some dst, some src => if dst.isHalf || src.isHalf then .ldRRIx dst src else .ignoredDd op
    | some _, none =>
      match Reg8.ofCode (fy op) with
      | some r => .ldRIxD r b1
      | none => .ignoredDd op
    | none, some _ =>
      match Reg8.ofCode (fz op) with
      | some r => .ldIxDR b1 r
      | none => .ignoredDd op
    | none, none => .ignoredDd op
  | 2#2 =>
    match fz op with
    | 4#3 => aluIxHalf (fy op) .hi
    | 5#3 => aluIxHalf (fy op) .lo
    | 6#3 => aluIxD (fy op) b1
    | _ => .ignoredDd op
  | _ =>
    if op = 0xCB#8 then .prefixDdCb
    else if op = 0xDD#8 then .supersededDd .dd
    else if op = 0xED#8 then .supersededDd .ed
    else if op = 0xFD#8 then .supersededDd .fd
    else if op = 0xE1#8 then .popIx
    else if op = 0xE3#8 then .exSpIx
    else if op = 0xE5#8 then .pushIx
    else if op = 0xE9#8 then .jpIx
    else if op = 0xF9#8 then .ldSpIx
    else .ignoredDd op

/-- `rot[y] (IX+d)` (R147). -/
def rotIxD (y : BitVec 3) (d : Byte) : Instr :=
  match y with
  | 0#3 => .rlcIxD d
  | 1#3 => .rrcIxD d
  | 2#3 => .rlIxD d
  | 3#3 => .rrIxD d
  | 4#3 => .slaIxD d
  | 5#3 => .sraIxD d
  | 6#3 => .sllIxD d
  | _ => .srlIxD d

/-- `LD r,rot[y] (IX+d)` (R147). -/
def rotIxDCopy (y : BitVec 3) (r : Reg8) (d : Byte) : Instr :=
  match y with
  | 0#3 => .ldRRlcIxD r d
  | 1#3 => .ldRRrcIxD r d
  | 2#3 => .ldRRlIxD r d
  | 3#3 => .ldRRrIxD r d
  | 4#3 => .ldRSlaIxD r d
  | 5#3 => .ldRSraIxD r d
  | 6#3 => .ldRSllIxD r d
  | _ => .ldRSrlIxD r d

/-- The `DD CB d op` table (R147): the operand is the indexed byte, and `z` ≠ 6 names the plain register that also
receives the result. -/
def decodeDdCb (d op : Byte) : Instr :=
  match fx op, Reg8.ofCode (fz op) with
  | 0#2, none => rotIxD (fy op) d
  | 0#2, some r => rotIxDCopy (fy op) r d
  | 1#2, _ => .bitBIxD (fy op) (fz op) d
  | 2#2, none => .resBIxD (fy op) d
  | 2#2, some r => .ldRResBIxD r (fy op) d
  | _, none => .setBIxD (fy op) d
  | _, some r => .ldRSetBIxD r (fy op) d

/-- `alu[y]` on a half of IY (R146). -/
def aluIyHalf (y : BitVec 3) (half : IdxHalf) : Instr :=
  match y with
  | 0#3 => .addAIyHalf half
  | 1#3 => .adcAIyHalf half
  | 2#3 => .subIyHalf half
  | 3#3 => .sbcAIyHalf half
  | 4#3 => .andIyHalf half
  | 5#3 => .xorIyHalf half
  | 6#3 => .orIyHalf half
  | _ => .cpIyHalf half

/-- `alu[y] (IY+d)` (R146). -/
def aluIyD (y : BitVec 3) (d : Byte) : Instr :=
  match y with
  | 0#3 => .addAIyD d
  | 1#3 => .adcAIyD d
  | 2#3 => .subIyD d
  | 3#3 => .sbcAIyD d
  | 4#3 => .andIyD d
  | 5#3 => .xorIyD d
  | 6#3 => .orIyD d
  | _ => .cpIyD d

/-- The `FD` table (R146): the affected opcodes with index substitution, a prefix that supersedes this one, the
`FD CB` table, and for every other opcode the ignored prefix. -/
def decodeFd (op b1 b2 : Byte) : Instr :=
  match fx op with
  | 0#2 =>
    match fz op, fq op with
    | 1#3, 0#1 => if fp op = 2#2 then .ldIyNn (wordOf b2 b1) else .ignoredFd op
    | 1#3, _ => .addIyPp (PairP.ofCode (fp op))
    | 2#3, 0#1 => if fp op = 2#2 then .ldMemNnIy (wordOf b2 b1) else .ignoredFd op
    | 2#3, _ => if fp op = 2#2 then .ldIyMemNn (wordOf b2 b1) else .ignoredFd op
    | 3#3, 0#1 => if fp op = 2#2 then .incIy else .ignoredFd op
    | 3#3, _ => if fp op = 2#2 then .decIy else .ignoredFd op
    | 4#3, _ => decodeHalfOr (fy op) .incIyHalf (.incIyD b1) (.ignoredFd op)
    | 5#3, _ => decodeHalfOr (fy op) .decIyHalf (.decIyD b1) (.ignoredFd op)
    | 6#3, _ => decodeHalfOr (fy op) (.ldIyHalfN · b1) (.ldIyDN b1 b2) (.ignoredFd op)
    | _, _ => .ignoredFd op
  | 1#2 =>
    match IdxReg8.ofCode (fy op), IdxReg8.ofCode (fz op) with
    | some dst, some src => if dst.isHalf || src.isHalf then .ldRRIy dst src else .ignoredFd op
    | some _, none =>
      match Reg8.ofCode (fy op) with
      | some r => .ldRIyD r b1
      | none => .ignoredFd op
    | none, some _ =>
      match Reg8.ofCode (fz op) with
      | some r => .ldIyDR b1 r
      | none => .ignoredFd op
    | none, none => .ignoredFd op
  | 2#2 =>
    match fz op with
    | 4#3 => aluIyHalf (fy op) .hi
    | 5#3 => aluIyHalf (fy op) .lo
    | 6#3 => aluIyD (fy op) b1
    | _ => .ignoredFd op
  | _ =>
    if op = 0xCB#8 then .prefixFdCb
    else if op = 0xDD#8 then .supersededFd .dd
    else if op = 0xED#8 then .supersededFd .ed
    else if op = 0xFD#8 then .supersededFd .fd
    else if op = 0xE1#8 then .popIy
    else if op = 0xE3#8 then .exSpIy
    else if op = 0xE5#8 then .pushIy
    else if op = 0xE9#8 then .jpIy
    else if op = 0xF9#8 then .ldSpIy
    else .ignoredFd op

/-- `rot[y] (IY+d)` (R147). -/
def rotIyD (y : BitVec 3) (d : Byte) : Instr :=
  match y with
  | 0#3 => .rlcIyD d
  | 1#3 => .rrcIyD d
  | 2#3 => .rlIyD d
  | 3#3 => .rrIyD d
  | 4#3 => .slaIyD d
  | 5#3 => .sraIyD d
  | 6#3 => .sllIyD d
  | _ => .srlIyD d

/-- `LD r,rot[y] (IY+d)` (R147). -/
def rotIyDCopy (y : BitVec 3) (r : Reg8) (d : Byte) : Instr :=
  match y with
  | 0#3 => .ldRRlcIyD r d
  | 1#3 => .ldRRrcIyD r d
  | 2#3 => .ldRRlIyD r d
  | 3#3 => .ldRRrIyD r d
  | 4#3 => .ldRSlaIyD r d
  | 5#3 => .ldRSraIyD r d
  | 6#3 => .ldRSllIyD r d
  | _ => .ldRSrlIyD r d

/-- The `FD CB d op` table (R147): the operand is the indexed byte, and `z` ≠ 6 names the plain register that also
receives the result. -/
def decodeFdCb (d op : Byte) : Instr :=
  match fx op, Reg8.ofCode (fz op) with
  | 0#2, none => rotIyD (fy op) d
  | 0#2, some r => rotIyDCopy (fy op) r d
  | 1#2, _ => .bitBIyD (fy op) (fz op) d
  | 2#2, none => .resBIyD (fy op) d
  | 2#2, some r => .ldRResBIyD r (fy op) d
  | _, none => .setBIyD (fy op) d
  | _, some r => .ldRSetBIyD r (fy op) d

/-! ### Prefix resolution -/

/-- What a byte window decodes to: the table-selecting prefix rows passed through, then the row they lead to, which is
an instruction or a superseded or ignored prefix. -/
structure Decoded where
  path : List Instr
  instr : Instr
deriving DecidableEq, Repr

/-- One turn of the prefix resolution algorithm (R124) on the four bytes at PC, the longest an instruction takes
(R120). `CB` and `ED` end prefix resolution. A `DD` or `FD` that turns out superseded or ignored is a row by itself:
the step consumes it and decodes again at the next byte. -/
def decodeWindow (b0 b1 b2 b3 : Byte) : Decoded :=
  if b0 = 0xCB#8 then ⟨[.prefixCb], decodeCb b1⟩
  else if b0 = 0xED#8 then ⟨[.prefixEd], decodeEd b1 b2 b3⟩
  else if b0 = 0xDD#8 then
    if b1 = 0xCB#8 then ⟨[.prefixDd, .prefixDdCb], decodeDdCb b2 b3⟩ else ⟨[.prefixDd], decodeDd b1 b2 b3⟩
  else if b0 = 0xFD#8 then
    if b1 = 0xCB#8 then ⟨[.prefixFd, .prefixFdCb], decodeFdCb b2 b3⟩ else ⟨[.prefixFd], decodeFd b1 b2 b3⟩
  else ⟨[], decodeMain b0 b1 b2⟩

/-- A decoder rejects only a stream that ends before the four bytes it looks at. -/
inductive DecodeError where
  | streamEnds
deriving DecidableEq, Repr

/-- The decoder on a byte stream. Every four bytes decode (R148). -/
def decode : List Byte → Except DecodeError Decoded
  | b0 :: b1 :: b2 :: b3 :: _ => .ok (decodeWindow b0 b1 b2 b3)
  | _ => .error .streamEnds

/-! ### The encoder -/

/-- The index of a register in `r[k]` (R130). -/
def Reg8.code : Reg8 → BitVec 3
  | .b => 0
  | .c => 1
  | .d => 2
  | .e => 3
  | .h => 4
  | .l => 5
  | .a => 7

/-- The index of a register in `r[k]` under index substitution (R133). -/
def IdxReg8.code : IdxReg8 → BitVec 3
  | .b => 0
  | .c => 1
  | .d => 2
  | .e => 3
  | .hi => 4
  | .lo => 5
  | .a => 7

/-- The index of a half in `r[k]` (R133): `h` is 4, `l` is 5. -/
def IdxHalf.code : IdxHalf → BitVec 3
  | .hi => 4
  | .lo => 5

/-- The index of a pair in `rp[p]` (R131). -/
def Pair.code : Pair → BitVec 2
  | .bc => 0
  | .de => 1
  | .hl => 2
  | .sp => 3

/-- The index of a pair in `rp2[p]` (R131). -/
def PairQ.code : PairQ → BitVec 2
  | .bc => 0
  | .de => 1
  | .hl => 2
  | .af => 3

/-- The index of a pair in `pp` (R131). -/
def PairP.code : PairP → BitVec 2
  | .bc => 0
  | .de => 1
  | .idx => 2
  | .sp => 3

/-- The code of a condition (R42). -/
def Cond.code : Cond → BitVec 3
  | .nz => 0
  | .z => 1
  | .nc => 2
  | .c => 3
  | .po => 4
  | .pe => 5
  | .p => 6
  | .m => 7

/-- The code of a `JR` condition (R132). -/
def CondJr.code : CondJr → BitVec 2
  | .nz => 0
  | .z => 1
  | .nc => 2
  | .c => 3

/-- The prefix byte (R124). -/
def NextPrefix.byte : NextPrefix → Byte
  | .dd => 0xDD
  | .ed => 0xED
  | .fd => 0xFD

/-- An opcode byte from its fields x, y, z (R122). -/
def opXyz (x : BitVec 2) (y z : BitVec 3) : Byte := x ++ y ++ z

/-- An opcode byte from its fields x, p, q, z (R122). -/
def opXpqz (x p : BitVec 2) (q : BitVec 1) (z : BitVec 3) : Byte := x ++ p ++ q ++ z

/-- The bytes of a row, from the encoding of its rule: the whole instruction for an instruction, prefixes that select
its table included; the prefix bytes so far for a table-selecting prefix; the prefix and the byte that decides that it
is ignored for an ignored one. -/
def encode : Instr → List Byte
  | .nop => [0x00#8]
  | .exAfAf => [0x08#8]
  | .djnz e => [0x10#8, e]
  | .jr e => [0x18#8, e]
  | .jrCc cc e => [0b001#3 ++ cc.code ++ 0b000#3, e]
  | .ldDdNn dd nn => [opXpqz 0 dd.code 0 1, loByte nn, hiByte nn]
  | .addHlSs ss => [opXpqz 0 ss.code 1 1]
  | .ldMemBcA => [0x02#8]
  | .ldMemDeA => [0x12#8]
  | .ldMemNnHl nn => [0x22#8, loByte nn, hiByte nn]
  | .ldMemNnA nn => [0x32#8, loByte nn, hiByte nn]
  | .ldAMemBc => [0x0A#8]
  | .ldAMemDe => [0x1A#8]
  | .ldHlMemNn nn => [0x2A#8, loByte nn, hiByte nn]
  | .ldAMemNn nn => [0x3A#8, loByte nn, hiByte nn]
  | .incSs ss => [opXpqz 0 ss.code 0 3]
  | .decSs ss => [opXpqz 0 ss.code 1 3]
  | .incR r => [opXyz 0 r.code 4]
  | .incHl => [0x34#8]
  | .decR r => [opXyz 0 r.code 5]
  | .decHl => [0x35#8]
  | .ldRN r n => [opXyz 0 r.code 6, n]
  | .ldHlN n => [0x36#8, n]
  | .rlca => [0x07#8]
  | .rrca => [0x0F#8]
  | .rla => [0x17#8]
  | .rra => [0x1F#8]
  | .daa => [0x27#8]
  | .cpl => [0x2F#8]
  | .scf => [0x37#8]
  | .ccf => [0x3F#8]
  | .halt => [0x76#8]
  | .ldRR dst src => [opXyz 1 dst.code src.code]
  | .ldRHl dst => [opXyz 1 dst.code 6]
  | .ldHlR src => [opXyz 1 6 src.code]
  | .addAR r => [opXyz 2 0 r.code]
  | .addAHl => [0x86#8]
  | .addAN n => [0xC6#8, n]
  | .adcAR r => [opXyz 2 1 r.code]
  | .adcAHl => [0x8E#8]
  | .adcAN n => [0xCE#8, n]
  | .subR r => [opXyz 2 2 r.code]
  | .subHl => [0x96#8]
  | .subN n => [0xD6#8, n]
  | .sbcAR r => [opXyz 2 3 r.code]
  | .sbcAHl => [0x9E#8]
  | .sbcAN n => [0xDE#8, n]
  | .andR r => [opXyz 2 4 r.code]
  | .andHl => [0xA6#8]
  | .andN n => [0xE6#8, n]
  | .xorR r => [opXyz 2 5 r.code]
  | .xorHl => [0xAE#8]
  | .xorN n => [0xEE#8, n]
  | .orR r => [opXyz 2 6 r.code]
  | .orHl => [0xB6#8]
  | .orN n => [0xF6#8, n]
  | .cpR r => [opXyz 2 7 r.code]
  | .cpHl => [0xBE#8]
  | .cpN n => [0xFE#8, n]
  | .retCc cc => [opXyz 3 cc.code 0]
  | .popQq qq => [opXpqz 3 qq.code 0 1]
  | .ret => [0xC9#8]
  | .exx => [0xD9#8]
  | .jpHl => [0xE9#8]
  | .ldSpHl => [0xF9#8]
  | .jpCcNn cc nn => [opXyz 3 cc.code 2, loByte nn, hiByte nn]
  | .jpNn nn => [0xC3#8, loByte nn, hiByte nn]
  | .outNA n => [0xD3#8, n]
  | .inAN n => [0xDB#8, n]
  | .exSpHl => [0xE3#8]
  | .exDeHl => [0xEB#8]
  | .di => [0xF3#8]
  | .ei => [0xFB#8]
  | .callCcNn cc nn => [opXyz 3 cc.code 4, loByte nn, hiByte nn]
  | .pushQq qq => [opXpqz 3 qq.code 0 5]
  | .callNn nn => [0xCD#8, loByte nn, hiByte nn]
  | .rst t => [opXyz 3 t 7]
  | .prefixCb => [0xCB#8]
  | .prefixDd => [0xDD#8]
  | .prefixEd => [0xED#8]
  | .prefixFd => [0xFD#8]
  | .rlcR r => [0xCB#8, opXyz 0 0 r.code]
  | .rlcHl => [0xCB#8, 0x06#8]
  | .rrcR r => [0xCB#8, opXyz 0 1 r.code]
  | .rrcHl => [0xCB#8, 0x0E#8]
  | .rlR r => [0xCB#8, opXyz 0 2 r.code]
  | .rlHl => [0xCB#8, 0x16#8]
  | .rrR r => [0xCB#8, opXyz 0 3 r.code]
  | .rrHl => [0xCB#8, 0x1E#8]
  | .slaR r => [0xCB#8, opXyz 0 4 r.code]
  | .slaHl => [0xCB#8, 0x26#8]
  | .sraR r => [0xCB#8, opXyz 0 5 r.code]
  | .sraHl => [0xCB#8, 0x2E#8]
  | .sllR r => [0xCB#8, opXyz 0 6 r.code]
  | .sllHl => [0xCB#8, 0x36#8]
  | .srlR r => [0xCB#8, opXyz 0 7 r.code]
  | .srlHl => [0xCB#8, 0x3E#8]
  | .bitBR b r => [0xCB#8, opXyz 1 b r.code]
  | .bitBHl b => [0xCB#8, opXyz 1 b 6]
  | .resBR b r => [0xCB#8, opXyz 2 b r.code]
  | .resBHl b => [0xCB#8, opXyz 2 b 6]
  | .setBR b r => [0xCB#8, opXyz 3 b r.code]
  | .setBHl b => [0xCB#8, opXyz 3 b 6]
  | .inRC r => [0xED#8, opXyz 1 r.code 0]
  | .inC => [0xED#8, 0x70#8]
  | .outCR r => [0xED#8, opXyz 1 r.code 1]
  | .outC0 => [0xED#8, 0x71#8]
  | .sbcHlSs ss => [0xED#8, opXpqz 1 ss.code 0 2]
  | .adcHlSs ss => [0xED#8, opXpqz 1 ss.code 1 2]
  | .ldMemNnDd dd nn => [0xED#8, opXpqz 1 dd.code 0 3, loByte nn, hiByte nn]
  | .ldDdMemNn dd nn => [0xED#8, opXpqz 1 dd.code 1 3, loByte nn, hiByte nn]
  | .neg y => [0xED#8, opXyz 1 y 4]
  | .retn y => [0xED#8, opXyz 1 y 5]
  | .reti => [0xED#8, 0x4D#8]
  | .im0 y5 y3 => [0xED#8, 0b01#2 ++ y5 ++ 0#1 ++ y3 ++ 0b110#3]
  | .im1 y5 => [0xED#8, 0b01#2 ++ y5 ++ 0b10110#5]
  | .im2 y5 => [0xED#8, 0b01#2 ++ y5 ++ 0b11110#5]
  | .ldIA => [0xED#8, 0x47#8]
  | .ldRA => [0xED#8, 0x4F#8]
  | .ldAI => [0xED#8, 0x57#8]
  | .ldAR => [0xED#8, 0x5F#8]
  | .rrd => [0xED#8, 0x67#8]
  | .rld => [0xED#8, 0x6F#8]
  | .noni77 => [0xED#8, 0x77#8]
  | .noni7F => [0xED#8, 0x7F#8]
  | .ldi => [0xED#8, 0xA0#8]
  | .cpi => [0xED#8, 0xA1#8]
  | .ini => [0xED#8, 0xA2#8]
  | .outi => [0xED#8, 0xA3#8]
  | .ldd => [0xED#8, 0xA8#8]
  | .cpd => [0xED#8, 0xA9#8]
  | .ind => [0xED#8, 0xAA#8]
  | .outd => [0xED#8, 0xAB#8]
  | .ldir => [0xED#8, 0xB0#8]
  | .cpir => [0xED#8, 0xB1#8]
  | .inir => [0xED#8, 0xB2#8]
  | .otir => [0xED#8, 0xB3#8]
  | .lddr => [0xED#8, 0xB8#8]
  | .cpdr => [0xED#8, 0xB9#8]
  | .indr => [0xED#8, 0xBA#8]
  | .otdr => [0xED#8, 0xBB#8]
  | .noni00 z => [0xED#8, 0b00#2 ++ z]
  | .noniC0 z => [0xED#8, 0b11#2 ++ z]
  | .noni80 z => [0xED#8, 0b100#3 ++ z]
  | .noniA4 hi lo => [0xED#8, 0b101#3 ++ hi ++ 0b1#1 ++ lo]
  | .addIxPp pp => [0xDD#8, opXpqz 0 pp.code 1 1]
  | .ldIxNn nn => [0xDD#8, 0x21#8, loByte nn, hiByte nn]
  | .ldMemNnIx nn => [0xDD#8, 0x22#8, loByte nn, hiByte nn]
  | .incIx => [0xDD#8, 0x23#8]
  | .decIx => [0xDD#8, 0x2B#8]
  | .ldIxMemNn nn => [0xDD#8, 0x2A#8, loByte nn, hiByte nn]
  | .incIxHalf half => [0xDD#8, opXyz 0 half.code 4]
  | .decIxHalf half => [0xDD#8, opXyz 0 half.code 5]
  | .ldIxHalfN half n => [0xDD#8, opXyz 0 half.code 6, n]
  | .incIxD d => [0xDD#8, 0x34#8, d]
  | .decIxD d => [0xDD#8, 0x35#8, d]
  | .ldIxDN d n => [0xDD#8, 0x36#8, d, n]
  | .ldRIxD r d => [0xDD#8, opXyz 1 r.code 6, d]
  | .ldIxDR d r => [0xDD#8, opXyz 1 6 r.code, d]
  | .ldRRIx dst src => [0xDD#8, opXyz 1 dst.code src.code]
  | .addAIxHalf half => [0xDD#8, opXyz 2 0 half.code]
  | .addAIxD d => [0xDD#8, 0x86#8, d]
  | .adcAIxHalf half => [0xDD#8, opXyz 2 1 half.code]
  | .adcAIxD d => [0xDD#8, 0x8E#8, d]
  | .subIxHalf half => [0xDD#8, opXyz 2 2 half.code]
  | .subIxD d => [0xDD#8, 0x96#8, d]
  | .sbcAIxHalf half => [0xDD#8, opXyz 2 3 half.code]
  | .sbcAIxD d => [0xDD#8, 0x9E#8, d]
  | .andIxHalf half => [0xDD#8, opXyz 2 4 half.code]
  | .andIxD d => [0xDD#8, 0xA6#8, d]
  | .xorIxHalf half => [0xDD#8, opXyz 2 5 half.code]
  | .xorIxD d => [0xDD#8, 0xAE#8, d]
  | .orIxHalf half => [0xDD#8, opXyz 2 6 half.code]
  | .orIxD d => [0xDD#8, 0xB6#8, d]
  | .cpIxHalf half => [0xDD#8, opXyz 2 7 half.code]
  | .cpIxD d => [0xDD#8, 0xBE#8, d]
  | .popIx => [0xDD#8, 0xE1#8]
  | .exSpIx => [0xDD#8, 0xE3#8]
  | .pushIx => [0xDD#8, 0xE5#8]
  | .jpIx => [0xDD#8, 0xE9#8]
  | .ldSpIx => [0xDD#8, 0xF9#8]
  | .prefixDdCb => [0xDD#8, 0xCB#8]
  | .supersededDd next => [0xDD#8, next.byte]
  | .ignoredDd op => [0xDD#8, op]
  | .addIyPp pp => [0xFD#8, opXpqz 0 pp.code 1 1]
  | .ldIyNn nn => [0xFD#8, 0x21#8, loByte nn, hiByte nn]
  | .ldMemNnIy nn => [0xFD#8, 0x22#8, loByte nn, hiByte nn]
  | .incIy => [0xFD#8, 0x23#8]
  | .decIy => [0xFD#8, 0x2B#8]
  | .ldIyMemNn nn => [0xFD#8, 0x2A#8, loByte nn, hiByte nn]
  | .incIyHalf half => [0xFD#8, opXyz 0 half.code 4]
  | .decIyHalf half => [0xFD#8, opXyz 0 half.code 5]
  | .ldIyHalfN half n => [0xFD#8, opXyz 0 half.code 6, n]
  | .incIyD d => [0xFD#8, 0x34#8, d]
  | .decIyD d => [0xFD#8, 0x35#8, d]
  | .ldIyDN d n => [0xFD#8, 0x36#8, d, n]
  | .ldRIyD r d => [0xFD#8, opXyz 1 r.code 6, d]
  | .ldIyDR d r => [0xFD#8, opXyz 1 6 r.code, d]
  | .ldRRIy dst src => [0xFD#8, opXyz 1 dst.code src.code]
  | .addAIyHalf half => [0xFD#8, opXyz 2 0 half.code]
  | .addAIyD d => [0xFD#8, 0x86#8, d]
  | .adcAIyHalf half => [0xFD#8, opXyz 2 1 half.code]
  | .adcAIyD d => [0xFD#8, 0x8E#8, d]
  | .subIyHalf half => [0xFD#8, opXyz 2 2 half.code]
  | .subIyD d => [0xFD#8, 0x96#8, d]
  | .sbcAIyHalf half => [0xFD#8, opXyz 2 3 half.code]
  | .sbcAIyD d => [0xFD#8, 0x9E#8, d]
  | .andIyHalf half => [0xFD#8, opXyz 2 4 half.code]
  | .andIyD d => [0xFD#8, 0xA6#8, d]
  | .xorIyHalf half => [0xFD#8, opXyz 2 5 half.code]
  | .xorIyD d => [0xFD#8, 0xAE#8, d]
  | .orIyHalf half => [0xFD#8, opXyz 2 6 half.code]
  | .orIyD d => [0xFD#8, 0xB6#8, d]
  | .cpIyHalf half => [0xFD#8, opXyz 2 7 half.code]
  | .cpIyD d => [0xFD#8, 0xBE#8, d]
  | .popIy => [0xFD#8, 0xE1#8]
  | .exSpIy => [0xFD#8, 0xE3#8]
  | .pushIy => [0xFD#8, 0xE5#8]
  | .jpIy => [0xFD#8, 0xE9#8]
  | .ldSpIy => [0xFD#8, 0xF9#8]
  | .prefixFdCb => [0xFD#8, 0xCB#8]
  | .supersededFd next => [0xFD#8, next.byte]
  | .ignoredFd op => [0xFD#8, op]
  | .rlcIxD d => [0xDD#8, 0xCB#8, d, 0x06#8]
  | .ldRRlcIxD r d => [0xDD#8, 0xCB#8, d, opXyz 0 0 r.code]
  | .rrcIxD d => [0xDD#8, 0xCB#8, d, 0x0E#8]
  | .ldRRrcIxD r d => [0xDD#8, 0xCB#8, d, opXyz 0 1 r.code]
  | .rlIxD d => [0xDD#8, 0xCB#8, d, 0x16#8]
  | .ldRRlIxD r d => [0xDD#8, 0xCB#8, d, opXyz 0 2 r.code]
  | .rrIxD d => [0xDD#8, 0xCB#8, d, 0x1E#8]
  | .ldRRrIxD r d => [0xDD#8, 0xCB#8, d, opXyz 0 3 r.code]
  | .slaIxD d => [0xDD#8, 0xCB#8, d, 0x26#8]
  | .ldRSlaIxD r d => [0xDD#8, 0xCB#8, d, opXyz 0 4 r.code]
  | .sraIxD d => [0xDD#8, 0xCB#8, d, 0x2E#8]
  | .ldRSraIxD r d => [0xDD#8, 0xCB#8, d, opXyz 0 5 r.code]
  | .sllIxD d => [0xDD#8, 0xCB#8, d, 0x36#8]
  | .ldRSllIxD r d => [0xDD#8, 0xCB#8, d, opXyz 0 6 r.code]
  | .srlIxD d => [0xDD#8, 0xCB#8, d, 0x3E#8]
  | .ldRSrlIxD r d => [0xDD#8, 0xCB#8, d, opXyz 0 7 r.code]
  | .bitBIxD b z d => [0xDD#8, 0xCB#8, d, opXyz 1 b z]
  | .resBIxD b d => [0xDD#8, 0xCB#8, d, opXyz 2 b 6]
  | .ldRResBIxD r b d => [0xDD#8, 0xCB#8, d, opXyz 2 b r.code]
  | .setBIxD b d => [0xDD#8, 0xCB#8, d, opXyz 3 b 6]
  | .ldRSetBIxD r b d => [0xDD#8, 0xCB#8, d, opXyz 3 b r.code]
  | .rlcIyD d => [0xFD#8, 0xCB#8, d, 0x06#8]
  | .ldRRlcIyD r d => [0xFD#8, 0xCB#8, d, opXyz 0 0 r.code]
  | .rrcIyD d => [0xFD#8, 0xCB#8, d, 0x0E#8]
  | .ldRRrcIyD r d => [0xFD#8, 0xCB#8, d, opXyz 0 1 r.code]
  | .rlIyD d => [0xFD#8, 0xCB#8, d, 0x16#8]
  | .ldRRlIyD r d => [0xFD#8, 0xCB#8, d, opXyz 0 2 r.code]
  | .rrIyD d => [0xFD#8, 0xCB#8, d, 0x1E#8]
  | .ldRRrIyD r d => [0xFD#8, 0xCB#8, d, opXyz 0 3 r.code]
  | .slaIyD d => [0xFD#8, 0xCB#8, d, 0x26#8]
  | .ldRSlaIyD r d => [0xFD#8, 0xCB#8, d, opXyz 0 4 r.code]
  | .sraIyD d => [0xFD#8, 0xCB#8, d, 0x2E#8]
  | .ldRSraIyD r d => [0xFD#8, 0xCB#8, d, opXyz 0 5 r.code]
  | .sllIyD d => [0xFD#8, 0xCB#8, d, 0x36#8]
  | .ldRSllIyD r d => [0xFD#8, 0xCB#8, d, opXyz 0 6 r.code]
  | .srlIyD d => [0xFD#8, 0xCB#8, d, 0x3E#8]
  | .ldRSrlIyD r d => [0xFD#8, 0xCB#8, d, opXyz 0 7 r.code]
  | .bitBIyD b z d => [0xFD#8, 0xCB#8, d, opXyz 1 b z]
  | .resBIyD b d => [0xFD#8, 0xCB#8, d, opXyz 2 b 6]
  | .ldRResBIyD r b d => [0xFD#8, 0xCB#8, d, opXyz 2 b r.code]
  | .setBIyD b d => [0xFD#8, 0xCB#8, d, opXyz 3 b 6]
  | .ldRSetBIyD r b d => [0xFD#8, 0xCB#8, d, opXyz 3 b r.code]

/-- A superseded or ignored prefix (R124, R662): the step goes on after it. -/
def Instr.isIgnoredPrefix : Instr → Bool
  | .supersededDd _ => true
  | .supersededFd _ => true
  | .ignoredDd _ => true
  | .ignoredFd _ => true
  | _ => false

/-- A prefix that selects a table (R124). -/
def Instr.isTablePrefix : Instr → Bool
  | .prefixCb => true
  | .prefixDd => true
  | .prefixEd => true
  | .prefixFd => true
  | .prefixDdCb => true
  | .prefixFdCb => true
  | _ => false

/-- The length of a row (R126, the `length` column of the opcode table): 0 for a table-selecting prefix, whose byte
counts in the instruction after it, 1 for an ignored prefix. -/
def Instr.length (i : Instr) : Nat :=
  if i.isTablePrefix then 0 else if i.isIgnoredPrefix then 1 else (encode i).length

/-- Byte `k` of a word of bits numbered as spec/opcode_table.json numbers them, with zeros above `nbits`. -/
def tableByte (nbits w k : Nat) : Byte := BitVec.ofNat 8 ((w % 2 ^ nbits) / 2 ^ (8 * k))

/-- The row the decoder reads from the bits `w` of a row `nbits` long (zeros follow). A word that covers only prefix
bytes reads the prefix row of its last byte; any other word reads the row the prefixes lead to (log 6). -/
def decodeTableWord (nbits w : Nat) : Option Instr :=
  match decode [tableByte nbits w 0, tableByte nbits w 1, tableByte nbits w 2, tableByte nbits w 3] with
  | .ok d => some ((d.path[nbits / 8 - 1]?).getD d.instr)
  | .error _ => none

end Sys2Proof
end

