-- ==== Sys2Proof/Config.lean ====
section
/-! DEFINITION. The parameters of rule R12, each a closed type with the values the spec names, and the free values
(`draw()`, R16) of the model. The parameters' values for one machine are plain data in `State` (`Params`):
no step writes them, so the model covers every setting and not only the defaults. -/

namespace Sys2Proof.Config

/-- `CPU_MODEL` (R4): only `z80` is specified, `r800` is refused. -/
inductive CpuModel where
  | z80
  | r800
deriving DecidableEq, Repr

/-- The model string of the construction call (R4, R713); an unrecognised string names no model. -/
def CpuModel.ofName (name : String) : Option CpuModel :=
  if name = "z80" then some .z80 else if name = "r800" then some .r800 else none

/-- `ED_HOLE_POLICY` (R12, R148, R661, R711). -/
inductive EdHolePolicy where
  | nop
  | strict
deriving DecidableEq, Repr

/-- `R_MODEL` (R12, R47). -/
inductive RModel where
  | counted
  | draw
deriving DecidableEq, Repr

/-- `HALT_RESUME` (R12, R720). -/
inductive HaltResume where
  | next
  | same
deriving DecidableEq, Repr

/-- `REPEAT_PASS_FLAGS` (R12, R566). -/
inductive RepeatPassFlags where
  | singlePass
  | draw
deriving DecidableEq, Repr

/-- `WORD_ACCESS_ORDER` (R12, R86, R87). -/
inductive WordAccessOrder where
  | lowFirst
  | highFirst
  | any
deriving DecidableEq, Repr

/-- `RESET_UNSPEC` (R12, R52, R800). -/
inductive ResetUnspec where
  | draw
  | faultOnRead
deriving DecidableEq, Repr

/-- The parameters of rule R12. -/
structure Params where
  cpuModel : CpuModel
  edHolePolicy : EdHolePolicy
  rModel : RModel
  haltResume : HaltResume
  repeatPassFlags : RepeatPassFlags
  wordAccessOrder : WordAccessOrder
  unmappedRead : Byte
  resetUnspec : ResetUnspec
deriving DecidableEq, Repr

/-- The default of each parameter (R12). -/
def Params.default : Params where
  cpuModel := .z80
  edHolePolicy := .nop
  rModel := .counted
  haltResume := .next
  repeatPassFlags := .singlePass
  wordAccessOrder := .any
  unmappedRead := 0xFF
  resetUnspec := .draw

/-- The `n`-th `draw()` of a run (R16, R51; log 2): it has no body, so no proof can learn a value of it. -/
opaque freeByte : Nat → Byte

/-- The byte a device in memory or at a port answers in the `n`-th bus transaction of a run where the state holds no answer (R82, R95;
log 10). -/
opaque freeAnswer : Nat → Byte

/-- Under `WORD_ACCESS_ORDER = any`: whether the word access that begins with the `n`-th bus transaction takes its high
byte first (R86, R87; log 8). -/
opaque freeOrder : Nat → Bool

end Sys2Proof.Config
end

