-- ==== Sys2Proof/Machine/State.lean ====
section
/-! DEFINITION. The state of the core (rule R52) with what the surrounding machine holds for it (memory, the address
map, the port bus and the interrupt request lines), as plain data, and its value after reset. -/

namespace Sys2Proof.Machine

/-- One set of the 8-bit registers (R31): the main set, or the shadow set of R34. -/
structure RegSet where
  a : Byte
  f : Byte
  b : Byte
  c : Byte
  d : Byte
  e : Byte
  h : Byte
  l : Byte
deriving DecidableEq, Repr

/-- The interrupt mode `IM` (R45): three values and no other. -/
inductive IntMode where
  | im0
  | im1
  | im2
deriving DecidableEq, Repr

/-! ### The surrounding machine -/

/-- What stands behind a region of the address space (R82, R90): storage, storage that cannot be written, a device whose
answers the core does not fix, or nothing. -/
inductive Backing where
  | ram
  | rom
  | device
  | unmapped
deriving DecidableEq, Repr

/-- One entry of the machine's address map: the `size` addresses from `base` go to `target`, `target + 1`, … of the
backing store. A list of regions is the hook `translate(u16) -> u32` of R10 and R101 as plain data (log 5). -/
structure Region where
  base : Nat
  size : Nat
  backing : Backing
  target : Phys
deriving DecidableEq, Repr

/-- The backing store: address and byte pairs in one canonical form (`Memory.wf`). -/
abbrev Memory := List Host.Cell

/-- One bus transaction (R80). A word access is two of them (R99). -/
inductive BusEvent where
  | memRead (addr : Word) (value : Byte)
  | memWrite (addr : Word) (value : Byte)
  | portRead (port : Word) (value : Byte)
  | portWrite (port : Word) (value : Byte)
deriving DecidableEq, Repr

/-- What the machine does in one transaction beyond plain storage: the byte it answers to a read (R82, R95), and the
address map it goes over to (R83). `none` leaves the answer to what the address leads to, and the map as it is. -/
structure Reaction where
  answer : Option Byte
  remap : Option (List Region)
deriving DecidableEq, Repr

/-- A port range that a device claims (R95): the `size` ports from `base`. -/
structure PortRange where
  base : Nat
  size : Nat
deriving DecidableEq, Repr

/-- The surrounding machine as the core meets it on the bus (R80, R82, R11). -/
structure Bus where
  /-- The backing store. -/
  mem : Memory
  /-- The address map; the empty list is the identity (R10). -/
  map : List Region
  /-- The port ranges that devices claim (R11, R95). -/
  ports : List PortRange
  /-- What the machine will do in the transactions to come, the next one first; after the last, nothing beyond plain
  storage (log 5). -/
  reactions : List Reaction
  /-- The transactions so far, the latest first (R99). -/
  log : List BusEvent
deriving DecidableEq, Repr

/-! ### The registers without a reset value -/

/-- The registers that reset leaves unspecified (R52, R800), the index registers by their halves. -/
inductive Unspecified where
  | main (r : Reg8)
  | alt (r : Reg8)
  | altF
  | half (i : Idx) (h : IdxHalf)
  | i
  | r
deriving DecidableEq, Repr

/-- All of them: B C D E H L, the shadow set, IX, IY, I and R. -/
def Unspecified.all : List Unspecified :=
  [.main .b, .main .c, .main .d, .main .e, .main .h, .main .l,
    .alt .a, .altF, .alt .b, .alt .c, .alt .d, .alt .e, .alt .h, .alt .l,
    .half .ix .hi, .half .ix .lo, .half .iy .hi, .half .iy .lo, .i, .r]

/-! ### The state -/

/-- The whole state. The core's own (R52): `main` to `nmiPending`. The host's inputs (R50): `intLine`, `intVector`.
The surrounding machine (R82): `bus`. The model's own: `params` (R12), `draws`, `unwritten`. -/
structure State where
  /-- A F B C D E H L (R31). -/
  main : RegSet
  /-- A' F' B' C' D' E' H' L' (R34). -/
  alt : RegSet
  /-- IX (R36). -/
  ix : Word
  /-- IY (R36). -/
  iy : Word
  /-- SP (R37). -/
  sp : Word
  /-- PC (R8). -/
  pc : Word
  /-- I, the interrupt vector register (R38). -/
  i : Byte
  /-- R, the refresh register (R39, R47). -/
  r : Byte
  /-- IFF1 (R44). -/
  iff1 : Bool
  /-- IFF2 (R44). -/
  iff2 : Bool
  /-- IM (R45). -/
  im : IntMode
  /-- The HALTED state (R48). -/
  halted : Bool
  /-- The interrupt inhibit of the `EI` shadow (R49). -/
  inhibit : Bool
  /-- The NMI latch (R50). -/
  nmiPending : Bool
  /-- The maskable request line, owned by the host (R50). -/
  intLine : Bool
  /-- The byte the interrupting device supplies, owned by the host (R50). -/
  intVector : Byte
  /-- The surrounding machine (R80, R82). -/
  bus : Bus
  /-- The parameters of this machine (R12). -/
  params : Config.Params
  /-- How many free values the run has drawn: the next `draw()` is `Config.freeByte draws` (log 2). -/
  draws : Nat
  /-- The registers not written since reset. Only `RESET_UNSPEC = fault_on_read` looks at it (R52, R712 item 4; log 3). -/
  unwritten : List Unspecified
deriving DecidableEq, Repr

/-- Why the machine stops with a condition the spec describes. -/
inductive Fault where
  /-- `raise IllegalOpcode(pc, bytes)` (R711): raised by an `ED` hole under `ED_HOLE_POLICY = strict`, never under
  the default. It carries the record of R711 and the surrounding machine as the fetches of the step leave it (R99); the
  architectural state is the one before the step. Safe: the spec's own condition. -/
  | illegalOpcode (pc : Word) (first second : Byte) (bus : Bus)
deriving DecidableEq, Repr

/-- Why a situation has no meaning: the situations of rule R712, and instructions without a meaning in this model. -/
inductive Refusal where
  /-- An instruction that `exec` gives no meaning to, by its mnemonic: raised by no arm at present. Safe. -/
  | notModelled (mnemonic : String)
  /-- `CPU_MODEL = r800` (R4, R712 item 2): raised by `step`. Safe: the spec asks for the refusal. -/
  | r800Model
  /-- Mode-0 acceptance of a byte that is no `RST` (R712 item 1, R724): raised by `acceptInt`. Safe. -/
  | mode0NotRst (vector : Byte)
  /-- A prefix run over all 65536 addresses (R712 item 3, R662): raised by `executeOne`. Safe. -/
  | endlessPrefixRun
  /-- The first read of a register that is unspecified at reset, under `RESET_UNSPEC = fault_on_read` (R712 item 4,
  R800): raised by `runRow` and `acceptInt`. Safe: the spec asks for it. -/
  | unspecifiedRead (reg : Unspecified)
deriving DecidableEq, Repr

/-- The three outcomes of a step of this machine. -/
abbrev Result := Host.Outcome State Fault Refusal

/-- The state after power-on reset (R52, R800). The registers the spec leaves unspecified (B to L, the shadow set, IX,
IY, I, R) are zero by this model's choice (log 1); `intLine` and `intVector`, which the host owns, are idle (log 4);
memory lists nothing, the address map is the identity, no device claims a port (log 10), and no bus transaction has happened. -/
def State.reset : State where
  main := { a := 0xFF, f := 0xFF, b := 0, c := 0, d := 0, e := 0, h := 0, l := 0 }
  alt := { a := 0, f := 0, b := 0, c := 0, d := 0, e := 0, h := 0, l := 0 }
  ix := 0
  iy := 0
  sp := 0xFFFF
  pc := 0
  i := 0
  r := 0
  iff1 := false
  iff2 := false
  im := .im0
  halted := false
  inhibit := false
  nmiPending := false
  intLine := false
  intVector := 0xFF
  bus := { mem := [], map := [], ports := [], reactions := [], log := [] }
  params := Config.Params.default
  draws := 0
  unwritten := Unspecified.all

end Sys2Proof.Machine
end

