-- ==== Sys2Proof/Machine/Memory.lean ====
section
/-! DEFINITION. The bus (R80 to R99): the backing store in its canonical form, the address map, and the byte, word and
port transactions. Every transaction is one call of `State.did`, so that each happens once, in order, and the machine
may react to it. -/

namespace Sys2Proof.Machine

/-! ### The backing store -/

/-- What a cell that nothing has written reads as: the spec gives no power-on contents (log 7). -/
def Memory.blank : Byte := 0x00

/-- The byte of one cell. -/
def Memory.read (m : Memory) (p : Nat) : Byte :=
  match m with
  | [] => Memory.blank
  | (k, v) :: rest => if k = p then v else Memory.read rest p

/-- Remove the entry of a cell. -/
def Memory.erase (m : Memory) (p : Nat) : Memory := m.filter (fun c => c.1 != p)

/-- Insert an entry in its place among rising keys. -/
def Memory.insert (m : Memory) (p : Nat) (v : Byte) : Memory :=
  match m with
  | [] => [(p, v)]
  | (k, w) :: rest => if k < p then (k, w) :: Memory.insert rest p v else (p, v) :: (k, w) :: rest

/-- Write one cell; a blank cell has no entry. -/
def Memory.write (m : Memory) (p : Nat) (v : Byte) : Memory :=
  if v = Memory.blank then m.erase p else (m.erase p).insert p v

/-- The canonical form: strictly rising keys below 2^32 (the result of `translate`, R10), no blank entry. -/
abbrev Memory.wf (m : Memory) : Prop :=
  m.Pairwise (fun x y => x.1 < y.1) ∧ ∀ c ∈ m, c.1 < 2 ^ 32 ∧ c.2 ≠ Memory.blank

/-! ### The address map -/

/-- Where an address leads: a cell of writable storage, a cell of read-only storage, a device, or nowhere (R82, R90). -/
inductive Place where
  | ram (p : Nat)
  | rom (p : Nat)
  | device (p : Nat)
  | unmapped
deriving DecidableEq, Repr

/-- The region covers the address. -/
def Region.covers (g : Region) (a : Word) : Bool := g.base ≤ a.toNat && a.toNat < g.base + g.size

/-- Where a covered address leads. -/
def Region.place (g : Region) (a : Word) : Place :=
  let p := (g.target + BitVec.ofNat 32 (a.toNat - g.base)).toNat
  match g.backing with
  | .ram => .ram p
  | .rom => .rom p
  | .device => .device p
  | .unmapped => .unmapped

/-- `translate` with the backing it leads to (R10, R83): the first region that covers the address decides; an address
no region covers is its own cell of RAM, so the empty map is the identity. -/
def resolve (map : List Region) (a : Word) : Place :=
  match map with
  | [] => .ram a.toNat
  | g :: rest => if g.covers a then g.place a else resolve rest a

/-! ### Transactions -/

/-- What a write does to the store: a write to read-only storage, to a device or to nothing changes no cell (R90). -/
def Bus.store (a : Word) (v : Byte) (b : Bus) : Bus :=
  match resolve b.map a with
  | .ram p => { b with mem := b.mem.write p v }
  | .rom _ => b
  | .device _ => b
  | .unmapped => b

/-- A transaction is over: it is logged, and the machine's reaction to it is used up; a map it goes over to serves every
later access (R83, R99). -/
def Bus.react (e : BusEvent) (b : Bus) : Bus :=
  match b.reactions with
  | [] => { b with log := e :: b.log }
  | x :: rest => { b with map := x.remap.getD b.map, reactions := rest, log := e :: b.log }

/-- One transaction. -/
def Bus.transact (e : BusEvent) (b : Bus) : Bus :=
  match e with
  | .memWrite a v => (b.store a v).react e
  | .memRead _ _ => b.react e
  | .portRead _ _ => b.react e
  | .portWrite _ _ => b.react e

/-- Transactions one after another. -/
def Bus.replay (es : List BusEvent) (b : Bus) : Bus := es.foldl (fun b e => b.transact e) b

/-- The answer the machine has ready for the next transaction, if it has one. -/
def Bus.answer (b : Bus) : Option Byte :=
  match b.reactions with
  | [] => none
  | x :: _ => x.answer

/-- The free byte that a device in memory or at a port answers next (log 10). -/
def Bus.free (b : Bus) : Byte := Config.freeAnswer b.log.length

/-- A transaction on the bus of the state. -/
def State.did (e : BusEvent) (s : State) : State := { s with bus := s.bus.transact e }

/-! ### Byte transactions -/

/-- What `MemRead(a, 1)` answers (R82, R84): what the machine has ready, else the byte of the cell, a free byte for a
device, `UNMAPPED_READ` for nothing (R90). -/
def memRead (s : State) (a : Word) : Byte :=
  match s.bus.answer with
  | some v => v
  | none =>
    match resolve s.bus.map a with
    | .ram p => s.bus.mem.read p
    | .rom p => s.bus.mem.read p
    | .device _ => s.bus.free
    | .unmapped => s.params.unmappedRead

/-- The state after `MemRead(a, 1)`. -/
def memReadDone (a : Word) (s : State) : State := s.did (.memRead a (memRead s a))

/-- `MemWrite(a, 1, v)` (R85). -/
def memWrite (a : Word) (v : Byte) (s : State) : State := s.did (.memWrite a v)

/-- The range holds the port. -/
def PortRange.holds (g : PortRange) (port : Word) : Bool := g.base ≤ port.toNat && port.toNat < g.base + g.size

/-- A device claims the port (R95). -/
def Bus.claims (b : Bus) (port : Word) : Bool := b.ports.any (fun g => g.holds port)

/-- What `PortRead(port)` answers (R94, R95): what the machine has ready, else a free byte for a port that a device claims,
0xFF for a port without one. -/
def portAnswer (s : State) (port : Word) : Byte :=
  match s.bus.answer with
  | some v => v
  | none => if s.bus.claims port then s.bus.free else 0xFF

/-- The state after `PortRead(port)`. -/
def portReadDone (port : Word) (s : State) : State := s.did (.portRead port (portAnswer s port))

/-- `PortWrite(port, v)` (R96). -/
def portWrite (port : Word) (v : Byte) (s : State) : State := s.did (.portWrite port v)

/-! ### Word transactions -/

/-- The high byte of the next word access goes first (`WORD_ACCESS_ORDER`, R86, R87; log 8). -/
def highFirst (s : State) : Bool :=
  match s.params.wordAccessOrder with
  | .lowFirst => false
  | .highFirst => true
  | .any => Config.freeOrder s.bus.log.length

/-- What `MemRead(a, 2)` answers (R86). -/
def memReadWord (s : State) (a : Word) : Word :=
  if highFirst s then wordOf (memRead s (a + 1)) (memRead (memReadDone (a + 1) s) a)
  else wordOf (memRead (memReadDone a s) (a + 1)) (memRead s a)

/-- The state after `MemRead(a, 2)`. -/
def memReadWordDone (a : Word) (s : State) : State :=
  if highFirst s then memReadDone a (memReadDone (a + 1) s) else memReadDone (a + 1) (memReadDone a s)

/-- `MemWrite(a, 2, v)` (R87). -/
def memWriteWord (a : Word) (v : Word) (s : State) : State :=
  if highFirst s then memWrite a (loByte v) (memWrite (a + 1) (hiByte v) s)
  else memWrite (a + 1) (hiByte v) (memWrite a (loByte v) s)

end Sys2Proof.Machine
end

