-- ==== Sys2Proof/Machine/Flags.lean ====
section
/-! DEFINITION. The flag engine (R180 to R199): pure functions from operands to a result and a flag byte. -/

namespace Sys2Proof.Machine

/-! ### The flag byte (R40) -/

def flagS (f : Byte) : Bool := f.getLsbD 7
def flagZ (f : Byte) : Bool := f.getLsbD 6
def flagY (f : Byte) : Bool := f.getLsbD 5
def flagH (f : Byte) : Bool := f.getLsbD 4
def flagX (f : Byte) : Bool := f.getLsbD 3
def flagPv (f : Byte) : Bool := f.getLsbD 2
def flagN (f : Byte) : Bool := f.getLsbD 1
def flagC (f : Byte) : Bool := f.getLsbD 0

/-- The eight flags by name, to build a flag byte from. -/
structure FlagBits where
  s : Bool
  z : Bool
  y : Bool
  h : Bool
  x : Bool
  pv : Bool
  n : Bool
  c : Bool
deriving DecidableEq, Repr

/-- The flag byte (R40): bit 7 is S, bit 0 is C. -/
def FlagBits.pack (f : FlagBits) : Byte :=
  BitVec.ofBool f.s ++ BitVec.ofBool f.z ++ BitVec.ofBool f.y ++ BitVec.ofBool f.h ++
    BitVec.ofBool f.x ++ BitVec.ofBool f.pv ++ BitVec.ofBool f.n ++ BitVec.ofBool f.c

/-- The flags of a flag byte. -/
def FlagBits.unpack (f : Byte) : FlagBits where
  s := flagS f
  z := flagZ f
  y := flagY f
  h := flagH f
  x := flagX f
  pv := flagPv f
  n := flagN f
  c := flagC f

/-- Replace `Y` and `X` by bits 5 and 3 of `v`. -/
def withYX (f v : Byte) : Byte := { FlagBits.unpack f with y := flagY v, x := flagX v }.pack

/-! ### Common parts (R181, R182) -/

/-- `parity8` (R181): an even number of 1 bits. -/
def parity8 (v : Byte) : Bool := (List.range 8).countP (v.getLsbD ·) % 2 == 0

/-- `sz53` (R182). -/
def sz53 (v : Byte) : FlagBits where
  s := v.getLsbD 7
  z := v == 0
  y := v.getLsbD 5
  h := false
  x := v.getLsbD 3
  pv := false
  n := false
  c := false

/-- `sz53p` (R182). -/
def sz53p (v : Byte) : FlagBits := { sz53 v with pv := parity8 v }

/-! ### 8-bit arithmetic (R183 to R188) -/

/-- `add8` (R183). -/
def add8 (a b : Byte) (c : Bool) : Byte × Byte :=
  let t := a.toNat + b.toNat + c.toNat
  let res := BitVec.ofNat 8 t
  (res, { sz53 res with
    h := decide (a.toNat % 16 + b.toNat % 16 + c.toNat ≥ 16)
    pv := (~~~(a ^^^ b) &&& (a ^^^ res)).getLsbD 7
    n := false
    c := decide (t ≥ 256) }.pack)

/-- `sub8` (R184). -/
def sub8 (a b : Byte) (c : Bool) : Byte × Byte :=
  let t : Int := a.toNat - b.toNat - c.toNat
  let res := BitVec.ofInt 8 t
  (res, { sz53 res with
    h := decide ((a.toNat % 16 : Int) - (b.toNat % 16 : Nat) - c.toNat < 0)
    pv := ((a ^^^ b) &&& (a ^^^ res)).getLsbD 7
    n := true
    c := decide (t < 0) }.pack)

/-- `cp8` (R185): the flags of `sub8` with `Y` and `X` from the operand. -/
def cp8 (a b : Byte) : Byte := withYX (sub8 a b false).2 b

/-- `logic8` (R186); `isAnd` is `op == and`. -/
def logic8 (res : Byte) (isAnd : Bool) : Byte := { sz53p res with h := isAnd }.pack

/-- `inc8` (R187). -/
def inc8 (v f : Byte) : Byte × Byte :=
  let res := v + 1
  (res, { sz53 res with
    h := v.toNat % 16 == 15
    pv := v == 0x7F
    n := false
    c := flagC f }.pack)

/-- `dec8` (R188). -/
def dec8 (v f : Byte) : Byte × Byte :=
  let res := v - 1
  (res, { sz53 res with
    h := v.toNat % 16 == 0
    pv := v == 0x80
    n := true
    c := flagC f }.pack)

/-- The eight operations `alu[k]` (R135). -/
inductive AluOp where
  | add
  | adc
  | sub
  | sbc
  | and
  | xor
  | or
  | cp
deriving DecidableEq, Repr

/-- The new A and F of an 8-bit ALU operation on A (R300 to R339). -/
def alu (op : AluOp) (a v f : Byte) : Byte × Byte :=
  match op with
  | .add => add8 a v false
  | .adc => add8 a v (flagC f)
  | .sub => sub8 a v false
  | .sbc => sub8 a v (flagC f)
  | .and => (a &&& v, logic8 (a &&& v) true)
  | .xor => (a ^^^ v, logic8 (a ^^^ v) false)
  | .or => (a ||| v, logic8 (a ||| v) false)
  | .cp => (a, cp8 a v)

/-! ### Rotates and shifts (R189, R190) -/

/-- The eight operations `rot[k]` (R136). -/
inductive RotOp where
  | rlc
  | rrc
  | rl
  | rr
  | sla
  | sra
  | sll
  | srl
deriving DecidableEq, Repr

/-- `rot8` (R189): the result and the carry out. -/
def rot8 (op : RotOp) (v : Byte) (cIn : Bool) : Byte × Bool :=
  let left (b0 : Bool) : Byte × Bool := (v.extractLsb' 0 7 ++ BitVec.ofBool b0, v.getLsbD 7)
  let right (b7 : Bool) : Byte × Bool := (BitVec.ofBool b7 ++ v.extractLsb' 1 7, v.getLsbD 0)
  match op with
  | .rlc => left (v.getLsbD 7)
  | .rrc => right (v.getLsbD 0)
  | .rl => left cIn
  | .rr => right cIn
  | .sla => left false
  | .sra => right (v.getLsbD 7)
  | .sll => left true
  | .srl => right false

/-- The result and the flags of a `CB` rotate (R189). -/
def rotCb (op : RotOp) (v f : Byte) : Byte × Byte :=
  let (res, c) := rot8 op v (flagC f)
  (res, { sz53p res with c := c }.pack)

/-- `rota_flags` (R190): the flags of an accumulator rotate. -/
def rotaFlags (res : Byte) (c : Bool) (f : Byte) : Byte :=
  { FlagBits.unpack f with y := res.getLsbD 5, h := false, x := res.getLsbD 3, n := false, c := c }.pack

/-- The result and the flags of an accumulator rotate (R400 to R403). -/
def rotA (op : RotOp) (a f : Byte) : Byte × Byte :=
  let (res, c) := rot8 op a (flagC f)
  (res, rotaFlags res c f)

/-! ### 16-bit arithmetic (R191 to R193) -/

/-- `add16` (R191). -/
def add16 (a b : Word) (f : Byte) : Word × Byte :=
  let t := a.toNat + b.toNat
  let res := BitVec.ofNat 16 t
  (res, { FlagBits.unpack f with
    y := res.getLsbD 13
    h := decide (a.toNat % 4096 + b.toNat % 4096 ≥ 4096)
    x := res.getLsbD 11
    n := false
    c := decide (t ≥ 65536) }.pack)

/-- `adc16` (R192); the carry in is that of `f`. -/
def adc16 (a b : Word) (f : Byte) : Word × Byte :=
  let c := flagC f
  let t := a.toNat + b.toNat + c.toNat
  let res := BitVec.ofNat 16 t
  (res, FlagBits.pack
    { s := res.getLsbD 15
      z := res == 0
      y := res.getLsbD 13
      h := decide (a.toNat % 4096 + b.toNat % 4096 + c.toNat ≥ 4096)
      x := res.getLsbD 11
      pv := (~~~(a ^^^ b) &&& (a ^^^ res)).getLsbD 15
      n := false
      c := decide (t ≥ 65536) })

/-- `sbc16` (R193); the borrow in is the carry of `f`. -/
def sbc16 (a b : Word) (f : Byte) : Word × Byte :=
  let c := flagC f
  let t : Int := a.toNat - b.toNat - c.toNat
  let res := BitVec.ofInt 16 t
  (res, FlagBits.pack
    { s := res.getLsbD 15
      z := res == 0
      y := res.getLsbD 13
      h := decide ((a.toNat % 4096 : Int) - (b.toNat % 4096 : Nat) - c.toNat < 0)
      x := res.getLsbD 11
      pv := ((a ^^^ b) &&& (a ^^^ res)).getLsbD 15
      n := true
      c := decide (t < 0) })

/-! ### Decimal adjust (R194) -/

/-- `daa` (R194). -/
def daa (a f : Byte) : Byte × Byte :=
  let low : Bool := flagH f || decide (a.toNat % 16 > 9)
  let high : Bool := flagC f || decide (a.toNat > 0x99)
  let corr : Byte := (if low then 0x06 else 0x00) ||| (if high then 0x60 else 0x00)
  let res := if flagN f then a - corr else a + corr
  let hNew : Bool := if flagN f then flagH f && decide (a.toNat % 16 < 6) else decide (a.toNat % 16 > 9)
  (res, { sz53p res with h := hNew, n := flagN f, c := high }.pack)

/-! ### Accumulator and carry operations (R349, R351, R352) -/

/-- The result and the flags of `CPL` (R349). -/
def cplA (a f : Byte) : Byte × Byte :=
  let res := ~~~a
  (res, { FlagBits.unpack f with y := res.getLsbD 5, h := true, x := res.getLsbD 3, n := true }.pack)

/-- The flags of `CCF` (R351); `yx` is the free byte that gives `Y` and `X`. -/
def ccfFlags (f yx : Byte) : Byte :=
  { FlagBits.unpack f with y := flagY yx, h := flagC f, x := flagX yx, n := false, c := !flagC f }.pack

/-- The flags of `SCF` (R352); `yx` is the free byte that gives `Y` and `X`. -/
def scfFlags (f yx : Byte) : Byte :=
  { FlagBits.unpack f with y := flagY yx, h := false, x := flagX yx, n := false, c := true }.pack

/-! ### Block operations, bit test and input (R195 to R199) -/

/-- `ldx_flags` (R195). -/
def ldxFlags (t a : Byte) (bcNew : Word) (f : Byte) : Byte :=
  let k := t + a
  { FlagBits.unpack f with y := k.getLsbD 1, h := false, x := k.getLsbD 3, pv := bcNew != 0, n := false }.pack

/-- `cpx_flags` (R196). -/
def cpxFlags (a t : Byte) (bcNew : Word) (f : Byte) : Byte :=
  let res := a - t
  let h : Bool := decide (a.toNat % 16 < t.toNat % 16)
  let k := res - (if h then 1 else 0)
  FlagBits.pack
    { s := res.getLsbD 7
      z := res == 0
      y := k.getLsbD 1
      h := h
      x := k.getLsbD 3
      pv := bcNew != 0
      n := true
      c := flagC f }

/-- `blkio_flags` (R197). -/
def blkioFlags (t : Byte) (k : Nat) (bNew : Byte) : Byte :=
  { sz53 bNew with
    h := decide (k > 255)
    pv := parity8 (BitVec.ofNat 8 (k % 8) ^^^ bNew)
    n := t.getLsbD 7
    c := decide (k > 255) }.pack

/-- `bit_flags` (R198). -/
def bitFlags (b : BitVec 3) (v xySrc f : Byte) : Byte :=
  let z := !v.getLsbD b.toNat
  FlagBits.pack
    { s := b == 7 && v.getLsbD 7
      z := z
      y := xySrc.getLsbD 5
      h := true
      x := xySrc.getLsbD 3
      pv := z
      n := false
      c := flagC f }

/-- `in_flags` (R199) with the `PV` its user names. -/
def inFlags (v : Byte) (pv : Bool) (f : Byte) : Byte := { sz53 v with pv := pv, c := flagC f }.pack

end Sys2Proof.Machine
end

