-- ==== Sys2Proof/Machine/Operands.lean ====
section
/-! DEFINITION. The operand forms (R130 to R134, R18): where each is read and written. -/

namespace Sys2Proof.Machine

/-! ### Registers -/

/-- Read `r` (R31). -/
def State.reg (s : State) (r : Reg8) : Byte :=
  match r with
  | .b => s.main.b
  | .c => s.main.c
  | .d => s.main.d
  | .e => s.main.e
  | .h => s.main.h
  | .l => s.main.l
  | .a => s.main.a

/-- Write `r` (R31). -/
def State.setReg (s : State) (r : Reg8) (v : Byte) : State :=
  match r with
  | .b => { s with main := { s.main with b := v } }
  | .c => { s with main := { s.main with c := v } }
  | .d => { s with main := { s.main with d := v } }
  | .e => { s with main := { s.main with e := v } }
  | .h => { s with main := { s.main with h := v } }
  | .l => { s with main := { s.main with l := v } }
  | .a => { s with main := { s.main with a := v } }

/-- Write `F`. -/
def State.setF (s : State) (f : Byte) : State := { s with main := { s.main with f := f } }

/-- Read an index register (R36). -/
def State.idx (s : State) (i : Idx) : Word :=
  match i with
  | .ix => s.ix
  | .iy => s.iy

/-- Write an index register (R36). -/
def State.setIdx (s : State) (i : Idx) (w : Word) : State :=
  match i with
  | .ix => { s with ix := w }
  | .iy => { s with iy := w }

/-- Read a half of an index register (R33, R36). -/
def State.half (s : State) (i : Idx) (half : IdxHalf) : Byte :=
  match half with
  | .hi => hiByte (s.idx i)
  | .lo => loByte (s.idx i)

/-- Write a half of an index register; the other half is unchanged (R33, R36). -/
def State.setHalf (s : State) (i : Idx) (half : IdxHalf) (v : Byte) : State :=
  match half with
  | .hi => s.setIdx i (wordOf v (loByte (s.idx i)))
  | .lo => s.setIdx i (wordOf (hiByte (s.idx i)) v)

/-! ### Register pairs -/

/-- The 16-bit registers an operand can name. -/
inductive Loc16 where
  | bc
  | de
  | hl
  | af
  | sp
  | idx (i : Idx)
deriving DecidableEq, Repr

/-- Read a 16-bit register (R31 to R33). -/
def Loc16.read (l : Loc16) (s : State) : Word :=
  match l with
  | .bc => wordOf s.main.b s.main.c
  | .de => wordOf s.main.d s.main.e
  | .hl => wordOf s.main.h s.main.l
  | .af => wordOf s.main.a s.main.f
  | .sp => s.sp
  | .idx i => s.idx i

/-- Write a 16-bit register (R31 to R33). -/
def Loc16.write (l : Loc16) (w : Word) (s : State) : State :=
  match l with
  | .bc => { s with main := { s.main with b := hiByte w, c := loByte w } }
  | .de => { s with main := { s.main with d := hiByte w, e := loByte w } }
  | .hl => { s with main := { s.main with h := hiByte w, l := loByte w } }
  | .af => { s with main := { s.main with a := hiByte w, f := loByte w } }
  | .sp => { s with sp := w }
  | .idx i => s.setIdx i w

/-- The pairs by name. -/
def State.bc (s : State) : Word := Loc16.bc.read s
def State.de (s : State) : Word := Loc16.de.read s
def State.hl (s : State) : Word := Loc16.hl.read s

/-! ### Effective addresses -/

/-- The memory operand forms of the byte instructions. -/
inductive Ea where
  | bc
  | de
  | hl
  | abs (nn : Word)
  | idx (i : Idx) (d : Byte)
deriving DecidableEq, Repr

/-- The effective address (R134): `IX + signed8(d)` modulo 2^16 for the indexed form. -/
def Ea.addr (e : Ea) (s : State) : Word :=
  match e with
  | .bc => s.bc
  | .de => s.de
  | .hl => s.hl
  | .abs nn => nn
  | .idx i d => s.idx i + d.signExtend 16

/-! ### Byte operands -/

/-- A byte operand that can be read and written. -/
inductive Loc8 where
  | reg (r : Reg8)
  | half (i : Idx) (h : IdxHalf)
  | mem (e : Ea)
deriving DecidableEq, Repr

/-- Read a byte operand. -/
def Loc8.read (l : Loc8) (s : State) : Byte :=
  match l with
  | .reg r => s.reg r
  | .half i h => s.half i h
  | .mem e => memRead s (e.addr s)

/-- The state after a byte operand is read: a memory operand takes one transaction. -/
def Loc8.readDone (l : Loc8) (s : State) : State :=
  match l with
  | .reg _ => s
  | .half _ _ => s
  | .mem e => memReadDone (e.addr s) s

/-- Write a byte operand. -/
def Loc8.write (l : Loc8) (v : Byte) (s : State) : State :=
  match l with
  | .reg r => s.setReg r v
  | .half i h => s.setHalf i h v
  | .mem e => memWrite (e.addr s) v s

/-- A byte operand that is read. -/
inductive Src8 where
  | loc (l : Loc8)
  | imm (n : Byte)
deriving DecidableEq, Repr

/-- Read a source operand. -/
def Src8.read (o : Src8) (s : State) : Byte :=
  match o with
  | .loc l => l.read s
  | .imm n => n

/-- The state after a source operand is read. -/
def Src8.readDone (o : Src8) (s : State) : State :=
  match o with
  | .loc l => l.readDone s
  | .imm _ => s

end Sys2Proof.Machine

namespace Sys2Proof

open Sys2Proof.Machine

/-! ### The operand tables as places -/

/-- `rp[p]` (R131). -/
def Pair.loc (p : Pair) : Loc16 :=
  match p with
  | .bc => .bc
  | .de => .de
  | .hl => .hl
  | .sp => .sp

/-- `rp2[p]` (R131). -/
def PairQ.loc (p : PairQ) : Loc16 :=
  match p with
  | .bc => .bc
  | .de => .de
  | .hl => .hl
  | .af => .af

/-- `pp`: `rp[p]` with HL replaced by the index register (R131). -/
def PairP.loc (p : PairP) (i : Idx) : Loc16 :=
  match p with
  | .bc => .bc
  | .de => .de
  | .idx => .idx i
  | .sp => .sp

/-- `s(r[k])` (R133): a register under index substitution. -/
def IdxReg8.loc (r : IdxReg8) (i : Idx) : Loc8 :=
  match r with
  | .b => .reg .b
  | .c => .reg .c
  | .d => .reg .d
  | .e => .reg .e
  | .hi => .half i .hi
  | .lo => .half i .lo
  | .a => .reg .a

/-! ### Conditions (R42) -/

/-- `cond(k)`: the truth of a condition on `F` (R42). -/
def Cond.holds (cc : Cond) (f : Byte) : Bool :=
  match cc with
  | .nz => !flagZ f
  | .z => flagZ f
  | .nc => !flagC f
  | .c => flagC f
  | .po => !flagPv f
  | .pe => flagPv f
  | .p => !flagS f
  | .m => flagS f

/-- `cond(y - 4)` of `JR cc,e` (R132, R503). -/
def CondJr.holds (cc : CondJr) (f : Byte) : Bool :=
  match cc with
  | .nz => !flagZ f
  | .z => flagZ f
  | .nc => !flagC f
  | .c => flagC f

end Sys2Proof
end

