-- ==== Sys2Proof/Machine/Ops.lean ====
section
/-! DEFINITION. The operations every meaning is built from: the advance past an instruction, free values, the stack,
read-change-write, and interrupt entry with its return. -/

namespace Sys2Proof.Machine

/-! ### The advance past an instruction (R701) -/

/-- `R` after `k` M1 fetches (R47): `R[6:0]` counts modulo 128, `R[7]` stays. -/
def advanceR (r : Byte) (k : Nat) : Byte :=
  BitVec.ofBool (r.getLsbD 7) ++ BitVec.ofNat 7 (r.toNat % 128 + k)

/-- `R` after `k` M1 fetches under this machine's `R_MODEL` (R47); under `draw` it is left alone (log 9). -/
def State.countM1 (s : State) (k : Nat) : State :=
  match s.params.rModel with
  | .counted => { s with r := advanceR s.r k }
  | .draw => s

/-- The first part of `execute_one` (R701): `R` counts the M1 fetches, `inhibit` clears, and PC becomes `next_pc`. -/
def advance (len m1 : Nat) (s : State) : State :=
  { s.countM1 m1 with inhibit := false, pc := s.pc + BitVec.ofNat 16 len }

/-! ### Free values (R16, log 2) -/

/-- The next `draw()`. -/
def State.draw (s : State) : Byte := Config.freeByte s.draws

/-- Count one `draw()`. -/
def State.drawn (s : State) : State := { s with draws := s.draws + 1 }

/-! ### The stack (R88, R89) -/

/-- `Push16(v)` (R88). -/
def push16 (v : Word) (s : State) : State :=
  let s := { s with sp := s.sp - 2 }
  memWriteWord s.sp v s

/-- The word `Pop16()` returns (R89). -/
def topWord (s : State) : Word := memReadWord s s.sp

/-- The state after `Pop16()`: the word read, then SP up by 2 (R89). -/
def popped (s : State) : State :=
  let s := memReadWordDone s.sp s
  { s with sp := s.sp + 2 }

/-! ### Read, change, write -/

/-- Read a byte operand, let `g` compute the result and the flags from it and the old flags, write the result back (and
into `copy`, for the register-copy forms), then the flags. -/
def modifyByte (g : Byte → Byte → Byte × Byte) (l : Loc8) (copy : Option Reg8) (s : State) : State :=
  let r := g (l.read s) s.main.f
  let t := l.write r.1 (l.readDone s)
  let t := match copy with
    | some q => t.setReg q r.1
    | none => t
  t.setF r.2

/-! ### Interrupt entry and return (R720 to R727) -/

/-- `wake()` (R720). -/
def wake (s : State) : State :=
  if s.halted then
    { s with
      halted := false
      pc := match s.params.haltResume with
        | .next => s.pc + 1
        | .same => s.pc }
  else s

/-- Interrupt entry up to the branch, the part `accept_nmi` and `accept_int` share (R722, R726): wake, one M1 fetch,
IFF1 cleared, IFF2 as given, `inhibit` cleared, PC pushed. It saves nothing but PC (R723). -/
def enterInterrupt (iff2 : Bool) (s : State) : State :=
  let s := (wake s).countM1 1
  push16 s.pc { s with iff1 := false, iff2 := iff2, inhibit := false }

/-- `accept_nmi()` (R722). -/
def acceptNmi (s : State) : State :=
  { enterInterrupt s.iff2 { s with nmiPending := false } with pc := 0x0066 }

/-- The byte is an `RST` opcode (R724). -/
def isRst (v : Byte) : Bool := v &&& 0xC7 == 0xC7

/-- `int_target(v)` (R724), read after the push (R725). Mode 0 is reached only with an `RST` byte. -/
def intTarget (v : Byte) (s : State) : Word :=
  match s.im with
  | .im0 => (v &&& 0x38).setWidth 16
  | .im1 => 0x0038
  | .im2 => memReadWord s (wordOf s.i v)

/-- The state after the target is found: mode 2 has read its word (R725). -/
def intTargetDone (v : Byte) (s : State) : State :=
  match s.im with
  | .im0 => s
  | .im1 => s
  | .im2 => memReadWordDone (wordOf s.i v) s

/-- Mode 2 would read I before anything has written it, under `RESET_UNSPEC = fault_on_read` (R712 item 4). -/
def readsUnwrittenI (s : State) : Bool :=
  s.params.resetUnspec == .faultOnRead && s.im == .im2 && s.unwritten.contains .i

/-- `accept_int()` (R726): what must be refused is refused before any change (R712). -/
def acceptInt (s : State) : Result :=
  if s.im == .im0 && !isRst s.intVector then .refused (.mode0NotRst s.intVector)
  else if readsUnwrittenI s then .refused (.unspecifiedRead .i)
  else
    let t := enterInterrupt false s
    .next { intTargetDone s.intVector t with pc := intTarget s.intVector t }

/-- The return from an interrupt, shared by `RETI` and `RETN` (R511, R512, R727): PC popped, IFF1 from IFF2. -/
def returnFromInterrupt (s : State) : State :=
  { popped s with pc := topWord s, iff1 := s.iff2 }

end Sys2Proof.Machine
end

