-- ==== Sys2Proof/Machine/Bits.lean ====
section
/-! DEFINITION. Bit test, set and reset (R450 to R460). -/

namespace Sys2Proof.Machine

/-- Where `BIT` takes `Y` and `X` from (R198). -/
inductive XySource where
  | operand
  | address (e : Ea)
  | free
deriving DecidableEq, Repr

/-- `BIT b,m`: only F is written (R450 to R452); for `(HL)` one value is drawn (log 2). -/
def testBit (b : BitVec 3) (l : Loc8) (xy : XySource) (len m1 : Nat) (s : State) : Result :=
  let t := advance len m1 s
  let v := l.read t
  let u := l.readDone t
  match xy with
  | .operand => .next (u.setF (bitFlags b v v u.main.f))
  | .address e => .next (u.setF (bitFlags b v (hiByte (e.addr t)) u.main.f))
  | .free => .next (u.drawn.setF (bitFlags b v u.draw u.main.f))

/-- `v | (1 << b)` (R453). -/
def setBit (b : BitVec 3) (v : Byte) : Byte := v ||| (1#8 <<< b.toNat)

/-- `v & ~(1 << b)` (R457). -/
def resBit (b : BitVec 3) (v : Byte) : Byte := v &&& ~~~(1#8 <<< b.toNat)

/-- `SET` and `RES`, with the register copy of the undocumented forms; no flag is written (R453 to R460). -/
def changeBit (g : Byte → Byte) (l : Loc8) (copy : Option Reg8) (len m1 : Nat) (s : State) : Result :=
  .next (modifyByte (fun v f => (g v, f)) l copy (advance len m1 s))

/-- `BIT_b_r` (R450). -/
def execBitBR (b : BitVec 3) (r : Reg8) (s : State) : Result := testBit b (.reg r) .operand 2 2 s

/-- `BIT_b__HL` (R451). -/
def execBitBHl (b : BitVec 3) (s : State) : Result := testBit b (.mem .hl) .free 2 2 s

/-- `RES_b_r` (R457). -/
def execResBR (b : BitVec 3) (r : Reg8) (s : State) : Result := changeBit (resBit b) (.reg r) none 2 2 s

/-- `RES_b__HL` (R458). -/
def execResBHl (b : BitVec 3) (s : State) : Result := changeBit (resBit b) (.mem .hl) none 2 2 s

/-- `SET_b_r` (R453). -/
def execSetBR (b : BitVec 3) (r : Reg8) (s : State) : Result := changeBit (setBit b) (.reg r) none 2 2 s

/-- `SET_b__HL` (R454). -/
def execSetBHl (b : BitVec 3) (s : State) : Result := changeBit (setBit b) (.mem .hl) none 2 2 s

/-- `BIT_b__IX+d` (R452). -/
def execBitBIxD (b : BitVec 3) (_z : BitVec 3) (d : Byte) (s : State) : Result := testBit b (.mem (.idx .ix d)) (.address (.idx .ix d)) 4 2 s

/-- `RES_b__IX+d` (R459). -/
def execResBIxD (b : BitVec 3) (d : Byte) (s : State) : Result := changeBit (resBit b) (.mem (.idx .ix d)) none 4 2 s

/-- `LD_r_RES_b__IX+d` (R460). -/
def execLdRResBIxD (r : Reg8) (b : BitVec 3) (d : Byte) (s : State) : Result := changeBit (resBit b) (.mem (.idx .ix d)) (some r) 4 2 s

/-- `SET_b__IX+d` (R455). -/
def execSetBIxD (b : BitVec 3) (d : Byte) (s : State) : Result := changeBit (setBit b) (.mem (.idx .ix d)) none 4 2 s

/-- `LD_r_SET_b__IX+d` (R456). -/
def execLdRSetBIxD (r : Reg8) (b : BitVec 3) (d : Byte) (s : State) : Result := changeBit (setBit b) (.mem (.idx .ix d)) (some r) 4 2 s

/-- `BIT_b__IY+d` (R452). -/
def execBitBIyD (b : BitVec 3) (_z : BitVec 3) (d : Byte) (s : State) : Result := testBit b (.mem (.idx .iy d)) (.address (.idx .iy d)) 4 2 s

/-- `RES_b__IY+d` (R459). -/
def execResBIyD (b : BitVec 3) (d : Byte) (s : State) : Result := changeBit (resBit b) (.mem (.idx .iy d)) none 4 2 s

/-- `LD_r_RES_b__IY+d` (R460). -/
def execLdRResBIyD (r : Reg8) (b : BitVec 3) (d : Byte) (s : State) : Result := changeBit (resBit b) (.mem (.idx .iy d)) (some r) 4 2 s

/-- `SET_b__IY+d` (R455). -/
def execSetBIyD (b : BitVec 3) (d : Byte) (s : State) : Result := changeBit (setBit b) (.mem (.idx .iy d)) none 4 2 s

/-- `LD_r_SET_b__IY+d` (R456). -/
def execLdRSetBIyD (r : Reg8) (b : BitVec 3) (d : Byte) (s : State) : Result := changeBit (setBit b) (.mem (.idx .iy d)) (some r) 4 2 s

end Sys2Proof.Machine
end

