-- ==== Sys2Proof/Machine/Control.lean ====
section
/-! DEFINITION. Jumps, calls and returns (R500 to R513). -/

namespace Sys2Proof.Machine

/-- `if cond then pc <- nn`. -/
def jumpIf (cond : Byte → Bool) (nn : Word) (len m1 : Nat) (s : State) : Result :=
  let t := advance len m1 s
  .next (if cond t.main.f then { t with pc := nn } else t)

/-- `if cond then pc <- next_pc + signed8(e)`. -/
def jumpRelativeIf (cond : Byte → Bool) (e : Byte) (len m1 : Nat) (s : State) : Result :=
  let t := advance len m1 s
  .next (if cond t.main.f then { t with pc := t.pc + e.signExtend 16 } else t)

/-- `pc <- x[l]`: memory is not read (R504, R505). -/
def jumpTo (l : Loc16) (len m1 : Nat) (s : State) : Result :=
  let t := advance len m1 s
  .next { t with pc := l.read t }

/-- `B <- B - 1; if B != 0 then pc <- next_pc + signed8(e)` (R506). -/
def decrementAndJump (e : Byte) (len m1 : Nat) (s : State) : Result :=
  let t := advance len m1 s
  let u := t.setReg .b (t.main.b - 1)
  .next (if u.main.b = 0 then u else { u with pc := u.pc + e.signExtend 16 })

/-- `if cond then (Push16(next_pc); pc <- target)`. -/
def callIf (cond : Byte → Bool) (target : Word) (len m1 : Nat) (s : State) : Result :=
  let t := advance len m1 s
  .next (if cond t.main.f then { push16 t.pc t with pc := target } else t)

/-- `if cond then pc <- Pop16()`. -/
def returnIf (cond : Byte → Bool) (len m1 : Nat) (s : State) : Result :=
  let t := advance len m1 s
  .next (if cond t.main.f then { popped t with pc := topWord t } else t)

/-- The target `8 * y` of `RST` (R513). -/
def rstTarget (y : BitVec 3) : Word := (y ++ 0#3 : BitVec 6).setWidth 16

/-- `RETI` and `RETN` (R511, R512). -/
def interruptReturn (len m1 : Nat) (s : State) : Result := .next (returnFromInterrupt (advance len m1 s))

/-- `DJNZ_e` (R506). -/
def execDjnz (e : Byte) (s : State) : Result := decrementAndJump e 2 1 s

/-- `JR_e` (R502). -/
def execJr (e : Byte) (s : State) : Result := jumpRelativeIf (fun _ => true) e 2 1 s

/-- `JR_cc_e` (R503). -/
def execJrCc (cc : CondJr) (e : Byte) (s : State) : Result := jumpRelativeIf cc.holds e 2 1 s

/-- `RET_cc` (R510). -/
def execRetCc (cc : Cond) (s : State) : Result := returnIf cc.holds 1 1 s

/-- `RET` (R509). -/
def execRet (s : State) : Result := returnIf (fun _ => true) 1 1 s

/-- `JP__HL` (R504). -/
def execJpHl (s : State) : Result := jumpTo .hl 1 1 s

/-- `JP_cc_nn` (R501). -/
def execJpCcNn (cc : Cond) (nn : Word) (s : State) : Result := jumpIf cc.holds nn 3 1 s

/-- `JP_nn` (R500). -/
def execJpNn (nn : Word) (s : State) : Result := jumpIf (fun _ => true) nn 3 1 s

/-- `CALL_cc_nn` (R508). -/
def execCallCcNn (cc : Cond) (nn : Word) (s : State) : Result := callIf cc.holds nn 3 1 s

/-- `CALL_nn` (R507). -/
def execCallNn (nn : Word) (s : State) : Result := callIf (fun _ => true) nn 3 1 s

/-- `RST_p` (R513). -/
def execRst (t : BitVec 3) (s : State) : Result := callIf (fun _ => true) (rstTarget t) 1 1 s

/-- `RETN` (R512). -/
def execRetn (_y : BitVec 3) (s : State) : Result := interruptReturn 2 2 s

/-- `RETI` (R511). -/
def execReti (s : State) : Result := interruptReturn 2 2 s

/-- `JP__IX` (R505). -/
def execJpIx (s : State) : Result := jumpTo (.idx .ix) 2 2 s

/-- `JP__IY` (R505). -/
def execJpIy (s : State) : Result := jumpTo (.idx .iy) 2 2 s

end Sys2Proof.Machine
end

