-- ==== Sys2Proof/Machine/Rotate.lean ====
section
/-! DEFINITION. Rotates and shifts (R400 to R437). -/

namespace Sys2Proof.Machine

/-- An accumulator rotate (R400 to R403). -/
def rotateA (op : RotOp) (len m1 : Nat) (s : State) : Result :=
  .next (modifyByte (rotA op) (.reg .a) none (advance len m1 s))

/-- A `CB` rotate or shift, with the register copy of the undocumented forms (R404 to R435). -/
def rotateByte (op : RotOp) (l : Loc8) (copy : Option Reg8) (len m1 : Nat) (s : State) : Result :=
  .next (modifyByte (rotCb op) l copy (advance len m1 s))

/-- The new A and the new memory byte of `RLD` (R436). -/
def rldPair (a t : Byte) : Byte × Byte :=
  (a.extractLsb' 4 4 ++ t.extractLsb' 4 4, t.extractLsb' 0 4 ++ a.extractLsb' 0 4)

/-- The new A and the new memory byte of `RRD` (R437). -/
def rrdPair (a t : Byte) : Byte × Byte :=
  (a.extractLsb' 4 4 ++ t.extractLsb' 0 4, a.extractLsb' 0 4 ++ t.extractLsb' 4 4)

/-- A digit rotate between A and the byte at HL, flags from the new A (R436, R437). -/
def rotateDigits (g : Byte → Byte → Byte × Byte) (len m1 : Nat) (s : State) : Result :=
  let t := advance len m1 s
  let r := g t.main.a (memRead t t.hl)
  let u := memWrite t.hl r.2 (memReadDone t.hl t)
  .next { u with main := { u.main with a := r.1, f := inFlags r.1 (parity8 r.1) u.main.f } }

/-- `RLCA` (R400). -/
def execRlca (s : State) : Result := rotateA .rlc 1 1 s

/-- `RRCA` (R402). -/
def execRrca (s : State) : Result := rotateA .rrc 1 1 s

/-- `RLA` (R401). -/
def execRla (s : State) : Result := rotateA .rl 1 1 s

/-- `RRA` (R403). -/
def execRra (s : State) : Result := rotateA .rr 1 1 s

/-- `RLC_r` (R404). -/
def execRlcR (r : Reg8) (s : State) : Result := rotateByte .rlc (.reg r) none 2 2 s

/-- `RLC__HL` (R405). -/
def execRlcHl (s : State) : Result := rotateByte .rlc (.mem .hl) none 2 2 s

/-- `RRC_r` (R408). -/
def execRrcR (r : Reg8) (s : State) : Result := rotateByte .rrc (.reg r) none 2 2 s

/-- `RRC__HL` (R409). -/
def execRrcHl (s : State) : Result := rotateByte .rrc (.mem .hl) none 2 2 s

/-- `RL_r` (R412). -/
def execRlR (r : Reg8) (s : State) : Result := rotateByte .rl (.reg r) none 2 2 s

/-- `RL__HL` (R413). -/
def execRlHl (s : State) : Result := rotateByte .rl (.mem .hl) none 2 2 s

/-- `RR_r` (R416). -/
def execRrR (r : Reg8) (s : State) : Result := rotateByte .rr (.reg r) none 2 2 s

/-- `RR__HL` (R417). -/
def execRrHl (s : State) : Result := rotateByte .rr (.mem .hl) none 2 2 s

/-- `SLA_r` (R420). -/
def execSlaR (r : Reg8) (s : State) : Result := rotateByte .sla (.reg r) none 2 2 s

/-- `SLA__HL` (R421). -/
def execSlaHl (s : State) : Result := rotateByte .sla (.mem .hl) none 2 2 s

/-- `SRA_r` (R424). -/
def execSraR (r : Reg8) (s : State) : Result := rotateByte .sra (.reg r) none 2 2 s

/-- `SRA__HL` (R425). -/
def execSraHl (s : State) : Result := rotateByte .sra (.mem .hl) none 2 2 s

/-- `SLL_r` (R428). -/
def execSllR (r : Reg8) (s : State) : Result := rotateByte .sll (.reg r) none 2 2 s

/-- `SLL__HL` (R429). -/
def execSllHl (s : State) : Result := rotateByte .sll (.mem .hl) none 2 2 s

/-- `SRL_r` (R432). -/
def execSrlR (r : Reg8) (s : State) : Result := rotateByte .srl (.reg r) none 2 2 s

/-- `SRL__HL` (R433). -/
def execSrlHl (s : State) : Result := rotateByte .srl (.mem .hl) none 2 2 s

/-- `RRD` (R437). -/
def execRrd (s : State) : Result := rotateDigits rrdPair 2 2 s

/-- `RLD` (R436). -/
def execRld (s : State) : Result := rotateDigits rldPair 2 2 s

/-- `RLC__IX+d` (R406). -/
def execRlcIxD (d : Byte) (s : State) : Result := rotateByte .rlc (.mem (.idx .ix d)) none 4 2 s

/-- `LD_r_RLC__IX+d` (R407). -/
def execLdRRlcIxD (r : Reg8) (d : Byte) (s : State) : Result := rotateByte .rlc (.mem (.idx .ix d)) (some r) 4 2 s

/-- `RRC__IX+d` (R410). -/
def execRrcIxD (d : Byte) (s : State) : Result := rotateByte .rrc (.mem (.idx .ix d)) none 4 2 s

/-- `LD_r_RRC__IX+d` (R411). -/
def execLdRRrcIxD (r : Reg8) (d : Byte) (s : State) : Result := rotateByte .rrc (.mem (.idx .ix d)) (some r) 4 2 s

/-- `RL__IX+d` (R414). -/
def execRlIxD (d : Byte) (s : State) : Result := rotateByte .rl (.mem (.idx .ix d)) none 4 2 s

/-- `LD_r_RL__IX+d` (R415). -/
def execLdRRlIxD (r : Reg8) (d : Byte) (s : State) : Result := rotateByte .rl (.mem (.idx .ix d)) (some r) 4 2 s

/-- `RR__IX+d` (R418). -/
def execRrIxD (d : Byte) (s : State) : Result := rotateByte .rr (.mem (.idx .ix d)) none 4 2 s

/-- `LD_r_RR__IX+d` (R419). -/
def execLdRRrIxD (r : Reg8) (d : Byte) (s : State) : Result := rotateByte .rr (.mem (.idx .ix d)) (some r) 4 2 s

/-- `SLA__IX+d` (R422). -/
def execSlaIxD (d : Byte) (s : State) : Result := rotateByte .sla (.mem (.idx .ix d)) none 4 2 s

/-- `LD_r_SLA__IX+d` (R423). -/
def execLdRSlaIxD (r : Reg8) (d : Byte) (s : State) : Result := rotateByte .sla (.mem (.idx .ix d)) (some r) 4 2 s

/-- `SRA__IX+d` (R426). -/
def execSraIxD (d : Byte) (s : State) : Result := rotateByte .sra (.mem (.idx .ix d)) none 4 2 s

/-- `LD_r_SRA__IX+d` (R427). -/
def execLdRSraIxD (r : Reg8) (d : Byte) (s : State) : Result := rotateByte .sra (.mem (.idx .ix d)) (some r) 4 2 s

/-- `SLL__IX+d` (R430). -/
def execSllIxD (d : Byte) (s : State) : Result := rotateByte .sll (.mem (.idx .ix d)) none 4 2 s

/-- `LD_r_SLL__IX+d` (R431). -/
def execLdRSllIxD (r : Reg8) (d : Byte) (s : State) : Result := rotateByte .sll (.mem (.idx .ix d)) (some r) 4 2 s

/-- `SRL__IX+d` (R434). -/
def execSrlIxD (d : Byte) (s : State) : Result := rotateByte .srl (.mem (.idx .ix d)) none 4 2 s

/-- `LD_r_SRL__IX+d` (R435). -/
def execLdRSrlIxD (r : Reg8) (d : Byte) (s : State) : Result := rotateByte .srl (.mem (.idx .ix d)) (some r) 4 2 s

/-- `RLC__IY+d` (R406). -/
def execRlcIyD (d : Byte) (s : State) : Result := rotateByte .rlc (.mem (.idx .iy d)) none 4 2 s

/-- `LD_r_RLC__IY+d` (R407). -/
def execLdRRlcIyD (r : Reg8) (d : Byte) (s : State) : Result := rotateByte .rlc (.mem (.idx .iy d)) (some r) 4 2 s

/-- `RRC__IY+d` (R410). -/
def execRrcIyD (d : Byte) (s : State) : Result := rotateByte .rrc (.mem (.idx .iy d)) none 4 2 s

/-- `LD_r_RRC__IY+d` (R411). -/
def execLdRRrcIyD (r : Reg8) (d : Byte) (s : State) : Result := rotateByte .rrc (.mem (.idx .iy d)) (some r) 4 2 s

/-- `RL__IY+d` (R414). -/
def execRlIyD (d : Byte) (s : State) : Result := rotateByte .rl (.mem (.idx .iy d)) none 4 2 s

/-- `LD_r_RL__IY+d` (R415). -/
def execLdRRlIyD (r : Reg8) (d : Byte) (s : State) : Result := rotateByte .rl (.mem (.idx .iy d)) (some r) 4 2 s

/-- `RR__IY+d` (R418). -/
def execRrIyD (d : Byte) (s : State) : Result := rotateByte .rr (.mem (.idx .iy d)) none 4 2 s

/-- `LD_r_RR__IY+d` (R419). -/
def execLdRRrIyD (r : Reg8) (d : Byte) (s : State) : Result := rotateByte .rr (.mem (.idx .iy d)) (some r) 4 2 s

/-- `SLA__IY+d` (R422). -/
def execSlaIyD (d : Byte) (s : State) : Result := rotateByte .sla (.mem (.idx .iy d)) none 4 2 s

/-- `LD_r_SLA__IY+d` (R423). -/
def execLdRSlaIyD (r : Reg8) (d : Byte) (s : State) : Result := rotateByte .sla (.mem (.idx .iy d)) (some r) 4 2 s

/-- `SRA__IY+d` (R426). -/
def execSraIyD (d : Byte) (s : State) : Result := rotateByte .sra (.mem (.idx .iy d)) none 4 2 s

/-- `LD_r_SRA__IY+d` (R427). -/
def execLdRSraIyD (r : Reg8) (d : Byte) (s : State) : Result := rotateByte .sra (.mem (.idx .iy d)) (some r) 4 2 s

/-- `SLL__IY+d` (R430). -/
def execSllIyD (d : Byte) (s : State) : Result := rotateByte .sll (.mem (.idx .iy d)) none 4 2 s

/-- `LD_r_SLL__IY+d` (R431). -/
def execLdRSllIyD (r : Reg8) (d : Byte) (s : State) : Result := rotateByte .sll (.mem (.idx .iy d)) (some r) 4 2 s

/-- `SRL__IY+d` (R434). -/
def execSrlIyD (d : Byte) (s : State) : Result := rotateByte .srl (.mem (.idx .iy d)) none 4 2 s

/-- `LD_r_SRL__IY+d` (R435). -/
def execLdRSrlIyD (r : Reg8) (d : Byte) (s : State) : Result := rotateByte .srl (.mem (.idx .iy d)) (some r) 4 2 s

end Sys2Proof.Machine
end

