-- ==== Sys2Proof/Machine/Access.lean ====
section
/-! DEFINITION. The shared operation of each instruction, and which of the registers that reset leaves unspecified it
reads and writes (R52, R712 item 4, R800; log 3). The family `exec_eq` of the laws says that every meaning is its shared
operation. -/

namespace Sys2Proof.Machine

/-- The shared operations, with the operands that the meanings give them. -/
inductive Op where
  | loadByte (dst : Loc8) (src : Src8)
  | loadWord (dst : Loc16) (nn : Word)
  | loadWordAt (dst : Loc16) (nn : Word)
  | storeWordAt (nn : Word) (src : Loc16)
  | loadSp (src : Loc16)
  | pushWord (src : Loc16)
  | popWord (dst : Loc16)
  | swapDeHl
  | swapAf
  | swapExx
  | exchangeTop (l : Loc16)
  | aluOnA (op : AluOp) (src : Src8)
  | changeByte (g : Byte → Byte → Byte × Byte) (l : Loc8)
  | drawFlags (g : Byte → Byte → Byte)
  | addWord (g : Word → Word → Byte → Word × Byte) (dst src : Loc16)
  | changeWord (g : Word → Word) (l : Loc16)
  | rotateA (op : RotOp)
  | rotateByte (op : RotOp) (l : Loc8) (copy : Option Reg8)
  | rotateDigits (g : Byte → Byte → Byte × Byte)
  | testBit (b : BitVec 3) (l : Loc8) (xy : XySource)
  | changeBit (g : Byte → Byte) (l : Loc8) (copy : Option Reg8)
  | jumpIf (cond : Byte → Bool) (nn : Word)
  | jumpRelativeIf (cond : Byte → Bool) (e : Byte)
  | jumpTo (l : Loc16)
  | decrementAndJump (e : Byte)
  | callIf (cond : Byte → Bool) (target : Word)
  | returnIf (cond : Byte → Bool)
  | interruptReturn
  | blockMove (up again : Bool)
  | blockCompare (up again : Bool)
  | blockInput (up again : Bool)
  | blockOutput (up again : Bool)
  | inputToA (n : Byte)
  | outputA (n : Byte)
  | inputFromC (dst : Option Reg8)
  | outputReg (r : Reg8)
  | outputZero
  | noOperation
  | enterHalt
  | disableInterrupts
  | enableInterrupts
  | setMode (m : IntMode)
  | loadIFromA
  | loadRFromA
  | loadAFromI
  | loadAFromR
  | edHole (op : Byte)
  | selectTable
  | consumeByte

/-- The shared operation of each constructor. -/
def opOf : Instr → Op
  | .nop => .noOperation
  | .exAfAf => .swapAf
  | .djnz e => .decrementAndJump e
  | .jr e => .jumpRelativeIf (fun _ => true) e
  | .jrCc cc e => .jumpRelativeIf cc.holds e
  | .ldDdNn dd nn => .loadWord dd.loc nn
  | .addHlSs ss => .addWord add16 .hl ss.loc
  | .ldMemBcA => .loadByte (.mem .bc) (.loc (.reg .a))
  | .ldMemDeA => .loadByte (.mem .de) (.loc (.reg .a))
  | .ldMemNnHl nn => .storeWordAt nn .hl
  | .ldMemNnA nn => .loadByte (.mem (.abs nn)) (.loc (.reg .a))
  | .ldAMemBc => .loadByte (.reg .a) (.loc (.mem .bc))
  | .ldAMemDe => .loadByte (.reg .a) (.loc (.mem .de))
  | .ldHlMemNn nn => .loadWordAt .hl nn
  | .ldAMemNn nn => .loadByte (.reg .a) (.loc (.mem (.abs nn)))
  | .incSs ss => .changeWord (· + 1) ss.loc
  | .decSs ss => .changeWord (· - 1) ss.loc
  | .incR r => .changeByte inc8 (.reg r)
  | .incHl => .changeByte inc8 (.mem .hl)
  | .decR r => .changeByte dec8 (.reg r)
  | .decHl => .changeByte dec8 (.mem .hl)
  | .ldRN r n => .loadByte (.reg r) (.imm n)
  | .ldHlN n => .loadByte (.mem .hl) (.imm n)
  | .rlca => .rotateA .rlc
  | .rrca => .rotateA .rrc
  | .rla => .rotateA .rl
  | .rra => .rotateA .rr
  | .daa => .changeByte daa (.reg .a)
  | .cpl => .changeByte cplA (.reg .a)
  | .scf => .drawFlags scfFlags
  | .ccf => .drawFlags ccfFlags
  | .halt => .enterHalt
  | .ldRR dst src => .loadByte (.reg dst) (.loc (.reg src))
  | .ldRHl dst => .loadByte (.reg dst) (.loc (.mem .hl))
  | .ldHlR src => .loadByte (.mem .hl) (.loc (.reg src))
  | .addAR r => .aluOnA .add (.loc (.reg r))
  | .addAHl => .aluOnA .add (.loc (.mem .hl))
  | .addAN n => .aluOnA .add (.imm n)
  | .adcAR r => .aluOnA .adc (.loc (.reg r))
  | .adcAHl => .aluOnA .adc (.loc (.mem .hl))
  | .adcAN n => .aluOnA .adc (.imm n)
  | .subR r => .aluOnA .sub (.loc (.reg r))
  | .subHl => .aluOnA .sub (.loc (.mem .hl))
  | .subN n => .aluOnA .sub (.imm n)
  | .sbcAR r => .aluOnA .sbc (.loc (.reg r))
  | .sbcAHl => .aluOnA .sbc (.loc (.mem .hl))
  | .sbcAN n => .aluOnA .sbc (.imm n)
  | .andR r => .aluOnA .and (.loc (.reg r))
  | .andHl => .aluOnA .and (.loc (.mem .hl))
  | .andN n => .aluOnA .and (.imm n)
  | .xorR r => .aluOnA .xor (.loc (.reg r))
  | .xorHl => .aluOnA .xor (.loc (.mem .hl))
  | .xorN n => .aluOnA .xor (.imm n)
  | .orR r => .aluOnA .or (.loc (.reg r))
  | .orHl => .aluOnA .or (.loc (.mem .hl))
  | .orN n => .aluOnA .or (.imm n)
  | .cpR r => .aluOnA .cp (.loc (.reg r))
  | .cpHl => .aluOnA .cp (.loc (.mem .hl))
  | .cpN n => .aluOnA .cp (.imm n)
  | .retCc cc => .returnIf cc.holds
  | .popQq qq => .popWord qq.loc
  | .ret => .returnIf (fun _ => true)
  | .exx => .swapExx
  | .jpHl => .jumpTo .hl
  | .ldSpHl => .loadSp .hl
  | .jpCcNn cc nn => .jumpIf cc.holds nn
  | .jpNn nn => .jumpIf (fun _ => true) nn
  | .outNA n => .outputA n
  | .inAN n => .inputToA n
  | .exSpHl => .exchangeTop .hl
  | .exDeHl => .swapDeHl
  | .di => .disableInterrupts
  | .ei => .enableInterrupts
  | .callCcNn cc nn => .callIf cc.holds nn
  | .pushQq qq => .pushWord qq.loc
  | .callNn nn => .callIf (fun _ => true) nn
  | .rst t => .callIf (fun _ => true) (rstTarget t)
  | .prefixCb => .selectTable
  | .prefixDd => .selectTable
  | .prefixEd => .selectTable
  | .prefixFd => .selectTable
  | .rlcR r => .rotateByte .rlc (.reg r) none
  | .rlcHl => .rotateByte .rlc (.mem .hl) none
  | .rrcR r => .rotateByte .rrc (.reg r) none
  | .rrcHl => .rotateByte .rrc (.mem .hl) none
  | .rlR r => .rotateByte .rl (.reg r) none
  | .rlHl => .rotateByte .rl (.mem .hl) none
  | .rrR r => .rotateByte .rr (.reg r) none
  | .rrHl => .rotateByte .rr (.mem .hl) none
  | .slaR r => .rotateByte .sla (.reg r) none
  | .slaHl => .rotateByte .sla (.mem .hl) none
  | .sraR r => .rotateByte .sra (.reg r) none
  | .sraHl => .rotateByte .sra (.mem .hl) none
  | .sllR r => .rotateByte .sll (.reg r) none
  | .sllHl => .rotateByte .sll (.mem .hl) none
  | .srlR r => .rotateByte .srl (.reg r) none
  | .srlHl => .rotateByte .srl (.mem .hl) none
  | .bitBR b r => .testBit b (.reg r) .operand
  | .bitBHl b => .testBit b (.mem .hl) .free
  | .resBR b r => .changeBit (resBit b) (.reg r) none
  | .resBHl b => .changeBit (resBit b) (.mem .hl) none
  | .setBR b r => .changeBit (setBit b) (.reg r) none
  | .setBHl b => .changeBit (setBit b) (.mem .hl) none
  | .inRC r => .inputFromC (some r)
  | .inC => .inputFromC none
  | .outCR r => .outputReg r
  | .outC0 => .outputZero
  | .sbcHlSs ss => .addWord sbc16 .hl ss.loc
  | .adcHlSs ss => .addWord adc16 .hl ss.loc
  | .ldMemNnDd dd nn => .storeWordAt nn dd.loc
  | .ldDdMemNn dd nn => .loadWordAt dd.loc nn
  | .neg _ => .changeByte (fun a _ => sub8 0 a false) (.reg .a)
  | .retn _ => .interruptReturn
  | .reti => .interruptReturn
  | .im0 _ _ => .setMode .im0
  | .im1 _ => .setMode .im1
  | .im2 _ => .setMode .im2
  | .ldIA => .loadIFromA
  | .ldRA => .loadRFromA
  | .ldAI => .loadAFromI
  | .ldAR => .loadAFromR
  | .rrd => .rotateDigits rrdPair
  | .rld => .rotateDigits rldPair
  | .noni77 => .edHole 0x77
  | .noni7F => .edHole 0x7F
  | .ldi => .blockMove true false
  | .cpi => .blockCompare true false
  | .ini => .blockInput true false
  | .outi => .blockOutput true false
  | .ldd => .blockMove false false
  | .cpd => .blockCompare false false
  | .ind => .blockInput false false
  | .outd => .blockOutput false false
  | .ldir => .blockMove true true
  | .cpir => .blockCompare true true
  | .inir => .blockInput true true
  | .otir => .blockOutput true true
  | .lddr => .blockMove false true
  | .cpdr => .blockCompare false true
  | .indr => .blockInput false true
  | .otdr => .blockOutput false true
  | .noni00 z => .edHole (0b00#2 ++ z)
  | .noniC0 z => .edHole (0b11#2 ++ z)
  | .noni80 z => .edHole (0b100#3 ++ z)
  | .noniA4 hi lo => .edHole (0b101#3 ++ hi ++ 0b1#1 ++ lo)
  | .addIxPp pp => .addWord add16 (.idx .ix) (pp.loc .ix)
  | .ldIxNn nn => .loadWord (.idx .ix) nn
  | .ldMemNnIx nn => .storeWordAt nn (.idx .ix)
  | .incIx => .changeWord (· + 1) (.idx .ix)
  | .decIx => .changeWord (· - 1) (.idx .ix)
  | .ldIxMemNn nn => .loadWordAt (.idx .ix) nn
  | .incIxHalf half => .changeByte inc8 (.half .ix half)
  | .decIxHalf half => .changeByte dec8 (.half .ix half)
  | .ldIxHalfN half n => .loadByte (.half .ix half) (.imm n)
  | .incIxD d => .changeByte inc8 (.mem (.idx .ix d))
  | .decIxD d => .changeByte dec8 (.mem (.idx .ix d))
  | .ldIxDN d n => .loadByte (.mem (.idx .ix d)) (.imm n)
  | .ldRIxD r d => .loadByte (.reg r) (.loc (.mem (.idx .ix d)))
  | .ldIxDR d r => .loadByte (.mem (.idx .ix d)) (.loc (.reg r))
  | .ldRRIx dst src => .loadByte (dst.loc .ix) (.loc (src.loc .ix))
  | .addAIxHalf half => .aluOnA .add (.loc (.half .ix half))
  | .addAIxD d => .aluOnA .add (.loc (.mem (.idx .ix d)))
  | .adcAIxHalf half => .aluOnA .adc (.loc (.half .ix half))
  | .adcAIxD d => .aluOnA .adc (.loc (.mem (.idx .ix d)))
  | .subIxHalf half => .aluOnA .sub (.loc (.half .ix half))
  | .subIxD d => .aluOnA .sub (.loc (.mem (.idx .ix d)))
  | .sbcAIxHalf half => .aluOnA .sbc (.loc (.half .ix half))
  | .sbcAIxD d => .aluOnA .sbc (.loc (.mem (.idx .ix d)))
  | .andIxHalf half => .aluOnA .and (.loc (.half .ix half))
  | .andIxD d => .aluOnA .and (.loc (.mem (.idx .ix d)))
  | .xorIxHalf half => .aluOnA .xor (.loc (.half .ix half))
  | .xorIxD d => .aluOnA .xor (.loc (.mem (.idx .ix d)))
  | .orIxHalf half => .aluOnA .or (.loc (.half .ix half))
  | .orIxD d => .aluOnA .or (.loc (.mem (.idx .ix d)))
  | .cpIxHalf half => .aluOnA .cp (.loc (.half .ix half))
  | .cpIxD d => .aluOnA .cp (.loc (.mem (.idx .ix d)))
  | .popIx => .popWord (.idx .ix)
  | .exSpIx => .exchangeTop (.idx .ix)
  | .pushIx => .pushWord (.idx .ix)
  | .jpIx => .jumpTo (.idx .ix)
  | .ldSpIx => .loadSp (.idx .ix)
  | .prefixDdCb => .selectTable
  | .supersededDd _ => .consumeByte
  | .ignoredDd _ => .consumeByte
  | .addIyPp pp => .addWord add16 (.idx .iy) (pp.loc .iy)
  | .ldIyNn nn => .loadWord (.idx .iy) nn
  | .ldMemNnIy nn => .storeWordAt nn (.idx .iy)
  | .incIy => .changeWord (· + 1) (.idx .iy)
  | .decIy => .changeWord (· - 1) (.idx .iy)
  | .ldIyMemNn nn => .loadWordAt (.idx .iy) nn
  | .incIyHalf half => .changeByte inc8 (.half .iy half)
  | .decIyHalf half => .changeByte dec8 (.half .iy half)
  | .ldIyHalfN half n => .loadByte (.half .iy half) (.imm n)
  | .incIyD d => .changeByte inc8 (.mem (.idx .iy d))
  | .decIyD d => .changeByte dec8 (.mem (.idx .iy d))
  | .ldIyDN d n => .loadByte (.mem (.idx .iy d)) (.imm n)
  | .ldRIyD r d => .loadByte (.reg r) (.loc (.mem (.idx .iy d)))
  | .ldIyDR d r => .loadByte (.mem (.idx .iy d)) (.loc (.reg r))
  | .ldRRIy dst src => .loadByte (dst.loc .iy) (.loc (src.loc .iy))
  | .addAIyHalf half => .aluOnA .add (.loc (.half .iy half))
  | .addAIyD d => .aluOnA .add (.loc (.mem (.idx .iy d)))
  | .adcAIyHalf half => .aluOnA .adc (.loc (.half .iy half))
  | .adcAIyD d => .aluOnA .adc (.loc (.mem (.idx .iy d)))
  | .subIyHalf half => .aluOnA .sub (.loc (.half .iy half))
  | .subIyD d => .aluOnA .sub (.loc (.mem (.idx .iy d)))
  | .sbcAIyHalf half => .aluOnA .sbc (.loc (.half .iy half))
  | .sbcAIyD d => .aluOnA .sbc (.loc (.mem (.idx .iy d)))
  | .andIyHalf half => .aluOnA .and (.loc (.half .iy half))
  | .andIyD d => .aluOnA .and (.loc (.mem (.idx .iy d)))
  | .xorIyHalf half => .aluOnA .xor (.loc (.half .iy half))
  | .xorIyD d => .aluOnA .xor (.loc (.mem (.idx .iy d)))
  | .orIyHalf half => .aluOnA .or (.loc (.half .iy half))
  | .orIyD d => .aluOnA .or (.loc (.mem (.idx .iy d)))
  | .cpIyHalf half => .aluOnA .cp (.loc (.half .iy half))
  | .cpIyD d => .aluOnA .cp (.loc (.mem (.idx .iy d)))
  | .popIy => .popWord (.idx .iy)
  | .exSpIy => .exchangeTop (.idx .iy)
  | .pushIy => .pushWord (.idx .iy)
  | .jpIy => .jumpTo (.idx .iy)
  | .ldSpIy => .loadSp (.idx .iy)
  | .prefixFdCb => .selectTable
  | .supersededFd _ => .consumeByte
  | .ignoredFd _ => .consumeByte
  | .rlcIxD d => .rotateByte .rlc (.mem (.idx .ix d)) none
  | .ldRRlcIxD r d => .rotateByte .rlc (.mem (.idx .ix d)) (some r)
  | .rrcIxD d => .rotateByte .rrc (.mem (.idx .ix d)) none
  | .ldRRrcIxD r d => .rotateByte .rrc (.mem (.idx .ix d)) (some r)
  | .rlIxD d => .rotateByte .rl (.mem (.idx .ix d)) none
  | .ldRRlIxD r d => .rotateByte .rl (.mem (.idx .ix d)) (some r)
  | .rrIxD d => .rotateByte .rr (.mem (.idx .ix d)) none
  | .ldRRrIxD r d => .rotateByte .rr (.mem (.idx .ix d)) (some r)
  | .slaIxD d => .rotateByte .sla (.mem (.idx .ix d)) none
  | .ldRSlaIxD r d => .rotateByte .sla (.mem (.idx .ix d)) (some r)
  | .sraIxD d => .rotateByte .sra (.mem (.idx .ix d)) none
  | .ldRSraIxD r d => .rotateByte .sra (.mem (.idx .ix d)) (some r)
  | .sllIxD d => .rotateByte .sll (.mem (.idx .ix d)) none
  | .ldRSllIxD r d => .rotateByte .sll (.mem (.idx .ix d)) (some r)
  | .srlIxD d => .rotateByte .srl (.mem (.idx .ix d)) none
  | .ldRSrlIxD r d => .rotateByte .srl (.mem (.idx .ix d)) (some r)
  | .bitBIxD b _ d => .testBit b (.mem (.idx .ix d)) (.address (.idx .ix d))
  | .resBIxD b d => .changeBit (resBit b) (.mem (.idx .ix d)) none
  | .ldRResBIxD r b d => .changeBit (resBit b) (.mem (.idx .ix d)) (some r)
  | .setBIxD b d => .changeBit (setBit b) (.mem (.idx .ix d)) none
  | .ldRSetBIxD r b d => .changeBit (setBit b) (.mem (.idx .ix d)) (some r)
  | .rlcIyD d => .rotateByte .rlc (.mem (.idx .iy d)) none
  | .ldRRlcIyD r d => .rotateByte .rlc (.mem (.idx .iy d)) (some r)
  | .rrcIyD d => .rotateByte .rrc (.mem (.idx .iy d)) none
  | .ldRRrcIyD r d => .rotateByte .rrc (.mem (.idx .iy d)) (some r)
  | .rlIyD d => .rotateByte .rl (.mem (.idx .iy d)) none
  | .ldRRlIyD r d => .rotateByte .rl (.mem (.idx .iy d)) (some r)
  | .rrIyD d => .rotateByte .rr (.mem (.idx .iy d)) none
  | .ldRRrIyD r d => .rotateByte .rr (.mem (.idx .iy d)) (some r)
  | .slaIyD d => .rotateByte .sla (.mem (.idx .iy d)) none
  | .ldRSlaIyD r d => .rotateByte .sla (.mem (.idx .iy d)) (some r)
  | .sraIyD d => .rotateByte .sra (.mem (.idx .iy d)) none
  | .ldRSraIyD r d => .rotateByte .sra (.mem (.idx .iy d)) (some r)
  | .sllIyD d => .rotateByte .sll (.mem (.idx .iy d)) none
  | .ldRSllIyD r d => .rotateByte .sll (.mem (.idx .iy d)) (some r)
  | .srlIyD d => .rotateByte .srl (.mem (.idx .iy d)) none
  | .ldRSrlIyD r d => .rotateByte .srl (.mem (.idx .iy d)) (some r)
  | .bitBIyD b _ d => .testBit b (.mem (.idx .iy d)) (.address (.idx .iy d))
  | .resBIyD b d => .changeBit (resBit b) (.mem (.idx .iy d)) none
  | .ldRResBIyD r b d => .changeBit (resBit b) (.mem (.idx .iy d)) (some r)
  | .setBIyD b d => .changeBit (setBit b) (.mem (.idx .iy d)) none
  | .ldRSetBIyD r b d => .changeBit (setBit b) (.mem (.idx .iy d)) (some r)

/-! ### What is read and written of the unspecified registers -/

/-- The registers of `Unspecified` that an operation reads, and those it writes. A, F, SP and PC have a reset value and are
none of them; that R counts M1 fetches is no read and no write of it. -/
structure Access where
  reads : List Unspecified
  writes : List Unspecified
deriving DecidableEq, Repr

/-- A register as an unspecified one; A has a reset value. -/
def Unspecified.ofReg (r : Reg8) : List Unspecified :=
  match r with
  | .a => []
  | q => [.main q]

/-- The registers a 16-bit register is made of. -/
def Unspecified.ofLoc16 (l : Loc16) : List Unspecified :=
  match l with
  | .bc => [.main .b, .main .c]
  | .de => [.main .d, .main .e]
  | .hl => [.main .h, .main .l]
  | .af => []
  | .sp => []
  | .idx j => [.half j .hi, .half j .lo]

/-- The registers an effective address is made of. -/
def Unspecified.ofEa (e : Ea) : List Unspecified :=
  match e with
  | .bc => Unspecified.ofLoc16 .bc
  | .de => Unspecified.ofLoc16 .de
  | .hl => Unspecified.ofLoc16 .hl
  | .abs _ => []
  | .idx j _ => Unspecified.ofLoc16 (.idx j)

/-- What reading a byte operand reads. -/
def Unspecified.readByLoc8 (l : Loc8) : List Unspecified :=
  match l with
  | .reg q => Unspecified.ofReg q
  | .half j h => [.half j h]
  | .mem e => Unspecified.ofEa e

/-- What finding the address of a byte operand reads. -/
def Unspecified.addressOfLoc8 (l : Loc8) : List Unspecified :=
  match l with
  | .reg _ => []
  | .half _ _ => []
  | .mem e => Unspecified.ofEa e

/-- What writing a byte operand writes. -/
def Unspecified.writtenByLoc8 (l : Loc8) : List Unspecified :=
  match l with
  | .reg q => Unspecified.ofReg q
  | .half j h => [.half j h]
  | .mem _ => []

/-- What reading a source operand reads. -/
def Unspecified.readBySrc8 (o : Src8) : List Unspecified :=
  match o with
  | .loc l => Unspecified.readByLoc8 l
  | .imm _ => []

/-- What finding the byte that `Y` and `X` come from reads beside the operand. -/
def Unspecified.readByXy (xy : XySource) : List Unspecified :=
  match xy with
  | .operand => []
  | .address e => Unspecified.ofEa e
  | .free => []

/-- The registers that get a copy of a result. -/
def Unspecified.ofCopy (copy : Option Reg8) : List Unspecified :=
  match copy with
  | some q => Unspecified.ofReg q
  | none => []

/-- AF' (R34). -/
def Unspecified.shadowAf : List Unspecified := [.alt .a, .altF]

/-- BC, DE and HL with their shadows. -/
def Unspecified.bothBanks : List Unspecified :=
  [.main .b, .main .c, .main .d, .main .e, .main .h, .main .l,
    .alt .b, .alt .c, .alt .d, .alt .e, .alt .h, .alt .l]

open Unspecified in
/-- What a shared operation reads and writes of the unspecified registers, under this machine's `R_MODEL`. An exchange reads
both sides (R264 to R268). DEDUCED (log 3, log 9): `LD A,R` reads R under `R_MODEL = counted` alone; under `draw` it takes
`draw()` and not the stored R (R47, R658), so it is no first read of R. The spec does not speak of the two parameters
together. -/
def Op.access (o : Op) (m : Config.RModel) : Access :=
  match o with
  | .loadByte dst src => ⟨readBySrc8 src ++ addressOfLoc8 dst, writtenByLoc8 dst⟩
  | .loadWord dst _ => ⟨[], ofLoc16 dst⟩
  | .loadWordAt dst _ => ⟨[], ofLoc16 dst⟩
  | .storeWordAt _ src => ⟨ofLoc16 src, []⟩
  | .loadSp src => ⟨ofLoc16 src, []⟩
  | .pushWord src => ⟨ofLoc16 src, []⟩
  | .popWord dst => ⟨[], ofLoc16 dst⟩
  | .swapDeHl => ⟨ofLoc16 .de ++ ofLoc16 .hl, ofLoc16 .de ++ ofLoc16 .hl⟩
  | .swapAf => ⟨shadowAf, shadowAf⟩
  | .swapExx => ⟨bothBanks, bothBanks⟩
  | .exchangeTop l => ⟨ofLoc16 l, ofLoc16 l⟩
  | .aluOnA _ src => ⟨readBySrc8 src, []⟩
  | .changeByte _ l => ⟨readByLoc8 l, writtenByLoc8 l⟩
  | .drawFlags _ => ⟨[], []⟩
  | .addWord _ dst src => ⟨ofLoc16 dst ++ ofLoc16 src, ofLoc16 dst⟩
  | .changeWord _ l => ⟨ofLoc16 l, ofLoc16 l⟩
  | .rotateA _ => ⟨[], []⟩
  | .rotateByte _ l copy => ⟨readByLoc8 l, writtenByLoc8 l ++ ofCopy copy⟩
  | .rotateDigits _ => ⟨ofLoc16 .hl, []⟩
  | .testBit _ l xy => ⟨readByLoc8 l ++ readByXy xy, []⟩
  | .changeBit _ l copy => ⟨readByLoc8 l, writtenByLoc8 l ++ ofCopy copy⟩
  | .jumpIf _ _ => ⟨[], []⟩
  | .jumpRelativeIf _ _ => ⟨[], []⟩
  | .jumpTo l => ⟨ofLoc16 l, []⟩
  | .decrementAndJump _ => ⟨[.main .b], [.main .b]⟩
  | .callIf _ _ => ⟨[], []⟩
  | .returnIf _ => ⟨[], []⟩
  | .interruptReturn => ⟨[], []⟩
  | .blockMove _ _ =>
    ⟨ofLoc16 .bc ++ ofLoc16 .de ++ ofLoc16 .hl, ofLoc16 .bc ++ ofLoc16 .de ++ ofLoc16 .hl⟩
  | .blockCompare _ _ => ⟨ofLoc16 .bc ++ ofLoc16 .hl, ofLoc16 .bc ++ ofLoc16 .hl⟩
  | .blockInput _ _ => ⟨ofLoc16 .bc ++ ofLoc16 .hl, .main .b :: ofLoc16 .hl⟩
  | .blockOutput _ _ => ⟨ofLoc16 .bc ++ ofLoc16 .hl, .main .b :: ofLoc16 .hl⟩
  | .inputToA _ => ⟨[], []⟩
  | .outputA _ => ⟨[], []⟩
  | .inputFromC dst => ⟨ofLoc16 .bc, ofCopy dst⟩
  | .outputReg q => ⟨ofLoc16 .bc ++ ofReg q, []⟩
  | .outputZero => ⟨ofLoc16 .bc, []⟩
  | .noOperation => ⟨[], []⟩
  | .enterHalt => ⟨[], []⟩
  | .disableInterrupts => ⟨[], []⟩
  | .enableInterrupts => ⟨[], []⟩
  | .setMode _ => ⟨[], []⟩
  | .loadIFromA => ⟨[], [.i]⟩
  | .loadRFromA => ⟨[], [.r]⟩
  | .loadAFromI => ⟨[.i], []⟩
  | .loadAFromR =>
    match m with
    | .counted => ⟨[.r], []⟩
    | .draw => ⟨[], []⟩
  | .edHole _ => ⟨[], []⟩
  | .selectTable => ⟨[], []⟩
  | .consumeByte => ⟨[], []⟩

end Sys2Proof.Machine
end

