-- ==== Sys2Proof/Machine/Alu.lean ====
section
/-! DEFINITION. The 8-bit ALU operations on A (R300 to R339). -/

namespace Sys2Proof.Machine

/-- `(A, F) <- alu(op, A, v, F)`; `CP` leaves A (R185). -/
def aluOnA (op : AluOp) (src : Src8) (len m1 : Nat) (s : State) : Result :=
  let t := advance len m1 s
  let r := alu op t.main.a (src.read t) t.main.f
  let u := src.readDone t
  .next { u with main := { u.main with a := r.1, f := r.2 } }

/-- `ADD_A_r` (R300). -/
def execAddAR (r : Reg8) (s : State) : Result := aluOnA .add (.loc (.reg r)) 1 1 s

/-- `ADD_A__HL` (R302). -/
def execAddAHl (s : State) : Result := aluOnA .add (.loc (.mem .hl)) 1 1 s

/-- `ADD_A_n` (R301). -/
def execAddAN (n : Byte) (s : State) : Result := aluOnA .add (.imm n) 2 1 s

/-- `ADC_A_r` (R305). -/
def execAdcAR (r : Reg8) (s : State) : Result := aluOnA .adc (.loc (.reg r)) 1 1 s

/-- `ADC_A__HL` (R307). -/
def execAdcAHl (s : State) : Result := aluOnA .adc (.loc (.mem .hl)) 1 1 s

/-- `ADC_A_n` (R306). -/
def execAdcAN (n : Byte) (s : State) : Result := aluOnA .adc (.imm n) 2 1 s

/-- `SUB_r` (R310). -/
def execSubR (r : Reg8) (s : State) : Result := aluOnA .sub (.loc (.reg r)) 1 1 s

/-- `SUB__HL` (R312). -/
def execSubHl (s : State) : Result := aluOnA .sub (.loc (.mem .hl)) 1 1 s

/-- `SUB_n` (R311). -/
def execSubN (n : Byte) (s : State) : Result := aluOnA .sub (.imm n) 2 1 s

/-- `SBC_A_r` (R315). -/
def execSbcAR (r : Reg8) (s : State) : Result := aluOnA .sbc (.loc (.reg r)) 1 1 s

/-- `SBC_A__HL` (R317). -/
def execSbcAHl (s : State) : Result := aluOnA .sbc (.loc (.mem .hl)) 1 1 s

/-- `SBC_A_n` (R316). -/
def execSbcAN (n : Byte) (s : State) : Result := aluOnA .sbc (.imm n) 2 1 s

/-- `AND_r` (R320). -/
def execAndR (r : Reg8) (s : State) : Result := aluOnA .and (.loc (.reg r)) 1 1 s

/-- `AND__HL` (R322). -/
def execAndHl (s : State) : Result := aluOnA .and (.loc (.mem .hl)) 1 1 s

/-- `AND_n` (R321). -/
def execAndN (n : Byte) (s : State) : Result := aluOnA .and (.imm n) 2 1 s

/-- `XOR_r` (R325). -/
def execXorR (r : Reg8) (s : State) : Result := aluOnA .xor (.loc (.reg r)) 1 1 s

/-- `XOR__HL` (R327). -/
def execXorHl (s : State) : Result := aluOnA .xor (.loc (.mem .hl)) 1 1 s

/-- `XOR_n` (R326). -/
def execXorN (n : Byte) (s : State) : Result := aluOnA .xor (.imm n) 2 1 s

/-- `OR_r` (R330). -/
def execOrR (r : Reg8) (s : State) : Result := aluOnA .or (.loc (.reg r)) 1 1 s

/-- `OR__HL` (R332). -/
def execOrHl (s : State) : Result := aluOnA .or (.loc (.mem .hl)) 1 1 s

/-- `OR_n` (R331). -/
def execOrN (n : Byte) (s : State) : Result := aluOnA .or (.imm n) 2 1 s

/-- `CP_r` (R335). -/
def execCpR (r : Reg8) (s : State) : Result := aluOnA .cp (.loc (.reg r)) 1 1 s

/-- `CP__HL` (R337). -/
def execCpHl (s : State) : Result := aluOnA .cp (.loc (.mem .hl)) 1 1 s

/-- `CP_n` (R336). -/
def execCpN (n : Byte) (s : State) : Result := aluOnA .cp (.imm n) 2 1 s

/-- `ADD_A_IXh_IXl` (R304). -/
def execAddAIxHalf (half : IdxHalf) (s : State) : Result := aluOnA .add (.loc (.half .ix half)) 2 2 s

/-- `ADD_A__IX+d` (R303). -/
def execAddAIxD (d : Byte) (s : State) : Result := aluOnA .add (.loc (.mem (.idx .ix d))) 3 2 s

/-- `ADC_A_IXh_IXl` (R309). -/
def execAdcAIxHalf (half : IdxHalf) (s : State) : Result := aluOnA .adc (.loc (.half .ix half)) 2 2 s

/-- `ADC_A__IX+d` (R308). -/
def execAdcAIxD (d : Byte) (s : State) : Result := aluOnA .adc (.loc (.mem (.idx .ix d))) 3 2 s

/-- `SUB_IXh_IXl` (R314). -/
def execSubIxHalf (half : IdxHalf) (s : State) : Result := aluOnA .sub (.loc (.half .ix half)) 2 2 s

/-- `SUB__IX+d` (R313). -/
def execSubIxD (d : Byte) (s : State) : Result := aluOnA .sub (.loc (.mem (.idx .ix d))) 3 2 s

/-- `SBC_A_IXh_IXl` (R319). -/
def execSbcAIxHalf (half : IdxHalf) (s : State) : Result := aluOnA .sbc (.loc (.half .ix half)) 2 2 s

/-- `SBC_A__IX+d` (R318). -/
def execSbcAIxD (d : Byte) (s : State) : Result := aluOnA .sbc (.loc (.mem (.idx .ix d))) 3 2 s

/-- `AND_IXh_IXl` (R324). -/
def execAndIxHalf (half : IdxHalf) (s : State) : Result := aluOnA .and (.loc (.half .ix half)) 2 2 s

/-- `AND__IX+d` (R323). -/
def execAndIxD (d : Byte) (s : State) : Result := aluOnA .and (.loc (.mem (.idx .ix d))) 3 2 s

/-- `XOR_IXh_IXl` (R329). -/
def execXorIxHalf (half : IdxHalf) (s : State) : Result := aluOnA .xor (.loc (.half .ix half)) 2 2 s

/-- `XOR__IX+d` (R328). -/
def execXorIxD (d : Byte) (s : State) : Result := aluOnA .xor (.loc (.mem (.idx .ix d))) 3 2 s

/-- `OR_IXh_IXl` (R334). -/
def execOrIxHalf (half : IdxHalf) (s : State) : Result := aluOnA .or (.loc (.half .ix half)) 2 2 s

/-- `OR__IX+d` (R333). -/
def execOrIxD (d : Byte) (s : State) : Result := aluOnA .or (.loc (.mem (.idx .ix d))) 3 2 s

/-- `CP_IXh_IXl` (R339). -/
def execCpIxHalf (half : IdxHalf) (s : State) : Result := aluOnA .cp (.loc (.half .ix half)) 2 2 s

/-- `CP__IX+d` (R338). -/
def execCpIxD (d : Byte) (s : State) : Result := aluOnA .cp (.loc (.mem (.idx .ix d))) 3 2 s

/-- `ADD_A_IYh_IYl` (R304). -/
def execAddAIyHalf (half : IdxHalf) (s : State) : Result := aluOnA .add (.loc (.half .iy half)) 2 2 s

/-- `ADD_A__IY+d` (R303). -/
def execAddAIyD (d : Byte) (s : State) : Result := aluOnA .add (.loc (.mem (.idx .iy d))) 3 2 s

/-- `ADC_A_IYh_IYl` (R309). -/
def execAdcAIyHalf (half : IdxHalf) (s : State) : Result := aluOnA .adc (.loc (.half .iy half)) 2 2 s

/-- `ADC_A__IY+d` (R308). -/
def execAdcAIyD (d : Byte) (s : State) : Result := aluOnA .adc (.loc (.mem (.idx .iy d))) 3 2 s

/-- `SUB_IYh_IYl` (R314). -/
def execSubIyHalf (half : IdxHalf) (s : State) : Result := aluOnA .sub (.loc (.half .iy half)) 2 2 s

/-- `SUB__IY+d` (R313). -/
def execSubIyD (d : Byte) (s : State) : Result := aluOnA .sub (.loc (.mem (.idx .iy d))) 3 2 s

/-- `SBC_A_IYh_IYl` (R319). -/
def execSbcAIyHalf (half : IdxHalf) (s : State) : Result := aluOnA .sbc (.loc (.half .iy half)) 2 2 s

/-- `SBC_A__IY+d` (R318). -/
def execSbcAIyD (d : Byte) (s : State) : Result := aluOnA .sbc (.loc (.mem (.idx .iy d))) 3 2 s

/-- `AND_IYh_IYl` (R324). -/
def execAndIyHalf (half : IdxHalf) (s : State) : Result := aluOnA .and (.loc (.half .iy half)) 2 2 s

/-- `AND__IY+d` (R323). -/
def execAndIyD (d : Byte) (s : State) : Result := aluOnA .and (.loc (.mem (.idx .iy d))) 3 2 s

/-- `XOR_IYh_IYl` (R329). -/
def execXorIyHalf (half : IdxHalf) (s : State) : Result := aluOnA .xor (.loc (.half .iy half)) 2 2 s

/-- `XOR__IY+d` (R328). -/
def execXorIyD (d : Byte) (s : State) : Result := aluOnA .xor (.loc (.mem (.idx .iy d))) 3 2 s

/-- `OR_IYh_IYl` (R334). -/
def execOrIyHalf (half : IdxHalf) (s : State) : Result := aluOnA .or (.loc (.half .iy half)) 2 2 s

/-- `OR__IY+d` (R333). -/
def execOrIyD (d : Byte) (s : State) : Result := aluOnA .or (.loc (.mem (.idx .iy d))) 3 2 s

/-- `CP_IYh_IYl` (R339). -/
def execCpIyHalf (half : IdxHalf) (s : State) : Result := aluOnA .cp (.loc (.half .iy half)) 2 2 s

/-- `CP__IY+d` (R338). -/
def execCpIyD (d : Byte) (s : State) : Result := aluOnA .cp (.loc (.mem (.idx .iy d))) 3 2 s

end Sys2Proof.Machine
end

