-- ==== Sys2Proof/Machine/Arith16.lean ====
section
/-! DEFINITION. 16-bit arithmetic (R353 to R360). -/

namespace Sys2Proof.Machine

/-- `(x[dst], F) <- g(x[dst], x[src], F)`. -/
def addWord (g : Word → Word → Byte → Word × Byte) (dst src : Loc16) (len m1 : Nat) (s : State) : Result :=
  let t := advance len m1 s
  let r := g (dst.read t) (src.read t) t.main.f
  .next ((dst.write r.1 t).setF r.2)

/-- `x[l] <- g(x[l])`, no flag written (R357 to R360). -/
def changeWord (g : Word → Word) (l : Loc16) (len m1 : Nat) (s : State) : Result :=
  let t := advance len m1 s
  .next (l.write (g (l.read t)) t)

/-- `ADD_HL_ss` (R353). -/
def execAddHlSs (ss : Pair) (s : State) : Result := addWord add16 .hl ss.loc 1 1 s

/-- `INC_ss` (R357). -/
def execIncSs (ss : Pair) (s : State) : Result := changeWord (· + 1) ss.loc 1 1 s

/-- `DEC_ss` (R359). -/
def execDecSs (ss : Pair) (s : State) : Result := changeWord (· - 1) ss.loc 1 1 s

/-- `SBC_HL_ss` (R355). -/
def execSbcHlSs (ss : Pair) (s : State) : Result := addWord sbc16 .hl ss.loc 2 2 s

/-- `ADC_HL_ss` (R354). -/
def execAdcHlSs (ss : Pair) (s : State) : Result := addWord adc16 .hl ss.loc 2 2 s

/-- `ADD_IX_pp` (R356). -/
def execAddIxPp (pp : PairP) (s : State) : Result := addWord add16 (.idx .ix) (pp.loc .ix) 2 2 s

/-- `INC_IX` (R358). -/
def execIncIx (s : State) : Result := changeWord (· + 1) (.idx .ix) 2 2 s

/-- `DEC_IX` (R360). -/
def execDecIx (s : State) : Result := changeWord (· - 1) (.idx .ix) 2 2 s

/-- `ADD_IY_pp` (R356). -/
def execAddIyPp (pp : PairP) (s : State) : Result := addWord add16 (.idx .iy) (pp.loc .iy) 2 2 s

/-- `INC_IY` (R358). -/
def execIncIy (s : State) : Result := changeWord (· + 1) (.idx .iy) 2 2 s

/-- `DEC_IY` (R360). -/
def execDecIy (s : State) : Result := changeWord (· - 1) (.idx .iy) 2 2 s

end Sys2Proof.Machine
end

