-- ==== Sys2Proof/Machine/Arith8.lean ====
section
/-! DEFINITION. 8-bit increment and decrement and the accumulator and carry operations (R340 to R352). -/

namespace Sys2Proof.Machine

/-- Read, compute result and flags, write back. -/
def changeByte (g : Byte → Byte → Byte × Byte) (l : Loc8) (len m1 : Nat) (s : State) : Result :=
  .next (modifyByte g l none (advance len m1 s))

/-- Flags whose `Y` and `X` are drawn (R351, R352; log 2). -/
def drawFlags (g : Byte → Byte → Byte) (len m1 : Nat) (s : State) : Result :=
  let t := advance len m1 s
  .next (t.drawn.setF (g t.main.f t.draw))

/-- `INC_r` (R340). -/
def execIncR (r : Reg8) (s : State) : Result := changeByte inc8 (.reg r) 1 1 s

/-- `INC__HL` (R341). -/
def execIncHl (s : State) : Result := changeByte inc8 (.mem .hl) 1 1 s

/-- `DEC_r` (R344). -/
def execDecR (r : Reg8) (s : State) : Result := changeByte dec8 (.reg r) 1 1 s

/-- `DEC__HL` (R345). -/
def execDecHl (s : State) : Result := changeByte dec8 (.mem .hl) 1 1 s

/-- `DAA` (R348). -/
def execDaa (s : State) : Result := changeByte daa (.reg .a) 1 1 s

/-- `CPL` (R349). -/
def execCpl (s : State) : Result := changeByte cplA (.reg .a) 1 1 s

/-- `SCF` (R352). -/
def execScf (s : State) : Result := drawFlags scfFlags 1 1 s

/-- `CCF` (R351). -/
def execCcf (s : State) : Result := drawFlags ccfFlags 1 1 s

/-- `NEG` (R350). -/
def execNeg (_y : BitVec 3) (s : State) : Result := changeByte (fun a _ => sub8 0 a false) (.reg .a) 2 2 s

/-- `INC_IXh_IXl` (R343). -/
def execIncIxHalf (half : IdxHalf) (s : State) : Result := changeByte inc8 (.half .ix half) 2 2 s

/-- `DEC_IXh_IXl` (R347). -/
def execDecIxHalf (half : IdxHalf) (s : State) : Result := changeByte dec8 (.half .ix half) 2 2 s

/-- `INC__IX+d` (R342). -/
def execIncIxD (d : Byte) (s : State) : Result := changeByte inc8 (.mem (.idx .ix d)) 3 2 s

/-- `DEC__IX+d` (R346). -/
def execDecIxD (d : Byte) (s : State) : Result := changeByte dec8 (.mem (.idx .ix d)) 3 2 s

/-- `INC_IYh_IYl` (R343). -/
def execIncIyHalf (half : IdxHalf) (s : State) : Result := changeByte inc8 (.half .iy half) 2 2 s

/-- `DEC_IYh_IYl` (R347). -/
def execDecIyHalf (half : IdxHalf) (s : State) : Result := changeByte dec8 (.half .iy half) 2 2 s

/-- `INC__IY+d` (R342). -/
def execIncIyD (d : Byte) (s : State) : Result := changeByte inc8 (.mem (.idx .iy d)) 3 2 s

/-- `DEC__IY+d` (R346). -/
def execDecIyD (d : Byte) (s : State) : Result := changeByte dec8 (.mem (.idx .iy d)) 3 2 s

end Sys2Proof.Machine
end

