-- ==== Sys2Proof/Machine/Block.lean ====
section
/-! DEFINITION. Block transfer, search, input and output (R550 to R566). -/

namespace Sys2Proof.Machine

/-- A pointer one up or one down. -/
def stepWord (up : Bool) (w : Word) : Word := if up then w + 1 else w - 1

/-- One pass of `LDI` or `LDD` (R550, R552). -/
def blockMove (up : Bool) (s : State) : State :=
  let v := memRead s s.hl
  let t := memWrite s.de v (memReadDone s.hl s)
  let t := Loc16.hl.write (stepWord up t.hl) t
  let t := Loc16.de.write (stepWord up t.de) t
  let t := Loc16.bc.write (t.bc - 1) t
  t.setF (ldxFlags v t.main.a t.bc t.main.f)

/-- One pass of `CPI` or `CPD` (R554, R556). -/
def blockCompare (up : Bool) (s : State) : State :=
  let v := memRead s s.hl
  let t := memReadDone s.hl s
  let t := Loc16.hl.write (stepWord up t.hl) t
  let t := Loc16.bc.write (t.bc - 1) t
  t.setF (cpxFlags t.main.a v t.bc t.main.f)

/-- One pass of `INI` or `IND` (R558, R560): the port address has the old B. -/
def blockInput (up : Bool) (s : State) : State :=
  let v := portAnswer s s.bc
  let t := portReadDone s.bc s
  let t := memWrite t.hl v t
  let t := Loc16.hl.write (stepWord up t.hl) t
  let t := t.setReg .b (t.main.b - 1)
  let c' : Byte := if up then t.main.c + 1 else t.main.c - 1
  t.setF (blkioFlags v (v.toNat + c'.toNat) t.main.b)

/-- One pass of `OUTI` or `OUTD` (R562, R564): the port address has the new B, `k` the new L. -/
def blockOutput (up : Bool) (s : State) : State :=
  let t := s.setReg .b (s.main.b - 1)
  let v := memRead t t.hl
  let t := memReadDone t.hl t
  let t := portWrite t.bc v t
  let t := Loc16.hl.write (stepWord up t.hl) t
  t.setF (blkioFlags v (v.toNat + t.main.l.toNat) t.main.b)

/-- The repeat condition `BC != 0` (R551, R553). -/
def counterLeft (s : State) : Bool := s.bc != 0

/-- The repeat condition of `CPIR` and `CPDR`: `BC != 0` and no match, that is Z = 0 after the pass (R555). -/
def searchGoesOn (s : State) : Bool := s.bc != 0 && !flagZ s.main.f

/-- The repeat condition `B != 0` (R559). -/
def portCounterLeft (s : State) : Bool := s.main.b != 0

/-- A non-repeating block instruction. -/
def singlePass (pass : State → State) (s : State) : Result := .next (pass (advance 2 2 s))

/-- The end of a pass that repeats (R566): PC back at the `ED` byte, and `Y` and `X` drawn under
`REPEAT_PASS_FLAGS = draw`. -/
def rewind (s : State) : State :=
  let t : State := match s.params.repeatPassFlags with
    | .singlePass => s
    | .draw => s.drawn.setF (withYX s.main.f s.draw)
  { t with pc := t.pc - 2 }

/-- A repeating block instruction: one pass, then back to the `ED` byte while `again` holds (R566). -/
def repeatPass (again : State → Bool) (pass : State → State) (s : State) : Result :=
  let t := pass (advance 2 2 s)
  .next (if again t then rewind t else t)

/-- `LDI` (R550). -/
def execLdi (s : State) : Result := singlePass (blockMove true) s

/-- `CPI` (R554). -/
def execCpi (s : State) : Result := singlePass (blockCompare true) s

/-- `INI` (R558). -/
def execIni (s : State) : Result := singlePass (blockInput true) s

/-- `OUTI` (R562). -/
def execOuti (s : State) : Result := singlePass (blockOutput true) s

/-- `LDD` (R552). -/
def execLdd (s : State) : Result := singlePass (blockMove false) s

/-- `CPD` (R556). -/
def execCpd (s : State) : Result := singlePass (blockCompare false) s

/-- `IND` (R560). -/
def execInd (s : State) : Result := singlePass (blockInput false) s

/-- `OUTD` (R564). -/
def execOutd (s : State) : Result := singlePass (blockOutput false) s

/-- `LDIR` (R551). -/
def execLdir (s : State) : Result := repeatPass counterLeft (blockMove true) s

/-- `CPIR` (R555). -/
def execCpir (s : State) : Result := repeatPass searchGoesOn (blockCompare true) s

/-- `INIR` (R559). -/
def execInir (s : State) : Result := repeatPass portCounterLeft (blockInput true) s

/-- `OTIR` (R563). -/
def execOtir (s : State) : Result := repeatPass portCounterLeft (blockOutput true) s

/-- `LDDR` (R553). -/
def execLddr (s : State) : Result := repeatPass counterLeft (blockMove false) s

/-- `CPDR` (R557). -/
def execCpdr (s : State) : Result := repeatPass searchGoesOn (blockCompare false) s

/-- `INDR` (R561). -/
def execIndr (s : State) : Result := repeatPass portCounterLeft (blockInput false) s

/-- `OTDR` (R565). -/
def execOtdr (s : State) : Result := repeatPass portCounterLeft (blockOutput false) s

end Sys2Proof.Machine
end

