-- ==== Sys2Proof/Machine/CpuControl.lean ====
section
/-! DEFINITION. CPU control (R650 to R661). -/

namespace Sys2Proof.Machine

/-- Nothing beyond PC, R and `inhibit` (R650). -/
def noOperation (len m1 : Nat) (s : State) : Result := .next (advance len m1 s)

/-- `HALT` (R651): PC stays at the `76` byte. -/
def enterHalt (s : State) : Result := .next { advance 1 1 s with halted := true, pc := s.pc }

/-- `DI` (R652). -/
def disableInterrupts (s : State) : Result := .next { advance 1 1 s with iff1 := false, iff2 := false }

/-- `EI` (R653): the one instruction that leaves `inhibit` set. -/
def enableInterrupts (s : State) : Result :=
  .next { advance 1 1 s with iff1 := true, iff2 := true, inhibit := true }

/-- `IM n` (R654 to R656). -/
def setMode (m : IntMode) (s : State) : Result := .next { advance 2 2 s with im := m }

/-- `LD I,A` (R659). -/
def loadIFromA (s : State) : Result :=
  let t := advance 2 2 s
  .next { t with i := t.main.a }

/-- `LD R,A` (R660): all 8 bits, after the instruction's own M1 increments. -/
def loadRFromA (s : State) : Result :=
  let t := advance 2 2 s
  .next { t with r := t.main.a }

/-- Write A and the flags `in_flags(v, F)` with PV = IFF2 (R199). -/
def State.setAWithIff2 (s : State) (v : Byte) : State :=
  { s with main := { s.main with a := v, f := inFlags v s.iff2 s.main.f } }

/-- `LD A,I` (R657). -/
def loadAFromI (s : State) : Result :=
  let t := advance 2 2 s
  .next (t.setAWithIff2 t.i)

/-- `LD A,R` (R658): R after its own M1 increments; under `R_MODEL = draw` a free value (R47). -/
def loadAFromR (s : State) : Result :=
  let t := advance 2 2 s
  match t.params.rModel with
  | .counted => .next (t.setAWithIff2 t.r)
  | .draw => .next (t.drawn.setAWithIff2 t.draw)

/-- An `ED` hole (R661): a 2-byte no-operation, or `IllegalOpcode` under `ED_HOLE_POLICY = strict` (R711), whose
fetches the machine has seen (R99). -/
def edHole (op : Byte) (s : State) : Result :=
  match s.params.edHolePolicy with
  | .nop => noOperation 2 2 s
  | .strict => .fault (.illegalOpcode s.pc 0xED op s.bus)

/-- `NOP` (R650). -/
def execNop (s : State) : Result := noOperation 1 1 s

/-- `HALT` (R651). -/
def execHalt (s : State) : Result := enterHalt s

/-- `DI` (R652). -/
def execDi (s : State) : Result := disableInterrupts s

/-- `EI` (R653). -/
def execEi (s : State) : Result := enableInterrupts s

/-- `IM_0` (R654). -/
def execIm0 (_y5 : BitVec 1) (_y3 : BitVec 1) (s : State) : Result := setMode .im0 s

/-- `IM_1` (R655). -/
def execIm1 (_y5 : BitVec 1) (s : State) : Result := setMode .im1 s

/-- `IM_2` (R656). -/
def execIm2 (_y5 : BitVec 1) (s : State) : Result := setMode .im2 s

/-- `LD_I_A` (R659). -/
def execLdIA (s : State) : Result := loadIFromA s

/-- `LD_R_A` (R660). -/
def execLdRA (s : State) : Result := loadRFromA s

/-- `LD_A_I` (R657). -/
def execLdAI (s : State) : Result := loadAFromI s

/-- `LD_A_R` (R658). -/
def execLdAR (s : State) : Result := loadAFromR s

/-- `NONI__ED_77` (R661). -/
def execNoni77 (s : State) : Result := edHole 0x77 s

/-- `NONI__ED_7F` (R661). -/
def execNoni7F (s : State) : Result := edHole 0x7F s

/-- `NONI__ED_00-3F` (R661). -/
def execNoni00 (z : BitVec 6) (s : State) : Result := edHole (0b00#2 ++ z) s

/-- `NONI__ED_C0-FF` (R661). -/
def execNoniC0 (z : BitVec 6) (s : State) : Result := edHole (0b11#2 ++ z) s

/-- `NONI__ED_80-9F` (R661). -/
def execNoni80 (z : BitVec 5) (s : State) : Result := edHole (0b100#3 ++ z) s

/-- `NONI__ED_A4-A7_AC-AF_B4-B7_BC-BF` (R661). -/
def execNoniA4 (hi : BitVec 2) (lo : BitVec 2) (s : State) : Result := edHole (0b101#3 ++ hi ++ 0b1#1 ++ lo) s

end Sys2Proof.Machine
end

