-- ==== Sys2Proof/Machine/Io.lean ====
section
/-! DEFINITION. Input and output (R600 to R605). -/

namespace Sys2Proof.Machine

/-- `A <- PortRead((A << 8) | n)` (R600). -/
def inputToA (n : Byte) (len m1 : Nat) (s : State) : Result :=
  let t := advance len m1 s
  .next ((portReadDone (wordOf t.main.a n) t).setReg .a (portAnswer t (wordOf t.main.a n)))

/-- `PortWrite((A << 8) | n, A)` (R603). -/
def outputA (n : Byte) (len m1 : Nat) (s : State) : Result :=
  let t := advance len m1 s
  .next (portWrite (wordOf t.main.a n) t.main.a t)

/-- `v <- PortRead(BC); x[r] <- v; F <- in_flags(v, F)`; without a register only F is written (R601, R602). -/
def inputFromC (dst : Option Reg8) (len m1 : Nat) (s : State) : Result :=
  let t := advance len m1 s
  let v := portAnswer t t.bc
  let u := portReadDone t.bc t
  let u := match dst with
    | some r => u.setReg r v
    | none => u
  .next (u.setF (inFlags v (parity8 v) u.main.f))

/-- `PortWrite(BC, v)` (R604, R605). -/
def outputToC (v : State → Byte) (len m1 : Nat) (s : State) : Result :=
  let t := advance len m1 s
  .next (portWrite t.bc (v t) t)

/-- `OUT__n__A` (R603). -/
def execOutNA (n : Byte) (s : State) : Result := outputA n 2 1 s

/-- `IN_A__n` (R600). -/
def execInAN (n : Byte) (s : State) : Result := inputToA n 2 1 s

/-- `IN_r__C` (R601). -/
def execInRC (r : Reg8) (s : State) : Result := inputFromC (some r) 2 2 s

/-- `IN__C` (R602). -/
def execInC (s : State) : Result := inputFromC none 2 2 s

/-- `OUT__C__r` (R604). -/
def execOutCR (r : Reg8) (s : State) : Result := outputToC (·.reg r) 2 2 s

/-- `OUT__C__0` (R605). -/
def execOutC0 (s : State) : Result := outputToC (fun _ => 0x00) 2 2 s

end Sys2Proof.Machine
end

