-- ==== Sys2Proof/Machine/Load16.lean ====
section
/-! DEFINITION. The 16-bit load, stack and exchange group (R250 to R268). -/

namespace Sys2Proof.Machine

/-- `x[dst] <- nn`. -/
def loadWord (dst : Loc16) (nn : Word) (len m1 : Nat) (s : State) : Result :=
  .next (dst.write nn (advance len m1 s))

/-- `x[dst] <- MemRead(nn, 2)`. -/
def loadWordAt (dst : Loc16) (nn : Word) (len m1 : Nat) (s : State) : Result :=
  let t := advance len m1 s
  .next (dst.write (memReadWord t nn) (memReadWordDone nn t))

/-- `MemWrite(nn, 2, x[src])`. -/
def storeWordAt (nn : Word) (src : Loc16) (len m1 : Nat) (s : State) : Result :=
  let t := advance len m1 s
  .next (memWriteWord nn (src.read t) t)

/-- `SP <- x[src]`. -/
def loadSp (src : Loc16) (len m1 : Nat) (s : State) : Result :=
  let t := advance len m1 s
  .next (Loc16.sp.write (src.read t) t)

/-- `Push16(x[src])`. -/
def pushWord (src : Loc16) (len m1 : Nat) (s : State) : Result :=
  let t := advance len m1 s
  .next (push16 (src.read t) t)

/-- `x[dst] <- Pop16()`. -/
def popWord (dst : Loc16) (len m1 : Nat) (s : State) : Result :=
  let t := advance len m1 s
  .next (dst.write (topWord t) (popped t))

/-- `DE <-> HL` (R264). -/
def swapDeHl (s : State) : State :=
  { s with main := { s.main with d := s.main.h, e := s.main.l, h := s.main.d, l := s.main.e } }

/-- `AF <-> AF'` (R265). -/
def swapAf (s : State) : State :=
  { s with
    main := { s.main with a := s.alt.a, f := s.alt.f }
    alt := { s.alt with a := s.main.a, f := s.main.f } }

/-- `BC <-> BC'; DE <-> DE'; HL <-> HL'` (R266). -/
def swapExx (s : State) : State :=
  { s with
    main := { s.alt with a := s.main.a, f := s.main.f }
    alt := { s.main with a := s.alt.a, f := s.alt.f } }

/-- A register exchange. -/
def exchange (swap : State → State) (len : Nat) (s : State) : Result := .next (swap (advance len 1 s))

/-- `t <- MemRead(SP, 2); MemWrite(SP, 2, x[l]); x[l] <- t`. -/
def exchangeTop (l : Loc16) (len m1 : Nat) (s : State) : Result :=
  let t := advance len m1 s
  .next (l.write (topWord t) (memWriteWord t.sp (l.read t) (memReadWordDone t.sp t)))

/-- `EX_AF_AF` (R265). -/
def execExAfAf (s : State) : Result := exchange swapAf 1 s

/-- `LD_dd_nn` (R250). -/
def execLdDdNn (dd : Pair) (nn : Word) (s : State) : Result := loadWord dd.loc nn 3 1 s

/-- `LD__nn__HL` (R255). -/
def execLdMemNnHl (nn : Word) (s : State) : Result := storeWordAt nn .hl 3 1 s

/-- `LD_HL__nn` (R252). -/
def execLdHlMemNn (nn : Word) (s : State) : Result := loadWordAt .hl nn 3 1 s

/-- `POP_qq` (R262). -/
def execPopQq (qq : PairQ) (s : State) : Result := popWord qq.loc 1 1 s

/-- `EXX` (R266). -/
def execExx (s : State) : Result := exchange swapExx 1 s

/-- `LD_SP_HL` (R258). -/
def execLdSpHl (s : State) : Result := loadSp .hl 1 1 s

/-- `EX__SP__HL` (R267). -/
def execExSpHl (s : State) : Result := exchangeTop .hl 1 1 s

/-- `EX_DE_HL` (R264). -/
def execExDeHl (s : State) : Result := exchange swapDeHl 1 s

/-- `PUSH_qq` (R260). -/
def execPushQq (qq : PairQ) (s : State) : Result := pushWord qq.loc 1 1 s

/-- `LD__nn__dd` (R256). -/
def execLdMemNnDd (dd : Pair) (nn : Word) (s : State) : Result := storeWordAt nn dd.loc 4 2 s

/-- `LD_dd__nn` (R253). -/
def execLdDdMemNn (dd : Pair) (nn : Word) (s : State) : Result := loadWordAt dd.loc nn 4 2 s

/-- `LD_IX_nn` (R251). -/
def execLdIxNn (nn : Word) (s : State) : Result := loadWord (.idx .ix) nn 4 2 s

/-- `LD__nn__IX` (R257). -/
def execLdMemNnIx (nn : Word) (s : State) : Result := storeWordAt nn (.idx .ix) 4 2 s

/-- `LD_IX__nn` (R254). -/
def execLdIxMemNn (nn : Word) (s : State) : Result := loadWordAt (.idx .ix) nn 4 2 s

/-- `POP_IX` (R263). -/
def execPopIx (s : State) : Result := popWord (.idx .ix) 2 2 s

/-- `EX__SP__IX` (R268). -/
def execExSpIx (s : State) : Result := exchangeTop (.idx .ix) 2 2 s

/-- `PUSH_IX` (R261). -/
def execPushIx (s : State) : Result := pushWord (.idx .ix) 2 2 s

/-- `LD_SP_IX` (R259). -/
def execLdSpIx (s : State) : Result := loadSp (.idx .ix) 2 2 s

/-- `LD_IY_nn` (R251). -/
def execLdIyNn (nn : Word) (s : State) : Result := loadWord (.idx .iy) nn 4 2 s

/-- `LD__nn__IY` (R257). -/
def execLdMemNnIy (nn : Word) (s : State) : Result := storeWordAt nn (.idx .iy) 4 2 s

/-- `LD_IY__nn` (R254). -/
def execLdIyMemNn (nn : Word) (s : State) : Result := loadWordAt (.idx .iy) nn 4 2 s

/-- `POP_IY` (R263). -/
def execPopIy (s : State) : Result := popWord (.idx .iy) 2 2 s

/-- `EX__SP__IY` (R268). -/
def execExSpIy (s : State) : Result := exchangeTop (.idx .iy) 2 2 s

/-- `PUSH_IY` (R261). -/
def execPushIy (s : State) : Result := pushWord (.idx .iy) 2 2 s

/-- `LD_SP_IY` (R259). -/
def execLdSpIy (s : State) : Result := loadSp (.idx .iy) 2 2 s

end Sys2Proof.Machine
end

