-- ==== Sys2Proof/Machine/Load8.lean ====
section
/-! DEFINITION. The 8-bit load group (R200 to R215). -/

namespace Sys2Proof.Machine

/-- A byte move: the source is read, then the destination written, its address taken first (R202). -/
def loadByte (dst : Loc8) (src : Src8) (len m1 : Nat) (s : State) : Result :=
  let t := advance len m1 s
  .next (dst.write (src.read t) (src.readDone t))

/-- `LD__BC__A` (R208). -/
def execLdMemBcA (s : State) : Result := loadByte (.mem .bc) (.loc (.reg .a)) 1 1 s

/-- `LD__DE__A` (R209). -/
def execLdMemDeA (s : State) : Result := loadByte (.mem .de) (.loc (.reg .a)) 1 1 s

/-- `LD__nn__A` (R210). -/
def execLdMemNnA (nn : Word) (s : State) : Result := loadByte (.mem (.abs nn)) (.loc (.reg .a)) 3 1 s

/-- `LD_A__BC` (R205). -/
def execLdAMemBc (s : State) : Result := loadByte (.reg .a) (.loc (.mem .bc)) 1 1 s

/-- `LD_A__DE` (R206). -/
def execLdAMemDe (s : State) : Result := loadByte (.reg .a) (.loc (.mem .de)) 1 1 s

/-- `LD_A__nn` (R207). -/
def execLdAMemNn (nn : Word) (s : State) : Result := loadByte (.reg .a) (.loc (.mem (.abs nn))) 3 1 s

/-- `LD_r_n` (R201). -/
def execLdRN (r : Reg8) (n : Byte) (s : State) : Result := loadByte (.reg r) (.imm n) 2 1 s

/-- `LD__HL__n` (R204). -/
def execLdHlN (n : Byte) (s : State) : Result := loadByte (.mem .hl) (.imm n) 2 1 s

/-- `LD_r_r` (R200). -/
def execLdRR (dst : Reg8) (src : Reg8) (s : State) : Result := loadByte (.reg dst) (.loc (.reg src)) 1 1 s

/-- `LD_r__HL` (R202). -/
def execLdRHl (dst : Reg8) (s : State) : Result := loadByte (.reg dst) (.loc (.mem .hl)) 1 1 s

/-- `LD__HL__r` (R203). -/
def execLdHlR (src : Reg8) (s : State) : Result := loadByte (.mem .hl) (.loc (.reg src)) 1 1 s

/-- `LD_IXh_IXl_n` (R215). -/
def execLdIxHalfN (half : IdxHalf) (n : Byte) (s : State) : Result := loadByte (.half .ix half) (.imm n) 3 2 s

/-- `LD__IX+d__n` (R213). -/
def execLdIxDN (d : Byte) (n : Byte) (s : State) : Result := loadByte (.mem (.idx .ix d)) (.imm n) 4 2 s

/-- `LD_r__IX+d` (R211). -/
def execLdRIxD (r : Reg8) (d : Byte) (s : State) : Result := loadByte (.reg r) (.loc (.mem (.idx .ix d))) 3 2 s

/-- `LD__IX+d__r` (R212). -/
def execLdIxDR (d : Byte) (r : Reg8) (s : State) : Result := loadByte (.mem (.idx .ix d)) (.loc (.reg r)) 3 2 s

/-- `LD_r__r____IXh_IXl` (R214). -/
def execLdRRIx (dst : IdxReg8) (src : IdxReg8) (s : State) : Result := loadByte (dst.loc .ix) (.loc (src.loc .ix)) 2 2 s

/-- `LD_IYh_IYl_n` (R215). -/
def execLdIyHalfN (half : IdxHalf) (n : Byte) (s : State) : Result := loadByte (.half .iy half) (.imm n) 3 2 s

/-- `LD__IY+d__n` (R213). -/
def execLdIyDN (d : Byte) (n : Byte) (s : State) : Result := loadByte (.mem (.idx .iy d)) (.imm n) 4 2 s

/-- `LD_r__IY+d` (R211). -/
def execLdRIyD (r : Reg8) (d : Byte) (s : State) : Result := loadByte (.reg r) (.loc (.mem (.idx .iy d))) 3 2 s

/-- `LD__IY+d__r` (R212). -/
def execLdIyDR (d : Byte) (r : Reg8) (s : State) : Result := loadByte (.mem (.idx .iy d)) (.loc (.reg r)) 3 2 s

/-- `LD_r__r____IYh_IYl` (R214). -/
def execLdRRIy (dst : IdxReg8) (src : IdxReg8) (s : State) : Result := loadByte (dst.loc .iy) (.loc (src.loc .iy)) 2 2 s

end Sys2Proof.Machine
end

