-- ==== Sys2Proof/Machine/Prefixes.lean ====
section
/-! DEFINITION. The prefix rows (R124, R662): what a prefix byte does by itself. -/

namespace Sys2Proof.Machine

/-- A prefix that selects a table: its byte and its M1 fetch are counted in the instruction it begins (R47, R127), and
it changes nothing by itself. -/
def selectTable (s : State) : Result := .next s

/-- A superseded or ignored prefix (R662): one byte and one M1 fetch, and no other effect; `inhibit` waits for the
instruction that completes the step. -/
def consumeByte (s : State) : Result := .next { s.countM1 1 with pc := s.pc + 1 }

/-- `prefix_CB` (R124). -/
def execPrefixCb (s : State) : Result := selectTable s

/-- `prefix_DD` (R124). -/
def execPrefixDd (s : State) : Result := selectTable s

/-- `prefix_ED` (R124). -/
def execPrefixEd (s : State) : Result := selectTable s

/-- `prefix_FD` (R124). -/
def execPrefixFd (s : State) : Result := selectTable s

/-- `prefix_DD_CB__indexed_bit_table` (R124). -/
def execPrefixDdCb (s : State) : Result := selectTable s

/-- `prefix_DD_then_DD_ED_FD__DD_ignored` (R124). -/
def execSupersededDd (_next : NextPrefix) (s : State) : Result := consumeByte s

/-- `DD_ignored__then_unprefixed_opcode` (R662). -/
def execIgnoredDd (_op : Byte) (s : State) : Result := consumeByte s

/-- `prefix_FD_CB__indexed_bit_table` (R124). -/
def execPrefixFdCb (s : State) : Result := selectTable s

/-- `prefix_FD_then_DD_ED_FD__FD_ignored` (R124). -/
def execSupersededFd (_next : NextPrefix) (s : State) : Result := consumeByte s

/-- `FD_ignored__then_unprefixed_opcode` (R662). -/
def execIgnoredFd (_op : Byte) (s : State) : Result := consumeByte s

end Sys2Proof.Machine
end

