-- ==== Sys2Proof/Machine/Dispatch.lean ====
section
/-! DEFINITION. One arm per constructor of `Instr`, each a call of the meaning of that instruction. -/

namespace Sys2Proof.Machine

def exec (i : Instr) (s : State) : Host.Outcome State Fault Refusal :=
  match i with
  | .nop => Sys2Proof.Machine.execNop s
  | .exAfAf => Sys2Proof.Machine.execExAfAf s
  | .djnz e => Sys2Proof.Machine.execDjnz e s
  | .jr e => Sys2Proof.Machine.execJr e s
  | .jrCc cc e => Sys2Proof.Machine.execJrCc cc e s
  | .ldDdNn dd nn => Sys2Proof.Machine.execLdDdNn dd nn s
  | .addHlSs ss => Sys2Proof.Machine.execAddHlSs ss s
  | .ldMemBcA => Sys2Proof.Machine.execLdMemBcA s
  | .ldMemDeA => Sys2Proof.Machine.execLdMemDeA s
  | .ldMemNnHl nn => Sys2Proof.Machine.execLdMemNnHl nn s
  | .ldMemNnA nn => Sys2Proof.Machine.execLdMemNnA nn s
  | .ldAMemBc => Sys2Proof.Machine.execLdAMemBc s
  | .ldAMemDe => Sys2Proof.Machine.execLdAMemDe s
  | .ldHlMemNn nn => Sys2Proof.Machine.execLdHlMemNn nn s
  | .ldAMemNn nn => Sys2Proof.Machine.execLdAMemNn nn s
  | .incSs ss => Sys2Proof.Machine.execIncSs ss s
  | .decSs ss => Sys2Proof.Machine.execDecSs ss s
  | .incR r => Sys2Proof.Machine.execIncR r s
  | .incHl => Sys2Proof.Machine.execIncHl s
  | .decR r => Sys2Proof.Machine.execDecR r s
  | .decHl => Sys2Proof.Machine.execDecHl s
  | .ldRN r n => Sys2Proof.Machine.execLdRN r n s
  | .ldHlN n => Sys2Proof.Machine.execLdHlN n s
  | .rlca => Sys2Proof.Machine.execRlca s
  | .rrca => Sys2Proof.Machine.execRrca s
  | .rla => Sys2Proof.Machine.execRla s
  | .rra => Sys2Proof.Machine.execRra s
  | .daa => Sys2Proof.Machine.execDaa s
  | .cpl => Sys2Proof.Machine.execCpl s
  | .scf => Sys2Proof.Machine.execScf s
  | .ccf => Sys2Proof.Machine.execCcf s
  | .halt => Sys2Proof.Machine.execHalt s
  | .ldRR dst src => Sys2Proof.Machine.execLdRR dst src s
  | .ldRHl dst => Sys2Proof.Machine.execLdRHl dst s
  | .ldHlR src => Sys2Proof.Machine.execLdHlR src s
  | .addAR r => Sys2Proof.Machine.execAddAR r s
  | .addAHl => Sys2Proof.Machine.execAddAHl s
  | .addAN n => Sys2Proof.Machine.execAddAN n s
  | .adcAR r => Sys2Proof.Machine.execAdcAR r s
  | .adcAHl => Sys2Proof.Machine.execAdcAHl s
  | .adcAN n => Sys2Proof.Machine.execAdcAN n s
  | .subR r => Sys2Proof.Machine.execSubR r s
  | .subHl => Sys2Proof.Machine.execSubHl s
  | .subN n => Sys2Proof.Machine.execSubN n s
  | .sbcAR r => Sys2Proof.Machine.execSbcAR r s
  | .sbcAHl => Sys2Proof.Machine.execSbcAHl s
  | .sbcAN n => Sys2Proof.Machine.execSbcAN n s
  | .andR r => Sys2Proof.Machine.execAndR r s
  | .andHl => Sys2Proof.Machine.execAndHl s
  | .andN n => Sys2Proof.Machine.execAndN n s
  | .xorR r => Sys2Proof.Machine.execXorR r s
  | .xorHl => Sys2Proof.Machine.execXorHl s
  | .xorN n => Sys2Proof.Machine.execXorN n s
  | .orR r => Sys2Proof.Machine.execOrR r s
  | .orHl => Sys2Proof.Machine.execOrHl s
  | .orN n => Sys2Proof.Machine.execOrN n s
  | .cpR r => Sys2Proof.Machine.execCpR r s
  | .cpHl => Sys2Proof.Machine.execCpHl s
  | .cpN n => Sys2Proof.Machine.execCpN n s
  | .retCc cc => Sys2Proof.Machine.execRetCc cc s
  | .popQq qq => Sys2Proof.Machine.execPopQq qq s
  | .ret => Sys2Proof.Machine.execRet s
  | .exx => Sys2Proof.Machine.execExx s
  | .jpHl => Sys2Proof.Machine.execJpHl s
  | .ldSpHl => Sys2Proof.Machine.execLdSpHl s
  | .jpCcNn cc nn => Sys2Proof.Machine.execJpCcNn cc nn s
  | .jpNn nn => Sys2Proof.Machine.execJpNn nn s
  | .outNA n => Sys2Proof.Machine.execOutNA n s
  | .inAN n => Sys2Proof.Machine.execInAN n s
  | .exSpHl => Sys2Proof.Machine.execExSpHl s
  | .exDeHl => Sys2Proof.Machine.execExDeHl s
  | .di => Sys2Proof.Machine.execDi s
  | .ei => Sys2Proof.Machine.execEi s
  | .callCcNn cc nn => Sys2Proof.Machine.execCallCcNn cc nn s
  | .pushQq qq => Sys2Proof.Machine.execPushQq qq s
  | .callNn nn => Sys2Proof.Machine.execCallNn nn s
  | .rst t => Sys2Proof.Machine.execRst t s
  | .prefixCb => Sys2Proof.Machine.execPrefixCb s
  | .prefixDd => Sys2Proof.Machine.execPrefixDd s
  | .prefixEd => Sys2Proof.Machine.execPrefixEd s
  | .prefixFd => Sys2Proof.Machine.execPrefixFd s
  | .rlcR r => Sys2Proof.Machine.execRlcR r s
  | .rlcHl => Sys2Proof.Machine.execRlcHl s
  | .rrcR r => Sys2Proof.Machine.execRrcR r s
  | .rrcHl => Sys2Proof.Machine.execRrcHl s
  | .rlR r => Sys2Proof.Machine.execRlR r s
  | .rlHl => Sys2Proof.Machine.execRlHl s
  | .rrR r => Sys2Proof.Machine.execRrR r s
  | .rrHl => Sys2Proof.Machine.execRrHl s
  | .slaR r => Sys2Proof.Machine.execSlaR r s
  | .slaHl => Sys2Proof.Machine.execSlaHl s
  | .sraR r => Sys2Proof.Machine.execSraR r s
  | .sraHl => Sys2Proof.Machine.execSraHl s
  | .sllR r => Sys2Proof.Machine.execSllR r s
  | .sllHl => Sys2Proof.Machine.execSllHl s
  | .srlR r => Sys2Proof.Machine.execSrlR r s
  | .srlHl => Sys2Proof.Machine.execSrlHl s
  | .bitBR b r => Sys2Proof.Machine.execBitBR b r s
  | .bitBHl b => Sys2Proof.Machine.execBitBHl b s
  | .resBR b r => Sys2Proof.Machine.execResBR b r s
  | .resBHl b => Sys2Proof.Machine.execResBHl b s
  | .setBR b r => Sys2Proof.Machine.execSetBR b r s
  | .setBHl b => Sys2Proof.Machine.execSetBHl b s
  | .inRC r => Sys2Proof.Machine.execInRC r s
  | .inC => Sys2Proof.Machine.execInC s
  | .outCR r => Sys2Proof.Machine.execOutCR r s
  | .outC0 => Sys2Proof.Machine.execOutC0 s
  | .sbcHlSs ss => Sys2Proof.Machine.execSbcHlSs ss s
  | .adcHlSs ss => Sys2Proof.Machine.execAdcHlSs ss s
  | .ldMemNnDd dd nn => Sys2Proof.Machine.execLdMemNnDd dd nn s
  | .ldDdMemNn dd nn => Sys2Proof.Machine.execLdDdMemNn dd nn s
  | .neg y => Sys2Proof.Machine.execNeg y s
  | .retn y => Sys2Proof.Machine.execRetn y s
  | .reti => Sys2Proof.Machine.execReti s
  | .im0 y5 y3 => Sys2Proof.Machine.execIm0 y5 y3 s
  | .im1 y5 => Sys2Proof.Machine.execIm1 y5 s
  | .im2 y5 => Sys2Proof.Machine.execIm2 y5 s
  | .noni00 z => Sys2Proof.Machine.execNoni00 z s
  | .noniC0 z => Sys2Proof.Machine.execNoniC0 z s
  | .noni80 z => Sys2Proof.Machine.execNoni80 z s
  | .noniA4 hi lo => Sys2Proof.Machine.execNoniA4 hi lo s
  | .addIxPp pp => Sys2Proof.Machine.execAddIxPp pp s
  | .ldIxNn nn => Sys2Proof.Machine.execLdIxNn nn s
  | .ldMemNnIx nn => Sys2Proof.Machine.execLdMemNnIx nn s
  | .incIx => Sys2Proof.Machine.execIncIx s
  | .decIx => Sys2Proof.Machine.execDecIx s
  | .ldIxMemNn nn => Sys2Proof.Machine.execLdIxMemNn nn s
  | .incIxHalf half => Sys2Proof.Machine.execIncIxHalf half s
  | .decIxHalf half => Sys2Proof.Machine.execDecIxHalf half s
  | .ldIxHalfN half n => Sys2Proof.Machine.execLdIxHalfN half n s
  | .incIxD d => Sys2Proof.Machine.execIncIxD d s
  | .decIxD d => Sys2Proof.Machine.execDecIxD d s
  | .ldIxDN d n => Sys2Proof.Machine.execLdIxDN d n s
  | .ldRIxD r d => Sys2Proof.Machine.execLdRIxD r d s
  | .ldIxDR d r => Sys2Proof.Machine.execLdIxDR d r s
  | .ldRRIx dst src => Sys2Proof.Machine.execLdRRIx dst src s
  | .addAIxHalf half => Sys2Proof.Machine.execAddAIxHalf half s
  | .addAIxD d => Sys2Proof.Machine.execAddAIxD d s
  | .adcAIxHalf half => Sys2Proof.Machine.execAdcAIxHalf half s
  | .adcAIxD d => Sys2Proof.Machine.execAdcAIxD d s
  | .subIxHalf half => Sys2Proof.Machine.execSubIxHalf half s
  | .subIxD d => Sys2Proof.Machine.execSubIxD d s
  | .sbcAIxHalf half => Sys2Proof.Machine.execSbcAIxHalf half s
  | .sbcAIxD d => Sys2Proof.Machine.execSbcAIxD d s
  | .andIxHalf half => Sys2Proof.Machine.execAndIxHalf half s
  | .andIxD d => Sys2Proof.Machine.execAndIxD d s
  | .xorIxHalf half => Sys2Proof.Machine.execXorIxHalf half s
  | .xorIxD d => Sys2Proof.Machine.execXorIxD d s
  | .orIxHalf half => Sys2Proof.Machine.execOrIxHalf half s
  | .orIxD d => Sys2Proof.Machine.execOrIxD d s
  | .cpIxHalf half => Sys2Proof.Machine.execCpIxHalf half s
  | .cpIxD d => Sys2Proof.Machine.execCpIxD d s
  | .popIx => Sys2Proof.Machine.execPopIx s
  | .exSpIx => Sys2Proof.Machine.execExSpIx s
  | .pushIx => Sys2Proof.Machine.execPushIx s
  | .jpIx => Sys2Proof.Machine.execJpIx s
  | .ldSpIx => Sys2Proof.Machine.execLdSpIx s
  | .prefixDdCb => Sys2Proof.Machine.execPrefixDdCb s
  | .supersededDd next => Sys2Proof.Machine.execSupersededDd next s
  | .ignoredDd op => Sys2Proof.Machine.execIgnoredDd op s
  | .addIyPp pp => Sys2Proof.Machine.execAddIyPp pp s
  | .ldIyNn nn => Sys2Proof.Machine.execLdIyNn nn s
  | .ldMemNnIy nn => Sys2Proof.Machine.execLdMemNnIy nn s
  | .incIy => Sys2Proof.Machine.execIncIy s
  | .decIy => Sys2Proof.Machine.execDecIy s
  | .ldIyMemNn nn => Sys2Proof.Machine.execLdIyMemNn nn s
  | .incIyHalf half => Sys2Proof.Machine.execIncIyHalf half s
  | .decIyHalf half => Sys2Proof.Machine.execDecIyHalf half s
  | .ldIyHalfN half n => Sys2Proof.Machine.execLdIyHalfN half n s
  | .incIyD d => Sys2Proof.Machine.execIncIyD d s
  | .decIyD d => Sys2Proof.Machine.execDecIyD d s
  | .ldIyDN d n => Sys2Proof.Machine.execLdIyDN d n s
  | .ldRIyD r d => Sys2Proof.Machine.execLdRIyD r d s
  | .ldIyDR d r => Sys2Proof.Machine.execLdIyDR d r s
  | .ldRRIy dst src => Sys2Proof.Machine.execLdRRIy dst src s
  | .addAIyHalf half => Sys2Proof.Machine.execAddAIyHalf half s
  | .addAIyD d => Sys2Proof.Machine.execAddAIyD d s
  | .adcAIyHalf half => Sys2Proof.Machine.execAdcAIyHalf half s
  | .adcAIyD d => Sys2Proof.Machine.execAdcAIyD d s
  | .subIyHalf half => Sys2Proof.Machine.execSubIyHalf half s
  | .subIyD d => Sys2Proof.Machine.execSubIyD d s
  | .sbcAIyHalf half => Sys2Proof.Machine.execSbcAIyHalf half s
  | .sbcAIyD d => Sys2Proof.Machine.execSbcAIyD d s
  | .andIyHalf half => Sys2Proof.Machine.execAndIyHalf half s
  | .andIyD d => Sys2Proof.Machine.execAndIyD d s
  | .xorIyHalf half => Sys2Proof.Machine.execXorIyHalf half s
  | .xorIyD d => Sys2Proof.Machine.execXorIyD d s
  | .orIyHalf half => Sys2Proof.Machine.execOrIyHalf half s
  | .orIyD d => Sys2Proof.Machine.execOrIyD d s
  | .cpIyHalf half => Sys2Proof.Machine.execCpIyHalf half s
  | .cpIyD d => Sys2Proof.Machine.execCpIyD d s
  | .popIy => Sys2Proof.Machine.execPopIy s
  | .exSpIy => Sys2Proof.Machine.execExSpIy s
  | .pushIy => Sys2Proof.Machine.execPushIy s
  | .jpIy => Sys2Proof.Machine.execJpIy s
  | .ldSpIy => Sys2Proof.Machine.execLdSpIy s
  | .prefixFdCb => Sys2Proof.Machine.execPrefixFdCb s
  | .supersededFd next => Sys2Proof.Machine.execSupersededFd next s
  | .ignoredFd op => Sys2Proof.Machine.execIgnoredFd op s
  | .rlcIxD d => Sys2Proof.Machine.execRlcIxD d s
  | .ldRRlcIxD r d => Sys2Proof.Machine.execLdRRlcIxD r d s
  | .rrcIxD d => Sys2Proof.Machine.execRrcIxD d s
  | .ldRRrcIxD r d => Sys2Proof.Machine.execLdRRrcIxD r d s
  | .rlIxD d => Sys2Proof.Machine.execRlIxD d s
  | .ldRRlIxD r d => Sys2Proof.Machine.execLdRRlIxD r d s
  | .rrIxD d => Sys2Proof.Machine.execRrIxD d s
  | .ldRRrIxD r d => Sys2Proof.Machine.execLdRRrIxD r d s
  | .slaIxD d => Sys2Proof.Machine.execSlaIxD d s
  | .ldRSlaIxD r d => Sys2Proof.Machine.execLdRSlaIxD r d s
  | .sraIxD d => Sys2Proof.Machine.execSraIxD d s
  | .ldRSraIxD r d => Sys2Proof.Machine.execLdRSraIxD r d s
  | .sllIxD d => Sys2Proof.Machine.execSllIxD d s
  | .ldRSllIxD r d => Sys2Proof.Machine.execLdRSllIxD r d s
  | .srlIxD d => Sys2Proof.Machine.execSrlIxD d s
  | .ldRSrlIxD r d => Sys2Proof.Machine.execLdRSrlIxD r d s
  | .bitBIxD b z d => Sys2Proof.Machine.execBitBIxD b z d s
  | .resBIxD b d => Sys2Proof.Machine.execResBIxD b d s
  | .ldRResBIxD r b d => Sys2Proof.Machine.execLdRResBIxD r b d s
  | .setBIxD b d => Sys2Proof.Machine.execSetBIxD b d s
  | .ldRSetBIxD r b d => Sys2Proof.Machine.execLdRSetBIxD r b d s
  | .rlcIyD d => Sys2Proof.Machine.execRlcIyD d s
  | .ldRRlcIyD r d => Sys2Proof.Machine.execLdRRlcIyD r d s
  | .rrcIyD d => Sys2Proof.Machine.execRrcIyD d s
  | .ldRRrcIyD r d => Sys2Proof.Machine.execLdRRrcIyD r d s
  | .rlIyD d => Sys2Proof.Machine.execRlIyD d s
  | .ldRRlIyD r d => Sys2Proof.Machine.execLdRRlIyD r d s
  | .rrIyD d => Sys2Proof.Machine.execRrIyD d s
  | .ldRRrIyD r d => Sys2Proof.Machine.execLdRRrIyD r d s
  | .slaIyD d => Sys2Proof.Machine.execSlaIyD d s
  | .ldRSlaIyD r d => Sys2Proof.Machine.execLdRSlaIyD r d s
  | .sraIyD d => Sys2Proof.Machine.execSraIyD d s
  | .ldRSraIyD r d => Sys2Proof.Machine.execLdRSraIyD r d s
  | .sllIyD d => Sys2Proof.Machine.execSllIyD d s
  | .ldRSllIyD r d => Sys2Proof.Machine.execLdRSllIyD r d s
  | .srlIyD d => Sys2Proof.Machine.execSrlIyD d s
  | .ldRSrlIyD r d => Sys2Proof.Machine.execLdRSrlIyD r d s
  | .bitBIyD b z d => Sys2Proof.Machine.execBitBIyD b z d s
  | .resBIyD b d => Sys2Proof.Machine.execResBIyD b d s
  | .ldRResBIyD r b d => Sys2Proof.Machine.execLdRResBIyD r b d s
  | .setBIyD b d => Sys2Proof.Machine.execSetBIyD b d s
  | .ldRSetBIyD r b d => Sys2Proof.Machine.execLdRSetBIyD r b d s
  | .ldIA => Sys2Proof.Machine.execLdIA s
  | .ldRA => Sys2Proof.Machine.execLdRA s
  | .ldAI => Sys2Proof.Machine.execLdAI s
  | .ldAR => Sys2Proof.Machine.execLdAR s
  | .rrd => Sys2Proof.Machine.execRrd s
  | .rld => Sys2Proof.Machine.execRld s
  | .noni77 => Sys2Proof.Machine.execNoni77 s
  | .noni7F => Sys2Proof.Machine.execNoni7F s
  | .ldi => Sys2Proof.Machine.execLdi s
  | .cpi => Sys2Proof.Machine.execCpi s
  | .ini => Sys2Proof.Machine.execIni s
  | .outi => Sys2Proof.Machine.execOuti s
  | .ldd => Sys2Proof.Machine.execLdd s
  | .cpd => Sys2Proof.Machine.execCpd s
  | .ind => Sys2Proof.Machine.execInd s
  | .outd => Sys2Proof.Machine.execOutd s
  | .ldir => Sys2Proof.Machine.execLdir s
  | .cpir => Sys2Proof.Machine.execCpir s
  | .inir => Sys2Proof.Machine.execInir s
  | .otir => Sys2Proof.Machine.execOtir s
  | .lddr => Sys2Proof.Machine.execLddr s
  | .cpdr => Sys2Proof.Machine.execCpdr s
  | .indr => Sys2Proof.Machine.execIndr s
  | .otdr => Sys2Proof.Machine.execOtdr s

end Sys2Proof.Machine
end

