-- ==== Sys2Proof/Machine/Execute.lean ====
section
/-! DEFINITION. Fetching, decoding and running one instruction with the prefix rows before it (R103, R121, R124, R701).
Each byte of a step is fetched once, in address order (R99). -/

namespace Sys2Proof.Machine

/-! ### Fetching (R121) -/

/-- What the next `n` bytes from `a` up are when they are fetched one after another. -/
def fetchBytes (n : Nat) (a : Word) (s : State) : List Byte :=
  match n with
  | 0 => []
  | n + 1 => memRead s a :: fetchBytes n (a + 1) (memReadDone a s)

/-- The state after `n` bytes from `a` up are fetched. -/
def fetchDone (n : Nat) (a : Word) (s : State) : State :=
  match n with
  | 0 => s
  | n + 1 => fetchDone n (a + 1) (memReadDone a s)

/-- What the bytes of one row decode to; bytes that the row does not have are zeros that the decoder does not look at. -/
def decodeBytes (bs : List Byte) : Decoded :=
  decodeWindow (bs.getD 0 0) (bs.getD 1 0) (bs.getD 2 0) (bs.getD 3 0)

/-- The byte is one of the four prefixes (R124). -/
def isPrefixByte (b : Byte) : Bool := b == 0xCB || b == 0xDD || b == 0xED || b == 0xFD

/-- How many bytes the row at PC takes from the bus, its first byte being `b0`. A prefix byte takes a second byte, which
says how many more follow; a superseded or ignored prefix takes the byte after it too, which begins the next row. -/
def rowLength (b0 : Byte) (s : State) : Nat :=
  if isPrefixByte b0 then max 2 (decodeBytes [b0, memRead s (s.pc + 1)]).instr.length
  else (decodeBytes [b0]).instr.length

/-- The bytes of the row at PC, whose first byte has been fetched. -/
def rowBytes (b0 : Byte) (s : State) : List Byte := b0 :: fetchBytes (rowLength b0 s - 1) (s.pc + 1) s

/-- The state after the bytes of the row at PC are fetched. -/
def rowFetched (b0 : Byte) (s : State) : State := fetchDone (rowLength b0 s - 1) (s.pc + 1) s

/-! ### Running rows -/

/-- The first register that the row reads and nothing has written since reset. -/
def firstUnwritten (i : Instr) (s : State) : Option Unspecified :=
  ((opOf i).access s.params.rModel).reads.find? (fun x => s.unwritten.contains x)

/-- The registers that the row writes are written. -/
def markWritten (i : Instr) (s : State) : State :=
  { s with unwritten := s.unwritten.filter (fun x => !((opOf i).access s.params.rModel).writes.contains x) }

/-- Run one row. Under `RESET_UNSPEC = fault_on_read` it is refused where it would read a register that is unspecified at
reset and that nothing has written (R712 item 4, R800; log 3). -/
def runRow (i : Instr) (s : State) : Result :=
  match s.params.resetUnspec with
  | .draw => exec i s
  | .faultOnRead =>
    match firstUnwritten i s with
    | some x => .refused (.unspecifiedRead x)
    | none =>
      match exec i s with
      | .next t => .next (markWritten i t)
      | .fault f => .fault f
      | .refused r => .refused r

/-- Run rows one after another. -/
def runRows (rows : List Instr) (s : State) : Result :=
  match rows with
  | [] => .next s
  | i :: rest =>
    match runRow i s with
    | .next t => runRows rest t
    | .fault f => .fault f
    | .refused r => .refused r

/-- Fetch and run the row at PC, whose first byte has been fetched; after an ignored prefix, go on with the row that its
second byte begins, in the same step (R662). `fuel` counts the ignored prefixes the step may still consume: a step that
uses up one for every address never reaches an instruction (R712). -/
def executeFrom (fuel : Nat) (b0 : Byte) (s : State) : Result :=
  match fuel with
  | 0 => .refused .endlessPrefixRun
  | fuel + 1 =>
    let bs := rowBytes b0 s
    let d := decodeBytes bs
    match runRows (d.path ++ [d.instr]) (rowFetched b0 s) with
    | .next t => if d.instr.isIgnoredPrefix then executeFrom fuel (bs.getD 1 0) t else .next t
    | .fault f => .fault f
    | .refused r => .refused r

/-- `execute_one()` (R701). The record of `IllegalOpcode` has the address of the first byte of the step (R711). -/
def executeOne (s : State) : Result :=
  match executeFrom 65536 (memRead s s.pc) (memReadDone s.pc s) with
  | .fault (.illegalOpcode _ first second bus) => .fault (.illegalOpcode s.pc first second bus)
  | o => o

/-- A step of a halted core that accepts no interrupt (R651): it fetches the byte at PC again and executes `HALT` again
at the same PC, whatever the machine answers (log 11). -/
def executeHalted (s : State) : Result := runRow .halt (memReadDone s.pc s)

/-! ### Placing one instruction -/

/-- Store the low `n` bytes of a table word from `a` up, `k` being the first byte's number. The bytes are placed in the
backing store; no transaction is made. -/
def storeTableWord (nbits w : Nat) (a : Word) (k n : Nat) (s : State) : State :=
  match n with
  | 0 => s
  | n + 1 =>
    storeTableWord nbits w (a + 1) (k + 1) n { s with bus := s.bus.store a (tableByte nbits w k) }

/-- The machine ready to execute at PC from RAM: an identity map and nothing that the machine will do of its own, no
interrupt to accept first, a running core of the specified model. -/
def readyToFetch (s : State) : State :=
  { s with
    bus := { s.bus with map := [], reactions := [] }
    nmiPending := false
    intLine := false
    halted := false
    params := { s.params with cpuModel := .z80 } }

end Sys2Proof.Machine
end

