-- ==== Sys2Proof/Machine/Step.lean ====
section
/-! DEFINITION. One step of the machine (R700). -/

namespace Sys2Proof.Machine

/-- `step()` (R700): an NMI if one is pending, else a maskable interrupt if one can be accepted (R716, R718), else one
instruction, which for a halted core is `HALT` again (R651). `CPU_MODEL = r800` is refused (R4, R712). -/
def step (s : State) : Host.Outcome State Fault Refusal :=
  match s.params.cpuModel with
  | .r800 => .refused .r800Model
  | .z80 =>
    if s.nmiPending then .next (acceptNmi s)
    else if s.intLine && s.iff1 && !s.inhibit then acceptInt s
    else if s.halted then executeHalted s
    else executeOne s

/-- The state with one instruction of the opcode table, zeros after it, stored at PC, and nothing that keeps the next
step from fetching it. -/
def State.withFetchWord (s : State) (nbits w : Nat) : State :=
  storeTableWord nbits w s.pc 0 4 (readyToFetch s)

end Sys2Proof.Machine
end

