-- ==== Sys2Proof/Machine/HostCalls.lean ====
section
/-! DEFINITION. What the surrounding machine can do between steps (R703, R730 to R733, R745, R800), and what a step
reports to it (R702). -/

namespace Sys2Proof.Machine

/-! ### Host calls -/

/-- `request_interrupt(vector_byte)` (R730). -/
def requestInterrupt (v : Byte) (s : State) : State := { s with intLine := true, intVector := v }

/-- `withdraw_interrupt()` (R731). -/
def withdrawInterrupt (s : State) : State := { s with intLine := false }

/-- `request_nmi()` (R732): a latch, so a second request before acceptance adds nothing (R717). -/
def requestNmi (s : State) : State := { s with nmiPending := true }

/-- Eight free bytes from draw `n` on, as a register set. -/
def drawRegSet (n : Nat) : RegSet where
  a := Config.freeByte n
  f := Config.freeByte (n + 1)
  b := Config.freeByte (n + 2)
  c := Config.freeByte (n + 3)
  d := Config.freeByte (n + 4)
  e := Config.freeByte (n + 5)
  h := Config.freeByte (n + 6)
  l := Config.freeByte (n + 7)

/-- `reset()` (R800) on a machine that has run: the values R800 gives; every unspecified register drawn, and, for
`RESET_UNSPEC = fault_on_read`, unwritten again; the interrupt request and the surrounding machine as they were. -/
def hostReset (s : State) : State :=
  let n := s.draws
  { s with
    main := { drawRegSet n with a := 0xFF, f := 0xFF }
    alt := drawRegSet (n + 8)
    ix := wordOf (Config.freeByte (n + 16)) (Config.freeByte (n + 17))
    iy := wordOf (Config.freeByte (n + 18)) (Config.freeByte (n + 19))
    sp := 0xFFFF
    pc := 0
    i := Config.freeByte (n + 20)
    r := Config.freeByte (n + 21)
    iff1 := false
    iff2 := false
    im := .im0
    halted := false
    inhibit := false
    nmiPending := false
    draws := n + 22
    unwritten := Unspecified.all }

/-- The machine changes its address map between steps (R83). -/
def setMap (map : List Region) (s : State) : State := { s with bus := { s.bus with map := map } }

/-- The machine settles what it will do in the bus transactions to come: what it answers, and where it changes its
address map, as a port access may make it do (R82, R83, R95, R96). -/
def setReactions (reactions : List Reaction) (s : State) : State :=
  { s with bus := { s.bus with reactions := reactions } }

/-- Devices are attached to and taken from ports between steps (R11, R95). -/
def setPorts (ports : List PortRange) (s : State) : State := { s with bus := { s.bus with ports := ports } }

/-- `dump_state()` (R53): all of the table of R52: registers, flags and mode bits, and the request inputs. -/
structure Snapshot where
  main : RegSet
  alt : RegSet
  ix : Word
  iy : Word
  sp : Word
  pc : Word
  i : Byte
  r : Byte
  iff1 : Bool
  iff2 : Bool
  im : IntMode
  halted : Bool
  inhibit : Bool
  nmiPending : Bool
  intLine : Bool
  intVector : Byte
deriving DecidableEq, Repr

/-- `dump_state()` (R53): a read-only copy. DESIGN CHOICE (log 19): under `RESET_UNSPEC = fault_on_read` it is no first read of
a register that nothing has written (R712 item 4), so it is not refused, gives the value that the register holds, and leaves
it unwritten. The spec does not speak of the two together. -/
def dumpState (s : State) : Snapshot where
  main := s.main
  alt := s.alt
  ix := s.ix
  iy := s.iy
  sp := s.sp
  pc := s.pc
  i := s.i
  r := s.r
  iff1 := s.iff1
  iff2 := s.iff2
  im := s.im
  halted := s.halted
  inhibit := s.inhibit
  nmiPending := s.nmiPending
  intLine := s.intLine
  intVector := s.intVector

/-- Construction with a model string (R4, R713): an unrecognised string gives no core (`InvalidCpuModel`). -/
def construct (name : String) : Option State :=
  match Config.CpuModel.ofName name with
  | some m => some { State.reset with params := { State.reset.params with cpuModel := m } }
  | none => none

/-! ### What a step reports (R702) -/

/-- The kinds of a step. -/
inductive StepKind where
  | instruction
  | nmi
  | int
  | illegal
deriving DecidableEq, Repr

/-- The record of `IllegalOpcode` (R711): the address of the first byte of the step, the `ED` byte and the opcode byte. -/
structure IllegalRecord where
  pc : Word
  first : Byte
  second : Byte
deriving DecidableEq, Repr

/-- `StepResult` (R702), with the record of R711 where the kind is `illegal`. -/
structure StepResult where
  kind : StepKind
  length : Nat
  repeats : Bool
  illegal : Option IllegalRecord
deriving DecidableEq, Repr

/-- A repeating block instruction (R566). -/
def isRepeatingBlock (i : Instr) : Bool :=
  [Instr.ldir, .lddr, .cpir, .cpdr, .inir, .indr, .otir, .otdr].contains i

/-- The length of the step's instruction, ignored prefixes included (R127), and whether it is a repeating block
instruction that will run again: its pass left PC at its `ED` byte. It follows `executeFrom`. -/
def instructionReport (fuel : Nat) (b0 : Byte) (s : State) : Nat × Bool :=
  match fuel with
  | 0 => (0, false)
  | fuel + 1 =>
    let bs := rowBytes b0 s
    let d := decodeBytes bs
    match runRows (d.path ++ [d.instr]) (rowFetched b0 s) with
    | .next t =>
      if d.instr.isIgnoredPrefix then
        let r := instructionReport fuel (bs.getD 1 0) t
        (r.1 + d.instr.length, r.2)
      else (d.instr.length, isRepeatingBlock d.instr && t.pc == s.pc)
    | .fault _ => (0, false)
    | .refused _ => (0, false)

/-- The `StepResult` of the step from `s` (R700, R702, R711); `none` where the step is refused. -/
def stepResult (s : State) : Option StepResult :=
  match step s with
  | .refused _ => none
  | .fault (.illegalOpcode a first second _) =>
    some { kind := .illegal, length := 0, repeats := false, illegal := some { pc := a, first := first, second := second } }
  | .next _ =>
    if s.nmiPending then some { kind := .nmi, length := 0, repeats := false, illegal := none }
    else if s.intLine && s.iff1 && !s.inhibit then
      some { kind := .int, length := 0, repeats := false, illegal := none }
    else if s.halted then some { kind := .instruction, length := 1, repeats := false, illegal := none }
    else
      let r := instructionReport 65536 (memRead s s.pc) (memReadDone s.pc s)
      some { kind := .instruction, length := r.1, repeats := r.2, illegal := none }

/-- Where a step that ends in `IllegalOpcode` leaves the machine (R711): the architectural state of before the step, and the
surrounding machine with the step's fetches made (R99). What the host does next is outside the core. -/
def afterFault (f : Fault) (s : State) : State :=
  match f with
  | .illegalOpcode _ _ _ bus => { s with bus := bus }

/-! ### The execution driver (R745) -/

/-- At most `n` steps, stopping cleanly before the step whose PC is a breakpoint (R745); single-stepping is `n = 1`. -/
def drive (breakpoints : List Word) (n : Nat) (s : State) : Result :=
  match n with
  | 0 => .next s
  | n + 1 =>
    if breakpoints.contains s.pc then .next s
    else
      match step s with
      | .next t => drive breakpoints n t
      | .fault f => .fault f
      | .refused r => .refused r

end Sys2Proof.Machine
end

