-- ==== Sys2Proof/Safety.lean ====
section
/-! DEFINITION. What a sound state and a safe run of this machine are, and the terms the statements use: the frame of
an instruction, its retirement, and what it leaves in an operand. -/

namespace Sys2Proof

open Sys2Proof.Machine

/-! ### The bus -/

/-- The transactions `es`, one after another. -/
def Machine.State.didAll (es : List BusEvent) (s : State) : State := { s with bus := s.bus.replay es }

/-- The machine gives this transaction the value that stands in it, if it is a read (R82, R95, R102). -/
def answers (e : BusEvent) (s : State) : Prop :=
  match e with
  | .memRead a v => v = memRead s a
  | .portRead p v => v = portAnswer s p
  | .memWrite _ _ => True
  | .portWrite _ _ => True

/-- Each read of `es` gets what the machine answers when it is its turn. -/
def Answered (es : List BusEvent) (s : State) : Prop :=
  match es with
  | [] => True
  | e :: rest => answers e s ∧ Answered rest (s.did e)

/-- The address maps the machine may have from now on: the one it has, and those that reactions to come bring. -/
def Machine.Bus.maps (b : Bus) : List (List Region) := b.map :: b.reactions.filterMap (·.remap)

/-- The machine does nothing of its own in the transactions to come. -/
def Quiet (s : State) : Prop := s.bus.reactions = []

/-- The cell of the store that a read of the address gives. -/
def cellOf (map : List Region) (x : Word) : Option Nat :=
  match resolve map x with
  | .ram p => some p
  | .rom p => some p
  | .device _ => none
  | .unmapped => none

/-- A byte stored to `a` is what a read of `x` then gives. -/
def sharesCell (map : List Region) (a x : Word) : Bool :=
  match resolve map a with
  | .ram p => cellOf map x == some p
  | .rom _ => false
  | .device _ => false
  | .unmapped => false

/-- The address leads to writable storage. -/
def IsRam (map : List Region) (a : Word) : Prop := ∃ p, resolve map a = .ram p

/-- The address leads to a device. -/
def IsDevice (map : List Region) (a : Word) : Prop := ∃ p, resolve map a = .device p

/-- `s` and `t` are two states between which the bus transactions `es` happen, each once, in this order, and no others
(R99, R103), each read getting the machine's answer. The last two clauses say what that leaves alone: every cell of the
store that no write of `es` can reach; and, in a machine that does nothing of its own, what every address reads that shares
no cell with an address written (under the identity map, every other address). -/
structure Transacts (es : List BusEvent) (s t : State) : Prop where
  bus : t.bus = s.bus.replay es
  answered : Answered es s
  cells : ∀ p, (∀ a v, .memWrite a v ∈ es → ∀ m ∈ s.bus.maps, resolve m a ≠ .ram p) →
    t.bus.mem.read p = s.bus.mem.read p
  reads : Quiet s → ∀ x, ¬ IsDevice s.bus.map x → (∀ a v, .memWrite a v ∈ es → sharesCell s.bus.map a x = false) →
    memRead t x = memRead s x

/-- How many of the transactions are in the port space (R81). -/
def portCount (es : List BusEvent) : Nat :=
  (es.filter (fun e => match e with
    | .portRead _ _ => true
    | .portWrite _ _ => true
    | .memRead _ _ => false
    | .memWrite _ _ => false)).length

/-- The order `WORD_ACCESS_ORDER` lets a word access take: high byte first or not (R86, R87). -/
def OrderAllowed (s : State) (high : Bool) : Prop :=
  (s.params.wordAccessOrder = .lowFirst → high = false) ∧ (s.params.wordAccessOrder = .highFirst → high = true)

/-- The transactions of a word read at `a`, low byte at `a`, high byte at `a + 1` modulo 2^16 (R86). -/
def wordReads (high : Bool) (a : Word) (lo hi : Byte) : List BusEvent :=
  if high then [.memRead (a + 1) hi, .memRead a lo] else [.memRead a lo, .memRead (a + 1) hi]

/-- The transactions of a word write (R87). -/
def wordWrites (high : Bool) (a v : Word) : List BusEvent :=
  if high then [.memWrite (a + 1) (hiByte v), .memWrite a (loByte v)]
  else [.memWrite a (loByte v), .memWrite (a + 1) (hiByte v)]

/-- The transactions of fetching the bytes `bs` from `a` up (R121). -/
def fetches (a : Word) (bs : List Byte) : List BusEvent :=
  match bs with
  | [] => []
  | b :: rest => .memRead a b :: fetches (a + 1) rest

/-- The transactions of reading a byte operand. -/
def Machine.Loc8.readEvents (l : Loc8) (s : State) : List BusEvent :=
  match l with
  | .reg _ => []
  | .half _ _ => []
  | .mem e => [.memRead (e.addr s) (memRead s (e.addr s))]

/-- The transactions of writing a byte operand; a memory operand's address is computed in `s`. -/
def Machine.Loc8.writeEvents (l : Loc8) (v : Byte) (s : State) : List BusEvent :=
  match l with
  | .reg _ => []
  | .half _ _ => []
  | .mem e => [.memWrite (e.addr s) v]

/-- The transactions of reading a source operand. -/
def Machine.Src8.readEvents (o : Src8) (s : State) : List BusEvent :=
  match o with
  | .loc l => l.readEvents s
  | .imm _ => []

/-! ### Sound states and safe runs -/

/-- The backing store is in its canonical form. -/
def MemoryCanonical (s : State) : Prop := s.bus.mem.wf

/-- The machine is plain: it does nothing of its own, and no region of its map is a device. -/
def Plain (s : State) : Prop := Quiet s ∧ ∀ g ∈ s.bus.map, g.backing ≠ .device

/-- While `halted` is set, PC holds the address of a `HALT` opcode (R48). -/
def HaltedAtHalt (s : State) : Prop := s.halted = true → memRead s s.pc = 0x76

/-- The parameters are the defaults of R12. -/
def DefaultParams (s : State) : Prop := s.params = Config.Params.default

/-- An interrupt is accepted by the step from `s` (R700, R716, R717). -/
def acceptsInterrupt (s : State) : Bool := s.nmiPending || (s.intLine && s.iff1 && !s.inhibit)

/-- The step from `s` executes an instruction of a running core of the specified model (R700). -/
def Executes (s : State) : Prop :=
  s.params.cpuModel = .z80 ∧ acceptsInterrupt s = false ∧ s.halted = false

/-- The step from `s` accepts a maskable interrupt, or is asked to (R700, R716, R718). -/
def TakesInt (s : State) : Prop :=
  s.params.cpuModel = .z80 ∧ s.nmiPending = false ∧ s.intLine = true ∧ s.iff1 = true ∧ s.inhibit = false

/-- The step from `s` is asked to accept, in mode 0, a byte that is no `RST` (R712 item 1). -/
def mode0NonRst (s : State) : Bool :=
  !s.nmiPending && s.intLine && s.iff1 && !s.inhibit && s.im == .im0 && !isRst s.intVector

/-- The byte is `DD` or `FD`. -/
def isIndexByte (b : Byte) : Bool := b == 0xDD || b == 0xFD

/-- The machine answers `n` fetches from PC up with `DD` and `FD` bytes alone (R712 item 3). -/
def FetchesIndexBytes (n : Nat) (s : State) : Prop :=
  ∃ bs : List Byte, bs.length = n ∧ (∀ b ∈ bs, isIndexByte b = true) ∧ Answered (fetches s.pc bs) s

/-- Each of the bytes `pre` is a superseded or ignored prefix before the byte after it, `next` coming after the last
(R124, R662). -/
def IgnoredRun (pre : List Byte) (next : Byte) : Prop :=
  match pre with
  | [] => True
  | p :: rest => (decodeBytes [p, rest.headD next]).instr.isIgnoredPrefix = true ∧ IgnoredRun rest next

/-- The machine answers the fetches from PC up with the ignored prefixes `pre` and then the bytes `bs` of instruction `i`,
and no others are needed: the decoder looks at no byte after `bs`. -/
structure Fetched (pre bs : List Byte) (i : Instr) (s : State) : Prop where
  answered : Answered (fetches s.pc (pre ++ bs)) s
  prefixes : IgnoredRun pre (bs.headD 0)
  decodes : ∃ path, decode (bs ++ [0, 0, 0]) = .ok ⟨path, i⟩
  row : i.isIgnoredPrefix = false
  whole : bs.length = i.length

/-- The state after `n` ignored prefixes: PC and the M1 count of R moved on by `n`, nothing else (R662). -/
def skipPrefixes (n : Nat) (s : State) : State :=
  { s.countM1 n with pc := s.pc + BitVec.ofNat 16 n }

/-- A safe step: it produces a next state (R710). -/
def SafeStep (s : State) : Prop := ∃ t, step s = .next t

/-- `n` safe steps one after another. -/
def SafeRun (n : Nat) (s : State) : Prop := ∃ t, core.run n s = .next t

/-! ### Frames -/

/-- What an instruction may write, besides PC, R and `inhibit`. -/
structure Effect where
  regs : List Reg8 := []
  f : Bool := false
  alt : Bool := false
  ix : Bool := false
  iy : Bool := false
  sp : Bool := false
  i : Bool := false
  iff1 : Bool := false
  iff2 : Bool := false
  im : Bool := false
  halted : Bool := false
  nmi : Bool := false

/-- `t` differs from `s` at most in what `w` lists and in the bus, which `Transacts` speaks of. -/
structure Frame (w : Effect) (s t : State) : Prop where
  regs : ∀ r, r ∉ w.regs → t.reg r = s.reg r
  f : w.f = false → t.main.f = s.main.f
  alt : w.alt = false → t.alt = s.alt
  ix : w.ix = false → t.ix = s.ix
  iy : w.iy = false → t.iy = s.iy
  sp : w.sp = false → t.sp = s.sp
  i : w.i = false → t.i = s.i
  iff1 : w.iff1 = false → t.iff1 = s.iff1
  iff2 : w.iff2 = false → t.iff2 = s.iff2
  im : w.im = false → t.im = s.im
  halted : w.halted = false → t.halted = s.halted
  nmi : w.nmi = false → t.nmiPending = s.nmiPending
  intLine : t.intLine = s.intLine
  intVector : t.intVector = s.intVector
  params : t.params = s.params
  unwritten : t.unwritten = s.unwritten

/-! ### Registers that are unspecified at reset -/

/-- The shadow of a register. -/
def Machine.State.altReg (s : State) (r : Reg8) : Byte := State.reg { s with main := s.alt } r

/-- `t` is `s` but for the registers of `U` and the interrupt requests. -/
structure AgreeBut (U : Unspecified → Prop) (s t : State) : Prop where
  a : t.main.a = s.main.a
  f : t.main.f = s.main.f
  main : ∀ r, ¬ U (.main r) → t.reg r = s.reg r
  alt : ∀ r, ¬ U (.alt r) → t.altReg r = s.altReg r
  altF : ¬ U .altF → t.alt.f = s.alt.f
  half : ∀ j h, ¬ U (.half j h) → t.half j h = s.half j h
  sp : t.sp = s.sp
  pc : t.pc = s.pc
  i : ¬ U .i → t.i = s.i
  r : ¬ U .r → t.r = s.r
  iff1 : t.iff1 = s.iff1
  iff2 : t.iff2 = s.iff2
  im : t.im = s.im
  halted : t.halted = s.halted
  inhibit : t.inhibit = s.inhibit
  bus : t.bus = s.bus
  params : t.params = s.params
  draws : t.draws = s.draws
  unwritten : t.unwritten = s.unwritten

/-- `t` is `s` with other values in the registers that nothing has written since reset. -/
structure SameButUnwritten (s t : State) : Prop where
  agree : AgreeBut (fun x => x ∈ s.unwritten) s t
  nmiPending : t.nmiPending = s.nmiPending
  intLine : t.intLine = s.intLine
  intVector : t.intVector = s.intVector

/-! ### Retirement -/

/-- The M1 fetches of an instruction (R47): its prefix byte and its opcode byte; after `DD CB` and `FD CB` the opcode
byte is none. -/
def m1Fetches (i : Instr) : Nat :=
  match encode i with
  | b :: _ => if b = 0xCB ∨ b = 0xDD ∨ b = 0xED ∨ b = 0xFD then 2 else 1
  | [] => 0

/-- `next_pc` of an instruction without ignored prefixes (R127). -/
def nextPc (i : Instr) (s : State) : Word := s.pc + BitVec.ofNat 16 (encode i).length

/-- `R` after `k` M1 fetches (R47): bit 7 kept, the low seven bits counted modulo 128 under `R_MODEL = counted`. -/
structure Counted (k : Nat) (s t : State) : Prop where
  bit7 : t.r.getLsbD 7 = s.r.getLsbD 7
  low : s.params.rModel = .counted → t.r.toNat % 128 = (s.r.toNat + k) % 128

/-- The instruction is over: PC is `target`, R has counted its M1 fetches, `inhibit` is clear (R47, R49, R127), at most `w`
is written besides, and the bus transactions were `es`. -/
structure RetiresAt (target : Word) (i : Instr) (w : Effect) (es : List BusEvent) (s t : State) : Prop where
  pc : t.pc = target
  inhibit : t.inhibit = false
  r : Counted (m1Fetches i) s t
  frame : Frame w s t
  bus : Transacts es s t

/-- The instruction is over and PC is `next_pc`. -/
def Retires (i : Instr) (w : Effect) (es : List BusEvent) (s t : State) : Prop := RetiresAt (nextPc i s) i w es s t

/-! ### Operands -/

/-- What writing a byte operand writes of the registers. -/
def effectOf8 (l : Loc8) : Effect :=
  match l with
  | .reg r => { regs := [r] }
  | .half .ix _ => { ix := true }
  | .half .iy _ => { iy := true }
  | .mem _ => {}

/-- The operand holds `v` in `t`; the other half of an index register is as in `s`; in a machine that does nothing of its own
a byte stored to writable storage reads back at the address computed in `s`. -/
def Holds8 (l : Loc8) (v : Byte) (s t : State) : Prop :=
  match l with
  | .reg r => t.reg r = v
  | .half i .hi => hiByte (t.idx i) = v ∧ loByte (t.idx i) = loByte (s.idx i)
  | .half i .lo => loByte (t.idx i) = v ∧ hiByte (t.idx i) = hiByte (s.idx i)
  | .mem e => Quiet s → IsRam s.bus.map (e.addr s) → memRead t (e.addr s) = v

/-- What writing a 16-bit register writes. -/
def effectOf16 (l : Loc16) : Effect :=
  match l with
  | .bc => { regs := [.b, .c] }
  | .de => { regs := [.d, .e] }
  | .hl => { regs := [.h, .l] }
  | .af => { regs := [.a], f := true }
  | .sp => { sp := true }
  | .idx .ix => { ix := true }
  | .idx .iy => { iy := true }

/-- In a machine that does nothing of its own the word `v` is stored at `a`, little-endian (R87, R91), as far as its bytes go
to writable storage and do not overwrite each other. -/
structure WordStored (a v : Word) (s t : State) : Prop where
  low : Quiet s → IsRam s.bus.map a → sharesCell s.bus.map a (a + 1) = false → memRead t a = loByte v
  high : Quiet s → IsRam s.bus.map (a + 1) → sharesCell s.bus.map (a + 1) a = false → memRead t (a + 1) = hiByte v

/-! ### Flags -/

/-- The eight flags of `f` are those of `b` (R40). -/
structure FlagsAre (f : Byte) (b : FlagBits) : Prop where
  s : flagS f = b.s
  z : flagZ f = b.z
  y : flagY f = b.y
  h : flagH f = b.h
  x : flagX f = b.x
  pv : flagPv f = b.pv
  n : flagN f = b.n
  c : flagC f = b.c

/-- The six flags of `f` other than `Y` and `X` are those of `b`, for the instructions that draw those two. -/
structure FlagsButYXAre (f : Byte) (b : FlagBits) : Prop where
  s : flagS f = b.s
  z : flagZ f = b.z
  h : flagH f = b.h
  pv : flagPv f = b.pv
  n : flagN f = b.n
  c : flagC f = b.c

/-- `v` as a signed 8-bit integer lies outside -128 to 127. -/
def overflows8 (v : Int) : Bool := decide (v < -128) || decide (127 < v)

/-- `v` lies outside -32768 to 32767. -/
def overflows16 (v : Int) : Bool := decide (v < -32768) || decide (32767 < v)

end Sys2Proof
end

