-- ==== Sys2Proof/Certificates/Slice0/Obligations.lean ====
section
/-! DEFINITION. The statements for the provers. Each table before a statement names the instructions it speaks of and
the operands they stand for; what they do is in the statement. -/

namespace Sys2Proof.Forms

open Sys2Proof.Machine

/-! ### The instructions of each statement -/

/-- The 8-bit loads (R200 to R215): destination and source. -/
def byteLoad : Instr → Option (Loc8 × Src8)
  | .ldRR dst src => some (.reg dst, .loc (.reg src))
  | .ldRN r n => some (.reg r, .imm n)
  | .ldRHl dst => some (.reg dst, .loc (.mem .hl))
  | .ldHlR src => some (.mem .hl, .loc (.reg src))
  | .ldHlN n => some (.mem .hl, .imm n)
  | .ldAMemBc => some (.reg .a, .loc (.mem .bc))
  | .ldAMemDe => some (.reg .a, .loc (.mem .de))
  | .ldAMemNn nn => some (.reg .a, .loc (.mem (.abs nn)))
  | .ldMemBcA => some (.mem .bc, .loc (.reg .a))
  | .ldMemDeA => some (.mem .de, .loc (.reg .a))
  | .ldMemNnA nn => some (.mem (.abs nn), .loc (.reg .a))
  | .ldRIxD r d => some (.reg r, .loc (.mem (.idx .ix d)))
  | .ldRIyD r d => some (.reg r, .loc (.mem (.idx .iy d)))
  | .ldIxDR d r => some (.mem (.idx .ix d), .loc (.reg r))
  | .ldIyDR d r => some (.mem (.idx .iy d), .loc (.reg r))
  | .ldIxDN d n => some (.mem (.idx .ix d), .imm n)
  | .ldIyDN d n => some (.mem (.idx .iy d), .imm n)
  | .ldRRIx dst src => some (dst.loc .ix, .loc (src.loc .ix))
  | .ldRRIy dst src => some (dst.loc .iy, .loc (src.loc .iy))
  | .ldIxHalfN half n => some (.half .ix half, .imm n)
  | .ldIyHalfN half n => some (.half .iy half, .imm n)
  | _ => none

/-- The 16-bit loads of a word that is in the instruction or in a register (R250, R251, R258, R259): destination and the
word loaded. -/
def wordLoad (s : State) : Instr → Option (Loc16 × Word)
  | .ldDdNn dd nn => some (dd.loc, nn)
  | .ldIxNn nn => some (.idx .ix, nn)
  | .ldIyNn nn => some (.idx .iy, nn)
  | .ldSpHl => some (.sp, s.hl)
  | .ldSpIx => some (.sp, s.ix)
  | .ldSpIy => some (.sp, s.iy)
  | _ => none

/-- The 16-bit loads from memory (R252 to R254): destination and address. -/
def wordLoadAt : Instr → Option (Loc16 × Word)
  | .ldHlMemNn nn => some (.hl, nn)
  | .ldDdMemNn dd nn => some (dd.loc, nn)
  | .ldIxMemNn nn => some (.idx .ix, nn)
  | .ldIyMemNn nn => some (.idx .iy, nn)
  | _ => none

/-- The 16-bit stores (R255 to R257): the address and the register stored. -/
def wordStore : Instr → Option (Word × Loc16)
  | .ldMemNnHl nn => some (nn, .hl)
  | .ldMemNnDd dd nn => some (nn, dd.loc)
  | .ldMemNnIx nn => some (nn, .idx .ix)
  | .ldMemNnIy nn => some (nn, .idx .iy)
  | _ => none

/-- `PUSH` (R260, R261). -/
def push : Instr → Option Loc16
  | .pushQq qq => some qq.loc
  | .pushIx => some (.idx .ix)
  | .pushIy => some (.idx .iy)
  | _ => none

/-- `POP` (R262, R263). -/
def pop : Instr → Option Loc16
  | .popQq qq => some qq.loc
  | .popIx => some (.idx .ix)
  | .popIy => some (.idx .iy)
  | _ => none

/-- `EX (SP),HL` and its index forms (R267, R268). -/
def exchangeTop : Instr → Option Loc16
  | .exSpHl => some .hl
  | .exSpIx => some (.idx .ix)
  | .exSpIy => some (.idx .iy)
  | _ => none

/-- The 8-bit ALU operations on A (R300 to R339): the operation and its operand. -/
def aluOn : Instr → Option (AluOp × Src8)
  | .addAR r => some (.add, .loc (.reg r))
  | .addAHl => some (.add, .loc (.mem .hl))
  | .addAN n => some (.add, .imm n)
  | .addAIxHalf h => some (.add, .loc (.half .ix h))
  | .addAIyHalf h => some (.add, .loc (.half .iy h))
  | .addAIxD d => some (.add, .loc (.mem (.idx .ix d)))
  | .addAIyD d => some (.add, .loc (.mem (.idx .iy d)))
  | .adcAR r => some (.adc, .loc (.reg r))
  | .adcAHl => some (.adc, .loc (.mem .hl))
  | .adcAN n => some (.adc, .imm n)
  | .adcAIxHalf h => some (.adc, .loc (.half .ix h))
  | .adcAIyHalf h => some (.adc, .loc (.half .iy h))
  | .adcAIxD d => some (.adc, .loc (.mem (.idx .ix d)))
  | .adcAIyD d => some (.adc, .loc (.mem (.idx .iy d)))
  | .subR r => some (.sub, .loc (.reg r))
  | .subHl => some (.sub, .loc (.mem .hl))
  | .subN n => some (.sub, .imm n)
  | .subIxHalf h => some (.sub, .loc (.half .ix h))
  | .subIyHalf h => some (.sub, .loc (.half .iy h))
  | .subIxD d => some (.sub, .loc (.mem (.idx .ix d)))
  | .subIyD d => some (.sub, .loc (.mem (.idx .iy d)))
  | .sbcAR r => some (.sbc, .loc (.reg r))
  | .sbcAHl => some (.sbc, .loc (.mem .hl))
  | .sbcAN n => some (.sbc, .imm n)
  | .sbcAIxHalf h => some (.sbc, .loc (.half .ix h))
  | .sbcAIyHalf h => some (.sbc, .loc (.half .iy h))
  | .sbcAIxD d => some (.sbc, .loc (.mem (.idx .ix d)))
  | .sbcAIyD d => some (.sbc, .loc (.mem (.idx .iy d)))
  | .andR r => some (.and, .loc (.reg r))
  | .andHl => some (.and, .loc (.mem .hl))
  | .andN n => some (.and, .imm n)
  | .andIxHalf h => some (.and, .loc (.half .ix h))
  | .andIyHalf h => some (.and, .loc (.half .iy h))
  | .andIxD d => some (.and, .loc (.mem (.idx .ix d)))
  | .andIyD d => some (.and, .loc (.mem (.idx .iy d)))
  | .xorR r => some (.xor, .loc (.reg r))
  | .xorHl => some (.xor, .loc (.mem .hl))
  | .xorN n => some (.xor, .imm n)
  | .xorIxHalf h => some (.xor, .loc (.half .ix h))
  | .xorIyHalf h => some (.xor, .loc (.half .iy h))
  | .xorIxD d => some (.xor, .loc (.mem (.idx .ix d)))
  | .xorIyD d => some (.xor, .loc (.mem (.idx .iy d)))
  | .orR r => some (.or, .loc (.reg r))
  | .orHl => some (.or, .loc (.mem .hl))
  | .orN n => some (.or, .imm n)
  | .orIxHalf h => some (.or, .loc (.half .ix h))
  | .orIyHalf h => some (.or, .loc (.half .iy h))
  | .orIxD d => some (.or, .loc (.mem (.idx .ix d)))
  | .orIyD d => some (.or, .loc (.mem (.idx .iy d)))
  | .cpR r => some (.cp, .loc (.reg r))
  | .cpHl => some (.cp, .loc (.mem .hl))
  | .cpN n => some (.cp, .imm n)
  | .cpIxHalf h => some (.cp, .loc (.half .ix h))
  | .cpIyHalf h => some (.cp, .loc (.half .iy h))
  | .cpIxD d => some (.cp, .loc (.mem (.idx .ix d)))
  | .cpIyD d => some (.cp, .loc (.mem (.idx .iy d)))
  | _ => none

/-- 8-bit `INC` (R340 to R343). -/
def increment : Instr → Option Loc8
  | .incR r => some (.reg r)
  | .incHl => some (.mem .hl)
  | .incIxD d => some (.mem (.idx .ix d))
  | .incIyD d => some (.mem (.idx .iy d))
  | .incIxHalf h => some (.half .ix h)
  | .incIyHalf h => some (.half .iy h)
  | _ => none

/-- 8-bit `DEC` (R344 to R347). -/
def decrement : Instr → Option Loc8
  | .decR r => some (.reg r)
  | .decHl => some (.mem .hl)
  | .decIxD d => some (.mem (.idx .ix d))
  | .decIyD d => some (.mem (.idx .iy d))
  | .decIxHalf h => some (.half .ix h)
  | .decIyHalf h => some (.half .iy h)
  | _ => none

/-- 16-bit `ADD` (R353, R356): destination and operand. -/
def addWord : Instr → Option (Loc16 × Loc16)
  | .addHlSs ss => some (.hl, ss.loc)
  | .addIxPp pp => some (.idx .ix, pp.loc .ix)
  | .addIyPp pp => some (.idx .iy, pp.loc .iy)
  | _ => none

/-- 16-bit `INC` and `DEC` (R357 to R360): the register and the integer added. -/
def stepWord : Instr → Option (Loc16 × Int)
  | .incSs ss => some (ss.loc, 1)
  | .incIx => some (.idx .ix, 1)
  | .incIy => some (.idx .iy, 1)
  | .decSs ss => some (ss.loc, -1)
  | .decIx => some (.idx .ix, -1)
  | .decIy => some (.idx .iy, -1)
  | _ => none

/-- The accumulator rotates (R400 to R403). -/
def rotateA : Instr → Option RotOp
  | .rlca => some .rlc
  | .rrca => some .rrc
  | .rla => some .rl
  | .rra => some .rr
  | _ => none

/-- The `CB` rotates and shifts (R404 to R435): the operation, its operand, and the register that gets a copy. -/
def rotate : Instr → Option (RotOp × Loc8 × Option Reg8)
  | .rlcR r => some (.rlc, .reg r, none)
  | .rlcHl => some (.rlc, .mem .hl, none)
  | .rlcIxD d => some (.rlc, .mem (.idx .ix d), none)
  | .rlcIyD d => some (.rlc, .mem (.idx .iy d), none)
  | .ldRRlcIxD r d => some (.rlc, .mem (.idx .ix d), some r)
  | .ldRRlcIyD r d => some (.rlc, .mem (.idx .iy d), some r)
  | .rrcR r => some (.rrc, .reg r, none)
  | .rrcHl => some (.rrc, .mem .hl, none)
  | .rrcIxD d => some (.rrc, .mem (.idx .ix d), none)
  | .rrcIyD d => some (.rrc, .mem (.idx .iy d), none)
  | .ldRRrcIxD r d => some (.rrc, .mem (.idx .ix d), some r)
  | .ldRRrcIyD r d => some (.rrc, .mem (.idx .iy d), some r)
  | .rlR r => some (.rl, .reg r, none)
  | .rlHl => some (.rl, .mem .hl, none)
  | .rlIxD d => some (.rl, .mem (.idx .ix d), none)
  | .rlIyD d => some (.rl, .mem (.idx .iy d), none)
  | .ldRRlIxD r d => some (.rl, .mem (.idx .ix d), some r)
  | .ldRRlIyD r d => some (.rl, .mem (.idx .iy d), some r)
  | .rrR r => some (.rr, .reg r, none)
  | .rrHl => some (.rr, .mem .hl, none)
  | .rrIxD d => some (.rr, .mem (.idx .ix d), none)
  | .rrIyD d => some (.rr, .mem (.idx .iy d), none)
  | .ldRRrIxD r d => some (.rr, .mem (.idx .ix d), some r)
  | .ldRRrIyD r d => some (.rr, .mem (.idx .iy d), some r)
  | .slaR r => some (.sla, .reg r, none)
  | .slaHl => some (.sla, .mem .hl, none)
  | .slaIxD d => some (.sla, .mem (.idx .ix d), none)
  | .slaIyD d => some (.sla, .mem (.idx .iy d), none)
  | .ldRSlaIxD r d => some (.sla, .mem (.idx .ix d), some r)
  | .ldRSlaIyD r d => some (.sla, .mem (.idx .iy d), some r)
  | .sraR r => some (.sra, .reg r, none)
  | .sraHl => some (.sra, .mem .hl, none)
  | .sraIxD d => some (.sra, .mem (.idx .ix d), none)
  | .sraIyD d => some (.sra, .mem (.idx .iy d), none)
  | .ldRSraIxD r d => some (.sra, .mem (.idx .ix d), some r)
  | .ldRSraIyD r d => some (.sra, .mem (.idx .iy d), some r)
  | .sllR r => some (.sll, .reg r, none)
  | .sllHl => some (.sll, .mem .hl, none)
  | .sllIxD d => some (.sll, .mem (.idx .ix d), none)
  | .sllIyD d => some (.sll, .mem (.idx .iy d), none)
  | .ldRSllIxD r d => some (.sll, .mem (.idx .ix d), some r)
  | .ldRSllIyD r d => some (.sll, .mem (.idx .iy d), some r)
  | .srlR r => some (.srl, .reg r, none)
  | .srlHl => some (.srl, .mem .hl, none)
  | .srlIxD d => some (.srl, .mem (.idx .ix d), none)
  | .srlIyD d => some (.srl, .mem (.idx .iy d), none)
  | .ldRSrlIxD r d => some (.srl, .mem (.idx .ix d), some r)
  | .ldRSrlIyD r d => some (.srl, .mem (.idx .iy d), some r)
  | _ => none

/-- The bit shifted in by a rotate or shift of `v` with carry-in `c` (R189). -/
def bitIn (op : RotOp) (v : Byte) (c : Bool) : Bool :=
  match op with
  | .rlc => v.getLsbD 7
  | .rrc => v.getLsbD 0
  | .rl => c
  | .rr => c
  | .sla => false
  | .sra => v.getLsbD 7
  | .sll => true
  | .srl => false

/-- The operation moves bits to the left (R189). -/
def movesLeft (op : RotOp) : Bool :=
  match op with
  | .rlc => true
  | .rl => true
  | .sla => true
  | .sll => true
  | _ => false

/-- `BIT b,m` where `Y` and `X` have a source (R450, R452): bit, operand, and the byte `Y` and `X` come from. -/
def testBit (s : State) : Instr → Option (BitVec 3 × Loc8 × Byte)
  | .bitBR b r => some (b, .reg r, s.reg r)
  | .bitBIxD b _ d => some (b, .mem (.idx .ix d), hiByte (s.ix + d.signExtend 16))
  | .bitBIyD b _ d => some (b, .mem (.idx .iy d), hiByte (s.iy + d.signExtend 16))
  | _ => none

/-- `SET` and `RES` (R453 to R460): the bit, its new value, the operand, and the register that gets a copy. -/
def changeBit : Instr → Option (BitVec 3 × Bool × Loc8 × Option Reg8)
  | .setBR b r => some (b, true, .reg r, none)
  | .setBHl b => some (b, true, .mem .hl, none)
  | .setBIxD b d => some (b, true, .mem (.idx .ix d), none)
  | .setBIyD b d => some (b, true, .mem (.idx .iy d), none)
  | .ldRSetBIxD r b d => some (b, true, .mem (.idx .ix d), some r)
  | .ldRSetBIyD r b d => some (b, true, .mem (.idx .iy d), some r)
  | .resBR b r => some (b, false, .reg r, none)
  | .resBHl b => some (b, false, .mem .hl, none)
  | .resBIxD b d => some (b, false, .mem (.idx .ix d), none)
  | .resBIyD b d => some (b, false, .mem (.idx .iy d), none)
  | .ldRResBIxD r b d => some (b, false, .mem (.idx .ix d), some r)
  | .ldRResBIyD r b d => some (b, false, .mem (.idx .iy d), some r)
  | _ => none

/-- A condition as a test of one bit of F (R42): Z is bit 6, C bit 0, PV bit 2 and S bit 7 (R40). -/
def condition (f : Byte) : Cond → Bool
  | .nz => !f.getLsbD 6
  | .z => f.getLsbD 6
  | .nc => !f.getLsbD 0
  | .c => f.getLsbD 0
  | .po => !f.getLsbD 2
  | .pe => f.getLsbD 2
  | .p => !f.getLsbD 7
  | .m => f.getLsbD 7

/-- The conditions of `JR cc,e` as tests of one bit of F (R42, R132). -/
def conditionJr (f : Byte) : CondJr → Bool
  | .nz => !f.getLsbD 6
  | .z => f.getLsbD 6
  | .nc => !f.getLsbD 0
  | .c => f.getLsbD 0

/-- The jumps (R500 to R505): whether the jump is taken in `s`, and its target. -/
def jump (s : State) : Instr → Option (Bool × Word)
  | .jpNn nn => some (true, nn)
  | .jpCcNn cc nn => some (condition s.main.f cc, nn)
  | .jr e => some (true, s.pc + 2 + e.signExtend 16)
  | .jrCc cc e => some (conditionJr s.main.f cc, s.pc + 2 + e.signExtend 16)
  | .jpHl => some (true, s.hl)
  | .jpIx => some (true, s.ix)
  | .jpIy => some (true, s.iy)
  | _ => none

/-- The calls (R507, R508, R513): whether the call is taken in `s`, and its target. -/
def call (s : State) : Instr → Option (Bool × Word)
  | .callNn nn => some (true, nn)
  | .callCcNn cc nn => some (condition s.main.f cc, nn)
  | .rst t => some (true, BitVec.ofNat 16 (8 * t.toNat))
  | _ => none

/-- The returns (R509 to R512): whether the return is taken in `s`, and whether IFF1 becomes IFF2. -/
def returnFrom (s : State) : Instr → Option (Bool × Bool)
  | .ret => some (true, false)
  | .retCc cc => some (condition s.main.f cc, false)
  | .reti => some (true, true)
  | .retn _ => some (true, true)
  | _ => none

/-- A block instruction: the integer added to its pointers, and whether it repeats. -/
structure Block where
  delta : Int
  repeats : Bool

/-- `LDI`, `LDD`, `LDIR`, `LDDR` (R550 to R553). -/
def blockMove : Instr → Option Block
  | .ldi => some ⟨1, false⟩
  | .ldd => some ⟨-1, false⟩
  | .ldir => some ⟨1, true⟩
  | .lddr => some ⟨-1, true⟩
  | _ => none

/-- `CPI`, `CPD`, `CPIR`, `CPDR` (R554 to R557). -/
def blockCompare : Instr → Option Block
  | .cpi => some ⟨1, false⟩
  | .cpd => some ⟨-1, false⟩
  | .cpir => some ⟨1, true⟩
  | .cpdr => some ⟨-1, true⟩
  | _ => none

/-- `INI`, `IND`, `INIR`, `INDR` (R558 to R561). -/
def blockInput : Instr → Option Block
  | .ini => some ⟨1, false⟩
  | .ind => some ⟨-1, false⟩
  | .inir => some ⟨1, true⟩
  | .indr => some ⟨-1, true⟩
  | _ => none

/-- `OUTI`, `OUTD`, `OTIR`, `OTDR` (R562 to R565). -/
def blockOutput : Instr → Option Block
  | .outi => some ⟨1, false⟩
  | .outd => some ⟨-1, false⟩
  | .otir => some ⟨1, true⟩
  | .otdr => some ⟨-1, true⟩
  | _ => none

/-- The port writes (R603 to R605): port and value. -/
def output (s : State) : Instr → Option (Word × Byte)
  | .outNA n => some (wordOf s.main.a n, s.main.a)
  | .outCR r => some (s.bc, s.reg r)
  | .outC0 => some (s.bc, 0x00)
  | _ => none

/-- `IN`, `OUT` and the block I/O instructions (R81). -/
def reachesPorts : Instr → Bool
  | .inAN _ => true
  | .inRC _ => true
  | .inC => true
  | .outNA _ => true
  | .outCR _ => true
  | .outC0 => true
  | .ini => true
  | .ind => true
  | .inir => true
  | .indr => true
  | .outi => true
  | .outd => true
  | .otir => true
  | .otdr => true
  | _ => false

/-- The `ED` holes (R148, R661) and their opcode byte. -/
def hole : Instr → Option Byte
  | .noni77 => some 0x77
  | .noni7F => some 0x7F
  | .noni00 z => some (0b00#2 ++ z)
  | .noniC0 z => some (0b11#2 ++ z)
  | .noni80 z => some (0b100#3 ++ z)
  | .noniA4 hi lo => some (0b101#3 ++ hi ++ 0b1#1 ++ lo)
  | _ => none

/-- `IM n` (R654 to R656). -/
def setMode : Instr → Option IntMode
  | .im0 _ _ => some .im0
  | .im1 _ => some .im1
  | .im2 _ => some .im2
  | _ => none

/-- A register that is unspecified at reset, and an instruction that reads it and no other of them (R52). -/
def readsOne : Instr → Option Unspecified
  | .ldRR .a .b => some (.main .b)
  | .ldRR .a .c => some (.main .c)
  | .ldRR .a .d => some (.main .d)
  | .ldRR .a .e => some (.main .e)
  | .ldRR .a .h => some (.main .h)
  | .ldRR .a .l => some (.main .l)
  | .ldRRIx .a .hi => some (.half .ix .hi)
  | .ldRRIx .a .lo => some (.half .ix .lo)
  | .ldRRIy .a .hi => some (.half .iy .hi)
  | .ldRRIy .a .lo => some (.half .iy .lo)
  | .ldAI => some .i
  | .ldAR => some .r
  | _ => none

/-- A register that is unspecified at reset, and an instruction that writes it and no other of them, and reads none. -/
def writesOne : Instr → Option Unspecified
  | .ldRN .b _ => some (.main .b)
  | .ldRN .c _ => some (.main .c)
  | .ldRN .d _ => some (.main .d)
  | .ldRN .e _ => some (.main .e)
  | .ldRN .h _ => some (.main .h)
  | .ldRN .l _ => some (.main .l)
  | .ldIxHalfN h _ => some (.half .ix h)
  | .ldIyHalfN h _ => some (.half .iy h)
  | .ldIA => some .i
  | .ldRA => some .r
  | _ => none

end Sys2Proof.Forms

open Sys2Proof Sys2Proof.Machine

/-! ### Encoding -/

/-- Decoding the encoding of a well-formed row gives the row back (R120 to R148): an instruction or an ignored prefix as
what the window decodes to, a table-selecting prefix on the path (the prefix rows: log 6). `rest` is whatever follows in
memory. -/
def Obligations.DecodeOfEncode : Prop :=
  ∀ (i : Instr) (rest : List Byte), i.wf = true → 3 ≤ rest.length →
    ∃ d, decode (encode i ++ rest) = .ok d ∧
      (if i.isTablePrefix then i ∈ d.path else d.instr = i ∧ ∀ p ∈ d.path, p.isTablePrefix = true)

/-- Every four bytes decode (R120, R148): to a well-formed instruction or ignored prefix whose encoding is how the four
bytes begin. -/
def Obligations.EncodeOfDecode : Prop :=
  ∀ b0 b1 b2 b3 : Byte,
    (decodeWindow b0 b1 b2 b3).instr.wf = true ∧
      (decodeWindow b0 b1 b2 b3).instr.isTablePrefix = false ∧
      encode (decodeWindow b0 b1 b2 b3).instr <+: [b0, b1, b2, b3]

/-- Words written out from the encodings of the rules: `LD B,n` (R201), `LD DE,nn` (R250), `ADD A,(IX+d)` (R303),
`RRC (HL)` (R409), `SET 7,(IY+4)` (R455), `JP Z,nn` (R501), `LDIR` (R551), `IN A,(C)` (R601), `IM 2` (R656), and the
ignored prefix of `DD 00` (R662). -/
def Obligations.DecodesTheSpecsWords : Prop :=
  (decodeWindow 0b00000110 0x12 0 0).instr = .ldRN .b 0x12 ∧
  (decodeWindow 0b00010001 0x34 0x12 0).instr = .ldDdNn .de 0x1234 ∧
  (decodeWindow 0xDD 0b10000110 0x05 0).instr = .addAIxD 0x05 ∧
  (decodeWindow 0xCB 0b00001110 0 0).instr = .rrcHl ∧
  (decodeWindow 0xFD 0xCB 0x04 0b11111110).instr = .setBIyD 7 0x04 ∧
  (decodeWindow 0b11001010 0x00 0x80 0).instr = .jpCcNn .z 0x8000 ∧
  (decodeWindow 0xED 0xB0 0 0).instr = .ldir ∧
  (decodeWindow 0xED 0b01111000 0 0).instr = .inRC .a ∧
  (decodeWindow 0xED 0x5E 0 0).instr = .im2 0 ∧
  (decodeWindow 0xDD 0x00 0 0).instr = .ignoredDd 0x00

/-! ### The step -/

/-- With no interrupt to accept, a step of a running core fetches the bytes of the instruction at PC, each once and in
order, and then runs that instruction on the state as it is then: the prefixes that select a table add nothing of their
own, and the meaning itself moves PC past the instruction (R121, R124, R701). Under `RESET_UNSPEC = draw` running it is
`exec`; under `fault_on_read` it is `exec` with the check of R712 item 4 (log 3). -/
def Obligations.StepRunsDecodedInstruction : Prop :=
  ∀ (s : State) (bs : List Byte) (i : Instr), Executes s → Fetched [] bs i s →
    step s = runRow i (s.didAll (fetches s.pc bs)) ∧
    (s.params.resetUnspec = .draw → step s = exec i (s.didAll (fetches s.pc bs)))

/-- A run of ignored or superseded prefixes is part of the step of the instruction after it (R124, R662): each adds one
byte and one M1 fetch, and the instruction then runs as if unprefixed; a fault names the first byte of the step (R711). A
step that fetches 65536 of them is refused (R712 item 3). Whatever the machine answers, a step is one of the two. -/
def Obligations.IgnoredPrefixesJoinTheStep : Prop :=
  ∀ s : State, Executes s →
    (∀ (pre bs : List Byte) (i : Instr) (u : State), Fetched pre bs i s → pre.length < 65536 →
      u = skipPrefixes pre.length (s.didAll (fetches s.pc (pre ++ bs))) →
      (∀ t, runRow i u = .next t → step s = .next t) ∧
      (∀ a x y b, runRow i u = .fault (.illegalOpcode a x y b) → step s = .fault (.illegalOpcode s.pc x y b)) ∧
      (∀ r, runRow i u = .refused r → step s = .refused r)) ∧
    (∀ (pre : List Byte) (next : Byte), pre.length = 65536 → IgnoredRun pre next →
      Answered (fetches s.pc (pre ++ [next])) s → step s = .refused .endlessPrefixRun) ∧
    ((∃ (pre bs : List Byte) (i : Instr), pre.length < 65536 ∧ Fetched pre bs i s) ∨
      ∃ (pre : List Byte) (next : Byte), pre.length = 65536 ∧ IgnoredRun pre next ∧
        Answered (fetches s.pc (pre ++ [next])) s)

/-- `accept_nmi()` (R717, R718, R722): a pending NMI is accepted whatever IFF1, IFF2, `inhibit` and the request line
are. It clears the latch, `halted`, IFF1 and `inhibit`, keeps IFF2, counts one M1 fetch, pushes the return address and
goes to 0x0066. The return address is PC, or for a halted core PC + 1 under `HALT_RESUME = next` (R720). -/
def Obligations.NmiIsAccepted : Prop :=
  ∀ (s : State) (ret : Word), s.params.cpuModel = .z80 → s.nmiPending = true →
    ret = (if s.halted ∧ s.params.haltResume = .next then s.pc + 1 else s.pc) →
    ∃ t high, OrderAllowed s high ∧ step s = .next t ∧ t.pc = 0x0066 ∧ t.nmiPending = false ∧ t.halted = false ∧
      t.iff1 = false ∧ t.inhibit = false ∧ t.sp = s.sp - 2 ∧ Counted 1 s t ∧
      Transacts (wordWrites high (s.sp - 2) ret) s t ∧ WordStored (s.sp - 2) ret s t ∧
      Frame { iff1 := true, halted := true, nmi := true, sp := true } s t

/-- `accept_int()` up to the branch (R716, R720, R726): with no NMI pending, the request line up, IFF1 set, `inhibit`
clear and nothing to refuse, the step accepts the interrupt: it clears IFF1, IFF2, `halted` and `inhibit`, counts one M1
fetch and pushes the return address; the request line stays up (R715). After the push, mode 2 reads the word at `I : v`, I and
`v` being those of before the step (R724, R725), and the other modes make no transaction. -/
def Obligations.IntIsAccepted : Prop :=
  ∀ (s : State) (ret : Word), TakesInt s → mode0NonRst s = false →
    (s.im = .im2 → s.params.resetUnspec = .faultOnRead → .i ∉ s.unwritten) →
    ret = (if s.halted ∧ s.params.haltResume = .next then s.pc + 1 else s.pc) →
    ∃ t high high2 lo hi, OrderAllowed s high ∧ OrderAllowed s high2 ∧ step s = .next t ∧
      t.halted = false ∧ t.iff1 = false ∧ t.iff2 = false ∧
      t.inhibit = false ∧ t.intLine = true ∧ t.sp = s.sp - 2 ∧ Counted 1 s t ∧
      Transacts (wordWrites high (s.sp - 2) ret ++
        if s.im = .im2 then wordReads high2 (wordOf s.i s.intVector) lo hi else []) s t ∧
      WordStored (s.sp - 2) ret s t ∧
      Frame { iff1 := true, iff2 := true, halted := true, sp := true } s t

/-- `int_target(v)` (R724, R725): after an accepted maskable interrupt PC is `v & 0x38` in mode 0, 0x0038 in mode 1, and
in mode 2 the little-endian word read at `I : v` after the push; in a machine that does nothing of its own that is the word
in the memory that already holds the pushed return address. -/
def Obligations.IntTarget : Prop :=
  ∀ (s t : State) (ret : Word), TakesInt s → step s = .next t →
    ret = (if s.halted ∧ s.params.haltResume = .next then s.pc + 1 else s.pc) →
    (s.im = .im0 → t.pc.toNat = s.intVector.toNat / 8 % 8 * 8) ∧
    (s.im = .im1 → t.pc = 0x0038) ∧
    (s.im = .im2 →
      (∃ high high2 lo hi, OrderAllowed s high ∧ OrderAllowed s high2 ∧ t.pc = wordOf hi lo ∧
        Transacts (wordWrites high (s.sp - 2) ret ++ wordReads high2 (wordOf s.i s.intVector) lo hi) s t) ∧
      (Plain s → t.pc = wordOf (memRead t (wordOf s.i s.intVector + 1)) (memRead t (wordOf s.i s.intVector))))

/-- A mode-0 byte that is no `RST` is refused (R712 item 1, R724). -/
def Obligations.Mode0NonRstIsRefused : Prop :=
  ∀ s : State, TakesInt s → s.im = .im0 → (s.intVector.toNat / 64 ≠ 3 ∨ s.intVector.toNat % 8 ≠ 7) →
    step s = .refused (.mode0NotRst s.intVector)

/-- The `EI` shadow (R49, R653, R716): `EI` leaves IFF1, IFF2 and `inhibit` set, and however the request line stands, up or
down, with whatever vector, the step after it accepts no maskable interrupt but executes an instruction; and after any instruction `inhibit` is set if it
is `EI` and clear otherwise. -/
def Obligations.EiShadow : Prop :=
  (∀ s : State, s.params.cpuModel = .z80 → s.nmiPending = false →
    ∃ t, exec .ei s = .next t ∧ t.iff1 = true ∧ t.iff2 = true ∧ t.inhibit = true ∧ t.pc = s.pc + 1 ∧
      Counted 1 s t ∧ Transacts [] s t ∧ Frame { iff1 := true, iff2 := true } s t ∧
      ∀ (l : Bool) (v : Byte) (u : State), u = { t with intLine := l, intVector := v } →
        step u = if s.halted then executeHalted u else executeOne u) ∧
  (∀ (i : Instr) (s t : State), i.isTablePrefix = false → i.isIgnoredPrefix = false → exec i s = .next t →
    (t.inhibit = true ↔ i = .ei))

/-- A halted core with no interrupt to accept re-executes `HALT` (R651, R721): the step fetches the byte at PC, whatever it is
(log 11), and changes nothing but R, which counts one M1 fetch, and `inhibit`, which clears. -/
def Obligations.HaltedStepReexecutesHalt : Prop :=
  ∀ s : State, s.params.cpuModel = .z80 → acceptsInterrupt s = false → s.halted = true →
    ∃ t, step s = .next t ∧ t.halted = true ∧ t.pc = s.pc ∧ t.inhibit = false ∧ Counted 1 s t ∧
      Transacts [.memRead s.pc (memRead s s.pc)] s t ∧ Frame {} s t

/-! ### Stops -/

/-- Under the default parameters no step stops (R710), but for the two refusals that they leave possible (R712 items 1
and 3). -/
def Obligations.DefaultParametersNeverStop : Prop :=
  ∀ s : State, DefaultParams s → mode0NonRst s = false → (Executes s → ¬ FetchesIndexBytes 65536 s) → SafeStep s

/-- A step is refused only in the situations of R4 and R712, and each refusal names its situation; a refusal under
`fault_on_read` names a register without a reset value that nothing has written and that the step reads: I in a mode-2
acceptance, or one that the instruction fetched reads (log 3). `CPU_MODEL = r800` is refused. -/
def Obligations.RefusesOnlyWhatTheSpecRefuses : Prop :=
  (∀ (s : State) (r : Refusal), step s = .refused r →
    (r = .r800Model ∧ s.params.cpuModel = .r800) ∨
    (r = .mode0NotRst s.intVector ∧ TakesInt s ∧ mode0NonRst s = true) ∨
    (r = .endlessPrefixRun ∧ Executes s ∧ FetchesIndexBytes 65536 s) ∨
    (s.params.resetUnspec = .faultOnRead ∧ ∃ x ∈ s.unwritten, r = .unspecifiedRead x ∧
      (x = .i ∧ TakesInt s ∧ s.im = .im2 ∨
        Executes s ∧ ∃ (pre bs : List Byte) (i : Instr),
          Fetched pre bs i s ∧ x ∈ ((opOf i).access s.params.rModel).reads))) ∧
  (∀ s : State, s.params.cpuModel = .r800 → step s = .refused .r800Model)

/-- `RESET_UNSPEC` (R12, R52, R712 item 4, R800): under `fault_on_read` an instruction that reads a register which is
unspecified at reset and not yet written is refused by that register's name, and so is a mode-2 acceptance that would read
I; writing a register ends that for it and for no other. An instruction that reads none of them runs as its meaning, and
the registers it writes are then written. Under `draw` an instruction is its meaning. That an exchange reads both sides, and
that `LD A,R` reads R under `R_MODEL = counted` alone, are the model's readings (log 3). -/
def Obligations.FirstReadsAreRefused : Prop :=
  ∀ s : State,
    (s.params.resetUnspec = .faultOnRead →
      (∀ (i : Instr) (x : Unspecified), Forms.readsOne i = some x →
        (i = .ldAR → s.params.rModel = .counted) → x ∈ s.unwritten →
        runRow i s = .refused (.unspecifiedRead x)) ∧
      ((.alt .a ∈ s.unwritten ∨ .altF ∈ s.unwritten) →
        ∃ x ∈ s.unwritten, runRow .exAfAf s = .refused (.unspecifiedRead x)) ∧
      ((∃ r, r ≠ .a ∧ (.main r ∈ s.unwritten ∨ .alt r ∈ s.unwritten)) →
        ∃ x ∈ s.unwritten, runRow .exx s = .refused (.unspecifiedRead x)) ∧
      (TakesInt s → s.im = .im2 → .i ∈ s.unwritten → step s = .refused (.unspecifiedRead .i)) ∧
      (∀ (i : Instr) (x : Unspecified), Forms.writesOne i = some x →
        ∃ t, runRow i s = .next t ∧ ∀ y, y ∈ t.unwritten ↔ y ∈ s.unwritten ∧ y ≠ x) ∧
      (∀ (i : Instr) (a : Access), a = (opOf i).access s.params.rModel → (∀ x ∈ a.reads, x ∉ s.unwritten) →
        (∀ t, exec i s = .next t →
          ∃ u, runRow i s = .next u ∧ u = { t with unwritten := u.unwritten } ∧
            ∀ x, x ∈ u.unwritten ↔ x ∈ s.unwritten ∧ x ∉ a.writes) ∧
        (∀ f, exec i s = .fault f → runRow i s = .fault f)) ∧
      (s.params.rModel = .draw → ∃ t, runRow .ldAR s = .next t)) ∧
    (s.params.resetUnspec = .draw → ∀ i, runRow i s = exec i s)

/-- `IllegalOpcode` (R711): an `ED` hole under `ED_HOLE_POLICY = strict` stops the step with the address of its first
byte, its two bytes and the bus as it stands (R99); under `nop` the same hole is a two-byte no-operation (R661). -/
def Obligations.EdHoles : Prop :=
  ∀ (i : Instr) (op : Byte) (s : State), Forms.hole i = some op →
    (s.params.edHolePolicy = .strict → exec i s = .fault (.illegalOpcode s.pc 0xED op s.bus)) ∧
    (s.params.edHolePolicy = .nop → ∃ t, exec i s = .next t ∧ t.pc = s.pc + 2 ∧ Retires i {} [] s t)

/-- A step faults only where the bytes it fetches are an `ED` hole, after ignored prefixes or none, under `strict` (R710,
R711); the fault names the first byte of the step and the two bytes of the hole; the machine has seen each fetch of the step
and nothing else has changed (R99); and the `StepResult` of the step has kind `illegal` and the same record. -/
def Obligations.FaultsOnlyOnStrictHoles : Prop :=
  ∀ (s : State) (f : Fault), step s = .fault f →
    s.params.edHolePolicy = .strict ∧ Executes s ∧
      ∃ (pre : List Byte) (i : Instr) (op : Byte), Forms.hole i = some op ∧ Fetched pre [0xED, op] i s ∧
        f = .illegalOpcode s.pc 0xED op (s.didAll (fetches s.pc (pre ++ [0xED, op]))).bus ∧
        afterFault f s = s.didAll (fetches s.pc (pre ++ [0xED, op])) ∧
        stepResult s =
          some { kind := .illegal, length := 0, repeats := false, illegal := some { pc := s.pc, first := 0xED, second := op } }

/-! ### Invariants and whole-machine rules -/

/-- Every step keeps the backing store in its canonical form, which is the model's way to hold memory (log 7). -/
def Obligations.StepKeepsMemoryCanonical : Prop :=
  ∀ s t : State, MemoryCanonical s → step s = .next t → MemoryCanonical t

/-- Every step keeps PC on a `HALT` opcode while the core is halted (R48, R651, R720), in a machine that is plain, and it
stays plain; in another machine what stands at PC can change under a halted core (log 11). -/
def Obligations.StepKeepsHaltedAtHalt : Prop :=
  ∀ s t : State, Plain s → HaltedAtHalt s → step s = .next t → Plain t ∧ HaltedAtHalt t

/-- The invariants hold at reset. -/
def Obligations.ResetIsSound : Prop :=
  MemoryCanonical State.reset ∧ Plain State.reset ∧ HaltedAtHalt State.reset

/-- No step writes what the host and the machine own (R12, R50, R101, R715): not the request line, its vector or the
parameters; the bus changes by transactions alone, which leave the ports that devices claim alone, and an address map that
it has afterwards is one the machine had or had ready (log 5); and no step leaves the NMI latch set, since only `request_nmi` sets it (R717). -/
def Obligations.StepKeepsWhatTheHostOwns : Prop :=
  ∀ s t : State, step s = .next t →
    t.intLine = s.intLine ∧ t.intVector = s.intVector ∧ t.params = s.params ∧ t.nmiPending = false ∧
      (∃ es, Transacts es s t) ∧ t.bus.ports = s.bus.ports ∧ (∀ m ∈ t.bus.maps, m ∈ s.bus.maps) ∧
      (Quiet s → t.bus.map = s.bus.map)

/-- A register that is unspecified at reset cannot be observed before it is written, under `RESET_UNSPEC = fault_on_read`
(R52, R712 item 4, R800): two states that differ in such registers alone step alike, and still differ in those alone. -/
def Obligations.UnwrittenRegistersCannotBeObserved : Prop :=
  ∀ s t s' : State, s.params.resetUnspec = .faultOnRead → SameButUnwritten s t → step s = .next s' →
    ∃ t', step t = .next t' ∧ SameButUnwritten s' t' ∧ ∀ x ∈ s'.unwritten, x ∈ s.unwritten

/-- No instruction but `EX AF,AF'` and `EXX` reads or writes a shadow register (R34): with another shadow set the
instruction does the same to everything else and leaves that set alone. -/
def Obligations.ShadowSetIsUntouched : Prop :=
  ∀ (i : Instr) (s t : State) (x : RegSet), i ≠ .exAfAf → i ≠ .exx → exec i s = .next t →
    t.alt = s.alt ∧ exec i { s with alt := x } = .next { t with alt := x }

/-- Interrupt requests are examined only at step boundaries (R700, R714, R719): no instruction reads or writes the NMI
latch, the request line or its vector. -/
def Obligations.InstructionsIgnoreRequests : Prop :=
  ∀ (i : Instr) (s t : State) (n l : Bool) (v : Byte), exec i s = .next t →
    exec i { s with nmiPending := n, intLine := l, intVector := v } =
      .next { t with nmiPending := n, intLine := l, intVector := v }

/-- The writers of the control registers among the instructions: IFF1 and IFF2 (R44), IM (R45), I (R38), `halted`
(R48); and `LD R,A` is the only way to set R[7] (R47, R660). -/
def Obligations.ControlRegisterWriters : Prop :=
  ∀ (i : Instr) (s t : State), exec i s = .next t →
    (t.iff1 = s.iff1 ∨ i = .di ∨ i = .ei ∨ i = .reti ∨ ∃ y, i = .retn y) ∧
    (t.iff2 = s.iff2 ∨ i = .di ∨ i = .ei) ∧
    (t.im = s.im ∨ ∃ m, Forms.setMode i = some m ∧ t.im = m) ∧
    (t.i = s.i ∨ i = .ldIA) ∧
    (t.halted = s.halted ∨ i = .halt) ∧
    (t.r.getLsbD 7 = s.r.getLsbD 7 ∨ i = .ldRA)

/-- The port space is reached only by `IN`, `OUT` and the block I/O instructions (R81), and each of those makes exactly
one transaction in it (R94, R96, R99). -/
def Obligations.OnlyIoReachesPorts : Prop :=
  ∀ (i : Instr) (s t : State), exec i s = .next t →
    ∃ es, Transacts es s t ∧ portCount es = if Forms.reachesPorts i then 1 else 0

/-! ### Reset and host calls -/

/-- Reset (R52, R800, R801): the state after power-on has the values R52 gives; `reset()` on any state makes the
assignments of R800 and changes nothing in the request line, its vector, the parameters, memory, the map or the ports. After
either, every register without a reset value counts as unwritten for `RESET_UNSPEC = fault_on_read` (log 3). -/
def Obligations.ResetLeavesWhatTheSpecSays : Prop :=
  (State.reset.pc = 0 ∧ State.reset.sp = 0xFFFF ∧ State.reset.main.a = 0xFF ∧ State.reset.main.f = 0xFF ∧
     State.reset.iff1 = false ∧ State.reset.iff2 = false ∧ State.reset.im = .im0 ∧ State.reset.halted = false ∧
     State.reset.inhibit = false ∧ State.reset.nmiPending = false ∧ State.reset.unwritten = Unspecified.all) ∧
  (∀ s : State, (hostReset s).pc = 0 ∧ (hostReset s).sp = 0xFFFF ∧ (hostReset s).main.a = 0xFF ∧
     (hostReset s).main.f = 0xFF ∧ (hostReset s).iff1 = false ∧ (hostReset s).iff2 = false ∧
     (hostReset s).im = .im0 ∧ (hostReset s).halted = false ∧ (hostReset s).inhibit = false ∧
     (hostReset s).nmiPending = false ∧ (hostReset s).intLine = s.intLine ∧ (hostReset s).intVector = s.intVector ∧
     (∀ x, memRead (hostReset s) x = memRead s x) ∧ (hostReset s).bus = s.bus ∧ (hostReset s).params = s.params ∧
     (hostReset s).unwritten = Unspecified.all)

/-! ### Memory and register pairs -/

/-- The byte and port transactions (R82 to R85, R90, R94 to R96, R99): each is made once and logged, and uses up the machine's reaction to it; an
address map that the reaction brings serves every later access; a read gets what the machine answers, and where it answers
nothing of its own, the byte of the cell, `UNMAPPED_READ` for nothing, and 0xFF for a port that no device claims. In a machine that does nothing of its own a byte
written to writable storage reads back; no address that shares no cell with it changes; a write to anything else changes no
cell. The map that says where an address leads, the reactions, and the ranges that devices claim are the model's (log 5,
log 10). -/
def Obligations.ByteTransactions : Prop :=
  ∀ (s : State) (a x : Word) (v : Byte),
    (memReadDone a s = s.did (.memRead a (memRead s a)) ∧ memWrite a v s = s.did (.memWrite a v) ∧
      portReadDone a s = s.did (.portRead a (portAnswer s a)) ∧ portWrite a v s = s.did (.portWrite a v)) ∧
    (∀ e, (s.did e).bus.log = e :: s.bus.log) ∧
    (∀ e r rest, s.bus.reactions = r :: rest →
      (s.did e).bus.reactions = rest ∧ (s.did e).bus.map = r.remap.getD s.bus.map) ∧
    (∀ w, s.bus.answer = some w → memRead s a = w ∧ portAnswer s a = w) ∧
    (s.bus.answer = none →
      (∀ p, resolve s.bus.map a = .ram p ∨ resolve s.bus.map a = .rom p → memRead s a = s.bus.mem.read p) ∧
      (resolve s.bus.map a = .unmapped → memRead s a = s.params.unmappedRead) ∧
      ((∀ g ∈ s.bus.ports, ¬ (g.base ≤ a.toNat ∧ a.toNat < g.base + g.size)) → portAnswer s a = 0xFF)) ∧
    (Quiet s → IsRam s.bus.map a → memRead (memWrite a v s) a = v) ∧
    (Quiet s → ¬ IsDevice s.bus.map x → sharesCell s.bus.map a x = false → memRead (memWrite a v s) x = memRead s x) ∧
    (¬ IsRam s.bus.map a → (memWrite a v s).bus.mem = s.bus.mem)

/-- The word transactions (R86, R87, R91): two byte transactions, low byte at `a`, high byte at `a + 1` modulo 2^16, in the
order `WORD_ACCESS_ORDER` lets them take. In a machine that does nothing of its own a stored word reads back where the two
bytes go to different cells; where they go to one cell, the byte written last is what both addresses read: the high byte
under `low_first`, the low byte under `high_first`, one of the two under `any` (log 5, log 8). -/
def Obligations.WordTransactions : Prop :=
  ∀ (s : State) (a v : Word),
    (∃ high lo hi, OrderAllowed s high ∧ Answered (wordReads high a lo hi) s ∧ memReadWord s a = wordOf hi lo ∧
      memReadWordDone a s = s.didAll (wordReads high a lo hi)) ∧
    (∃ high, OrderAllowed s high ∧ memWriteWord a v s = s.didAll (wordWrites high a v)) ∧
    (Quiet s → IsRam s.bus.map a → IsRam s.bus.map (a + 1) →
      (sharesCell s.bus.map a (a + 1) = false → memReadWord (memWriteWord a v s) a = v) ∧
      (sharesCell s.bus.map a (a + 1) = true →
        memRead (memWriteWord a v s) (a + 1) = memRead (memWriteWord a v s) a ∧
        (s.params.wordAccessOrder = .lowFirst → memRead (memWriteWord a v s) a = hiByte v) ∧
        (s.params.wordAccessOrder = .highFirst → memRead (memWriteWord a v s) a = loByte v) ∧
        (memRead (memWriteWord a v s) a = loByte v ∨ memRead (memWriteWord a v s) a = hiByte v)))

/-- A pair and its halves are one storage (R33): the pair is `(h << 8) | l` of its halves; writing the pair gives the halves
and the pair back; writing a half changes that half of the pair and nothing else. The operand names (R131, R133): each of
`rp`, `rp2`, `pp` and the substituted registers stands for the register of its name, HL and its halves in the last two for the
index register's. -/
def Obligations.PairsAliasTheirHalves : Prop :=
  ∀ (l : Loc16) (w : Word) (s : State) (v : Byte),
    (l.read (l.write w s) = w ∧ Frame (effectOf16 l) s (l.write w s)) ∧
    (s.bc.toNat = s.main.b.toNat * 256 + s.main.c.toNat ∧ s.de.toNat = s.main.d.toNat * 256 + s.main.e.toNat ∧
      s.hl.toNat = s.main.h.toNat * 256 + s.main.l.toNat ∧
      (Loc16.af.read s).toNat = s.main.a.toNat * 256 + s.main.f.toNat ∧
      ∀ i, (s.idx i).toNat = (s.half i .hi).toNat * 256 + (s.half i .lo).toNat) ∧
    ((s.setReg .b v).bc.toNat = v.toNat * 256 + s.main.c.toNat ∧
      (s.setReg .c v).bc.toNat = s.main.b.toNat * 256 + v.toNat ∧
      (s.setReg .d v).de.toNat = v.toNat * 256 + s.main.e.toNat ∧
      (s.setReg .e v).de.toNat = s.main.d.toNat * 256 + v.toNat ∧
      (s.setReg .h v).hl.toNat = v.toNat * 256 + s.main.l.toNat ∧
      (s.setReg .l v).hl.toNat = s.main.h.toNat * 256 + v.toNat ∧
      (Loc16.af.read (s.setReg .a v)).toNat = v.toNat * 256 + s.main.f.toNat ∧
      (Loc16.af.read (s.setF v)).toNat = s.main.a.toNat * 256 + v.toNat ∧
      ∀ i, ((s.setHalf i .hi v).idx i).toNat = v.toNat * 256 + (s.half i .lo).toNat ∧
        ((s.setHalf i .lo v).idx i).toNat = (s.half i .hi).toNat * 256 + v.toNat) ∧
    ((∀ r, Frame { regs := [r] } s (s.setReg r v)) ∧ Frame { f := true } s (s.setF v) ∧
      ∀ i h, Frame (effectOf8 (.half i h)) s (s.setHalf i h v)) ∧
    (Loc16.bc.read s = s.bc ∧ Loc16.de.read s = s.de ∧ Loc16.hl.read s = s.hl ∧ Loc16.sp.read s = s.sp ∧
      (Loc16.idx .ix).read s = s.ix ∧ (Loc16.idx .iy).read s = s.iy ∧ s.idx .ix = s.ix ∧ s.idx .iy = s.iy) ∧
    (Pair.bc.loc = .bc ∧ Pair.de.loc = .de ∧ Pair.hl.loc = .hl ∧ Pair.sp.loc = .sp) ∧
    (PairQ.bc.loc = .bc ∧ PairQ.de.loc = .de ∧ PairQ.hl.loc = .hl ∧ PairQ.af.loc = .af) ∧
    (∀ i, PairP.bc.loc i = .bc ∧ PairP.de.loc i = .de ∧ PairP.idx.loc i = .idx i ∧ PairP.sp.loc i = .sp) ∧
    (∀ i, IdxReg8.b.loc i = .reg .b ∧ IdxReg8.c.loc i = .reg .c ∧ IdxReg8.d.loc i = .reg .d ∧
      IdxReg8.e.loc i = .reg .e ∧ IdxReg8.hi.loc i = .half i .hi ∧ IdxReg8.lo.loc i = .half i .lo ∧
      IdxReg8.a.loc i = .reg .a)

/-! ### Loads, stack, exchanges -/

/-- Every 8-bit load (R200 to R215) completes: the destination holds the source's value of before, PC, R and `inhibit`
retire, and nothing else changes, no flag either; a memory operand takes one transaction. -/
def Obligations.ByteLoads : Prop :=
  ∀ (i : Instr) (dst : Loc8) (src : Src8) (s : State), Forms.byteLoad i = some (dst, src) →
    ∃ t, exec i s = .next t ∧
      Retires i (effectOf8 dst) (src.readEvents s ++ dst.writeEvents (src.read s) s) s t ∧
      Holds8 dst (src.read s) s t

/-- Every 16-bit load into a register (R250 to R254, R258, R259) completes with the word its rule names, a word in memory being
two byte reads in the order the machine takes; every 16-bit store (R255 to R257) leaves the register's word at the address,
little-endian; nothing else changes. -/
def Obligations.WordLoadsAndStores : Prop :=
  (∀ (i : Instr) (dst : Loc16) (w : Word) (s : State), Forms.wordLoad s i = some (dst, w) →
     ∃ t, exec i s = .next t ∧ Retires i (effectOf16 dst) [] s t ∧ dst.read t = w) ∧
  (∀ (i : Instr) (dst : Loc16) (nn : Word) (s : State), Forms.wordLoadAt i = some (dst, nn) →
     ∃ t high lo hi, OrderAllowed s high ∧ exec i s = .next t ∧
       Retires i (effectOf16 dst) (wordReads high nn lo hi) s t ∧ dst.read t = wordOf hi lo) ∧
  (∀ (i : Instr) (a : Word) (src : Loc16) (s : State), Forms.wordStore i = some (a, src) →
     ∃ t high, OrderAllowed s high ∧ exec i s = .next t ∧ Retires i {} (wordWrites high a (src.read s)) s t ∧
       WordStored a (src.read s) s t)

/-- `PUSH` (R88, R260, R261): SP goes down by 2 modulo 2^16 and the pair is stored at the new SP. `POP` (R89, R262, R263): the
pair is the word at SP, all 8 bits of F from the low byte for `POP AF`, and SP goes up by 2. -/
def Obligations.PushAndPop : Prop :=
  (∀ (i : Instr) (src : Loc16) (s : State), Forms.push i = some src →
     ∃ t high, OrderAllowed s high ∧ exec i s = .next t ∧
       Retires i { sp := true } (wordWrites high (s.sp - 2) (src.read s)) s t ∧
       t.sp = s.sp - 2 ∧ WordStored (s.sp - 2) (src.read s) s t) ∧
  (∀ (i : Instr) (dst : Loc16) (s : State), Forms.pop i = some dst →
     ∃ t high lo hi, OrderAllowed s high ∧ exec i s = .next t ∧
       Retires i { effectOf16 dst with sp := true } (wordReads high s.sp lo hi) s t ∧
       t.sp = s.sp + 2 ∧ dst.read t = wordOf hi lo)

/-- `EX DE,HL` (R264), `EX AF,AF'` (R265) and `EXX` (R266) swap what they name and nothing else; `EX (SP),HL` and its index
forms (R267, R268) swap the register with the word at SP, the read before the write, and SP stays. -/
def Obligations.Exchanges : Prop :=
  (∀ s : State,
     (∃ t, exec .exDeHl s = .next t ∧ Retires .exDeHl { regs := [.d, .e, .h, .l] } [] s t ∧ t.de = s.hl ∧ t.hl = s.de) ∧
     (∃ t, exec .exAfAf s = .next t ∧ Retires .exAfAf { regs := [.a], f := true, alt := true } [] s t ∧
       t.main.a = s.alt.a ∧ t.main.f = s.alt.f ∧ t.alt = { s.alt with a := s.main.a, f := s.main.f }) ∧
     (∃ t, exec .exx s = .next t ∧ Retires .exx { regs := [.b, .c, .d, .e, .h, .l], alt := true } [] s t ∧
       t.main = { s.alt with a := s.main.a, f := s.main.f } ∧ t.alt = { s.main with a := s.alt.a, f := s.alt.f })) ∧
  (∀ (i : Instr) (l : Loc16) (s : State), Forms.exchangeTop i = some l →
     ∃ t high high2 lo hi, OrderAllowed s high ∧ OrderAllowed s high2 ∧ exec i s = .next t ∧
       Retires i (effectOf16 l) (wordReads high s.sp lo hi ++ wordWrites high2 s.sp (l.read s)) s t ∧
       l.read t = wordOf hi lo ∧ WordStored s.sp (l.read s) s t)

/-! ### Arithmetic and logic -/

/-- `ADD A` and `ADC A`, every operand form (R183, R300 to R309): A is the sum modulo 256, and the flags are those of R183, PV
being signed overflow. -/
def Obligations.AddToA : Prop :=
  ∀ (i : Instr) (op : AluOp) (src : Src8) (s : State) (c : Nat), Forms.aluOn i = some (op, src) →
    (op = .add ∧ c = 0 ∨ op = .adc ∧ c = (flagC s.main.f).toNat) →
    ∃ t, exec i s = .next t ∧ Retires i { regs := [.a], f := true } (src.readEvents s) s t ∧
      t.main.a.toNat = (s.main.a.toNat + (src.read s).toNat + c) % 256 ∧
      FlagsAre t.main.f
        { s := t.main.a.getLsbD 7
          z := decide (t.main.a.toNat = 0)
          y := t.main.a.getLsbD 5
          h := decide (16 ≤ s.main.a.toNat % 16 + (src.read s).toNat % 16 + c)
          x := t.main.a.getLsbD 3
          pv := overflows8 (s.main.a.toInt + (src.read s).toInt + c)
          n := false
          c := decide (256 ≤ s.main.a.toNat + (src.read s).toNat + c) }

/-- `SUB` and `SBC A`, every operand form (R184, R310 to R319), and `NEG` as `sub8(0, A, 0)` (R350). -/
def Obligations.SubtractFromA : Prop :=
  ∀ (i : Instr) (op : AluOp) (src : Src8) (s : State) (a v : Byte) (c : Nat) (es : List BusEvent),
    (Forms.aluOn i = some (op, src) ∧ a = s.main.a ∧ v = src.read s ∧ es = src.readEvents s ∧
        (op = .sub ∧ c = 0 ∨ op = .sbc ∧ c = (flagC s.main.f).toNat)) ∨
      ((∃ y, i = .neg y) ∧ a = 0 ∧ v = s.main.a ∧ es = [] ∧ c = 0) →
    ∃ t, exec i s = .next t ∧ Retires i { regs := [.a], f := true } es s t ∧
      (t.main.a.toNat : Int) = ((a.toNat : Int) - v.toNat - c) % 256 ∧
      FlagsAre t.main.f
        { s := t.main.a.getLsbD 7
          z := decide (t.main.a.toNat = 0)
          y := t.main.a.getLsbD 5
          h := decide (a.toNat % 16 < v.toNat % 16 + c)
          x := t.main.a.getLsbD 3
          pv := overflows8 (a.toInt - v.toInt - c)
          n := true
          c := decide (a.toNat < v.toNat + c) }

/-- `CP`, every operand form (R185, R335 to R339): A is left alone; the flags are those of the subtraction, but Y and X
are bits 5 and 3 of the operand. -/
def Obligations.CompareWithA : Prop :=
  ∀ (i : Instr) (src : Src8) (s : State), Forms.aluOn i = some (.cp, src) →
    ∃ t, exec i s = .next t ∧ Retires i { f := true } (src.readEvents s) s t ∧
      FlagsAre t.main.f
        { s := (s.main.a - src.read s).getLsbD 7
          z := decide (s.main.a = src.read s)
          y := (src.read s).getLsbD 5
          h := decide (s.main.a.toNat % 16 < (src.read s).toNat % 16)
          x := (src.read s).getLsbD 3
          pv := overflows8 (s.main.a.toInt - (src.read s).toInt)
          n := true
          c := decide (s.main.a.toNat < (src.read s).toNat) }

/-- `AND`, `XOR` and `OR`, every operand form (R186, R320 to R334): bit by bit in A, and PV is 1 exactly when the result has an
even number of 1 bits (R181). -/
def Obligations.LogicOnA : Prop :=
  ∀ (i : Instr) (op : AluOp) (src : Src8) (s : State) (bit : Bool → Bool → Bool), Forms.aluOn i = some (op, src) →
    (op = .and ∧ bit = Bool.and ∨ op = .xor ∧ bit = Bool.xor ∨ op = .or ∧ bit = Bool.or) →
    ∃ t, exec i s = .next t ∧ Retires i { regs := [.a], f := true } (src.readEvents s) s t ∧
      (∀ k < 8, t.main.a.getLsbD k = bit (s.main.a.getLsbD k) ((src.read s).getLsbD k)) ∧
      FlagsAre t.main.f
        { s := t.main.a.getLsbD 7
          z := decide (t.main.a = 0)
          y := t.main.a.getLsbD 5
          h := decide (op = .and)
          x := t.main.a.getLsbD 3
          pv := decide (((Finset.range 8).filter (fun k => t.main.a.getLsbD k = true)).card % 2 = 0)
          n := false
          c := false }

/-- 8-bit `INC` (R187, R340 to R343) and `DEC` (R188, R344 to R347), every operand form: the operand goes up or down by 1 modulo
256, C is kept, and the other flags are those of the result. -/
def Obligations.IncrementAndDecrementByte : Prop :=
  (∀ (i : Instr) (l : Loc8) (s : State), Forms.increment i = some l →
     ∃ t, exec i s = .next t ∧
       Retires i { effectOf8 l with f := true } (l.readEvents s ++ l.writeEvents (l.read s + 1) s) s t ∧
       Holds8 l (l.read s + 1) s t ∧
       FlagsAre t.main.f
         { s := (l.read s + 1).getLsbD 7
           z := decide (l.read s = 0xFF)
           y := (l.read s + 1).getLsbD 5
           h := decide ((l.read s).toNat % 16 = 15)
           x := (l.read s + 1).getLsbD 3
           pv := decide (l.read s = 0x7F)
           n := false
           c := flagC s.main.f }) ∧
  (∀ (i : Instr) (l : Loc8) (s : State), Forms.decrement i = some l →
     ∃ t, exec i s = .next t ∧
       Retires i { effectOf8 l with f := true } (l.readEvents s ++ l.writeEvents (l.read s - 1) s) s t ∧
       Holds8 l (l.read s - 1) s t ∧
       FlagsAre t.main.f
         { s := (l.read s - 1).getLsbD 7
           z := decide (l.read s = 0x01)
           y := (l.read s - 1).getLsbD 5
           h := decide ((l.read s).toNat % 16 = 0)
           x := (l.read s - 1).getLsbD 3
           pv := decide (l.read s = 0x80)
           n := true
           c := flagC s.main.f })

/-- `DAA` (R194, R348): the correction has a 6 in each nibble that needs it and is added or, after a subtraction,
taken away. -/
def Obligations.DecimalAdjust : Prop :=
  ∀ (s : State) (low high : Bool), low = (flagH s.main.f || decide (9 < s.main.a.toNat % 16)) →
    high = (flagC s.main.f || decide (0x99 < s.main.a.toNat)) →
    ∃ t, exec .daa s = .next t ∧ Retires .daa { regs := [.a], f := true } [] s t ∧
      (t.main.a.toNat : Int) =
        (if flagN s.main.f then (s.main.a.toNat : Int) - (6 * low.toNat + 0x60 * high.toNat : Nat)
         else (s.main.a.toNat : Int) + (6 * low.toNat + 0x60 * high.toNat : Nat)) % 256 ∧
      FlagsAre t.main.f
        { s := t.main.a.getLsbD 7
          z := decide (t.main.a = 0)
          y := t.main.a.getLsbD 5
          h := if flagN s.main.f then flagH s.main.f && decide (s.main.a.toNat % 16 < 6)
            else decide (9 < s.main.a.toNat % 16)
          x := t.main.a.getLsbD 3
          pv := parity8 t.main.a
          n := flagN s.main.f
          c := high }

/-- `CPL` (R349): A is complemented; S, Z, PV and C are kept. `CCF` and `SCF` (R351, R352): C is complemented or set, H is
the old C or 0, N is 0, S, Z and PV are kept; of Y and X nothing is said, since they are drawn. -/
def Obligations.ComplementAndCarryOperations : Prop :=
  (∀ s : State, ∃ t, exec .cpl s = .next t ∧ Retires .cpl { regs := [.a], f := true } [] s t ∧
     t.main.a.toNat = 255 - s.main.a.toNat ∧
     FlagsAre t.main.f
       { FlagBits.unpack s.main.f with
         y := t.main.a.getLsbD 5
         h := true
         x := t.main.a.getLsbD 3
         n := true }) ∧
  (∀ s : State,
     (∃ t, exec .ccf s = .next t ∧ Retires .ccf { f := true } [] s t ∧
       FlagsButYXAre t.main.f
         { FlagBits.unpack s.main.f with h := flagC s.main.f, n := false, c := !flagC s.main.f }) ∧
     (∃ t, exec .scf s = .next t ∧ Retires .scf { f := true } [] s t ∧
       FlagsButYXAre t.main.f { FlagBits.unpack s.main.f with h := false, n := false, c := true }))

/-- 16-bit `ADD` (R191, R353, R356): S, Z and PV are kept; H is the carry out of bit 11. -/
def Obligations.AddWord : Prop :=
  ∀ (i : Instr) (dst src : Loc16) (s : State), Forms.addWord i = some (dst, src) →
    ∃ t, exec i s = .next t ∧ Retires i { effectOf16 dst with f := true } [] s t ∧
      (dst.read t).toNat = ((dst.read s).toNat + (src.read s).toNat) % 65536 ∧
      FlagsAre t.main.f
        { FlagBits.unpack s.main.f with
          y := (dst.read t).getLsbD 13
          h := decide (4096 ≤ (dst.read s).toNat % 4096 + (src.read s).toNat % 4096)
          x := (dst.read t).getLsbD 11
          n := false
          c := decide (65536 ≤ (dst.read s).toNat + (src.read s).toNat) }

/-- `ADC HL` (R192, R354) and `SBC HL` (R193, R355), PV being 16-bit signed overflow. -/
def Obligations.AddWordWithCarry : Prop :=
  ∀ (ss : Pair) (s : State) (c : Nat), c = (flagC s.main.f).toNat →
    (∃ t, exec (.adcHlSs ss) s = .next t ∧ Retires (.adcHlSs ss) { regs := [.h, .l], f := true } [] s t ∧
      t.hl.toNat = (s.hl.toNat + (ss.loc.read s).toNat + c) % 65536 ∧
      FlagsAre t.main.f
        { s := t.hl.getLsbD 15
          z := decide (t.hl = 0)
          y := t.hl.getLsbD 13
          h := decide (4096 ≤ s.hl.toNat % 4096 + (ss.loc.read s).toNat % 4096 + c)
          x := t.hl.getLsbD 11
          pv := overflows16 (s.hl.toInt + (ss.loc.read s).toInt + c)
          n := false
          c := decide (65536 ≤ s.hl.toNat + (ss.loc.read s).toNat + c) }) ∧
    (∃ t, exec (.sbcHlSs ss) s = .next t ∧ Retires (.sbcHlSs ss) { regs := [.h, .l], f := true } [] s t ∧
      (t.hl.toNat : Int) = ((s.hl.toNat : Int) - (ss.loc.read s).toNat - c) % 65536 ∧
      FlagsAre t.main.f
        { s := t.hl.getLsbD 15
          z := decide (t.hl = 0)
          y := t.hl.getLsbD 13
          h := decide (s.hl.toNat % 4096 < (ss.loc.read s).toNat % 4096 + c)
          x := t.hl.getLsbD 11
          pv := overflows16 (s.hl.toInt - (ss.loc.read s).toInt - c)
          n := true
          c := decide (s.hl.toNat < (ss.loc.read s).toNat + c) })

/-- 16-bit `INC` and `DEC` (R357 to R360) wrap modulo 2^16 and write no flag. -/
def Obligations.StepWord : Prop :=
  ∀ (i : Instr) (l : Loc16) (d : Int) (s : State), Forms.stepWord i = some (l, d) →
    ∃ t, exec i s = .next t ∧ Retires i (effectOf16 l) [] s t ∧
      ((l.read t).toNat : Int) = ((l.read s).toNat + d) % 65536

/-! ### Rotates and bits -/

/-- The accumulator rotates (R189, R190, R400 to R403): S, Z and PV are kept. -/
def Obligations.RotateA : Prop :=
  ∀ (i : Instr) (op : RotOp) (s : State), Forms.rotateA i = some op →
    ∃ t, exec i s = .next t ∧ Retires i { regs := [.a], f := true } [] s t ∧
      t.main.a.toNat =
        (if Forms.movesLeft op then
          s.main.a.toNat * 2 % 256 + (Forms.bitIn op s.main.a (flagC s.main.f)).toNat
        else s.main.a.toNat / 2 + 128 * (Forms.bitIn op s.main.a (flagC s.main.f)).toNat) ∧
      FlagsAre t.main.f
        { FlagBits.unpack s.main.f with
          y := t.main.a.getLsbD 5
          h := false
          x := t.main.a.getLsbD 3
          n := false
          c := if Forms.movesLeft op then s.main.a.getLsbD 7 else s.main.a.getLsbD 0 }

/-- The `CB` rotates and shifts, every operand form, the register-copy forms too (R189, R404 to R435). -/
def Obligations.RotateByte : Prop :=
  ∀ (i : Instr) (op : RotOp) (l : Loc8) (copy : Option Reg8) (s : State), Forms.rotate i = some (op, l, copy) →
    ∃ (t : State) (res : Byte), exec i s = .next t ∧
      Retires i { effectOf8 l with regs := (effectOf8 l).regs ++ copy.toList, f := true }
        (l.readEvents s ++ l.writeEvents res s) s t ∧
      res.toNat =
        (if Forms.movesLeft op then
          (l.read s).toNat * 2 % 256 + (Forms.bitIn op (l.read s) (flagC s.main.f)).toNat
        else (l.read s).toNat / 2 + 128 * (Forms.bitIn op (l.read s) (flagC s.main.f)).toNat) ∧
      Holds8 l res s t ∧ (∀ r, copy = some r → t.reg r = res) ∧
      FlagsAre t.main.f
        { s := res.getLsbD 7
          z := decide (res = 0)
          y := res.getLsbD 5
          h := false
          x := res.getLsbD 3
          pv := parity8 res
          n := false
          c := if Forms.movesLeft op then (l.read s).getLsbD 7 else (l.read s).getLsbD 0 }

/-- `RLD` and `RRD` (R436, R437): the three digits move, A keeps its high digit, flags from the new A, C kept. -/
def Obligations.RotateDigits : Prop :=
  ∀ (s : State) (i : Instr) (m : Nat), m = (memRead s s.hl).toNat → i = .rld ∨ i = .rrd →
    ∃ (t : State) (res : Byte), exec i s = .next t ∧
      Retires i { regs := [.a], f := true } [.memRead s.hl (memRead s s.hl), .memWrite s.hl res] s t ∧
      t.main.a.toNat = s.main.a.toNat / 16 * 16 + (if i = .rld then m / 16 else m % 16) ∧
      res.toNat = (if i = .rld then m % 16 * 16 + s.main.a.toNat % 16 else s.main.a.toNat % 16 * 16 + m / 16) ∧
      (Quiet s → IsRam s.bus.map s.hl → memRead t s.hl = res) ∧
      FlagsAre t.main.f
        { s := t.main.a.getLsbD 7
          z := decide (t.main.a = 0)
          y := t.main.a.getLsbD 5
          h := false
          x := t.main.a.getLsbD 3
          pv := parity8 t.main.a
          n := false
          c := flagC s.main.f }

/-- `BIT b` (R198, R450 to R452) writes only F. For an indexed byte Y and X come from the high byte of the address, whatever
the opcode's z; for `(HL)` nothing is said of them, since they are drawn. -/
def Obligations.BitTests : Prop :=
  (∀ (i : Instr) (b : BitVec 3) (l : Loc8) (xy : Byte) (s : State), Forms.testBit s i = some (b, l, xy) →
     ∃ t, exec i s = .next t ∧ Retires i { f := true } (l.readEvents s) s t ∧
       FlagsAre t.main.f
         { s := decide (b = 7) && (l.read s).getLsbD 7
           z := !(l.read s).getLsbD b.toNat
           y := xy.getLsbD 5
           h := true
           x := xy.getLsbD 3
           pv := !(l.read s).getLsbD b.toNat
           n := false
           c := flagC s.main.f }) ∧
  (∀ (b : BitVec 3) (s : State),
     ∃ t, exec (.bitBHl b) s = .next t ∧
       Retires (.bitBHl b) { f := true } [.memRead s.hl (memRead s s.hl)] s t ∧
       FlagsButYXAre t.main.f
         { s := decide (b = 7) && (memRead s s.hl).getLsbD 7
           z := !(memRead s s.hl).getLsbD b.toNat
           y := false
           h := true
           x := false
           pv := !(memRead s s.hl).getLsbD b.toNat
           n := false
           c := flagC s.main.f })

/-- `SET` and `RES`, every operand form (R453 to R460): the named bit has its new value, every other bit its old one, the
register of a copy form the same byte, and no flag changes. -/
def Obligations.ChangeBit : Prop :=
  ∀ (i : Instr) (b : BitVec 3) (v : Bool) (l : Loc8) (copy : Option Reg8) (s : State),
    Forms.changeBit i = some (b, v, l, copy) →
    ∃ (t : State) (res : Byte), exec i s = .next t ∧
      Retires i { effectOf8 l with regs := (effectOf8 l).regs ++ copy.toList }
        (l.readEvents s ++ l.writeEvents res s) s t ∧
      (∀ k < 8, res.getLsbD k = if k = b.toNat then v else (l.read s).getLsbD k) ∧
      Holds8 l res s t ∧ (∀ r, copy = some r → t.reg r = res)

/-! ### Control flow -/

/-- The jumps (R42, R500 to R505): PC is the target if the jump is taken and `next_pc` if not, and nothing else is written.
`DJNZ` (R506): B goes down by 1 modulo 256, and the jump is taken unless B became 0. -/
def Obligations.JumpsAndDjnz : Prop :=
  (∀ (i : Instr) (taken : Bool) (target : Word) (s : State), Forms.jump s i = some (taken, target) →
     ∃ t, exec i s = .next t ∧ RetiresAt (if taken then target else nextPc i s) i {} [] s t) ∧
  (∀ (e : Byte) (s : State),
     ∃ t, exec (.djnz e) s = .next t ∧ t.main.b = s.main.b - 1 ∧
       RetiresAt (if s.main.b = 1 then s.pc + 2 else s.pc + 2 + e.signExtend 16) (.djnz e) { regs := [.b] } [] s t)

/-- The calls and `RST` (R507, R508, R513): taken, the address after the instruction is pushed and PC is the target; not
taken, neither SP nor memory changes. -/
def Obligations.Calls : Prop :=
  ∀ (i : Instr) (taken : Bool) (target : Word) (s : State), Forms.call s i = some (taken, target) →
    ∃ t high, OrderAllowed s high ∧ exec i s = .next t ∧
      (taken = true → RetiresAt target i { sp := true } (wordWrites high (s.sp - 2) (nextPc i s)) s t ∧
        t.sp = s.sp - 2 ∧ WordStored (s.sp - 2) (nextPc i s) s t) ∧
      (taken = false → Retires i {} [] s t)

/-- The returns (R509 to R512): taken, PC is the word at SP and SP goes up by 2; `RETI` and `RETN` copy IFF2 to IFF1. -/
def Obligations.Returns : Prop :=
  ∀ (i : Instr) (taken fromInterrupt : Bool) (s : State), Forms.returnFrom s i = some (taken, fromInterrupt) →
    ∃ t high lo hi, OrderAllowed s high ∧ exec i s = .next t ∧
      (taken = true →
        RetiresAt (wordOf hi lo) i { sp := true, iff1 := fromInterrupt } (wordReads high s.sp lo hi) s t ∧
        t.sp = s.sp + 2 ∧ t.iff1 = if fromInterrupt then s.iff2 else s.iff1) ∧
      (taken = false → Retires i {} [] s t)

/-! ### Block instructions -/

/-- `LDI`, `LDD` and their repeating forms (R195, R550 to R553, R566): one pass copies the byte at HL to DE and steps HL,
DE and BC; the repeating forms leave PC on their `ED` byte while BC is not 0. Y and X of a pass that repeats are drawn
under `REPEAT_PASS_FLAGS = draw`. -/
def Obligations.BlockMove : Prop :=
  ∀ (i : Instr) (k : Forms.Block) (s : State), Forms.blockMove i = some k →
    ∃ t, exec i s = .next t ∧
      RetiresAt (if k.repeats ∧ t.bc ≠ 0 then s.pc else s.pc + 2) i
        { regs := [.b, .c, .d, .e, .h, .l], f := true }
        [.memRead s.hl (memRead s s.hl), .memWrite s.de (memRead s s.hl)] s t ∧
      (Quiet s → IsRam s.bus.map s.de → memRead t s.de = memRead s s.hl) ∧
      (t.hl.toNat : Int) = (s.hl.toNat + k.delta) % 65536 ∧
      (t.de.toNat : Int) = (s.de.toNat + k.delta) % 65536 ∧
      t.bc = s.bc - 1 ∧
      FlagsButYXAre t.main.f
        { FlagBits.unpack s.main.f with h := false, pv := decide (t.bc ≠ 0), n := false } ∧
      ((k.repeats = false ∨ t.bc = 0 ∨ s.params.repeatPassFlags = .singlePass) →
        flagY t.main.f = (memRead s s.hl + s.main.a).getLsbD 1 ∧
        flagX t.main.f = (memRead s s.hl + s.main.a).getLsbD 3)

/-- `CPI`, `CPD` and their repeating forms (R196, R554 to R557, R566): one pass compares A with the byte at HL, keeps C, and
steps HL and BC; the repeating forms go on while BC is not 0 and there was no match. -/
def Obligations.BlockCompare : Prop :=
  ∀ (i : Instr) (k : Forms.Block) (s : State) (v : Byte) (h : Bool), Forms.blockCompare i = some k →
    v = memRead s s.hl → h = decide (s.main.a.toNat % 16 < v.toNat % 16) →
    ∃ t, exec i s = .next t ∧
      RetiresAt (if k.repeats ∧ t.bc ≠ 0 ∧ s.main.a ≠ v then s.pc else s.pc + 2) i
        { regs := [.b, .c, .h, .l], f := true } [.memRead s.hl v] s t ∧
      (t.hl.toNat : Int) = (s.hl.toNat + k.delta) % 65536 ∧
      t.bc = s.bc - 1 ∧
      FlagsButYXAre t.main.f
        { s := (s.main.a - v).getLsbD 7
          z := decide (s.main.a = v)
          y := false
          h := h
          x := false
          pv := decide (t.bc ≠ 0)
          n := true
          c := flagC s.main.f } ∧
      ((k.repeats = false ∨ t.bc = 0 ∨ s.main.a = v ∨ s.params.repeatPassFlags = .singlePass) →
        flagY t.main.f = (s.main.a - v - BitVec.ofNat 8 h.toNat).getLsbD 1 ∧
        flagX t.main.f = (s.main.a - v - BitVec.ofNat 8 h.toNat).getLsbD 3)

/-- `INI`, `IND` and their repeating forms (R97, R197, R558 to R561, R566): one pass stores at HL the byte read from port
BC, B being the old one, and steps HL and B; C is kept; the sum of the flags is the byte plus C stepped. -/
def Obligations.BlockInput : Prop :=
  ∀ (i : Instr) (k : Forms.Block) (s : State) (v : Byte) (sum : Nat), Forms.blockInput i = some k →
    v = portAnswer s s.bc → (sum : Int) = v.toNat + (s.main.c.toNat + k.delta) % 256 →
    ∃ t, exec i s = .next t ∧
      RetiresAt (if k.repeats ∧ t.main.b ≠ 0 then s.pc else s.pc + 2) i
        { regs := [.b, .h, .l], f := true } [.portRead s.bc v, .memWrite s.hl v] s t ∧
      (Quiet s → IsRam s.bus.map s.hl → memRead t s.hl = v) ∧
      (t.hl.toNat : Int) = (s.hl.toNat + k.delta) % 65536 ∧
      t.main.b = s.main.b - 1 ∧
      FlagsButYXAre t.main.f
        { s := t.main.b.getLsbD 7
          z := decide (t.main.b = 0)
          y := false
          h := decide (255 < sum)
          x := false
          pv := parity8 (BitVec.ofNat 8 (sum % 8) ^^^ t.main.b)
          n := v.getLsbD 7
          c := decide (255 < sum) } ∧
      ((k.repeats = false ∨ t.main.b = 0 ∨ s.params.repeatPassFlags = .singlePass) →
        flagY t.main.f = t.main.b.getLsbD 5 ∧ flagX t.main.f = t.main.b.getLsbD 3)

/-- `OUTI`, `OUTD` and their repeating forms (R97, R197, R562 to R566): one pass writes the byte at HL to port BC, B being
the new one, and steps HL and B; the sum of the flags is the byte plus the new L. -/
def Obligations.BlockOutput : Prop :=
  ∀ (i : Instr) (k : Forms.Block) (s : State) (v : Byte), Forms.blockOutput i = some k → v = memRead s s.hl →
    ∃ t, exec i s = .next t ∧
      RetiresAt (if k.repeats ∧ t.main.b ≠ 0 then s.pc else s.pc + 2) i
        { regs := [.b, .h, .l], f := true } [.memRead s.hl v, .portWrite t.bc v] s t ∧
      (t.hl.toNat : Int) = (s.hl.toNat + k.delta) % 65536 ∧
      t.main.b = s.main.b - 1 ∧
      FlagsButYXAre t.main.f
        { s := t.main.b.getLsbD 7
          z := decide (t.main.b = 0)
          y := false
          h := decide (255 < v.toNat + t.main.l.toNat)
          x := false
          pv := parity8 (BitVec.ofNat 8 ((v.toNat + t.main.l.toNat) % 8) ^^^ t.main.b)
          n := v.getLsbD 7
          c := decide (255 < v.toNat + t.main.l.toNat) } ∧
      ((k.repeats = false ∨ t.main.b = 0 ∨ s.params.repeatPassFlags = .singlePass) →
        flagY t.main.f = t.main.b.getLsbD 5 ∧ flagX t.main.f = t.main.b.getLsbD 3)

/-! ### Input and output -/

/-- `IN A,(n)` (R97, R600), `IN r,(C)` (R601) and `IN (C)` (R602): one port read, its port `A : n` with the old A or
`B : C`; the `(C)` forms write F, `IN A,(n)` does not. -/
def Obligations.PortInput : Prop :=
  ∀ s : State,
    (∀ (n v : Byte), v = portAnswer s (wordOf s.main.a n) →
      ∃ t, exec (.inAN n) s = .next t ∧
        Retires (.inAN n) { regs := [.a] } [.portRead (wordOf s.main.a n) v] s t ∧ t.main.a = v) ∧
    (∀ (i : Instr) (dst : Option Reg8) (v : Byte), v = portAnswer s s.bc → (i = .inC ∧ dst = none ∨ ∃ r, i = .inRC r ∧ dst = some r) →
      ∃ t, exec i s = .next t ∧ Retires i { regs := Option.toList dst, f := true } [.portRead s.bc v] s t ∧
        (∀ r, dst = some r → t.reg r = v) ∧
        FlagsAre t.main.f
          { s := v.getLsbD 7
            z := decide (v = 0)
            y := v.getLsbD 5
            h := false
            x := v.getLsbD 3
            pv := parity8 v
            n := false
            c := flagC s.main.f })

/-- `OUT (n),A`, `OUT (C),r` and `OUT (C),0` (R97, R603 to R605): one port write, and nothing else. -/
def Obligations.PortOutput : Prop :=
  ∀ (i : Instr) (port : Word) (v : Byte) (s : State), Forms.output s i = some (port, v) →
    ∃ t, exec i s = .next t ∧ Retires i {} [.portWrite port v] s t

/-! ### CPU control and prefixes -/

/-- `NOP` (R650), `HALT` (R651), `DI` (R652), and `IM n` with its mirrors (R654 to R656). -/
def Obligations.CpuControl : Prop :=
  (∀ s : State,
     (∃ t, exec .nop s = .next t ∧ Retires .nop {} [] s t) ∧
     (∃ t, exec .halt s = .next t ∧ RetiresAt s.pc .halt { halted := true } [] s t ∧ t.halted = true) ∧
     (∃ t, exec .di s = .next t ∧ Retires .di { iff1 := true, iff2 := true } [] s t ∧ t.iff1 = false ∧ t.iff2 = false)) ∧
  (∀ (i : Instr) (m : IntMode) (s : State), Forms.setMode i = some m →
     ∃ t, exec i s = .next t ∧ Retires i { im := true } [] s t ∧ t.im = m)

/-- `LD I,A` (R659); `LD R,A` (R660), which writes all 8 bits of R after its own M1 fetches; `LD A,I` (R657) and `LD A,R`
(R658), with flags from the new A, PV = IFF2 and C kept, R being read after its own two M1 fetches. Under `R_MODEL = draw`
nothing is said of the value `LD A,R` gives A. -/
def Obligations.MovesOfIAndR : Prop :=
  (∀ s : State,
     (∃ t, exec .ldIA s = .next t ∧ Retires .ldIA { i := true } [] s t ∧ t.i = s.main.a) ∧
     (∃ t, exec .ldRA s = .next t ∧ t.r = s.main.a ∧ t.pc = s.pc + 2 ∧ t.inhibit = false ∧
       Transacts [] s t ∧ Frame {} s t)) ∧
  (∀ (s : State) (i : Instr), i = .ldAI ∨ i = .ldAR →
     ∃ t, exec i s = .next t ∧ Retires i { regs := [.a], f := true } [] s t ∧
       (i = .ldAI → t.main.a = s.i) ∧ (i = .ldAR → s.params.rModel = .counted → t.main.a = t.r) ∧
       FlagsAre t.main.f
         { s := t.main.a.getLsbD 7
           z := decide (t.main.a = 0)
           y := t.main.a.getLsbD 5
           h := false
           x := t.main.a.getLsbD 3
           pv := s.iff2
           n := false
           c := flagC s.main.f })

/-- The prefix rows (R124, R127, R662): a prefix that selects a table does nothing by itself; a superseded or ignored one
takes one byte and one M1 fetch and leaves everything else, `inhibit` too. That a prefix is a row of its own is the model's
choice (log 6). -/
def Obligations.PrefixRows : Prop :=
  ∀ (i : Instr) (s : State),
    (i.isTablePrefix = true → exec i s = .next s) ∧
    (i.isIgnoredPrefix = true → ∃ t, exec i s = .next t ∧ t.pc = s.pc + 1 ∧ t.inhibit = s.inhibit ∧
      Counted 1 s t ∧ Transacts [] s t ∧ Frame {} s t)
end

