-- ==== Sys2Proof/Laws/State.lean ====
section
/-! SUPPORT. One simp lemma per field of `State` that an operation leaves alone, so that no proof unfolds a record
update; and what the operations on registers read back. -/

namespace Sys2Proof.Machine

open Sys2Proof

/-! ### setReg -/

@[simp] theorem setReg_alt (s : State) (q : Reg8) (v : Byte) : (s.setReg q v).alt = s.alt := by cases q <;> rfl
@[simp] theorem setReg_ix (s : State) (q : Reg8) (v : Byte) : (s.setReg q v).ix = s.ix := by cases q <;> rfl
@[simp] theorem setReg_iy (s : State) (q : Reg8) (v : Byte) : (s.setReg q v).iy = s.iy := by cases q <;> rfl
@[simp] theorem setReg_sp (s : State) (q : Reg8) (v : Byte) : (s.setReg q v).sp = s.sp := by cases q <;> rfl
@[simp] theorem setReg_pc (s : State) (q : Reg8) (v : Byte) : (s.setReg q v).pc = s.pc := by cases q <;> rfl
@[simp] theorem setReg_i (s : State) (q : Reg8) (v : Byte) : (s.setReg q v).i = s.i := by cases q <;> rfl
@[simp] theorem setReg_r (s : State) (q : Reg8) (v : Byte) : (s.setReg q v).r = s.r := by cases q <;> rfl
@[simp] theorem setReg_iff1 (s : State) (q : Reg8) (v : Byte) : (s.setReg q v).iff1 = s.iff1 := by cases q <;> rfl
@[simp] theorem setReg_iff2 (s : State) (q : Reg8) (v : Byte) : (s.setReg q v).iff2 = s.iff2 := by cases q <;> rfl
@[simp] theorem setReg_im (s : State) (q : Reg8) (v : Byte) : (s.setReg q v).im = s.im := by cases q <;> rfl
@[simp] theorem setReg_halted (s : State) (q : Reg8) (v : Byte) : (s.setReg q v).halted = s.halted := by cases q <;> rfl
@[simp] theorem setReg_inhibit (s : State) (q : Reg8) (v : Byte) : (s.setReg q v).inhibit = s.inhibit := by cases q <;> rfl
@[simp] theorem setReg_nmiPending (s : State) (q : Reg8) (v : Byte) : (s.setReg q v).nmiPending = s.nmiPending := by cases q <;> rfl
@[simp] theorem setReg_intLine (s : State) (q : Reg8) (v : Byte) : (s.setReg q v).intLine = s.intLine := by cases q <;> rfl
@[simp] theorem setReg_intVector (s : State) (q : Reg8) (v : Byte) : (s.setReg q v).intVector = s.intVector := by cases q <;> rfl
@[simp] theorem setReg_bus (s : State) (q : Reg8) (v : Byte) : (s.setReg q v).bus = s.bus := by cases q <;> rfl
@[simp] theorem setReg_params (s : State) (q : Reg8) (v : Byte) : (s.setReg q v).params = s.params := by cases q <;> rfl
@[simp] theorem setReg_draws (s : State) (q : Reg8) (v : Byte) : (s.setReg q v).draws = s.draws := by cases q <;> rfl
@[simp] theorem setReg_unwritten (s : State) (q : Reg8) (v : Byte) : (s.setReg q v).unwritten = s.unwritten := by cases q <;> rfl

/-! ### setF -/

@[simp] theorem setF_alt (s : State) (f : Byte) : (s.setF f).alt = s.alt := rfl
@[simp] theorem setF_ix (s : State) (f : Byte) : (s.setF f).ix = s.ix := rfl
@[simp] theorem setF_iy (s : State) (f : Byte) : (s.setF f).iy = s.iy := rfl
@[simp] theorem setF_sp (s : State) (f : Byte) : (s.setF f).sp = s.sp := rfl
@[simp] theorem setF_pc (s : State) (f : Byte) : (s.setF f).pc = s.pc := rfl
@[simp] theorem setF_i (s : State) (f : Byte) : (s.setF f).i = s.i := rfl
@[simp] theorem setF_r (s : State) (f : Byte) : (s.setF f).r = s.r := rfl
@[simp] theorem setF_iff1 (s : State) (f : Byte) : (s.setF f).iff1 = s.iff1 := rfl
@[simp] theorem setF_iff2 (s : State) (f : Byte) : (s.setF f).iff2 = s.iff2 := rfl
@[simp] theorem setF_im (s : State) (f : Byte) : (s.setF f).im = s.im := rfl
@[simp] theorem setF_halted (s : State) (f : Byte) : (s.setF f).halted = s.halted := rfl
@[simp] theorem setF_inhibit (s : State) (f : Byte) : (s.setF f).inhibit = s.inhibit := rfl
@[simp] theorem setF_nmiPending (s : State) (f : Byte) : (s.setF f).nmiPending = s.nmiPending := rfl
@[simp] theorem setF_intLine (s : State) (f : Byte) : (s.setF f).intLine = s.intLine := rfl
@[simp] theorem setF_intVector (s : State) (f : Byte) : (s.setF f).intVector = s.intVector := rfl
@[simp] theorem setF_bus (s : State) (f : Byte) : (s.setF f).bus = s.bus := rfl
@[simp] theorem setF_params (s : State) (f : Byte) : (s.setF f).params = s.params := rfl
@[simp] theorem setF_draws (s : State) (f : Byte) : (s.setF f).draws = s.draws := rfl
@[simp] theorem setF_unwritten (s : State) (f : Byte) : (s.setF f).unwritten = s.unwritten := rfl

/-! ### setIdx -/

@[simp] theorem setIdx_main (s : State) (j : Idx) (w : Word) : (s.setIdx j w).main = s.main := by cases j <;> rfl
@[simp] theorem setIdx_alt (s : State) (j : Idx) (w : Word) : (s.setIdx j w).alt = s.alt := by cases j <;> rfl
@[simp] theorem setIdx_sp (s : State) (j : Idx) (w : Word) : (s.setIdx j w).sp = s.sp := by cases j <;> rfl
@[simp] theorem setIdx_pc (s : State) (j : Idx) (w : Word) : (s.setIdx j w).pc = s.pc := by cases j <;> rfl
@[simp] theorem setIdx_i (s : State) (j : Idx) (w : Word) : (s.setIdx j w).i = s.i := by cases j <;> rfl
@[simp] theorem setIdx_r (s : State) (j : Idx) (w : Word) : (s.setIdx j w).r = s.r := by cases j <;> rfl
@[simp] theorem setIdx_iff1 (s : State) (j : Idx) (w : Word) : (s.setIdx j w).iff1 = s.iff1 := by cases j <;> rfl
@[simp] theorem setIdx_iff2 (s : State) (j : Idx) (w : Word) : (s.setIdx j w).iff2 = s.iff2 := by cases j <;> rfl
@[simp] theorem setIdx_im (s : State) (j : Idx) (w : Word) : (s.setIdx j w).im = s.im := by cases j <;> rfl
@[simp] theorem setIdx_halted (s : State) (j : Idx) (w : Word) : (s.setIdx j w).halted = s.halted := by cases j <;> rfl
@[simp] theorem setIdx_inhibit (s : State) (j : Idx) (w : Word) : (s.setIdx j w).inhibit = s.inhibit := by cases j <;> rfl
@[simp] theorem setIdx_nmiPending (s : State) (j : Idx) (w : Word) : (s.setIdx j w).nmiPending = s.nmiPending := by cases j <;> rfl
@[simp] theorem setIdx_intLine (s : State) (j : Idx) (w : Word) : (s.setIdx j w).intLine = s.intLine := by cases j <;> rfl
@[simp] theorem setIdx_intVector (s : State) (j : Idx) (w : Word) : (s.setIdx j w).intVector = s.intVector := by cases j <;> rfl
@[simp] theorem setIdx_bus (s : State) (j : Idx) (w : Word) : (s.setIdx j w).bus = s.bus := by cases j <;> rfl
@[simp] theorem setIdx_params (s : State) (j : Idx) (w : Word) : (s.setIdx j w).params = s.params := by cases j <;> rfl
@[simp] theorem setIdx_draws (s : State) (j : Idx) (w : Word) : (s.setIdx j w).draws = s.draws := by cases j <;> rfl
@[simp] theorem setIdx_unwritten (s : State) (j : Idx) (w : Word) : (s.setIdx j w).unwritten = s.unwritten := by cases j <;> rfl

/-! ### setHalf -/

@[simp] theorem setHalf_main (s : State) (j : Idx) (h : IdxHalf) (v : Byte) : (s.setHalf j h v).main = s.main := by cases j <;> cases h <;> rfl
@[simp] theorem setHalf_alt (s : State) (j : Idx) (h : IdxHalf) (v : Byte) : (s.setHalf j h v).alt = s.alt := by cases j <;> cases h <;> rfl
@[simp] theorem setHalf_sp (s : State) (j : Idx) (h : IdxHalf) (v : Byte) : (s.setHalf j h v).sp = s.sp := by cases j <;> cases h <;> rfl
@[simp] theorem setHalf_pc (s : State) (j : Idx) (h : IdxHalf) (v : Byte) : (s.setHalf j h v).pc = s.pc := by cases j <;> cases h <;> rfl
@[simp] theorem setHalf_i (s : State) (j : Idx) (h : IdxHalf) (v : Byte) : (s.setHalf j h v).i = s.i := by cases j <;> cases h <;> rfl
@[simp] theorem setHalf_r (s : State) (j : Idx) (h : IdxHalf) (v : Byte) : (s.setHalf j h v).r = s.r := by cases j <;> cases h <;> rfl
@[simp] theorem setHalf_iff1 (s : State) (j : Idx) (h : IdxHalf) (v : Byte) : (s.setHalf j h v).iff1 = s.iff1 := by cases j <;> cases h <;> rfl
@[simp] theorem setHalf_iff2 (s : State) (j : Idx) (h : IdxHalf) (v : Byte) : (s.setHalf j h v).iff2 = s.iff2 := by cases j <;> cases h <;> rfl
@[simp] theorem setHalf_im (s : State) (j : Idx) (h : IdxHalf) (v : Byte) : (s.setHalf j h v).im = s.im := by cases j <;> cases h <;> rfl
@[simp] theorem setHalf_halted (s : State) (j : Idx) (h : IdxHalf) (v : Byte) : (s.setHalf j h v).halted = s.halted := by cases j <;> cases h <;> rfl
@[simp] theorem setHalf_inhibit (s : State) (j : Idx) (h : IdxHalf) (v : Byte) : (s.setHalf j h v).inhibit = s.inhibit := by cases j <;> cases h <;> rfl
@[simp] theorem setHalf_nmiPending (s : State) (j : Idx) (h : IdxHalf) (v : Byte) : (s.setHalf j h v).nmiPending = s.nmiPending := by cases j <;> cases h <;> rfl
@[simp] theorem setHalf_intLine (s : State) (j : Idx) (h : IdxHalf) (v : Byte) : (s.setHalf j h v).intLine = s.intLine := by cases j <;> cases h <;> rfl
@[simp] theorem setHalf_intVector (s : State) (j : Idx) (h : IdxHalf) (v : Byte) : (s.setHalf j h v).intVector = s.intVector := by cases j <;> cases h <;> rfl
@[simp] theorem setHalf_bus (s : State) (j : Idx) (h : IdxHalf) (v : Byte) : (s.setHalf j h v).bus = s.bus := by cases j <;> cases h <;> rfl
@[simp] theorem setHalf_params (s : State) (j : Idx) (h : IdxHalf) (v : Byte) : (s.setHalf j h v).params = s.params := by cases j <;> cases h <;> rfl
@[simp] theorem setHalf_draws (s : State) (j : Idx) (h : IdxHalf) (v : Byte) : (s.setHalf j h v).draws = s.draws := by cases j <;> cases h <;> rfl
@[simp] theorem setHalf_unwritten (s : State) (j : Idx) (h : IdxHalf) (v : Byte) : (s.setHalf j h v).unwritten = s.unwritten := by cases j <;> cases h <;> rfl

/-! ### write16 -/

@[simp] theorem write16_alt (s : State) (l : Loc16) (w : Word) : (l.write w s).alt = s.alt := by rcases l with _ | _ | _ | _ | _ | j <;> first | rfl | (cases j <;> rfl)
@[simp] theorem write16_pc (s : State) (l : Loc16) (w : Word) : (l.write w s).pc = s.pc := by rcases l with _ | _ | _ | _ | _ | j <;> first | rfl | (cases j <;> rfl)
@[simp] theorem write16_i (s : State) (l : Loc16) (w : Word) : (l.write w s).i = s.i := by rcases l with _ | _ | _ | _ | _ | j <;> first | rfl | (cases j <;> rfl)
@[simp] theorem write16_r (s : State) (l : Loc16) (w : Word) : (l.write w s).r = s.r := by rcases l with _ | _ | _ | _ | _ | j <;> first | rfl | (cases j <;> rfl)
@[simp] theorem write16_iff1 (s : State) (l : Loc16) (w : Word) : (l.write w s).iff1 = s.iff1 := by rcases l with _ | _ | _ | _ | _ | j <;> first | rfl | (cases j <;> rfl)
@[simp] theorem write16_iff2 (s : State) (l : Loc16) (w : Word) : (l.write w s).iff2 = s.iff2 := by rcases l with _ | _ | _ | _ | _ | j <;> first | rfl | (cases j <;> rfl)
@[simp] theorem write16_im (s : State) (l : Loc16) (w : Word) : (l.write w s).im = s.im := by rcases l with _ | _ | _ | _ | _ | j <;> first | rfl | (cases j <;> rfl)
@[simp] theorem write16_halted (s : State) (l : Loc16) (w : Word) : (l.write w s).halted = s.halted := by rcases l with _ | _ | _ | _ | _ | j <;> first | rfl | (cases j <;> rfl)
@[simp] theorem write16_inhibit (s : State) (l : Loc16) (w : Word) : (l.write w s).inhibit = s.inhibit := by rcases l with _ | _ | _ | _ | _ | j <;> first | rfl | (cases j <;> rfl)
@[simp] theorem write16_nmiPending (s : State) (l : Loc16) (w : Word) : (l.write w s).nmiPending = s.nmiPending := by rcases l with _ | _ | _ | _ | _ | j <;> first | rfl | (cases j <;> rfl)
@[simp] theorem write16_intLine (s : State) (l : Loc16) (w : Word) : (l.write w s).intLine = s.intLine := by rcases l with _ | _ | _ | _ | _ | j <;> first | rfl | (cases j <;> rfl)
@[simp] theorem write16_intVector (s : State) (l : Loc16) (w : Word) : (l.write w s).intVector = s.intVector := by rcases l with _ | _ | _ | _ | _ | j <;> first | rfl | (cases j <;> rfl)
@[simp] theorem write16_bus (s : State) (l : Loc16) (w : Word) : (l.write w s).bus = s.bus := by rcases l with _ | _ | _ | _ | _ | j <;> first | rfl | (cases j <;> rfl)
@[simp] theorem write16_params (s : State) (l : Loc16) (w : Word) : (l.write w s).params = s.params := by rcases l with _ | _ | _ | _ | _ | j <;> first | rfl | (cases j <;> rfl)
@[simp] theorem write16_draws (s : State) (l : Loc16) (w : Word) : (l.write w s).draws = s.draws := by rcases l with _ | _ | _ | _ | _ | j <;> first | rfl | (cases j <;> rfl)
@[simp] theorem write16_unwritten (s : State) (l : Loc16) (w : Word) : (l.write w s).unwritten = s.unwritten := by rcases l with _ | _ | _ | _ | _ | j <;> first | rfl | (cases j <;> rfl)

/-! ### didAll -/

@[simp] theorem didAll_main (s : State) (es : List BusEvent) : (s.didAll es).main = s.main := rfl
@[simp] theorem didAll_alt (s : State) (es : List BusEvent) : (s.didAll es).alt = s.alt := rfl
@[simp] theorem didAll_ix (s : State) (es : List BusEvent) : (s.didAll es).ix = s.ix := rfl
@[simp] theorem didAll_iy (s : State) (es : List BusEvent) : (s.didAll es).iy = s.iy := rfl
@[simp] theorem didAll_sp (s : State) (es : List BusEvent) : (s.didAll es).sp = s.sp := rfl
@[simp] theorem didAll_pc (s : State) (es : List BusEvent) : (s.didAll es).pc = s.pc := rfl
@[simp] theorem didAll_i (s : State) (es : List BusEvent) : (s.didAll es).i = s.i := rfl
@[simp] theorem didAll_r (s : State) (es : List BusEvent) : (s.didAll es).r = s.r := rfl
@[simp] theorem didAll_iff1 (s : State) (es : List BusEvent) : (s.didAll es).iff1 = s.iff1 := rfl
@[simp] theorem didAll_iff2 (s : State) (es : List BusEvent) : (s.didAll es).iff2 = s.iff2 := rfl
@[simp] theorem didAll_im (s : State) (es : List BusEvent) : (s.didAll es).im = s.im := rfl
@[simp] theorem didAll_halted (s : State) (es : List BusEvent) : (s.didAll es).halted = s.halted := rfl
@[simp] theorem didAll_inhibit (s : State) (es : List BusEvent) : (s.didAll es).inhibit = s.inhibit := rfl
@[simp] theorem didAll_nmiPending (s : State) (es : List BusEvent) : (s.didAll es).nmiPending = s.nmiPending := rfl
@[simp] theorem didAll_intLine (s : State) (es : List BusEvent) : (s.didAll es).intLine = s.intLine := rfl
@[simp] theorem didAll_intVector (s : State) (es : List BusEvent) : (s.didAll es).intVector = s.intVector := rfl
@[simp] theorem didAll_params (s : State) (es : List BusEvent) : (s.didAll es).params = s.params := rfl
@[simp] theorem didAll_draws (s : State) (es : List BusEvent) : (s.didAll es).draws = s.draws := rfl
@[simp] theorem didAll_unwritten (s : State) (es : List BusEvent) : (s.didAll es).unwritten = s.unwritten := rfl

/-! ### write8 -/

/-! ### Transactions, as what they add to the bus -/

@[simp] theorem didAll_bus (s : State) (es : List BusEvent) : (s.didAll es).bus = s.bus.replay es := rfl

@[simp] theorem didAll_nil (s : State) : s.didAll [] = s := rfl

theorem replay_append (b : Bus) (es fs : List BusEvent) : b.replay (es ++ fs) = (b.replay es).replay fs :=
  List.foldl_append

theorem didAll_didAll (s : State) (es fs : List BusEvent) : (s.didAll es).didAll fs = s.didAll (es ++ fs) := by
  simp only [State.didAll, replay_append]

theorem did_eq (s : State) (e : BusEvent) : s.did e = s.didAll [e] := rfl

@[simp] theorem memReadDone_eq (s : State) (a : Word) : memReadDone a s = s.didAll [.memRead a (memRead s a)] := rfl

@[simp] theorem memWrite_eq (s : State) (a : Word) (v : Byte) : memWrite a v s = s.didAll [.memWrite a v] := rfl

@[simp] theorem portReadDone_eq (s : State) (p : Word) :
    portReadDone p s = s.didAll [.portRead p (portAnswer s p)] := rfl

@[simp] theorem portWrite_eq (s : State) (p : Word) (v : Byte) : portWrite p v s = s.didAll [.portWrite p v] := rfl

@[simp] theorem memWriteWord_eq (s : State) (a w : Word) :
    memWriteWord a w s = s.didAll (wordWrites (highFirst s) a w) := by
  unfold memWriteWord wordWrites
  split <;> rfl

/-- The low byte that a word read gets. -/
def loRead (s : State) (a : Word) : Byte :=
  if highFirst s then memRead (memReadDone (a + 1) s) a else memRead s a

/-- The high byte that a word read gets. -/
def hiRead (s : State) (a : Word) : Byte :=
  if highFirst s then memRead s (a + 1) else memRead (memReadDone a s) (a + 1)

@[simp] theorem memReadWord_eq (s : State) (a : Word) : memReadWord s a = wordOf (hiRead s a) (loRead s a) := by
  unfold memReadWord hiRead loRead
  split <;> rfl

@[simp] theorem memReadWordDone_eq (s : State) (a : Word) :
    memReadWordDone a s = s.didAll (wordReads (highFirst s) a (loRead s a) (hiRead s a)) := by
  unfold memReadWordDone wordReads hiRead loRead
  split <;> rfl

@[simp] theorem push16_eq (s : State) (v : Word) :
    push16 v s = State.didAll (wordWrites (highFirst s) (s.sp - 2) v) { s with sp := s.sp - 2 } :=
  memWriteWord_eq _ _ _

@[simp] theorem topWord_eq (s : State) : topWord s = wordOf (hiRead s s.sp) (loRead s s.sp) := memReadWord_eq _ _

@[simp] theorem popped_eq (s : State) :
    popped s = { s.didAll (wordReads (highFirst s) s.sp (loRead s s.sp) (hiRead s s.sp)) with sp := s.sp + 2 } := by
  simp only [popped, memReadWordDone_eq, didAll_sp]

@[simp] theorem readDone8_eq (s : State) (l : Loc8) : l.readDone s = s.didAll (l.readEvents s) := by
  cases l <;> rfl

@[simp] theorem readDoneSrc_eq (s : State) (o : Src8) : o.readDone s = s.didAll (o.readEvents s) := by
  cases o
  · exact readDone8_eq s _
  · rfl

@[simp] theorem write8_bus (s : State) (l : Loc8) (v : Byte) :
    (l.write v s).bus = s.bus.replay (l.writeEvents v s) := by
  rcases l with q | ⟨j, h⟩ | e
  · exact setReg_bus s q v
  · exact setHalf_bus s j h v
  · rfl

@[simp] theorem write8_alt (s : State) (l : Loc8) (v : Byte) : (l.write v s).alt = s.alt := by rcases l with q | ⟨j, h⟩ | e <;> simp [Loc8.write]
@[simp] theorem write8_sp (s : State) (l : Loc8) (v : Byte) : (l.write v s).sp = s.sp := by rcases l with q | ⟨j, h⟩ | e <;> simp [Loc8.write]
@[simp] theorem write8_pc (s : State) (l : Loc8) (v : Byte) : (l.write v s).pc = s.pc := by rcases l with q | ⟨j, h⟩ | e <;> simp [Loc8.write]
@[simp] theorem write8_i (s : State) (l : Loc8) (v : Byte) : (l.write v s).i = s.i := by rcases l with q | ⟨j, h⟩ | e <;> simp [Loc8.write]
@[simp] theorem write8_r (s : State) (l : Loc8) (v : Byte) : (l.write v s).r = s.r := by rcases l with q | ⟨j, h⟩ | e <;> simp [Loc8.write]
@[simp] theorem write8_iff1 (s : State) (l : Loc8) (v : Byte) : (l.write v s).iff1 = s.iff1 := by rcases l with q | ⟨j, h⟩ | e <;> simp [Loc8.write]
@[simp] theorem write8_iff2 (s : State) (l : Loc8) (v : Byte) : (l.write v s).iff2 = s.iff2 := by rcases l with q | ⟨j, h⟩ | e <;> simp [Loc8.write]
@[simp] theorem write8_im (s : State) (l : Loc8) (v : Byte) : (l.write v s).im = s.im := by rcases l with q | ⟨j, h⟩ | e <;> simp [Loc8.write]
@[simp] theorem write8_halted (s : State) (l : Loc8) (v : Byte) : (l.write v s).halted = s.halted := by rcases l with q | ⟨j, h⟩ | e <;> simp [Loc8.write]
@[simp] theorem write8_inhibit (s : State) (l : Loc8) (v : Byte) : (l.write v s).inhibit = s.inhibit := by rcases l with q | ⟨j, h⟩ | e <;> simp [Loc8.write]
@[simp] theorem write8_nmiPending (s : State) (l : Loc8) (v : Byte) : (l.write v s).nmiPending = s.nmiPending := by rcases l with q | ⟨j, h⟩ | e <;> simp [Loc8.write]
@[simp] theorem write8_intLine (s : State) (l : Loc8) (v : Byte) : (l.write v s).intLine = s.intLine := by rcases l with q | ⟨j, h⟩ | e <;> simp [Loc8.write]
@[simp] theorem write8_intVector (s : State) (l : Loc8) (v : Byte) : (l.write v s).intVector = s.intVector := by rcases l with q | ⟨j, h⟩ | e <;> simp [Loc8.write]
@[simp] theorem write8_params (s : State) (l : Loc8) (v : Byte) : (l.write v s).params = s.params := by rcases l with q | ⟨j, h⟩ | e <;> simp [Loc8.write]
@[simp] theorem write8_draws (s : State) (l : Loc8) (v : Byte) : (l.write v s).draws = s.draws := by rcases l with q | ⟨j, h⟩ | e <;> simp [Loc8.write]
@[simp] theorem write8_unwritten (s : State) (l : Loc8) (v : Byte) : (l.write v s).unwritten = s.unwritten := by rcases l with q | ⟨j, h⟩ | e <;> simp [Loc8.write]

/-! ### countM1 -/

@[simp] theorem countM1_main (s : State) (k : Nat) : (s.countM1 k).main = s.main := by unfold State.countM1; split <;> rfl
@[simp] theorem countM1_alt (s : State) (k : Nat) : (s.countM1 k).alt = s.alt := by unfold State.countM1; split <;> rfl
@[simp] theorem countM1_ix (s : State) (k : Nat) : (s.countM1 k).ix = s.ix := by unfold State.countM1; split <;> rfl
@[simp] theorem countM1_iy (s : State) (k : Nat) : (s.countM1 k).iy = s.iy := by unfold State.countM1; split <;> rfl
@[simp] theorem countM1_sp (s : State) (k : Nat) : (s.countM1 k).sp = s.sp := by unfold State.countM1; split <;> rfl
@[simp] theorem countM1_pc (s : State) (k : Nat) : (s.countM1 k).pc = s.pc := by unfold State.countM1; split <;> rfl
@[simp] theorem countM1_i (s : State) (k : Nat) : (s.countM1 k).i = s.i := by unfold State.countM1; split <;> rfl
@[simp] theorem countM1_iff1 (s : State) (k : Nat) : (s.countM1 k).iff1 = s.iff1 := by unfold State.countM1; split <;> rfl
@[simp] theorem countM1_iff2 (s : State) (k : Nat) : (s.countM1 k).iff2 = s.iff2 := by unfold State.countM1; split <;> rfl
@[simp] theorem countM1_im (s : State) (k : Nat) : (s.countM1 k).im = s.im := by unfold State.countM1; split <;> rfl
@[simp] theorem countM1_halted (s : State) (k : Nat) : (s.countM1 k).halted = s.halted := by unfold State.countM1; split <;> rfl
@[simp] theorem countM1_inhibit (s : State) (k : Nat) : (s.countM1 k).inhibit = s.inhibit := by unfold State.countM1; split <;> rfl
@[simp] theorem countM1_nmiPending (s : State) (k : Nat) : (s.countM1 k).nmiPending = s.nmiPending := by unfold State.countM1; split <;> rfl
@[simp] theorem countM1_intLine (s : State) (k : Nat) : (s.countM1 k).intLine = s.intLine := by unfold State.countM1; split <;> rfl
@[simp] theorem countM1_intVector (s : State) (k : Nat) : (s.countM1 k).intVector = s.intVector := by unfold State.countM1; split <;> rfl
@[simp] theorem countM1_bus (s : State) (k : Nat) : (s.countM1 k).bus = s.bus := by unfold State.countM1; split <;> rfl
@[simp] theorem countM1_params (s : State) (k : Nat) : (s.countM1 k).params = s.params := by unfold State.countM1; split <;> rfl
@[simp] theorem countM1_draws (s : State) (k : Nat) : (s.countM1 k).draws = s.draws := by unfold State.countM1; split <;> rfl
@[simp] theorem countM1_unwritten (s : State) (k : Nat) : (s.countM1 k).unwritten = s.unwritten := by unfold State.countM1; split <;> rfl

/-! ### advance -/

@[simp] theorem advance_main (s : State) (n k : Nat) : (advance n k s).main = s.main := by simp [advance]
@[simp] theorem advance_alt (s : State) (n k : Nat) : (advance n k s).alt = s.alt := by simp [advance]
@[simp] theorem advance_ix (s : State) (n k : Nat) : (advance n k s).ix = s.ix := by simp [advance]
@[simp] theorem advance_iy (s : State) (n k : Nat) : (advance n k s).iy = s.iy := by simp [advance]
@[simp] theorem advance_sp (s : State) (n k : Nat) : (advance n k s).sp = s.sp := by simp [advance]
@[simp] theorem advance_i (s : State) (n k : Nat) : (advance n k s).i = s.i := by simp [advance]
@[simp] theorem advance_iff1 (s : State) (n k : Nat) : (advance n k s).iff1 = s.iff1 := by simp [advance]
@[simp] theorem advance_iff2 (s : State) (n k : Nat) : (advance n k s).iff2 = s.iff2 := by simp [advance]
@[simp] theorem advance_im (s : State) (n k : Nat) : (advance n k s).im = s.im := by simp [advance]
@[simp] theorem advance_halted (s : State) (n k : Nat) : (advance n k s).halted = s.halted := by simp [advance]
@[simp] theorem advance_nmiPending (s : State) (n k : Nat) : (advance n k s).nmiPending = s.nmiPending := by simp [advance]
@[simp] theorem advance_intLine (s : State) (n k : Nat) : (advance n k s).intLine = s.intLine := by simp [advance]
@[simp] theorem advance_intVector (s : State) (n k : Nat) : (advance n k s).intVector = s.intVector := by simp [advance]
@[simp] theorem advance_bus (s : State) (n k : Nat) : (advance n k s).bus = s.bus := by simp [advance]
@[simp] theorem advance_params (s : State) (n k : Nat) : (advance n k s).params = s.params := by simp [advance]
@[simp] theorem advance_draws (s : State) (n k : Nat) : (advance n k s).draws = s.draws := by simp [advance]
@[simp] theorem advance_unwritten (s : State) (n k : Nat) : (advance n k s).unwritten = s.unwritten := by simp [advance]

/-! ### drawn -/

@[simp] theorem drawn_main (s : State) : (s.drawn).main = s.main := rfl
@[simp] theorem drawn_alt (s : State) : (s.drawn).alt = s.alt := rfl
@[simp] theorem drawn_ix (s : State) : (s.drawn).ix = s.ix := rfl
@[simp] theorem drawn_iy (s : State) : (s.drawn).iy = s.iy := rfl
@[simp] theorem drawn_sp (s : State) : (s.drawn).sp = s.sp := rfl
@[simp] theorem drawn_pc (s : State) : (s.drawn).pc = s.pc := rfl
@[simp] theorem drawn_i (s : State) : (s.drawn).i = s.i := rfl
@[simp] theorem drawn_r (s : State) : (s.drawn).r = s.r := rfl
@[simp] theorem drawn_iff1 (s : State) : (s.drawn).iff1 = s.iff1 := rfl
@[simp] theorem drawn_iff2 (s : State) : (s.drawn).iff2 = s.iff2 := rfl
@[simp] theorem drawn_im (s : State) : (s.drawn).im = s.im := rfl
@[simp] theorem drawn_halted (s : State) : (s.drawn).halted = s.halted := rfl
@[simp] theorem drawn_inhibit (s : State) : (s.drawn).inhibit = s.inhibit := rfl
@[simp] theorem drawn_nmiPending (s : State) : (s.drawn).nmiPending = s.nmiPending := rfl
@[simp] theorem drawn_intLine (s : State) : (s.drawn).intLine = s.intLine := rfl
@[simp] theorem drawn_intVector (s : State) : (s.drawn).intVector = s.intVector := rfl
@[simp] theorem drawn_bus (s : State) : (s.drawn).bus = s.bus := rfl
@[simp] theorem drawn_params (s : State) : (s.drawn).params = s.params := rfl
@[simp] theorem drawn_unwritten (s : State) : (s.drawn).unwritten = s.unwritten := rfl

/-! ### modifyByte -/

@[simp] theorem modifyByte_alt (s : State) (g : Byte → Byte → Byte × Byte) (l : Loc8) (c : Option Reg8) : (modifyByte g l c s).alt = s.alt := by cases c <;> simp [modifyByte]
@[simp] theorem modifyByte_sp (s : State) (g : Byte → Byte → Byte × Byte) (l : Loc8) (c : Option Reg8) : (modifyByte g l c s).sp = s.sp := by cases c <;> simp [modifyByte]
@[simp] theorem modifyByte_pc (s : State) (g : Byte → Byte → Byte × Byte) (l : Loc8) (c : Option Reg8) : (modifyByte g l c s).pc = s.pc := by cases c <;> simp [modifyByte]
@[simp] theorem modifyByte_i (s : State) (g : Byte → Byte → Byte × Byte) (l : Loc8) (c : Option Reg8) : (modifyByte g l c s).i = s.i := by cases c <;> simp [modifyByte]
@[simp] theorem modifyByte_r (s : State) (g : Byte → Byte → Byte × Byte) (l : Loc8) (c : Option Reg8) : (modifyByte g l c s).r = s.r := by cases c <;> simp [modifyByte]
@[simp] theorem modifyByte_iff1 (s : State) (g : Byte → Byte → Byte × Byte) (l : Loc8) (c : Option Reg8) : (modifyByte g l c s).iff1 = s.iff1 := by cases c <;> simp [modifyByte]
@[simp] theorem modifyByte_iff2 (s : State) (g : Byte → Byte → Byte × Byte) (l : Loc8) (c : Option Reg8) : (modifyByte g l c s).iff2 = s.iff2 := by cases c <;> simp [modifyByte]
@[simp] theorem modifyByte_im (s : State) (g : Byte → Byte → Byte × Byte) (l : Loc8) (c : Option Reg8) : (modifyByte g l c s).im = s.im := by cases c <;> simp [modifyByte]
@[simp] theorem modifyByte_halted (s : State) (g : Byte → Byte → Byte × Byte) (l : Loc8) (c : Option Reg8) : (modifyByte g l c s).halted = s.halted := by cases c <;> simp [modifyByte]
@[simp] theorem modifyByte_inhibit (s : State) (g : Byte → Byte → Byte × Byte) (l : Loc8) (c : Option Reg8) : (modifyByte g l c s).inhibit = s.inhibit := by cases c <;> simp [modifyByte]
@[simp] theorem modifyByte_nmiPending (s : State) (g : Byte → Byte → Byte × Byte) (l : Loc8) (c : Option Reg8) : (modifyByte g l c s).nmiPending = s.nmiPending := by cases c <;> simp [modifyByte]
@[simp] theorem modifyByte_intLine (s : State) (g : Byte → Byte → Byte × Byte) (l : Loc8) (c : Option Reg8) : (modifyByte g l c s).intLine = s.intLine := by cases c <;> simp [modifyByte]
@[simp] theorem modifyByte_intVector (s : State) (g : Byte → Byte → Byte × Byte) (l : Loc8) (c : Option Reg8) : (modifyByte g l c s).intVector = s.intVector := by cases c <;> simp [modifyByte]
@[simp] theorem modifyByte_params (s : State) (g : Byte → Byte → Byte × Byte) (l : Loc8) (c : Option Reg8) : (modifyByte g l c s).params = s.params := by cases c <;> simp [modifyByte]
@[simp] theorem modifyByte_draws (s : State) (g : Byte → Byte → Byte × Byte) (l : Loc8) (c : Option Reg8) : (modifyByte g l c s).draws = s.draws := by cases c <;> simp [modifyByte]
@[simp] theorem modifyByte_unwritten (s : State) (g : Byte → Byte → Byte × Byte) (l : Loc8) (c : Option Reg8) : (modifyByte g l c s).unwritten = s.unwritten := by cases c <;> simp [modifyByte]

/-! ### wake -/

@[simp] theorem wake_main (s : State) : (wake s).main = s.main := by unfold wake; split <;> rfl
@[simp] theorem wake_alt (s : State) : (wake s).alt = s.alt := by unfold wake; split <;> rfl
@[simp] theorem wake_ix (s : State) : (wake s).ix = s.ix := by unfold wake; split <;> rfl
@[simp] theorem wake_iy (s : State) : (wake s).iy = s.iy := by unfold wake; split <;> rfl
@[simp] theorem wake_sp (s : State) : (wake s).sp = s.sp := by unfold wake; split <;> rfl
@[simp] theorem wake_i (s : State) : (wake s).i = s.i := by unfold wake; split <;> rfl
@[simp] theorem wake_r (s : State) : (wake s).r = s.r := by unfold wake; split <;> rfl
@[simp] theorem wake_iff1 (s : State) : (wake s).iff1 = s.iff1 := by unfold wake; split <;> rfl
@[simp] theorem wake_iff2 (s : State) : (wake s).iff2 = s.iff2 := by unfold wake; split <;> rfl
@[simp] theorem wake_im (s : State) : (wake s).im = s.im := by unfold wake; split <;> rfl
@[simp] theorem wake_inhibit (s : State) : (wake s).inhibit = s.inhibit := by unfold wake; split <;> rfl
@[simp] theorem wake_nmiPending (s : State) : (wake s).nmiPending = s.nmiPending := by unfold wake; split <;> rfl
@[simp] theorem wake_intLine (s : State) : (wake s).intLine = s.intLine := by unfold wake; split <;> rfl
@[simp] theorem wake_intVector (s : State) : (wake s).intVector = s.intVector := by unfold wake; split <;> rfl
@[simp] theorem wake_bus (s : State) : (wake s).bus = s.bus := by unfold wake; split <;> rfl
@[simp] theorem wake_params (s : State) : (wake s).params = s.params := by unfold wake; split <;> rfl
@[simp] theorem wake_draws (s : State) : (wake s).draws = s.draws := by unfold wake; split <;> rfl
@[simp] theorem wake_unwritten (s : State) : (wake s).unwritten = s.unwritten := by unfold wake; split <;> rfl

/-! ### enterInterrupt -/

@[simp] theorem enterInterrupt_main (s : State) (b : Bool) : (enterInterrupt b s).main = s.main := by simp [enterInterrupt]
@[simp] theorem enterInterrupt_alt (s : State) (b : Bool) : (enterInterrupt b s).alt = s.alt := by simp [enterInterrupt]
@[simp] theorem enterInterrupt_ix (s : State) (b : Bool) : (enterInterrupt b s).ix = s.ix := by simp [enterInterrupt]
@[simp] theorem enterInterrupt_iy (s : State) (b : Bool) : (enterInterrupt b s).iy = s.iy := by simp [enterInterrupt]
@[simp] theorem enterInterrupt_i (s : State) (b : Bool) : (enterInterrupt b s).i = s.i := by simp [enterInterrupt]
@[simp] theorem enterInterrupt_im (s : State) (b : Bool) : (enterInterrupt b s).im = s.im := by simp [enterInterrupt]
@[simp] theorem enterInterrupt_nmiPending (s : State) (b : Bool) : (enterInterrupt b s).nmiPending = s.nmiPending := by simp [enterInterrupt]
@[simp] theorem enterInterrupt_intLine (s : State) (b : Bool) : (enterInterrupt b s).intLine = s.intLine := by simp [enterInterrupt]
@[simp] theorem enterInterrupt_intVector (s : State) (b : Bool) : (enterInterrupt b s).intVector = s.intVector := by simp [enterInterrupt]
@[simp] theorem enterInterrupt_params (s : State) (b : Bool) : (enterInterrupt b s).params = s.params := by simp [enterInterrupt]
@[simp] theorem enterInterrupt_draws (s : State) (b : Bool) : (enterInterrupt b s).draws = s.draws := by simp [enterInterrupt]
@[simp] theorem enterInterrupt_unwritten (s : State) (b : Bool) : (enterInterrupt b s).unwritten = s.unwritten := by simp [enterInterrupt]

/-! ### What a register write reads back -/

@[simp] theorem setReg_reg (s : State) (q r : Reg8) (v : Byte) :
    (s.setReg q v).reg r = if r = q then v else s.reg r := by
  cases q <;> cases r <;> rfl

@[simp] theorem setReg_main_f (s : State) (q : Reg8) (v : Byte) : (s.setReg q v).main.f = s.main.f := by
  cases q <;> rfl

@[simp] theorem setF_reg (s : State) (r : Reg8) (f : Byte) : (s.setF f).reg r = s.reg r := by
  cases r <;> rfl

@[simp] theorem setF_main_f (s : State) (f : Byte) : (s.setF f).main.f = f := rfl

@[simp] theorem setIdx_idx (s : State) (i j : Idx) (w : Word) :
    (s.setIdx i w).idx j = if j = i then w else s.idx j := by
  cases i <;> cases j <;> rfl

/-! ### The byte views of a pair (R33) -/

theorem wordOf_getLsbD (h l : Byte) (k : Nat) :
    (wordOf h l).getLsbD k = if k < 8 then l.getLsbD k else h.getLsbD (k - 8) := by
  show (h ++ l : BitVec (8 + 8)).getLsbD k = _
  rw [BitVec.getLsbD_append]

theorem hiByte_getLsbD (w : Word) (k : Nat) :
    (hiByte w).getLsbD k = (decide (k < 8) && w.getLsbD (8 + k)) := by
  rw [hiByte, BitVec.getLsbD_extractLsb']

theorem loByte_getLsbD (w : Word) (k : Nat) :
    (loByte w).getLsbD k = (decide (k < 8) && w.getLsbD k) := by
  rw [loByte, BitVec.getLsbD_extractLsb', Nat.zero_add]

@[simp] theorem hiByte_wordOf (h l : Byte) : hiByte (wordOf h l) = h := by
  apply BitVec.eq_of_getLsbD_eq; intro k hk
  rw [hiByte_getLsbD, wordOf_getLsbD, if_neg (by omega), decide_eq_true hk, Bool.true_and, Nat.add_sub_cancel_left]

@[simp] theorem loByte_wordOf (h l : Byte) : loByte (wordOf h l) = l := by
  apply BitVec.eq_of_getLsbD_eq; intro k hk
  rw [loByte_getLsbD, wordOf_getLsbD, if_pos hk, decide_eq_true hk, Bool.true_and]

/-- A word is its two bytes. -/
@[simp] theorem wordOf_hi_lo (w : Word) : wordOf (hiByte w) (loByte w) = w := by
  apply BitVec.eq_of_getLsbD_eq; intro k hk
  rw [wordOf_getLsbD]
  split
  · rename_i h; rw [loByte_getLsbD, decide_eq_true h, Bool.true_and]
  · rw [hiByte_getLsbD, decide_eq_true (by omega), Bool.true_and]; congr 1; omega

/-- Writing a 16-bit register and reading it back (R33). -/
@[simp] theorem write16_read (s : State) (l : Loc16) (w : Word) : l.read (l.write w s) = w := by
  rcases l with _ | _ | _ | _ | _ | j
  all_goals first | exact wordOf_hi_lo w | rfl | (cases j <;> rfl)

end Sys2Proof.Machine
end

