-- ==== Sys2Proof/Laws/Memory.lean ====
section
/-! SUPPORT. The laws of memory: read after write, the canonical form, and what the transactions of the bus do to the
store and to what a read answers. -/

namespace Sys2Proof.Machine

open Sys2Proof

/-! ### The backing store -/

theorem Memory.read_erase (m : Memory) (p q : Nat) :
    (m.erase p).read q = if q = p then Memory.blank else m.read q := by
  induction m with
  | nil => simp [Memory.erase, Memory.read]
  | cons c rest ih =>
    obtain ⟨k, w⟩ := c
    simp only [Memory.erase, List.filter_cons] at ih ⊢
    by_cases hk : k = p
    · subst hk
      simp only [bne_self_eq_false, Bool.false_eq_true, if_false, ih, Memory.read]
      split <;> rename_i h
      · rfl
      · rw [if_neg (fun e => h e.symm)]
    · simp only [bne_iff_ne, ne_eq, hk, not_false_eq_true, if_true, Memory.read, ih]
      by_cases hq : k = q
      · rw [if_pos hq, if_neg (by omega), if_pos hq]
      · rw [if_neg hq, if_neg hq]

theorem Memory.read_insert (m : Memory) (p q : Nat) (v : Byte) (h : ∀ c ∈ m, c.1 ≠ p) :
    (m.insert p v).read q = if q = p then v else m.read q := by
  induction m with
  | nil => simp [Memory.insert, Memory.read, eq_comm]
  | cons c rest ih =>
    obtain ⟨k, w⟩ := c
    have hk : k ≠ p := h (k, w) (by simp)
    have hr : ∀ c ∈ rest, c.1 ≠ p := fun c hc => h c (by simp [hc])
    unfold Memory.insert
    split
    · simp only [Memory.read, ih hr]
      by_cases hq : k = q
      · rw [if_pos hq, if_neg (by omega), if_pos hq]
      · rw [if_neg hq, if_neg hq]
    · simp only [Memory.read]
      by_cases hq : q = p
      · rw [if_pos hq.symm, if_pos hq]
      · rw [if_neg (fun e => hq e.symm), if_neg hq]

theorem Memory.erase_ne (m : Memory) (p : Nat) : ∀ c ∈ m.erase p, c.1 ≠ p := by
  intro c hc
  simpa using (List.mem_filter.mp hc).2

/-- Read after write: the written cell gives the written byte, every other cell what it gave. -/
@[simp] theorem Memory.read_write (m : Memory) (p q : Nat) (v : Byte) :
    (m.write p v).read q = if q = p then v else m.read q := by
  unfold Memory.write
  split
  · rename_i h; rw [Memory.read_erase, h]
  · rw [Memory.read_insert _ _ _ _ (Memory.erase_ne m p), Memory.read_erase]
    split <;> rfl

theorem Memory.mem_insert (m : Memory) (p : Nat) (v : Byte) (c : Host.Cell) :
    c ∈ m.insert p v ↔ c = (p, v) ∨ c ∈ m := by
  induction m with
  | nil => simp [Memory.insert]
  | cons d rest ih =>
    obtain ⟨k, w⟩ := d
    unfold Memory.insert
    split
    · simp only [List.mem_cons, ih]; tauto
    · simp only [List.mem_cons]

theorem Memory.erase_wf (m : Memory) (p : Nat) (h : m.wf) : (m.erase p).wf :=
  ⟨h.1.filter _, fun c hc => h.2 c (List.mem_filter.mp hc).1⟩

theorem Memory.insert_pairwise (m : Memory) (p : Nat) (v : Byte) (h : m.Pairwise (fun x y => x.1 < y.1))
    (hp : ∀ c ∈ m, c.1 ≠ p) : (m.insert p v).Pairwise (fun x y => x.1 < y.1) := by
  induction m with
  | nil => simp [Memory.insert]
  | cons d rest ih =>
    obtain ⟨k, w⟩ := d
    have hk : k ≠ p := hp (k, w) (by simp)
    rw [List.pairwise_cons] at h
    unfold Memory.insert
    split
    · rw [List.pairwise_cons]
      refine ⟨?_, ih h.2 (fun c hc => hp c (by simp [hc]))⟩
      intro c hc
      rcases (Memory.mem_insert _ _ _ _).mp hc with rfl | hc
      · assumption
      · exact h.1 c hc
    · rw [List.pairwise_cons, List.pairwise_cons]
      refine ⟨?_, h⟩
      intro c hc
      rcases List.mem_cons.mp hc with rfl | hc
      · show p < k; omega
      · have := h.1 c hc; show p < c.1; simp only at this; omega

/-- A write keeps the canonical form. -/
theorem Memory.write_wf (m : Memory) (p : Nat) (v : Byte) (h : m.wf) (hp : p < 2 ^ 32) : (m.write p v).wf := by
  unfold Memory.write
  split
  · exact Memory.erase_wf m p h
  · rename_i hv
    have he := Memory.erase_wf m p h
    refine ⟨Memory.insert_pairwise _ _ _ he.1 (Memory.erase_ne m p), ?_⟩
    intro c hc
    rcases (Memory.mem_insert _ _ _ _).mp hc with rfl | hc
    · exact ⟨hp, hv⟩
    · exact he.2 c hc

theorem wf_extensional : ∀ (m n : Memory), m.wf → n.wf → (∀ p, m.read p = n.read p) → m = n := by
  have key : ∀ (m : Memory) (k : Nat), (∀ c ∈ m, k < c.1) → m.read k = Memory.blank := by
    intro m
    induction m with
    | nil => intros; rfl
    | cons c rest ih =>
      intro k h
      have := h c (by simp)
      obtain ⟨a, b⟩ := c
      simp only [Memory.read]
      rw [if_neg (by simp only at this; omega)]
      exact ih k (fun d hd => h d (by simp [hd]))
  intro m
  induction m with
  | nil =>
    intro n _ hn h
    cases n with
    | nil => rfl
    | cons d rest =>
      obtain ⟨k, w⟩ := d
      have := h k
      simp only [Memory.read, if_true] at this
      exact absurd this.symm (hn.2 (k, w) (by simp)).2
  | cons c rest ih =>
    intro n hm hn h
    obtain ⟨k, v⟩ := c
    have hv : v ≠ Memory.blank := (hm.2 (k, v) (by simp)).2
    have hm1 := List.pairwise_cons.mp hm.1
    cases n with
    | nil =>
      have := h k
      simp only [Memory.read, if_true] at this
      exact absurd this hv
    | cons d rest' =>
      obtain ⟨j, w⟩ := d
      have hw : w ≠ Memory.blank := (hn.2 (j, w) (by simp)).2
      have hn1 := List.pairwise_cons.mp hn.1
      have hkj : k = j := by
        rcases Nat.lt_trichotomy k j with hlt | heq | hgt
        · exfalso
          have := h k
          rw [key ((j, w) :: rest') k (by
            intro c hc
            rcases List.mem_cons.mp hc with rfl | hc
            · exact hlt
            · exact lt_trans hlt (hn1.1 c hc))] at this
          simp only [Memory.read, if_true] at this
          exact hv this
        · exact heq
        · exfalso
          have := h j
          rw [key ((k, v) :: rest) j (by
            intro c hc
            rcases List.mem_cons.mp hc with rfl | hc
            · exact hgt
            · exact lt_trans hgt (hm1.1 c hc))] at this
          simp only [Memory.read, if_true] at this
          exact hw this.symm
      subst hkj
      have hvw : v = w := by
        have := h k
        simpa only [Memory.read, if_true] using this
      subst hvw
      congr 1
      refine ih rest' ⟨hm1.2, fun c hc => hm.2 c (by simp [hc])⟩ ⟨hn1.2, fun c hc => hn.2 c (by simp [hc])⟩ ?_
      intro p
      by_cases hp : k = p
      · subst hp
        rw [key rest k hm1.1, key rest' k hn1.1]
      · have := h p
        simpa only [Memory.read, if_neg hp] using this

/-! ### The address map -/

theorem resolve_lt (map : List Region) (a : Word) (p : Nat) (h : resolve map a = .ram p) : p < 2 ^ 32 := by
  induction map with
  | nil =>
    simp only [resolve, Place.ram.injEq] at h
    have := a.isLt; omega
  | cons g rest ih =>
    simp only [resolve] at h
    split at h
    · simp only [Region.place] at h
      split at h <;> simp only [Place.ram.injEq, reduceCtorEq] at h
      subst h
      exact (g.target + BitVec.ofNat 32 (a.toNat - g.base)).isLt
    · exact ih h

@[simp] theorem resolve_nil (a : Word) : resolve [] a = .ram a.toNat := rfl

/-- Under the identity map, only an address itself shares its cell. -/
@[simp] theorem sharesCell_nil (a x : Word) : sharesCell [] a x = decide (a = x) := by
  simp only [sharesCell, cellOf, resolve_nil]
  by_cases h : a = x
  · subst h; simp
  · have : x.toNat ≠ a.toNat := fun e => h (BitVec.eq_of_toNat_eq e).symm
    simp [h, this]

/-- A cell of RAM shares its cell with itself. -/
theorem sharesCell_self {map : List Region} {a : Word} (h : IsRam map a) : sharesCell map a a = true := by
  obtain ⟨p, h⟩ := h
  simp [sharesCell, cellOf, h]

theorem resolve_mem (map : List Region) (a : Word) (p : Nat) (h : resolve map a = .device p) :
    ∃ g ∈ map, g.backing = .device := by
  induction map with
  | nil => cases h
  | cons g rest ih =>
    simp only [resolve] at h
    split at h
    · refine ⟨g, by simp, ?_⟩
      simp only [Region.place] at h
      split at h <;> first | assumption | cases h
    · obtain ⟨g', hg, e⟩ := ih h
      exact ⟨g', by simp [hg], e⟩

/-! ### One transaction -/

@[simp] theorem replay_nil (b : Bus) : b.replay [] = b := rfl

theorem replay_cons (b : Bus) (e : BusEvent) (es : List BusEvent) :
    b.replay (e :: es) = (b.transact e).replay es := rfl

/-- The transaction is the latest of the log. -/
@[simp] theorem transact_log (b : Bus) (e : BusEvent) : (b.transact e).log = e :: b.log := by
  have hr : ∀ b : Bus, (b.react e).log = e :: b.log := by intro b; unfold Bus.react; split <;> rfl
  have hs : ∀ a v, (b.store a v).log = b.log := by intro a v; unfold Bus.store; split <;> rfl
  cases e <;> simp [Bus.transact, hr, hs]

@[simp] theorem store_reactions (b : Bus) (a : Word) (v : Byte) : (b.store a v).reactions = b.reactions := by
  unfold Bus.store; split <;> rfl

@[simp] theorem store_map (b : Bus) (a : Word) (v : Byte) : (b.store a v).map = b.map := by
  unfold Bus.store; split <;> rfl

/-- One reaction is used up. -/
@[simp] theorem transact_reactions (b : Bus) (e : BusEvent) : (b.transact e).reactions = b.reactions.tail := by
  have hr : ∀ b : Bus, (b.react e).reactions = b.reactions.tail := by
    intro b; unfold Bus.react; split <;> rename_i h <;> simp [h]
  cases e <;> simp [Bus.transact, hr]

/-- The map goes over to the one the reaction brings. -/
theorem transact_map (b : Bus) (e : BusEvent) :
    (b.transact e).map = ((b.reactions.head?.bind (·.remap)).getD b.map) := by
  have hr : ∀ b : Bus, (b.react e).map = ((b.reactions.head?.bind (·.remap)).getD b.map) := by
    intro b; unfold Bus.react; split <;> rename_i h <;> simp [h]
  cases e <;> simp [Bus.transact, hr]

/-- What a transaction does to the store. -/
@[simp] theorem store_ports (b : Bus) (a : Word) (v : Byte) : (b.store a v).ports = b.ports := by
  unfold Bus.store; split <;> rfl

@[simp] theorem react_ports (b : Bus) (e : BusEvent) : (b.react e).ports = b.ports := by
  unfold Bus.react; split <;> rfl

/-- No transaction attaches or takes a device at a port. -/
@[simp] theorem transact_ports (b : Bus) (e : BusEvent) : (b.transact e).ports = b.ports := by
  cases e <;> simp [Bus.transact]

@[simp] theorem replay_ports (b : Bus) (es : List BusEvent) : (b.replay es).ports = b.ports := by
  induction es generalizing b with
  | nil => rfl
  | cons e es ih => exact (ih _).trans (transact_ports b e)

/-- A port that no device claims answers 0xFF, where the machine has no answer of its own ready (R95). -/
theorem portAnswer_unclaimed {s : State} {port : Word} (h : s.bus.answer = none) (hc : s.bus.claims port = false) :
    portAnswer s port = 0xFF := by
  simp [portAnswer, h, hc]

theorem transact_mem (b : Bus) (e : BusEvent) :
    (b.transact e).mem = match e with
      | .memWrite a v => (b.store a v).mem
      | .memRead _ _ => b.mem
      | .portRead _ _ => b.mem
      | .portWrite _ _ => b.mem := by
  have hr : ∀ b : Bus, (b.react e).mem = b.mem := by intro b; unfold Bus.react; split <;> rfl
  cases e <;> simp [Bus.transact, hr]

/-- A transaction keeps the canonical form. -/
theorem transact_wf (b : Bus) (e : BusEvent) (h : b.mem.wf) : (b.transact e).mem.wf := by
  rw [transact_mem]
  cases e
  case memWrite a v =>
    simp only [Bus.store]
    split
    · exact Memory.write_wf _ _ _ h (resolve_lt _ _ _ ‹_›)
    all_goals exact h
  all_goals exact h

/-- Every map the machine can have later is one it can have now. -/
theorem transact_maps (b : Bus) (e : BusEvent) : ∀ m ∈ (b.transact e).maps, m ∈ b.maps := by
  intro m hm
  simp only [Bus.maps, transact_reactions, transact_map, List.mem_cons] at hm ⊢
  cases h : b.reactions with
  | nil => rw [h] at hm; simpa using hm
  | cons x rest =>
    rw [h] at hm
    cases hx : x.remap with
    | none =>
      simp [hx] at hm ⊢
      tauto
    | some m' =>
      simp [hx] at hm ⊢
      tauto

/-! ### Many transactions -/

theorem replay_wf (b : Bus) (es : List BusEvent) (h : b.mem.wf) : (b.replay es).mem.wf := by
  induction es generalizing b with
  | nil => exact h
  | cons e es ih => exact ih _ (transact_wf b e h)

theorem replay_log (b : Bus) (es : List BusEvent) : (b.replay es).log = es.reverse ++ b.log := by
  induction es generalizing b with
  | nil => rfl
  | cons e es ih => rw [replay_cons, ih, transact_log]; simp

/-- A cell of the store that no write reaches under any map to come keeps its byte. -/
theorem replay_cells (b : Bus) (es : List BusEvent) (p : Nat)
    (h : ∀ a v, .memWrite a v ∈ es → ∀ m ∈ b.maps, resolve m a ≠ .ram p) :
    (b.replay es).mem.read p = b.mem.read p := by
  induction es generalizing b with
  | nil => rfl
  | cons e es ih =>
    rw [replay_cons, ih _ (fun a v hv m hm => h a v (by simp [hv]) m (transact_maps b e m hm)), transact_mem]
    cases e
    case memWrite a v =>
      have ha := h a v (by simp) b.map (by simp [Bus.maps])
      simp only [Bus.store]
      split
      · rename_i q hq
        rw [Memory.read_write, if_neg]
        rintro rfl
        exact ha hq
      all_goals rfl
    all_goals rfl

/-- In a machine that does nothing of its own the map stays and no reaction comes. -/
theorem transact_quiet {b : Bus} (h : b.reactions = []) (e : BusEvent) :
    (b.transact e).reactions = [] ∧ (b.transact e).map = b.map := by
  simp [transact_map, h]

theorem replay_quiet {b : Bus} (h : b.reactions = []) (es : List BusEvent) :
    (b.replay es).reactions = [] ∧ (b.replay es).map = b.map := by
  induction es generalizing b with
  | nil => exact ⟨h, rfl⟩
  | cons e es ih =>
    obtain ⟨h1, h2⟩ := transact_quiet h e
    obtain ⟨h3, h4⟩ := ih h1
    exact ⟨h3, h4.trans h2⟩

/-! ### What a read answers -/

theorem memRead_congr {s t : State} (hb : t.bus = s.bus) (hp : t.params = s.params) (x : Word) :
    memRead t x = memRead s x := by simp only [memRead, hb, hp]

theorem portAnswer_congr {s t : State} (hb : t.bus = s.bus) : portAnswer t = portAnswer s := by
  funext p; simp only [portAnswer, hb]

theorem highFirst_congr {s t : State} (hb : t.bus = s.bus) (hp : t.params = s.params) :
    highFirst t = highFirst s := by simp only [highFirst, hb, hp]

theorem loRead_congr {s t : State} (hb : t.bus = s.bus) (hp : t.params = s.params) (x : Word) :
    loRead t x = loRead s x := by
  unfold loRead
  rw [highFirst_congr hb hp, memRead_congr hb hp]
  have : memRead (memReadDone (x + 1) t) x = memRead (memReadDone (x + 1) s) x :=
    memRead_congr (by simp [memRead_congr hb hp, hb]) (by simpa using hp) x
  rw [this]

theorem hiRead_congr {s t : State} (hb : t.bus = s.bus) (hp : t.params = s.params) (x : Word) :
    hiRead t x = hiRead s x := by
  unfold hiRead
  rw [highFirst_congr hb hp, memRead_congr hb hp]
  have : memRead (memReadDone x t) (x + 1) = memRead (memReadDone x s) (x + 1) :=
    memRead_congr (by simp [memRead_congr hb hp, hb]) (by simpa using hp) (x + 1)
  rw [this]

theorem orderAllowed_highFirst (s : State) : OrderAllowed s (highFirst s) := by
  constructor <;> intro h <;> simp [highFirst, h]

theorem orderAllowed_congr {s t : State} {high : Bool} (h : OrderAllowed s high) (hp : t.params = s.params) :
    OrderAllowed t high := by unfold OrderAllowed; rw [hp]; exact h

/-- In a machine that does nothing of its own a read answers what the address leads to. -/
theorem memRead_quiet {s : State} (h : Quiet s) (x : Word) :
    memRead s x = match resolve s.bus.map x with
      | .ram p => s.bus.mem.read p
      | .rom p => s.bus.mem.read p
      | .device _ => s.bus.free
      | .unmapped => s.params.unmappedRead := by
  simp only [memRead, Bus.answer, show s.bus.reactions = [] from h] <;> rfl

/-- What a read answers after one transaction of such a machine (R84, R85, R90). -/
theorem memRead_did {s : State} (h : Quiet s) (e : BusEvent) {x : Word} (hx : ¬ IsDevice s.bus.map x) :
    memRead (s.did e) x = match e with
      | .memWrite a v => if sharesCell s.bus.map a x then v else memRead s x
      | .memRead _ _ => memRead s x
      | .portRead _ _ => memRead s x
      | .portWrite _ _ => memRead s x := by
  have hq : Quiet (s.did e) := (transact_quiet h e).1
  rw [memRead_quiet hq, memRead_quiet h, show (s.did e).bus.map = s.bus.map from (transact_quiet h e).2]
  rw [show (s.did e).bus.mem = (s.bus.transact e).mem from rfl, transact_mem]
  cases e
  case memWrite a v =>
    cases ha : resolve s.bus.map a <;> cases hr : resolve s.bus.map x <;>
      simp only [Bus.store, sharesCell, cellOf, ha, hr, Memory.read_write, Bool.false_eq_true, if_false, beq_iff_eq,
        Option.some.injEq] <;>
      first
      | rfl
      | exact absurd ⟨_, hr⟩ hx
  all_goals
    cases hr : resolve s.bus.map x <;> first | rfl | exact absurd ⟨_, hr⟩ hx

/-- What a read of `x` gives after `es`: the byte last stored to its cell, or what it gave before. -/
def lastStored (map : List Region) (x : Word) (v : Byte) (es : List BusEvent) : Byte :=
  match es with
  | [] => v
  | .memWrite a w :: rest => lastStored map x (if sharesCell map a x then w else v) rest
  | .memRead _ _ :: rest => lastStored map x v rest
  | .portRead _ _ :: rest => lastStored map x v rest
  | .portWrite _ _ :: rest => lastStored map x v rest

theorem memRead_didAll {s : State} (h : Quiet s) (es : List BusEvent) {x : Word} (hx : ¬ IsDevice s.bus.map x) :
    memRead (s.didAll es) x = lastStored s.bus.map x (memRead s x) es := by
  induction es generalizing s with
  | nil => rfl
  | cons e es ih =>
    have hm : (s.did e).bus.map = s.bus.map := (transact_quiet h e).2
    have := ih (s := s.did e) (transact_quiet h e).1 (by rwa [hm])
    rw [show s.didAll (e :: es) = (s.did e).didAll es from rfl, this, hm, memRead_did h e hx]
    cases e <;> rfl

theorem lastStored_other (map : List Region) (x : Word) (v : Byte) (es : List BusEvent)
    (h : ∀ a w, .memWrite a w ∈ es → sharesCell map a x = false) : lastStored map x v es = v := by
  induction es with
  | nil => rfl
  | cons e es ih =>
    have hr := ih (fun a w hw => h a w (by simp [hw]))
    cases e
    case memWrite a w => simp only [lastStored, h a w (by simp), Bool.false_eq_true, if_false]; exact hr
    all_goals exact hr

theorem lastStored_append (map : List Region) (x : Word) (v : Byte) (es fs : List BusEvent) :
    lastStored map x v (es ++ fs) = lastStored map x (lastStored map x v es) fs := by
  induction es generalizing v with
  | nil => rfl
  | cons e es ih => cases e <;> exact ih _

end Sys2Proof.Machine

namespace Sys2Proof

open Sys2Proof.Machine

/-! ### What transactions between two states come down to -/

theorem answered_congr {s t : State} (hb : t.bus = s.bus) (hp : t.params = s.params) (es : List BusEvent) :
    Answered es t ↔ Answered es s := by
  induction es generalizing s t with
  | nil => exact Iff.rfl
  | cons e es ih =>
    have h1 : answers e t ↔ answers e s := by
      cases e <;> simp only [answers, memRead_congr hb hp, portAnswer_congr hb]
    have h2 := ih (s := s.did e) (t := t.did e) (by simp only [State.did, hb]) hp
    simp only [Answered, h1, h2]

theorem answered_append (es fs : List BusEvent) (s : State) :
    Answered (es ++ fs) s ↔ Answered es s ∧ Answered fs (s.didAll es) := by
  induction es generalizing s with
  | nil => simp [Answered]
  | cons e es ih =>
    simp only [List.cons_append, Answered, ih, and_assoc]
    exact Iff.rfl

/-- The bus and the answers decide it. -/
theorem transacts_of {es : List BusEvent} {s t : State} (hb : t.bus = s.bus.replay es) (hp : t.params = s.params)
    (ha : Answered es s) : Transacts es s t where
  bus := hb
  answered := ha
  cells p h := by rw [hb]; exact replay_cells _ _ _ h
  reads hq x hx h := by
    have : memRead t x = memRead (s.didAll es) x := memRead_congr (s := s.didAll es) hb hp x
    rw [this, memRead_didAll hq es hx, lastStored_other _ _ _ _ h]

theorem Transacts.refl {s t : State} (hb : t.bus = s.bus) (hp : t.params = s.params) : Transacts [] s t :=
  transacts_of hb hp trivial

theorem Transacts.trans {es fs : List BusEvent} {s t u : State} (h : Transacts es s t) (k : Transacts fs t u)
    (hp : t.params = s.params) (hp' : u.params = t.params) : Transacts (es ++ fs) s u :=
  transacts_of (by rw [k.bus, h.bus, replay_append]) (hp'.trans hp)
    ((answered_append _ _ _).mpr ⟨h.answered, (answered_congr (t := s.didAll es) (s := t) h.bus.symm hp.symm fs).mpr k.answered⟩)

theorem transacts_didAll {es : List BusEvent} {s : State} (h : Answered es s) : Transacts es s (s.didAll es) :=
  transacts_of rfl rfl h

/-- What an address reads after transactions of a machine that does nothing of its own. -/
theorem Transacts.memRead_eq {es : List BusEvent} {s t : State} (h : Transacts es s t) (hp : t.params = s.params)
    (hq : Quiet s) {x : Word} (hx : ¬ IsDevice s.bus.map x) :
    memRead t x = lastStored s.bus.map x (memRead s x) es := by
  have : memRead t x = memRead (s.didAll es) x := memRead_congr (s := s.didAll es) h.bus hp x
  rw [this, memRead_didAll hq es hx]

theorem not_device_of_ram {map : List Region} {x : Word} (h : IsRam map x) : ¬ IsDevice map x := by
  obtain ⟨p, h⟩ := h
  rintro ⟨q, h'⟩
  rw [h] at h'
  cases h'

/-- A byte written last reads back. -/
theorem Transacts.byte_stored {es : List BusEvent} {a : Word} {v : Byte} {s t : State}
    (h : Transacts (es ++ [.memWrite a v]) s t) (hp : t.params = s.params) (hq : Quiet s) (ha : IsRam s.bus.map a) :
    memRead t a = v := by
  rw [h.memRead_eq hp hq (not_device_of_ram ha), lastStored_append]
  simp [lastStored, sharesCell_self ha]

/-- Of two cells of RAM each shares with the other or neither does. -/
theorem sharesCell_symm {map : List Region} {a b : Word} (ha : IsRam map a) (h : sharesCell map a b = false) :
    sharesCell map b a = false := by
  obtain ⟨p, ha⟩ := ha
  simp only [sharesCell, cellOf, ha] at h ⊢
  cases hb : resolve map b <;> simp only [hb] at h ⊢
  exact beq_eq_false_iff_ne.mpr (fun e => beq_eq_false_iff_ne.mp h e.symm)

/-- A word written last reads back where its bytes do not overwrite each other. -/
theorem Transacts.word_stored {es : List BusEvent} {high : Bool} {a v : Word} {s t : State}
    (h : Transacts (es ++ wordWrites high a v) s t) (hp : t.params = s.params) : WordStored a v s t where
  low hq ha hd := by
    rw [h.memRead_eq hp hq (not_device_of_ram ha), lastStored_append]
    cases high <;>
      simp only [wordWrites, lastStored, sharesCell_self ha, sharesCell_symm ha hd, if_true, if_false, Bool.false_eq_true]
  high hq ha hd := by
    rw [h.memRead_eq hp hq (not_device_of_ram ha), lastStored_append]
    cases high <;>
      simp only [wordWrites, lastStored, sharesCell_self ha, sharesCell_symm ha hd, if_true, if_false, Bool.false_eq_true]

/-! ### The transactions of operands and words -/

@[simp] theorem answered_nil (s : State) : Answered [] s := trivial

theorem answered_memWrite (a : Word) (v : Byte) (s : State) : Answered [.memWrite a v] s := ⟨trivial, trivial⟩

theorem answered_portWrite (p : Word) (v : Byte) (s : State) : Answered [.portWrite p v] s := ⟨trivial, trivial⟩

theorem answered_wordWrites (high : Bool) (a v : Word) (s : State) : Answered (wordWrites high a v) s := by
  cases high <;> exact ⟨trivial, trivial, trivial⟩

theorem answered_wordReads (s : State) (a : Word) :
    Answered (wordReads (highFirst s) a (loRead s a) (hiRead s a)) s := by
  unfold wordReads loRead hiRead
  cases highFirst s <;> exact ⟨rfl, rfl, trivial⟩

theorem answered_read8 (l : Loc8) (s : State) : Answered (l.readEvents s) s := by
  rcases l with q | ⟨j, h⟩ | e
  · exact trivial
  · exact trivial
  · exact ⟨rfl, trivial⟩

theorem answered_readSrc (o : Src8) (s : State) : Answered (o.readEvents s) s := by
  cases o
  · exact answered_read8 _ s
  · exact trivial

theorem answered_write8 (l : Loc8) (v : Byte) (s t : State) : Answered (l.writeEvents v s) t := by
  rcases l with q | ⟨j, h⟩ | e
  · exact trivial
  · exact trivial
  · exact answered_memWrite _ _ _

end Sys2Proof
end

