-- ==== Sys2Proof/Laws/Ops.lean ====
section
/-! SUPPORT. What the shared operations do, in the terms of the statements: how frames compose, and one lemma per
operation on registers and the bus. -/

namespace Sys2Proof

open Sys2Proof.Machine

/-! ### Frames compose -/

/-- `w` writes no more than `w'`. -/
structure Within (w w' : Effect) : Prop where
  regs : w.regs ⊆ w'.regs
  f : w.f = true → w'.f = true
  alt : w.alt = true → w'.alt = true
  ix : w.ix = true → w'.ix = true
  iy : w.iy = true → w'.iy = true
  sp : w.sp = true → w'.sp = true
  i : w.i = true → w'.i = true
  iff1 : w.iff1 = true → w'.iff1 = true
  iff2 : w.iff2 = true → w'.iff2 = true
  im : w.im = true → w'.im = true
  halted : w.halted = true → w'.halted = true
  nmi : w.nmi = true → w'.nmi = true

theorem flag_of_le {a b : Bool} (h : a = true → b = true) (hb : b = false) : a = false := by
  cases a
  · rfl
  · rw [h rfl] at hb; exact hb

theorem Frame.refl (w : Effect) (s : State) : Frame w s s where
  regs _ _ := rfl
  f _ := rfl
  alt _ := rfl
  ix _ := rfl
  iy _ := rfl
  sp _ := rfl
  i _ := rfl
  iff1 _ := rfl
  iff2 _ := rfl
  im _ := rfl
  halted _ := rfl
  nmi _ := rfl
  intLine := rfl
  intVector := rfl
  params := rfl
  unwritten := rfl

theorem Frame.mono {w w' : Effect} {s t : State} (h : Frame w s t) (le : Within w w') : Frame w' s t where
  regs r hr := h.regs r (fun hw => hr (le.regs hw))
  f e := h.f (flag_of_le le.f e)
  alt e := h.alt (flag_of_le le.alt e)
  ix e := h.ix (flag_of_le le.ix e)
  iy e := h.iy (flag_of_le le.iy e)
  sp e := h.sp (flag_of_le le.sp e)
  i e := h.i (flag_of_le le.i e)
  iff1 e := h.iff1 (flag_of_le le.iff1 e)
  iff2 e := h.iff2 (flag_of_le le.iff2 e)
  im e := h.im (flag_of_le le.im e)
  halted e := h.halted (flag_of_le le.halted e)
  nmi e := h.nmi (flag_of_le le.nmi e)
  intLine := h.intLine
  intVector := h.intVector
  params := h.params
  unwritten := h.unwritten

/-- Two steps that each write within `w` write within `w`. -/
theorem Frame.trans {w : Effect} {s t u : State} (h : Frame w s t) (k : Frame w t u) : Frame w s u where
  regs r hr := (k.regs r hr).trans (h.regs r hr)
  f e := (k.f e).trans (h.f e)
  alt e := (k.alt e).trans (h.alt e)
  ix e := (k.ix e).trans (h.ix e)
  iy e := (k.iy e).trans (h.iy e)
  sp e := (k.sp e).trans (h.sp e)
  i e := (k.i e).trans (h.i e)
  iff1 e := (k.iff1 e).trans (h.iff1 e)
  iff2 e := (k.iff2 e).trans (h.iff2 e)
  im e := (k.im e).trans (h.im e)
  halted e := (k.halted e).trans (h.halted e)
  nmi e := (k.nmi e).trans (h.nmi e)
  intLine := k.intLine.trans h.intLine
  intVector := k.intVector.trans h.intVector
  params := k.params.trans h.params
  unwritten := k.unwritten.trans h.unwritten

theorem Within.refl (w : Effect) : Within w w where
  regs := List.Subset.refl _
  f := id
  alt := id
  ix := id
  iy := id
  sp := id
  i := id
  iff1 := id
  iff2 := id
  im := id
  halted := id
  nmi := id

theorem Within.empty (w : Effect) : Within {} w := by constructor <;> simp

end Sys2Proof

namespace Sys2Proof.Machine

open Sys2Proof

/-- Two states that differ only in PC, R, `inhibit`, the count of draws and the bus frame anything. -/
theorem frame_of_fields {w : Effect} {s t : State} (hmain : t.main = s.main) (halt : t.alt = s.alt) (hix : t.ix = s.ix)
    (hiy : t.iy = s.iy) (hsp : t.sp = s.sp) (hi : t.i = s.i) (h1 : t.iff1 = s.iff1) (h2 : t.iff2 = s.iff2)
    (him : t.im = s.im) (hh : t.halted = s.halted) (hn : t.nmiPending = s.nmiPending) (hl : t.intLine = s.intLine)
    (hv : t.intVector = s.intVector) (hpar : t.params = s.params) (hu : t.unwritten = s.unwritten) : Frame w s t where
  regs r _ := by cases r <;> simp only [State.reg, hmain]
  f _ := by rw [hmain]
  alt _ := halt
  ix _ := hix
  iy _ := hiy
  sp _ := hsp
  i _ := hi
  iff1 _ := h1
  iff2 _ := h2
  im _ := him
  halted _ := hh
  nmi _ := hn
  intLine := hl
  intVector := hv
  params := hpar
  unwritten := hu

/-! ### The frame of each operation -/

theorem advance_frame (w : Effect) (n k : Nat) (s : State) : Frame w s (advance n k s) := by
  apply frame_of_fields <;> simp

theorem drawn_frame (w : Effect) (s : State) : Frame w s s.drawn := by
  apply frame_of_fields <;> simp

theorem didAll_frame (w : Effect) (es : List BusEvent) (s : State) : Frame w s (s.didAll es) := by
  apply frame_of_fields <;> rfl

theorem did_frame (w : Effect) (e : BusEvent) (s : State) : Frame w s (s.did e) := didAll_frame w [e] s

theorem setPc_frame (w : Effect) (a : Word) (s : State) : Frame w s { s with pc := a } := by
  apply frame_of_fields <;> rfl

theorem setReg_frame (q : Reg8) (v : Byte) (s : State) : Frame { regs := [q] } s (s.setReg q v) where
  regs r hr := by simp only [List.mem_singleton] at hr; simp [hr]
  f _ := by simp
  alt _ := by simp
  ix _ := by simp
  iy _ := by simp
  sp _ := by simp
  i _ := by simp
  iff1 _ := by simp
  iff2 _ := by simp
  im _ := by simp
  halted _ := by simp
  nmi _ := by simp
  intLine := by simp
  intVector := by simp
  params := by simp
  unwritten := by simp

theorem setF_frame (f : Byte) (s : State) : Frame { f := true } s (s.setF f) where
  regs r _ := by simp
  f e := by simp at e
  alt _ := by simp
  ix _ := by simp
  iy _ := by simp
  sp _ := by simp
  i _ := by simp
  iff1 _ := by simp
  iff2 _ := by simp
  im _ := by simp
  halted _ := by simp
  nmi _ := by simp
  intLine := by simp
  intVector := by simp
  params := by simp
  unwritten := by simp

theorem reg_congr {s t : State} (h : t.main = s.main) (r : Reg8) : t.reg r = s.reg r := by
  cases r <;> simp only [State.reg, h]

theorem setIdx_frame (j : Idx) (v : Word) (s : State) :
    Frame (effectOf16 (.idx j)) s (s.setIdx j v) := by
  cases j <;>
  exact {
    regs := fun r _ => reg_congr (by simp) r
    f := fun _ => by simp
    alt := fun _ => by simp
    ix := fun e => by first | rfl | simp [effectOf16] at e
    iy := fun e => by first | rfl | simp [effectOf16] at e
    sp := fun _ => by simp
    i := fun _ => by simp
    iff1 := fun _ => by simp
    iff2 := fun _ => by simp
    im := fun _ => by simp
    halted := fun _ => by simp
    nmi := fun _ => by simp
    intLine := by simp
    intVector := by simp
    params := by simp
    unwritten := by simp }

theorem write16_frame (l : Loc16) (v : Word) (s : State) : Frame (effectOf16 l) s (l.write v s) := by
  rcases l with _ | _ | _ | _ | _ | j
  case idx => exact setIdx_frame j v s
  all_goals
  exact {
    regs := fun r hr => by cases r <;> first | rfl | simp [effectOf16] at hr
    f := fun e => by first | rfl | simp [effectOf16] at e
    alt := fun _ => rfl
    ix := fun _ => rfl
    iy := fun _ => rfl
    sp := fun e => by first | rfl | simp [effectOf16] at e
    i := fun _ => rfl
    iff1 := fun _ => rfl
    iff2 := fun _ => rfl
    im := fun _ => rfl
    halted := fun _ => rfl
    nmi := fun _ => rfl
    intLine := rfl
    intVector := rfl
    params := rfl
    unwritten := rfl }

theorem effectOf8_half (j : Idx) (h : IdxHalf) : effectOf8 (.half j h) = effectOf16 (.idx j) := by
  cases j <;> rfl

theorem write8_frame (l : Loc8) (v : Byte) (s : State) : Frame (effectOf8 l) s (l.write v s) := by
  rcases l with q | ⟨j, h⟩ | e
  · exact setReg_frame q v s
  · rw [effectOf8_half]; cases h <;> exact setIdx_frame j _ s
  · exact didAll_frame _ [.memWrite (e.addr s) v] s

theorem setSp_frame (v : Word) (s : State) : Frame { sp := true } s { s with sp := v } := write16_frame .sp v s

theorem push16_frame (v : Word) (s : State) : Frame { sp := true } s (push16 v s) := by
  rw [push16_eq]; exact (setSp_frame (s.sp - 2) s).trans (didAll_frame _ _ _)

theorem popped_frame (s : State) : Frame { sp := true } s (popped s) := by
  rw [popped_eq]; exact (didAll_frame _ _ s).trans (setSp_frame _ _)

/-! ### What operands and words read back -/

theorem countM1_counted (k : Nat) (s : State) : Counted k s (s.countM1 k) where
  bit7 := by
    unfold State.countM1
    split
    · show (BitVec.ofBool (s.r.getLsbD 7) ++ BitVec.ofNat 7 (s.r.toNat % 128 + k) : BitVec (1 + 7)).getLsbD 7 = _
      rw [BitVec.getLsbD_append]
      cases s.r.getLsbD 7 <;> rfl
    · rfl
  low h := by
    unfold State.countM1
    rw [h]
    show (BitVec.ofBool (s.r.getLsbD 7) ++ BitVec.ofNat 7 (s.r.toNat % 128 + k) : BitVec (1 + 7)).toNat % 128 = _
    rw [BitVec.toNat_append, Nat.shiftLeft_eq, BitVec.toNat_ofNat, Nat.mul_comm,
      ← Nat.two_pow_add_eq_or_of_lt (Nat.mod_lt _ (by decide))]
    omega

theorem advanceR_zero : ∀ r : Byte, advanceR r 0 = r := by decide

theorem advanceR_toNat (r : Byte) (k : Nat) :
    (advanceR r k).toNat = (r.toNat / 128) * 128 + (r.toNat % 128 + k) % 128 := by
  show (BitVec.ofBool (r.getLsbD 7) ++ BitVec.ofNat 7 (r.toNat % 128 + k) : BitVec (1 + 7)).toNat = _
  have hb : ∀ r : Byte, (BitVec.ofBool (r.getLsbD 7)).toNat = r.toNat / 128 := by decide
  rw [BitVec.toNat_append, ← Nat.shiftLeft_add_eq_or_of_lt (BitVec.isLt _), hb, Nat.shiftLeft_eq, BitVec.toNat_ofNat]

/-- M1 counts add up. -/
theorem advanceR_add (r : Byte) (a b : Nat) : advanceR (advanceR r a) b = advanceR r (a + b) := by
  apply BitVec.eq_of_toNat_eq
  have := r.isLt
  rw [advanceR_toNat, advanceR_toNat, advanceR_toNat]
  omega

theorem countM1_zero (s : State) : s.countM1 0 = s := by
  unfold State.countM1
  split
  · rw [advanceR_zero]
  · rfl

theorem countM1_add (s : State) (a b : Nat) : (s.countM1 a).countM1 b = s.countM1 (a + b) := by
  unfold State.countM1
  cases h : s.params.rModel
  · simp only [h, advanceR_add]
  · simp only [h]

theorem counted_of_eq {k : Nat} {s t u : State} (h : Counted k s t) (e : u.r = t.r) : Counted k s u :=
  ⟨by rw [e]; exact h.bit7, fun p => by rw [e]; exact h.low p⟩

theorem advance_counted (n k : Nat) (s : State) : Counted k s (advance n k s) :=
  counted_of_eq (countM1_counted k s) rfl

@[simp] theorem advance_pc (n k : Nat) (s : State) : (advance n k s).pc = s.pc + BitVec.ofNat 16 n := rfl

@[simp] theorem advance_inhibit (n k : Nat) (s : State) : (advance n k s).inhibit = false := rfl

/-! ### What reads answer where the bus and the registers are the same -/

theorem idx_congr {s t : State} (hx : t.ix = s.ix) (hy : t.iy = s.iy) (j : Idx) : t.idx j = s.idx j := by
  cases j <;> simp only [State.idx, hx, hy]

theorem half_congr {s t : State} (hx : t.ix = s.ix) (hy : t.iy = s.iy) (j : Idx) (h : IdxHalf) :
    t.half j h = s.half j h := by cases h <;> simp only [State.half, idx_congr hx hy]

theorem read16_congr {s t : State} (hm : t.main = s.main) (hsp : t.sp = s.sp) (hx : t.ix = s.ix) (hy : t.iy = s.iy)
    (l : Loc16) : l.read t = l.read s := by
  rcases l with _ | _ | _ | _ | _ | j
  case idx => exact idx_congr hx hy j
  all_goals simp only [Loc16.read, hm, hsp]

theorem addr_congr {s t : State} (hm : t.main = s.main) (hx : t.ix = s.ix) (hy : t.iy = s.iy) (e : Ea) :
    e.addr t = e.addr s := by
  cases e <;> simp only [Ea.addr, State.bc, State.de, State.hl, Loc16.read, hm, idx_congr hx hy]

theorem read8_congr {s t : State} (hm : t.main = s.main) (hx : t.ix = s.ix) (hy : t.iy = s.iy) (hb : t.bus = s.bus)
    (hp : t.params = s.params) (l : Loc8) : l.read t = l.read s := by
  rcases l with r | ⟨j, h⟩ | e
  · exact reg_congr hm r
  · exact half_congr hx hy j h
  · simp only [Loc8.read, addr_congr hm hx hy, memRead_congr hb hp]

theorem readEvents8_congr {s t : State} (hm : t.main = s.main) (hx : t.ix = s.ix) (hy : t.iy = s.iy) (hb : t.bus = s.bus)
    (hp : t.params = s.params) (l : Loc8) : l.readEvents t = l.readEvents s := by
  cases l <;> simp only [Loc8.readEvents, addr_congr hm hx hy, memRead_congr hb hp]

theorem writeEvents8_congr {s t : State} (hm : t.main = s.main) (hx : t.ix = s.ix) (hy : t.iy = s.iy) (l : Loc8)
    (v : Byte) : l.writeEvents v t = l.writeEvents v s := by
  cases l <;> simp only [Loc8.writeEvents, addr_congr hm hx hy]

/-! ### Past an instruction everything reads as before -/

@[simp] theorem advance_reg (n k : Nat) (s : State) (r : Reg8) : (advance n k s).reg r = s.reg r :=
  reg_congr (by simp) r

@[simp] theorem advance_idx (n k : Nat) (s : State) (j : Idx) : (advance n k s).idx j = s.idx j :=
  idx_congr (by simp) (by simp) j

@[simp] theorem advance_read16 (n k : Nat) (s : State) (l : Loc16) : l.read (advance n k s) = l.read s :=
  read16_congr (by simp) (by simp) (by simp) (by simp) l

@[simp] theorem advance_bc (n k : Nat) (s : State) : (advance n k s).bc = s.bc := advance_read16 n k s .bc

@[simp] theorem advance_de (n k : Nat) (s : State) : (advance n k s).de = s.de := advance_read16 n k s .de

@[simp] theorem advance_hl (n k : Nat) (s : State) : (advance n k s).hl = s.hl := advance_read16 n k s .hl

@[simp] theorem advance_addr (n k : Nat) (s : State) (e : Ea) : e.addr (advance n k s) = e.addr s :=
  addr_congr (by simp) (by simp) (by simp) e

@[simp] theorem advance_memRead (n k : Nat) (s : State) (x : Word) : memRead (advance n k s) x = memRead s x :=
  memRead_congr (by simp) (by simp) x

@[simp] theorem advance_loRead (n k : Nat) (s : State) (x : Word) : loRead (advance n k s) x = loRead s x :=
  loRead_congr (by simp) (by simp) x

@[simp] theorem advance_hiRead (n k : Nat) (s : State) (x : Word) : hiRead (advance n k s) x = hiRead s x :=
  hiRead_congr (by simp) (by simp) x

@[simp] theorem advance_highFirst (n k : Nat) (s : State) : highFirst (advance n k s) = highFirst s :=
  highFirst_congr (by simp) (by simp)

@[simp] theorem advance_portAnswer (n k : Nat) (s : State) : portAnswer (advance n k s) = portAnswer s :=
  portAnswer_congr (by simp)

@[simp] theorem advance_draw (n k : Nat) (s : State) : (advance n k s).draw = s.draw := by simp [State.draw]

@[simp] theorem advance_read8 (n k : Nat) (s : State) (l : Loc8) : l.read (advance n k s) = l.read s :=
  read8_congr (by simp) (by simp) (by simp) (by simp) (by simp) l

@[simp] theorem advance_readEvents8 (n k : Nat) (s : State) (l : Loc8) :
    l.readEvents (advance n k s) = l.readEvents s :=
  readEvents8_congr (by simp) (by simp) (by simp) (by simp) (by simp) l

@[simp] theorem advance_writeEvents8 (n k : Nat) (s : State) (l : Loc8) (v : Byte) :
    l.writeEvents v (advance n k s) = l.writeEvents v s :=
  writeEvents8_congr (by simp) (by simp) (by simp) l v

@[simp] theorem advance_readSrc (n k : Nat) (s : State) (o : Src8) : o.read (advance n k s) = o.read s := by
  cases o <;> simp [Src8.read]

@[simp] theorem advance_readEventsSrc (n k : Nat) (s : State) (o : Src8) :
    o.readEvents (advance n k s) = o.readEvents s := by
  cases o <;> simp [Src8.readEvents]

/-! ### After transactions the registers read as before -/

@[simp] theorem didAll_reg (s : State) (es : List BusEvent) (r : Reg8) : (s.didAll es).reg r = s.reg r :=
  reg_congr rfl r

@[simp] theorem didAll_idx (s : State) (es : List BusEvent) (j : Idx) : (s.didAll es).idx j = s.idx j :=
  idx_congr rfl rfl j

@[simp] theorem didAll_read16 (s : State) (es : List BusEvent) (l : Loc16) : l.read (s.didAll es) = l.read s :=
  read16_congr rfl rfl rfl rfl l

@[simp] theorem didAll_bc (s : State) (es : List BusEvent) : (s.didAll es).bc = s.bc := rfl

@[simp] theorem didAll_de (s : State) (es : List BusEvent) : (s.didAll es).de = s.de := rfl

@[simp] theorem didAll_hl (s : State) (es : List BusEvent) : (s.didAll es).hl = s.hl := rfl

@[simp] theorem didAll_addr (s : State) (es : List BusEvent) (e : Ea) : e.addr (s.didAll es) = e.addr s :=
  addr_congr rfl rfl rfl e

@[simp] theorem didAll_writeEvents8 (s : State) (es : List BusEvent) (l : Loc8) (v : Byte) :
    l.writeEvents v (s.didAll es) = l.writeEvents v s := writeEvents8_congr rfl rfl rfl l v

/-! ### A byte operand written -/

@[simp] theorem setReg_idx (s : State) (q : Reg8) (v : Byte) (j : Idx) : (s.setReg q v).idx j = s.idx j :=
  idx_congr (by simp) (by simp) j

@[simp] theorem setF_idx (s : State) (f : Byte) (j : Idx) : (s.setF f).idx j = s.idx j := idx_congr rfl rfl j

/-- A byte operand written holds the byte, in every later state that has kept it. -/
theorem holds8_of_write {l : Loc8} {v : Byte} {es : List BusEvent} {s u t : State} (hu : ∀ j, u.idx j = s.idx j)
    (hr : ∀ r, l = .reg r → t.reg r = v) (hi : ∀ j, t.idx j = (l.write v u).idx j)
    (hb : Transacts (es ++ l.writeEvents v s) s t) (hp : t.params = s.params) : Holds8 l v s t := by
  rcases l with r | ⟨j, h⟩ | e
  · exact hr r rfl
  · cases h <;> simp [Holds8, hi, Loc8.write, State.setHalf, hu]
  · exact fun hq ha => hb.byte_stored hp hq ha

/-! ### Flags -/

/-- A packed flag byte has the flags it was packed from (R40). -/
theorem pack_flags (b : FlagBits) : FlagsAre b.pack b := by
  obtain ⟨s, z, y, h, x, pv, n, c⟩ := b
  constructor <;> revert s z y h x pv n c <;> decide

@[simp] theorem flagC_pack (b : FlagBits) : flagC b.pack = b.c := (pack_flags b).c

end Sys2Proof.Machine
end

