-- ==== Sys2Proof/Laws/PerInstr.lean ====
section
/-! SUPPORT. The family `Shape`: how many bytes each instruction takes, and how many of them are M1 fetches (R47, R126,
R127), one lemma per constructor. The lemmas about meanings cite these two numbers. -/

namespace Sys2Proof.Laws.Shape

open Sys2Proof

/-- The row is a prefix row (R124, R662): it is no instruction by itself. -/
def isPrefixRow (i : Instr) : Bool := i.isTablePrefix || i.isIgnoredPrefix

/-- The bytes of each instruction (R126, R127). -/
def bytes : Instr → Nat
  | .djnz _ => 2
  | .jr _ => 2
  | .jrCc _ _ => 2
  | .ldRN _ _ => 2
  | .ldHlN _ => 2
  | .addAN _ => 2
  | .adcAN _ => 2
  | .subN _ => 2
  | .sbcAN _ => 2
  | .andN _ => 2
  | .xorN _ => 2
  | .orN _ => 2
  | .cpN _ => 2
  | .outNA _ => 2
  | .inAN _ => 2
  | .rlcR _ => 2
  | .rlcHl => 2
  | .rrcR _ => 2
  | .rrcHl => 2
  | .rlR _ => 2
  | .rlHl => 2
  | .rrR _ => 2
  | .rrHl => 2
  | .slaR _ => 2
  | .slaHl => 2
  | .sraR _ => 2
  | .sraHl => 2
  | .sllR _ => 2
  | .sllHl => 2
  | .srlR _ => 2
  | .srlHl => 2
  | .bitBR _ _ => 2
  | .bitBHl _ => 2
  | .resBR _ _ => 2
  | .resBHl _ => 2
  | .setBR _ _ => 2
  | .setBHl _ => 2
  | .inRC _ => 2
  | .inC => 2
  | .outCR _ => 2
  | .outC0 => 2
  | .sbcHlSs _ => 2
  | .adcHlSs _ => 2
  | .neg _ => 2
  | .retn _ => 2
  | .reti => 2
  | .im0 _ _ => 2
  | .im1 _ => 2
  | .im2 _ => 2
  | .ldIA => 2
  | .ldRA => 2
  | .ldAI => 2
  | .ldAR => 2
  | .rrd => 2
  | .rld => 2
  | .noni77 => 2
  | .noni7F => 2
  | .ldi => 2
  | .cpi => 2
  | .ini => 2
  | .outi => 2
  | .ldd => 2
  | .cpd => 2
  | .ind => 2
  | .outd => 2
  | .ldir => 2
  | .cpir => 2
  | .inir => 2
  | .otir => 2
  | .lddr => 2
  | .cpdr => 2
  | .indr => 2
  | .otdr => 2
  | .noni00 _ => 2
  | .noniC0 _ => 2
  | .noni80 _ => 2
  | .noniA4 _ _ => 2
  | .addIxPp _ => 2
  | .incIx => 2
  | .decIx => 2
  | .incIxHalf _ => 2
  | .decIxHalf _ => 2
  | .ldRRIx _ _ => 2
  | .addAIxHalf _ => 2
  | .adcAIxHalf _ => 2
  | .subIxHalf _ => 2
  | .sbcAIxHalf _ => 2
  | .andIxHalf _ => 2
  | .xorIxHalf _ => 2
  | .orIxHalf _ => 2
  | .cpIxHalf _ => 2
  | .popIx => 2
  | .exSpIx => 2
  | .pushIx => 2
  | .jpIx => 2
  | .ldSpIx => 2
  | .addIyPp _ => 2
  | .incIy => 2
  | .decIy => 2
  | .incIyHalf _ => 2
  | .decIyHalf _ => 2
  | .ldRRIy _ _ => 2
  | .addAIyHalf _ => 2
  | .adcAIyHalf _ => 2
  | .subIyHalf _ => 2
  | .sbcAIyHalf _ => 2
  | .andIyHalf _ => 2
  | .xorIyHalf _ => 2
  | .orIyHalf _ => 2
  | .cpIyHalf _ => 2
  | .popIy => 2
  | .exSpIy => 2
  | .pushIy => 2
  | .jpIy => 2
  | .ldSpIy => 2
  | .ldDdNn _ _ => 3
  | .ldMemNnHl _ => 3
  | .ldMemNnA _ => 3
  | .ldHlMemNn _ => 3
  | .ldAMemNn _ => 3
  | .jpCcNn _ _ => 3
  | .jpNn _ => 3
  | .callCcNn _ _ => 3
  | .callNn _ => 3
  | .ldIxHalfN _ _ => 3
  | .incIxD _ => 3
  | .decIxD _ => 3
  | .ldRIxD _ _ => 3
  | .ldIxDR _ _ => 3
  | .addAIxD _ => 3
  | .adcAIxD _ => 3
  | .subIxD _ => 3
  | .sbcAIxD _ => 3
  | .andIxD _ => 3
  | .xorIxD _ => 3
  | .orIxD _ => 3
  | .cpIxD _ => 3
  | .ldIyHalfN _ _ => 3
  | .incIyD _ => 3
  | .decIyD _ => 3
  | .ldRIyD _ _ => 3
  | .ldIyDR _ _ => 3
  | .addAIyD _ => 3
  | .adcAIyD _ => 3
  | .subIyD _ => 3
  | .sbcAIyD _ => 3
  | .andIyD _ => 3
  | .xorIyD _ => 3
  | .orIyD _ => 3
  | .cpIyD _ => 3
  | .ldMemNnDd _ _ => 4
  | .ldDdMemNn _ _ => 4
  | .ldIxNn _ => 4
  | .ldMemNnIx _ => 4
  | .ldIxMemNn _ => 4
  | .ldIxDN _ _ => 4
  | .ldIyNn _ => 4
  | .ldMemNnIy _ => 4
  | .ldIyMemNn _ => 4
  | .ldIyDN _ _ => 4
  | .rlcIxD _ => 4
  | .ldRRlcIxD _ _ => 4
  | .rrcIxD _ => 4
  | .ldRRrcIxD _ _ => 4
  | .rlIxD _ => 4
  | .ldRRlIxD _ _ => 4
  | .rrIxD _ => 4
  | .ldRRrIxD _ _ => 4
  | .slaIxD _ => 4
  | .ldRSlaIxD _ _ => 4
  | .sraIxD _ => 4
  | .ldRSraIxD _ _ => 4
  | .sllIxD _ => 4
  | .ldRSllIxD _ _ => 4
  | .srlIxD _ => 4
  | .ldRSrlIxD _ _ => 4
  | .bitBIxD _ _ _ => 4
  | .resBIxD _ _ => 4
  | .ldRResBIxD _ _ _ => 4
  | .setBIxD _ _ => 4
  | .ldRSetBIxD _ _ _ => 4
  | .rlcIyD _ => 4
  | .ldRRlcIyD _ _ => 4
  | .rrcIyD _ => 4
  | .ldRRrcIyD _ _ => 4
  | .rlIyD _ => 4
  | .ldRRlIyD _ _ => 4
  | .rrIyD _ => 4
  | .ldRRrIyD _ _ => 4
  | .slaIyD _ => 4
  | .ldRSlaIyD _ _ => 4
  | .sraIyD _ => 4
  | .ldRSraIyD _ _ => 4
  | .sllIyD _ => 4
  | .ldRSllIyD _ _ => 4
  | .srlIyD _ => 4
  | .ldRSrlIyD _ _ => 4
  | .bitBIyD _ _ _ => 4
  | .resBIyD _ _ => 4
  | .ldRResBIyD _ _ _ => 4
  | .setBIyD _ _ => 4
  | .ldRSetBIyD _ _ _ => 4
  | _ => 1

/-- The M1 fetches of each instruction (R47): one for the unprefixed tables, two for the others. -/
def fetches : Instr → Nat
  | .nop => 1
  | .exAfAf => 1
  | .djnz _ => 1
  | .jr _ => 1
  | .jrCc _ _ => 1
  | .ldDdNn _ _ => 1
  | .addHlSs _ => 1
  | .ldMemBcA => 1
  | .ldMemDeA => 1
  | .ldMemNnHl _ => 1
  | .ldMemNnA _ => 1
  | .ldAMemBc => 1
  | .ldAMemDe => 1
  | .ldHlMemNn _ => 1
  | .ldAMemNn _ => 1
  | .incSs _ => 1
  | .decSs _ => 1
  | .incR _ => 1
  | .incHl => 1
  | .decR _ => 1
  | .decHl => 1
  | .ldRN _ _ => 1
  | .ldHlN _ => 1
  | .rlca => 1
  | .rrca => 1
  | .rla => 1
  | .rra => 1
  | .daa => 1
  | .cpl => 1
  | .scf => 1
  | .ccf => 1
  | .halt => 1
  | .ldRR _ _ => 1
  | .ldRHl _ => 1
  | .ldHlR _ => 1
  | .addAR _ => 1
  | .addAHl => 1
  | .addAN _ => 1
  | .adcAR _ => 1
  | .adcAHl => 1
  | .adcAN _ => 1
  | .subR _ => 1
  | .subHl => 1
  | .subN _ => 1
  | .sbcAR _ => 1
  | .sbcAHl => 1
  | .sbcAN _ => 1
  | .andR _ => 1
  | .andHl => 1
  | .andN _ => 1
  | .xorR _ => 1
  | .xorHl => 1
  | .xorN _ => 1
  | .orR _ => 1
  | .orHl => 1
  | .orN _ => 1
  | .cpR _ => 1
  | .cpHl => 1
  | .cpN _ => 1
  | .retCc _ => 1
  | .popQq _ => 1
  | .ret => 1
  | .exx => 1
  | .jpHl => 1
  | .ldSpHl => 1
  | .jpCcNn _ _ => 1
  | .jpNn _ => 1
  | .outNA _ => 1
  | .inAN _ => 1
  | .exSpHl => 1
  | .exDeHl => 1
  | .di => 1
  | .ei => 1
  | .callCcNn _ _ => 1
  | .pushQq _ => 1
  | .callNn _ => 1
  | .rst _ => 1
  | _ => 2

/-- The encoding of an instruction has that many bytes and that many M1 fetches. -/
def Statement (i : Instr) : Prop :=
  isPrefixRow i = false → (encode i).length = bytes i ∧ m1Fetches i = fetches i

theorem nop : Statement .nop := fun _ => ⟨rfl, rfl⟩
theorem exAfAf : Statement .exAfAf := fun _ => ⟨rfl, rfl⟩
theorem djnz (e : Byte) : Statement (.djnz e) := fun _ => ⟨rfl, rfl⟩
theorem jr (e : Byte) : Statement (.jr e) := fun _ => ⟨rfl, rfl⟩
theorem jrCc (cc : CondJr) (e : Byte) : Statement (.jrCc cc e) := fun _ => ⟨rfl, by cases cc <;> rfl⟩
theorem ldDdNn (dd : Pair) (nn : Word) : Statement (.ldDdNn dd nn) := fun _ => ⟨rfl, by cases dd <;> rfl⟩
theorem addHlSs (ss : Pair) : Statement (.addHlSs ss) := fun _ => ⟨rfl, by cases ss <;> rfl⟩
theorem ldMemBcA : Statement .ldMemBcA := fun _ => ⟨rfl, rfl⟩
theorem ldMemDeA : Statement .ldMemDeA := fun _ => ⟨rfl, rfl⟩
theorem ldMemNnHl (nn : Word) : Statement (.ldMemNnHl nn) := fun _ => ⟨rfl, rfl⟩
theorem ldMemNnA (nn : Word) : Statement (.ldMemNnA nn) := fun _ => ⟨rfl, rfl⟩
theorem ldAMemBc : Statement .ldAMemBc := fun _ => ⟨rfl, rfl⟩
theorem ldAMemDe : Statement .ldAMemDe := fun _ => ⟨rfl, rfl⟩
theorem ldHlMemNn (nn : Word) : Statement (.ldHlMemNn nn) := fun _ => ⟨rfl, rfl⟩
theorem ldAMemNn (nn : Word) : Statement (.ldAMemNn nn) := fun _ => ⟨rfl, rfl⟩
theorem incSs (ss : Pair) : Statement (.incSs ss) := fun _ => ⟨rfl, by cases ss <;> rfl⟩
theorem decSs (ss : Pair) : Statement (.decSs ss) := fun _ => ⟨rfl, by cases ss <;> rfl⟩
theorem incR (r : Reg8) : Statement (.incR r) := fun _ => ⟨rfl, by cases r <;> rfl⟩
theorem incHl : Statement .incHl := fun _ => ⟨rfl, rfl⟩
theorem decR (r : Reg8) : Statement (.decR r) := fun _ => ⟨rfl, by cases r <;> rfl⟩
theorem decHl : Statement .decHl := fun _ => ⟨rfl, rfl⟩
theorem ldRN (r : Reg8) (n : Byte) : Statement (.ldRN r n) := fun _ => ⟨rfl, by cases r <;> rfl⟩
theorem ldHlN (n : Byte) : Statement (.ldHlN n) := fun _ => ⟨rfl, rfl⟩
theorem rlca : Statement .rlca := fun _ => ⟨rfl, rfl⟩
theorem rrca : Statement .rrca := fun _ => ⟨rfl, rfl⟩
theorem rla : Statement .rla := fun _ => ⟨rfl, rfl⟩
theorem rra : Statement .rra := fun _ => ⟨rfl, rfl⟩
theorem daa : Statement .daa := fun _ => ⟨rfl, rfl⟩
theorem cpl : Statement .cpl := fun _ => ⟨rfl, rfl⟩
theorem scf : Statement .scf := fun _ => ⟨rfl, rfl⟩
theorem ccf : Statement .ccf := fun _ => ⟨rfl, rfl⟩
theorem halt : Statement .halt := fun _ => ⟨rfl, rfl⟩
theorem ldRR (dst : Reg8) (src : Reg8) : Statement (.ldRR dst src) := fun _ => ⟨rfl, by cases dst <;> cases src <;> rfl⟩
theorem ldRHl (dst : Reg8) : Statement (.ldRHl dst) := fun _ => ⟨rfl, by cases dst <;> rfl⟩
theorem ldHlR (src : Reg8) : Statement (.ldHlR src) := fun _ => ⟨rfl, by cases src <;> rfl⟩
theorem addAR (r : Reg8) : Statement (.addAR r) := fun _ => ⟨rfl, by cases r <;> rfl⟩
theorem addAHl : Statement .addAHl := fun _ => ⟨rfl, rfl⟩
theorem addAN (n : Byte) : Statement (.addAN n) := fun _ => ⟨rfl, rfl⟩
theorem adcAR (r : Reg8) : Statement (.adcAR r) := fun _ => ⟨rfl, by cases r <;> rfl⟩
theorem adcAHl : Statement .adcAHl := fun _ => ⟨rfl, rfl⟩
theorem adcAN (n : Byte) : Statement (.adcAN n) := fun _ => ⟨rfl, rfl⟩
theorem subR (r : Reg8) : Statement (.subR r) := fun _ => ⟨rfl, by cases r <;> rfl⟩
theorem subHl : Statement .subHl := fun _ => ⟨rfl, rfl⟩
theorem subN (n : Byte) : Statement (.subN n) := fun _ => ⟨rfl, rfl⟩
theorem sbcAR (r : Reg8) : Statement (.sbcAR r) := fun _ => ⟨rfl, by cases r <;> rfl⟩
theorem sbcAHl : Statement .sbcAHl := fun _ => ⟨rfl, rfl⟩
theorem sbcAN (n : Byte) : Statement (.sbcAN n) := fun _ => ⟨rfl, rfl⟩
theorem andR (r : Reg8) : Statement (.andR r) := fun _ => ⟨rfl, by cases r <;> rfl⟩
theorem andHl : Statement .andHl := fun _ => ⟨rfl, rfl⟩
theorem andN (n : Byte) : Statement (.andN n) := fun _ => ⟨rfl, rfl⟩
theorem xorR (r : Reg8) : Statement (.xorR r) := fun _ => ⟨rfl, by cases r <;> rfl⟩
theorem xorHl : Statement .xorHl := fun _ => ⟨rfl, rfl⟩
theorem xorN (n : Byte) : Statement (.xorN n) := fun _ => ⟨rfl, rfl⟩
theorem orR (r : Reg8) : Statement (.orR r) := fun _ => ⟨rfl, by cases r <;> rfl⟩
theorem orHl : Statement .orHl := fun _ => ⟨rfl, rfl⟩
theorem orN (n : Byte) : Statement (.orN n) := fun _ => ⟨rfl, rfl⟩
theorem cpR (r : Reg8) : Statement (.cpR r) := fun _ => ⟨rfl, by cases r <;> rfl⟩
theorem cpHl : Statement .cpHl := fun _ => ⟨rfl, rfl⟩
theorem cpN (n : Byte) : Statement (.cpN n) := fun _ => ⟨rfl, rfl⟩
theorem retCc (cc : Cond) : Statement (.retCc cc) := fun _ => ⟨rfl, by cases cc <;> rfl⟩
theorem popQq (qq : PairQ) : Statement (.popQq qq) := fun _ => ⟨rfl, by cases qq <;> rfl⟩
theorem ret : Statement .ret := fun _ => ⟨rfl, rfl⟩
theorem exx : Statement .exx := fun _ => ⟨rfl, rfl⟩
theorem jpHl : Statement .jpHl := fun _ => ⟨rfl, rfl⟩
theorem ldSpHl : Statement .ldSpHl := fun _ => ⟨rfl, rfl⟩
theorem jpCcNn (cc : Cond) (nn : Word) : Statement (.jpCcNn cc nn) := fun _ => ⟨rfl, by cases cc <;> rfl⟩
theorem jpNn (nn : Word) : Statement (.jpNn nn) := fun _ => ⟨rfl, rfl⟩
theorem outNA (n : Byte) : Statement (.outNA n) := fun _ => ⟨rfl, rfl⟩
theorem inAN (n : Byte) : Statement (.inAN n) := fun _ => ⟨rfl, rfl⟩
theorem exSpHl : Statement .exSpHl := fun _ => ⟨rfl, rfl⟩
theorem exDeHl : Statement .exDeHl := fun _ => ⟨rfl, rfl⟩
theorem di : Statement .di := fun _ => ⟨rfl, rfl⟩
theorem ei : Statement .ei := fun _ => ⟨rfl, rfl⟩
theorem callCcNn (cc : Cond) (nn : Word) : Statement (.callCcNn cc nn) := fun _ => ⟨rfl, by cases cc <;> rfl⟩
theorem pushQq (qq : PairQ) : Statement (.pushQq qq) := fun _ => ⟨rfl, by cases qq <;> rfl⟩
theorem callNn (nn : Word) : Statement (.callNn nn) := fun _ => ⟨rfl, rfl⟩
theorem rst (t : BitVec 3) : Statement (.rst t) := fun _ => ⟨rfl, by revert t; decide⟩
theorem prefixCb : Statement .prefixCb := nofun
theorem prefixDd : Statement .prefixDd := nofun
theorem prefixEd : Statement .prefixEd := nofun
theorem prefixFd : Statement .prefixFd := nofun
theorem rlcR (r : Reg8) : Statement (.rlcR r) := fun _ => ⟨rfl, rfl⟩
theorem rlcHl : Statement .rlcHl := fun _ => ⟨rfl, rfl⟩
theorem rrcR (r : Reg8) : Statement (.rrcR r) := fun _ => ⟨rfl, rfl⟩
theorem rrcHl : Statement .rrcHl := fun _ => ⟨rfl, rfl⟩
theorem rlR (r : Reg8) : Statement (.rlR r) := fun _ => ⟨rfl, rfl⟩
theorem rlHl : Statement .rlHl := fun _ => ⟨rfl, rfl⟩
theorem rrR (r : Reg8) : Statement (.rrR r) := fun _ => ⟨rfl, rfl⟩
theorem rrHl : Statement .rrHl := fun _ => ⟨rfl, rfl⟩
theorem slaR (r : Reg8) : Statement (.slaR r) := fun _ => ⟨rfl, rfl⟩
theorem slaHl : Statement .slaHl := fun _ => ⟨rfl, rfl⟩
theorem sraR (r : Reg8) : Statement (.sraR r) := fun _ => ⟨rfl, rfl⟩
theorem sraHl : Statement .sraHl := fun _ => ⟨rfl, rfl⟩
theorem sllR (r : Reg8) : Statement (.sllR r) := fun _ => ⟨rfl, rfl⟩
theorem sllHl : Statement .sllHl := fun _ => ⟨rfl, rfl⟩
theorem srlR (r : Reg8) : Statement (.srlR r) := fun _ => ⟨rfl, rfl⟩
theorem srlHl : Statement .srlHl := fun _ => ⟨rfl, rfl⟩
theorem bitBR (b : BitVec 3) (r : Reg8) : Statement (.bitBR b r) := fun _ => ⟨rfl, rfl⟩
theorem bitBHl (b : BitVec 3) : Statement (.bitBHl b) := fun _ => ⟨rfl, rfl⟩
theorem resBR (b : BitVec 3) (r : Reg8) : Statement (.resBR b r) := fun _ => ⟨rfl, rfl⟩
theorem resBHl (b : BitVec 3) : Statement (.resBHl b) := fun _ => ⟨rfl, rfl⟩
theorem setBR (b : BitVec 3) (r : Reg8) : Statement (.setBR b r) := fun _ => ⟨rfl, rfl⟩
theorem setBHl (b : BitVec 3) : Statement (.setBHl b) := fun _ => ⟨rfl, rfl⟩
theorem inRC (r : Reg8) : Statement (.inRC r) := fun _ => ⟨rfl, rfl⟩
theorem inC : Statement .inC := fun _ => ⟨rfl, rfl⟩
theorem outCR (r : Reg8) : Statement (.outCR r) := fun _ => ⟨rfl, rfl⟩
theorem outC0 : Statement .outC0 := fun _ => ⟨rfl, rfl⟩
theorem sbcHlSs (ss : Pair) : Statement (.sbcHlSs ss) := fun _ => ⟨rfl, rfl⟩
theorem adcHlSs (ss : Pair) : Statement (.adcHlSs ss) := fun _ => ⟨rfl, rfl⟩
theorem ldMemNnDd (dd : Pair) (nn : Word) : Statement (.ldMemNnDd dd nn) := fun _ => ⟨rfl, rfl⟩
theorem ldDdMemNn (dd : Pair) (nn : Word) : Statement (.ldDdMemNn dd nn) := fun _ => ⟨rfl, rfl⟩
theorem neg (y : BitVec 3) : Statement (.neg y) := fun _ => ⟨rfl, rfl⟩
theorem retn (y : BitVec 3) : Statement (.retn y) := fun _ => ⟨rfl, rfl⟩
theorem reti : Statement .reti := fun _ => ⟨rfl, rfl⟩
theorem im0 (y5 : BitVec 1) (y3 : BitVec 1) : Statement (.im0 y5 y3) := fun _ => ⟨rfl, rfl⟩
theorem im1 (y5 : BitVec 1) : Statement (.im1 y5) := fun _ => ⟨rfl, rfl⟩
theorem im2 (y5 : BitVec 1) : Statement (.im2 y5) := fun _ => ⟨rfl, rfl⟩
theorem ldIA : Statement .ldIA := fun _ => ⟨rfl, rfl⟩
theorem ldRA : Statement .ldRA := fun _ => ⟨rfl, rfl⟩
theorem ldAI : Statement .ldAI := fun _ => ⟨rfl, rfl⟩
theorem ldAR : Statement .ldAR := fun _ => ⟨rfl, rfl⟩
theorem rrd : Statement .rrd := fun _ => ⟨rfl, rfl⟩
theorem rld : Statement .rld := fun _ => ⟨rfl, rfl⟩
theorem noni77 : Statement .noni77 := fun _ => ⟨rfl, rfl⟩
theorem noni7F : Statement .noni7F := fun _ => ⟨rfl, rfl⟩
theorem ldi : Statement .ldi := fun _ => ⟨rfl, rfl⟩
theorem cpi : Statement .cpi := fun _ => ⟨rfl, rfl⟩
theorem ini : Statement .ini := fun _ => ⟨rfl, rfl⟩
theorem outi : Statement .outi := fun _ => ⟨rfl, rfl⟩
theorem ldd : Statement .ldd := fun _ => ⟨rfl, rfl⟩
theorem cpd : Statement .cpd := fun _ => ⟨rfl, rfl⟩
theorem ind : Statement .ind := fun _ => ⟨rfl, rfl⟩
theorem outd : Statement .outd := fun _ => ⟨rfl, rfl⟩
theorem ldir : Statement .ldir := fun _ => ⟨rfl, rfl⟩
theorem cpir : Statement .cpir := fun _ => ⟨rfl, rfl⟩
theorem inir : Statement .inir := fun _ => ⟨rfl, rfl⟩
theorem otir : Statement .otir := fun _ => ⟨rfl, rfl⟩
theorem lddr : Statement .lddr := fun _ => ⟨rfl, rfl⟩
theorem cpdr : Statement .cpdr := fun _ => ⟨rfl, rfl⟩
theorem indr : Statement .indr := fun _ => ⟨rfl, rfl⟩
theorem otdr : Statement .otdr := fun _ => ⟨rfl, rfl⟩
theorem noni00 (z : BitVec 6) : Statement (.noni00 z) := fun _ => ⟨rfl, rfl⟩
theorem noniC0 (z : BitVec 6) : Statement (.noniC0 z) := fun _ => ⟨rfl, rfl⟩
theorem noni80 (z : BitVec 5) : Statement (.noni80 z) := fun _ => ⟨rfl, rfl⟩
theorem noniA4 (hi : BitVec 2) (lo : BitVec 2) : Statement (.noniA4 hi lo) := fun _ => ⟨rfl, rfl⟩
theorem addIxPp (pp : PairP) : Statement (.addIxPp pp) := fun _ => ⟨rfl, rfl⟩
theorem ldIxNn (nn : Word) : Statement (.ldIxNn nn) := fun _ => ⟨rfl, rfl⟩
theorem ldMemNnIx (nn : Word) : Statement (.ldMemNnIx nn) := fun _ => ⟨rfl, rfl⟩
theorem incIx : Statement .incIx := fun _ => ⟨rfl, rfl⟩
theorem decIx : Statement .decIx := fun _ => ⟨rfl, rfl⟩
theorem ldIxMemNn (nn : Word) : Statement (.ldIxMemNn nn) := fun _ => ⟨rfl, rfl⟩
theorem incIxHalf (half : IdxHalf) : Statement (.incIxHalf half) := fun _ => ⟨rfl, rfl⟩
theorem decIxHalf (half : IdxHalf) : Statement (.decIxHalf half) := fun _ => ⟨rfl, rfl⟩
theorem ldIxHalfN (half : IdxHalf) (n : Byte) : Statement (.ldIxHalfN half n) := fun _ => ⟨rfl, rfl⟩
theorem incIxD (d : Byte) : Statement (.incIxD d) := fun _ => ⟨rfl, rfl⟩
theorem decIxD (d : Byte) : Statement (.decIxD d) := fun _ => ⟨rfl, rfl⟩
theorem ldIxDN (d : Byte) (n : Byte) : Statement (.ldIxDN d n) := fun _ => ⟨rfl, rfl⟩
theorem ldRIxD (r : Reg8) (d : Byte) : Statement (.ldRIxD r d) := fun _ => ⟨rfl, rfl⟩
theorem ldIxDR (d : Byte) (r : Reg8) : Statement (.ldIxDR d r) := fun _ => ⟨rfl, rfl⟩
theorem ldRRIx (dst : IdxReg8) (src : IdxReg8) : Statement (.ldRRIx dst src) := fun _ => ⟨rfl, rfl⟩
theorem addAIxHalf (half : IdxHalf) : Statement (.addAIxHalf half) := fun _ => ⟨rfl, rfl⟩
theorem addAIxD (d : Byte) : Statement (.addAIxD d) := fun _ => ⟨rfl, rfl⟩
theorem adcAIxHalf (half : IdxHalf) : Statement (.adcAIxHalf half) := fun _ => ⟨rfl, rfl⟩
theorem adcAIxD (d : Byte) : Statement (.adcAIxD d) := fun _ => ⟨rfl, rfl⟩
theorem subIxHalf (half : IdxHalf) : Statement (.subIxHalf half) := fun _ => ⟨rfl, rfl⟩
theorem subIxD (d : Byte) : Statement (.subIxD d) := fun _ => ⟨rfl, rfl⟩
theorem sbcAIxHalf (half : IdxHalf) : Statement (.sbcAIxHalf half) := fun _ => ⟨rfl, rfl⟩
theorem sbcAIxD (d : Byte) : Statement (.sbcAIxD d) := fun _ => ⟨rfl, rfl⟩
theorem andIxHalf (half : IdxHalf) : Statement (.andIxHalf half) := fun _ => ⟨rfl, rfl⟩
theorem andIxD (d : Byte) : Statement (.andIxD d) := fun _ => ⟨rfl, rfl⟩
theorem xorIxHalf (half : IdxHalf) : Statement (.xorIxHalf half) := fun _ => ⟨rfl, rfl⟩
theorem xorIxD (d : Byte) : Statement (.xorIxD d) := fun _ => ⟨rfl, rfl⟩
theorem orIxHalf (half : IdxHalf) : Statement (.orIxHalf half) := fun _ => ⟨rfl, rfl⟩
theorem orIxD (d : Byte) : Statement (.orIxD d) := fun _ => ⟨rfl, rfl⟩
theorem cpIxHalf (half : IdxHalf) : Statement (.cpIxHalf half) := fun _ => ⟨rfl, rfl⟩
theorem cpIxD (d : Byte) : Statement (.cpIxD d) := fun _ => ⟨rfl, rfl⟩
theorem popIx : Statement .popIx := fun _ => ⟨rfl, rfl⟩
theorem exSpIx : Statement .exSpIx := fun _ => ⟨rfl, rfl⟩
theorem pushIx : Statement .pushIx := fun _ => ⟨rfl, rfl⟩
theorem jpIx : Statement .jpIx := fun _ => ⟨rfl, rfl⟩
theorem ldSpIx : Statement .ldSpIx := fun _ => ⟨rfl, rfl⟩
theorem prefixDdCb : Statement .prefixDdCb := nofun
theorem supersededDd (next : NextPrefix) : Statement (.supersededDd next) := nofun
theorem ignoredDd (op : Byte) : Statement (.ignoredDd op) := nofun
theorem addIyPp (pp : PairP) : Statement (.addIyPp pp) := fun _ => ⟨rfl, rfl⟩
theorem ldIyNn (nn : Word) : Statement (.ldIyNn nn) := fun _ => ⟨rfl, rfl⟩
theorem ldMemNnIy (nn : Word) : Statement (.ldMemNnIy nn) := fun _ => ⟨rfl, rfl⟩
theorem incIy : Statement .incIy := fun _ => ⟨rfl, rfl⟩
theorem decIy : Statement .decIy := fun _ => ⟨rfl, rfl⟩
theorem ldIyMemNn (nn : Word) : Statement (.ldIyMemNn nn) := fun _ => ⟨rfl, rfl⟩
theorem incIyHalf (half : IdxHalf) : Statement (.incIyHalf half) := fun _ => ⟨rfl, rfl⟩
theorem decIyHalf (half : IdxHalf) : Statement (.decIyHalf half) := fun _ => ⟨rfl, rfl⟩
theorem ldIyHalfN (half : IdxHalf) (n : Byte) : Statement (.ldIyHalfN half n) := fun _ => ⟨rfl, rfl⟩
theorem incIyD (d : Byte) : Statement (.incIyD d) := fun _ => ⟨rfl, rfl⟩
theorem decIyD (d : Byte) : Statement (.decIyD d) := fun _ => ⟨rfl, rfl⟩
theorem ldIyDN (d : Byte) (n : Byte) : Statement (.ldIyDN d n) := fun _ => ⟨rfl, rfl⟩
theorem ldRIyD (r : Reg8) (d : Byte) : Statement (.ldRIyD r d) := fun _ => ⟨rfl, rfl⟩
theorem ldIyDR (d : Byte) (r : Reg8) : Statement (.ldIyDR d r) := fun _ => ⟨rfl, rfl⟩
theorem ldRRIy (dst : IdxReg8) (src : IdxReg8) : Statement (.ldRRIy dst src) := fun _ => ⟨rfl, rfl⟩
theorem addAIyHalf (half : IdxHalf) : Statement (.addAIyHalf half) := fun _ => ⟨rfl, rfl⟩
theorem addAIyD (d : Byte) : Statement (.addAIyD d) := fun _ => ⟨rfl, rfl⟩
theorem adcAIyHalf (half : IdxHalf) : Statement (.adcAIyHalf half) := fun _ => ⟨rfl, rfl⟩
theorem adcAIyD (d : Byte) : Statement (.adcAIyD d) := fun _ => ⟨rfl, rfl⟩
theorem subIyHalf (half : IdxHalf) : Statement (.subIyHalf half) := fun _ => ⟨rfl, rfl⟩
theorem subIyD (d : Byte) : Statement (.subIyD d) := fun _ => ⟨rfl, rfl⟩
theorem sbcAIyHalf (half : IdxHalf) : Statement (.sbcAIyHalf half) := fun _ => ⟨rfl, rfl⟩
theorem sbcAIyD (d : Byte) : Statement (.sbcAIyD d) := fun _ => ⟨rfl, rfl⟩
theorem andIyHalf (half : IdxHalf) : Statement (.andIyHalf half) := fun _ => ⟨rfl, rfl⟩
theorem andIyD (d : Byte) : Statement (.andIyD d) := fun _ => ⟨rfl, rfl⟩
theorem xorIyHalf (half : IdxHalf) : Statement (.xorIyHalf half) := fun _ => ⟨rfl, rfl⟩
theorem xorIyD (d : Byte) : Statement (.xorIyD d) := fun _ => ⟨rfl, rfl⟩
theorem orIyHalf (half : IdxHalf) : Statement (.orIyHalf half) := fun _ => ⟨rfl, rfl⟩
theorem orIyD (d : Byte) : Statement (.orIyD d) := fun _ => ⟨rfl, rfl⟩
theorem cpIyHalf (half : IdxHalf) : Statement (.cpIyHalf half) := fun _ => ⟨rfl, rfl⟩
theorem cpIyD (d : Byte) : Statement (.cpIyD d) := fun _ => ⟨rfl, rfl⟩
theorem popIy : Statement .popIy := fun _ => ⟨rfl, rfl⟩
theorem exSpIy : Statement .exSpIy := fun _ => ⟨rfl, rfl⟩
theorem pushIy : Statement .pushIy := fun _ => ⟨rfl, rfl⟩
theorem jpIy : Statement .jpIy := fun _ => ⟨rfl, rfl⟩
theorem ldSpIy : Statement .ldSpIy := fun _ => ⟨rfl, rfl⟩
theorem prefixFdCb : Statement .prefixFdCb := nofun
theorem supersededFd (next : NextPrefix) : Statement (.supersededFd next) := nofun
theorem ignoredFd (op : Byte) : Statement (.ignoredFd op) := nofun
theorem rlcIxD (d : Byte) : Statement (.rlcIxD d) := fun _ => ⟨rfl, rfl⟩
theorem ldRRlcIxD (r : Reg8) (d : Byte) : Statement (.ldRRlcIxD r d) := fun _ => ⟨rfl, rfl⟩
theorem rrcIxD (d : Byte) : Statement (.rrcIxD d) := fun _ => ⟨rfl, rfl⟩
theorem ldRRrcIxD (r : Reg8) (d : Byte) : Statement (.ldRRrcIxD r d) := fun _ => ⟨rfl, rfl⟩
theorem rlIxD (d : Byte) : Statement (.rlIxD d) := fun _ => ⟨rfl, rfl⟩
theorem ldRRlIxD (r : Reg8) (d : Byte) : Statement (.ldRRlIxD r d) := fun _ => ⟨rfl, rfl⟩
theorem rrIxD (d : Byte) : Statement (.rrIxD d) := fun _ => ⟨rfl, rfl⟩
theorem ldRRrIxD (r : Reg8) (d : Byte) : Statement (.ldRRrIxD r d) := fun _ => ⟨rfl, rfl⟩
theorem slaIxD (d : Byte) : Statement (.slaIxD d) := fun _ => ⟨rfl, rfl⟩
theorem ldRSlaIxD (r : Reg8) (d : Byte) : Statement (.ldRSlaIxD r d) := fun _ => ⟨rfl, rfl⟩
theorem sraIxD (d : Byte) : Statement (.sraIxD d) := fun _ => ⟨rfl, rfl⟩
theorem ldRSraIxD (r : Reg8) (d : Byte) : Statement (.ldRSraIxD r d) := fun _ => ⟨rfl, rfl⟩
theorem sllIxD (d : Byte) : Statement (.sllIxD d) := fun _ => ⟨rfl, rfl⟩
theorem ldRSllIxD (r : Reg8) (d : Byte) : Statement (.ldRSllIxD r d) := fun _ => ⟨rfl, rfl⟩
theorem srlIxD (d : Byte) : Statement (.srlIxD d) := fun _ => ⟨rfl, rfl⟩
theorem ldRSrlIxD (r : Reg8) (d : Byte) : Statement (.ldRSrlIxD r d) := fun _ => ⟨rfl, rfl⟩
theorem bitBIxD (b : BitVec 3) (z : BitVec 3) (d : Byte) : Statement (.bitBIxD b z d) := fun _ => ⟨rfl, rfl⟩
theorem resBIxD (b : BitVec 3) (d : Byte) : Statement (.resBIxD b d) := fun _ => ⟨rfl, rfl⟩
theorem ldRResBIxD (r : Reg8) (b : BitVec 3) (d : Byte) : Statement (.ldRResBIxD r b d) := fun _ => ⟨rfl, rfl⟩
theorem setBIxD (b : BitVec 3) (d : Byte) : Statement (.setBIxD b d) := fun _ => ⟨rfl, rfl⟩
theorem ldRSetBIxD (r : Reg8) (b : BitVec 3) (d : Byte) : Statement (.ldRSetBIxD r b d) := fun _ => ⟨rfl, rfl⟩
theorem rlcIyD (d : Byte) : Statement (.rlcIyD d) := fun _ => ⟨rfl, rfl⟩
theorem ldRRlcIyD (r : Reg8) (d : Byte) : Statement (.ldRRlcIyD r d) := fun _ => ⟨rfl, rfl⟩
theorem rrcIyD (d : Byte) : Statement (.rrcIyD d) := fun _ => ⟨rfl, rfl⟩
theorem ldRRrcIyD (r : Reg8) (d : Byte) : Statement (.ldRRrcIyD r d) := fun _ => ⟨rfl, rfl⟩
theorem rlIyD (d : Byte) : Statement (.rlIyD d) := fun _ => ⟨rfl, rfl⟩
theorem ldRRlIyD (r : Reg8) (d : Byte) : Statement (.ldRRlIyD r d) := fun _ => ⟨rfl, rfl⟩
theorem rrIyD (d : Byte) : Statement (.rrIyD d) := fun _ => ⟨rfl, rfl⟩
theorem ldRRrIyD (r : Reg8) (d : Byte) : Statement (.ldRRrIyD r d) := fun _ => ⟨rfl, rfl⟩
theorem slaIyD (d : Byte) : Statement (.slaIyD d) := fun _ => ⟨rfl, rfl⟩
theorem ldRSlaIyD (r : Reg8) (d : Byte) : Statement (.ldRSlaIyD r d) := fun _ => ⟨rfl, rfl⟩
theorem sraIyD (d : Byte) : Statement (.sraIyD d) := fun _ => ⟨rfl, rfl⟩
theorem ldRSraIyD (r : Reg8) (d : Byte) : Statement (.ldRSraIyD r d) := fun _ => ⟨rfl, rfl⟩
theorem sllIyD (d : Byte) : Statement (.sllIyD d) := fun _ => ⟨rfl, rfl⟩
theorem ldRSllIyD (r : Reg8) (d : Byte) : Statement (.ldRSllIyD r d) := fun _ => ⟨rfl, rfl⟩
theorem srlIyD (d : Byte) : Statement (.srlIyD d) := fun _ => ⟨rfl, rfl⟩
theorem ldRSrlIyD (r : Reg8) (d : Byte) : Statement (.ldRSrlIyD r d) := fun _ => ⟨rfl, rfl⟩
theorem bitBIyD (b : BitVec 3) (z : BitVec 3) (d : Byte) : Statement (.bitBIyD b z d) := fun _ => ⟨rfl, rfl⟩
theorem resBIyD (b : BitVec 3) (d : Byte) : Statement (.resBIyD b d) := fun _ => ⟨rfl, rfl⟩
theorem ldRResBIyD (r : Reg8) (b : BitVec 3) (d : Byte) : Statement (.ldRResBIyD r b d) := fun _ => ⟨rfl, rfl⟩
theorem setBIyD (b : BitVec 3) (d : Byte) : Statement (.setBIyD b d) := fun _ => ⟨rfl, rfl⟩
theorem ldRSetBIyD (r : Reg8) (b : BitVec 3) (d : Byte) : Statement (.ldRSetBIyD r b d) := fun _ => ⟨rfl, rfl⟩

/-- Every instruction has its shape. -/
theorem all (i : Instr) : Statement i := by
  cases i
  case nop => exact nop
  case exAfAf => exact exAfAf
  case djnz e => exact djnz e
  case jr e => exact jr e
  case jrCc cc e => exact jrCc cc e
  case ldDdNn dd nn => exact ldDdNn dd nn
  case addHlSs ss => exact addHlSs ss
  case ldMemBcA => exact ldMemBcA
  case ldMemDeA => exact ldMemDeA
  case ldMemNnHl nn => exact ldMemNnHl nn
  case ldMemNnA nn => exact ldMemNnA nn
  case ldAMemBc => exact ldAMemBc
  case ldAMemDe => exact ldAMemDe
  case ldHlMemNn nn => exact ldHlMemNn nn
  case ldAMemNn nn => exact ldAMemNn nn
  case incSs ss => exact incSs ss
  case decSs ss => exact decSs ss
  case incR r => exact incR r
  case incHl => exact incHl
  case decR r => exact decR r
  case decHl => exact decHl
  case ldRN r n => exact ldRN r n
  case ldHlN n => exact ldHlN n
  case rlca => exact rlca
  case rrca => exact rrca
  case rla => exact rla
  case rra => exact rra
  case daa => exact daa
  case cpl => exact cpl
  case scf => exact scf
  case ccf => exact ccf
  case halt => exact halt
  case ldRR dst src => exact ldRR dst src
  case ldRHl dst => exact ldRHl dst
  case ldHlR src => exact ldHlR src
  case addAR r => exact addAR r
  case addAHl => exact addAHl
  case addAN n => exact addAN n
  case adcAR r => exact adcAR r
  case adcAHl => exact adcAHl
  case adcAN n => exact adcAN n
  case subR r => exact subR r
  case subHl => exact subHl
  case subN n => exact subN n
  case sbcAR r => exact sbcAR r
  case sbcAHl => exact sbcAHl
  case sbcAN n => exact sbcAN n
  case andR r => exact andR r
  case andHl => exact andHl
  case andN n => exact andN n
  case xorR r => exact xorR r
  case xorHl => exact xorHl
  case xorN n => exact xorN n
  case orR r => exact orR r
  case orHl => exact orHl
  case orN n => exact orN n
  case cpR r => exact cpR r
  case cpHl => exact cpHl
  case cpN n => exact cpN n
  case retCc cc => exact retCc cc
  case popQq qq => exact popQq qq
  case ret => exact ret
  case exx => exact exx
  case jpHl => exact jpHl
  case ldSpHl => exact ldSpHl
  case jpCcNn cc nn => exact jpCcNn cc nn
  case jpNn nn => exact jpNn nn
  case outNA n => exact outNA n
  case inAN n => exact inAN n
  case exSpHl => exact exSpHl
  case exDeHl => exact exDeHl
  case di => exact di
  case ei => exact ei
  case callCcNn cc nn => exact callCcNn cc nn
  case pushQq qq => exact pushQq qq
  case callNn nn => exact callNn nn
  case rst t => exact rst t
  case prefixCb => exact prefixCb
  case prefixDd => exact prefixDd
  case prefixEd => exact prefixEd
  case prefixFd => exact prefixFd
  case rlcR r => exact rlcR r
  case rlcHl => exact rlcHl
  case rrcR r => exact rrcR r
  case rrcHl => exact rrcHl
  case rlR r => exact rlR r
  case rlHl => exact rlHl
  case rrR r => exact rrR r
  case rrHl => exact rrHl
  case slaR r => exact slaR r
  case slaHl => exact slaHl
  case sraR r => exact sraR r
  case sraHl => exact sraHl
  case sllR r => exact sllR r
  case sllHl => exact sllHl
  case srlR r => exact srlR r
  case srlHl => exact srlHl
  case bitBR b r => exact bitBR b r
  case bitBHl b => exact bitBHl b
  case resBR b r => exact resBR b r
  case resBHl b => exact resBHl b
  case setBR b r => exact setBR b r
  case setBHl b => exact setBHl b
  case inRC r => exact inRC r
  case inC => exact inC
  case outCR r => exact outCR r
  case outC0 => exact outC0
  case sbcHlSs ss => exact sbcHlSs ss
  case adcHlSs ss => exact adcHlSs ss
  case ldMemNnDd dd nn => exact ldMemNnDd dd nn
  case ldDdMemNn dd nn => exact ldDdMemNn dd nn
  case neg y => exact neg y
  case retn y => exact retn y
  case reti => exact reti
  case im0 y5 y3 => exact im0 y5 y3
  case im1 y5 => exact im1 y5
  case im2 y5 => exact im2 y5
  case ldIA => exact ldIA
  case ldRA => exact ldRA
  case ldAI => exact ldAI
  case ldAR => exact ldAR
  case rrd => exact rrd
  case rld => exact rld
  case noni77 => exact noni77
  case noni7F => exact noni7F
  case ldi => exact ldi
  case cpi => exact cpi
  case ini => exact ini
  case outi => exact outi
  case ldd => exact ldd
  case cpd => exact cpd
  case ind => exact ind
  case outd => exact outd
  case ldir => exact ldir
  case cpir => exact cpir
  case inir => exact inir
  case otir => exact otir
  case lddr => exact lddr
  case cpdr => exact cpdr
  case indr => exact indr
  case otdr => exact otdr
  case noni00 z => exact noni00 z
  case noniC0 z => exact noniC0 z
  case noni80 z => exact noni80 z
  case noniA4 hi lo => exact noniA4 hi lo
  case addIxPp pp => exact addIxPp pp
  case ldIxNn nn => exact ldIxNn nn
  case ldMemNnIx nn => exact ldMemNnIx nn
  case incIx => exact incIx
  case decIx => exact decIx
  case ldIxMemNn nn => exact ldIxMemNn nn
  case incIxHalf half => exact incIxHalf half
  case decIxHalf half => exact decIxHalf half
  case ldIxHalfN half n => exact ldIxHalfN half n
  case incIxD d => exact incIxD d
  case decIxD d => exact decIxD d
  case ldIxDN d n => exact ldIxDN d n
  case ldRIxD r d => exact ldRIxD r d
  case ldIxDR d r => exact ldIxDR d r
  case ldRRIx dst src => exact ldRRIx dst src
  case addAIxHalf half => exact addAIxHalf half
  case addAIxD d => exact addAIxD d
  case adcAIxHalf half => exact adcAIxHalf half
  case adcAIxD d => exact adcAIxD d
  case subIxHalf half => exact subIxHalf half
  case subIxD d => exact subIxD d
  case sbcAIxHalf half => exact sbcAIxHalf half
  case sbcAIxD d => exact sbcAIxD d
  case andIxHalf half => exact andIxHalf half
  case andIxD d => exact andIxD d
  case xorIxHalf half => exact xorIxHalf half
  case xorIxD d => exact xorIxD d
  case orIxHalf half => exact orIxHalf half
  case orIxD d => exact orIxD d
  case cpIxHalf half => exact cpIxHalf half
  case cpIxD d => exact cpIxD d
  case popIx => exact popIx
  case exSpIx => exact exSpIx
  case pushIx => exact pushIx
  case jpIx => exact jpIx
  case ldSpIx => exact ldSpIx
  case prefixDdCb => exact prefixDdCb
  case supersededDd next => exact supersededDd next
  case ignoredDd op => exact ignoredDd op
  case addIyPp pp => exact addIyPp pp
  case ldIyNn nn => exact ldIyNn nn
  case ldMemNnIy nn => exact ldMemNnIy nn
  case incIy => exact incIy
  case decIy => exact decIy
  case ldIyMemNn nn => exact ldIyMemNn nn
  case incIyHalf half => exact incIyHalf half
  case decIyHalf half => exact decIyHalf half
  case ldIyHalfN half n => exact ldIyHalfN half n
  case incIyD d => exact incIyD d
  case decIyD d => exact decIyD d
  case ldIyDN d n => exact ldIyDN d n
  case ldRIyD r d => exact ldRIyD r d
  case ldIyDR d r => exact ldIyDR d r
  case ldRRIy dst src => exact ldRRIy dst src
  case addAIyHalf half => exact addAIyHalf half
  case addAIyD d => exact addAIyD d
  case adcAIyHalf half => exact adcAIyHalf half
  case adcAIyD d => exact adcAIyD d
  case subIyHalf half => exact subIyHalf half
  case subIyD d => exact subIyD d
  case sbcAIyHalf half => exact sbcAIyHalf half
  case sbcAIyD d => exact sbcAIyD d
  case andIyHalf half => exact andIyHalf half
  case andIyD d => exact andIyD d
  case xorIyHalf half => exact xorIyHalf half
  case xorIyD d => exact xorIyD d
  case orIyHalf half => exact orIyHalf half
  case orIyD d => exact orIyD d
  case cpIyHalf half => exact cpIyHalf half
  case cpIyD d => exact cpIyD d
  case popIy => exact popIy
  case exSpIy => exact exSpIy
  case pushIy => exact pushIy
  case jpIy => exact jpIy
  case ldSpIy => exact ldSpIy
  case prefixFdCb => exact prefixFdCb
  case supersededFd next => exact supersededFd next
  case ignoredFd op => exact ignoredFd op
  case rlcIxD d => exact rlcIxD d
  case ldRRlcIxD r d => exact ldRRlcIxD r d
  case rrcIxD d => exact rrcIxD d
  case ldRRrcIxD r d => exact ldRRrcIxD r d
  case rlIxD d => exact rlIxD d
  case ldRRlIxD r d => exact ldRRlIxD r d
  case rrIxD d => exact rrIxD d
  case ldRRrIxD r d => exact ldRRrIxD r d
  case slaIxD d => exact slaIxD d
  case ldRSlaIxD r d => exact ldRSlaIxD r d
  case sraIxD d => exact sraIxD d
  case ldRSraIxD r d => exact ldRSraIxD r d
  case sllIxD d => exact sllIxD d
  case ldRSllIxD r d => exact ldRSllIxD r d
  case srlIxD d => exact srlIxD d
  case ldRSrlIxD r d => exact ldRSrlIxD r d
  case bitBIxD b z d => exact bitBIxD b z d
  case resBIxD b d => exact resBIxD b d
  case ldRResBIxD r b d => exact ldRResBIxD r b d
  case setBIxD b d => exact setBIxD b d
  case ldRSetBIxD r b d => exact ldRSetBIxD r b d
  case rlcIyD d => exact rlcIyD d
  case ldRRlcIyD r d => exact ldRRlcIyD r d
  case rrcIyD d => exact rrcIyD d
  case ldRRrcIyD r d => exact ldRRrcIyD r d
  case rlIyD d => exact rlIyD d
  case ldRRlIyD r d => exact ldRRlIyD r d
  case rrIyD d => exact rrIyD d
  case ldRRrIyD r d => exact ldRRrIyD r d
  case slaIyD d => exact slaIyD d
  case ldRSlaIyD r d => exact ldRSlaIyD r d
  case sraIyD d => exact sraIyD d
  case ldRSraIyD r d => exact ldRSraIyD r d
  case sllIyD d => exact sllIyD d
  case ldRSllIyD r d => exact ldRSllIyD r d
  case srlIyD d => exact srlIyD d
  case ldRSrlIyD r d => exact ldRSrlIyD r d
  case bitBIyD b z d => exact bitBIyD b z d
  case resBIyD b d => exact resBIyD b d
  case ldRResBIyD r b d => exact ldRResBIyD r b d
  case setBIyD b d => exact setBIyD b d
  case ldRSetBIyD r b d => exact ldRSetBIyD r b d

end Sys2Proof.Laws.Shape
end

