-- ==== Sys2Proof/Laws/Meanings.lean ====
section
/-! SUPPORT. One lemma per shared meaning: it answers a next state, which retires the instruction within its frame, and
what that state holds. The lemmas of a family's instructions are these, applied to its operands. -/

namespace Sys2Proof.Machine

open Sys2Proof Sys2Proof.Laws

/-- `i` is `n` bytes long and makes `k` M1 fetches. -/
structure HasShape (i : Instr) (n k : Nat) : Prop where
  bytes : (encode i).length = n
  fetches : m1Fetches i = k

/-- The shape of an instruction, from the family `Shape`. -/
theorem shape {i : Instr} (h : Shape.isPrefixRow i = false) : HasShape i (Shape.bytes i) (Shape.fetches i) :=
  ⟨(Shape.all i h).1, (Shape.all i h).2⟩

/-- What every retirement comes down to. -/
theorem retiresAt_of {i : Instr} {n k : Nat} {a : Word} {w : Effect} {es : List BusEvent} {s t : State}
    (h : HasShape i n k) (hf : Frame w (advance n k s) t) (hb : t.bus = s.bus.replay es) (ha : Answered es s)
    (hpc : t.pc = a) (hr : t.r = (advance n k s).r) (hi : t.inhibit = false) : RetiresAt a i w es s t where
  pc := hpc
  inhibit := hi
  r := by rw [h.fetches]; exact counted_of_eq (advance_counted n k s) hr
  frame := (advance_frame w n k s).trans hf
  bus := transacts_of hb (by rw [hf.params, advance_params]) ha

theorem nextPc_eq {i : Instr} {n k : Nat} (h : HasShape i n k) (s : State) : nextPc i s = s.pc + BitVec.ofNat 16 n := by
  rw [nextPc, h.bytes]

/-- A retirement at the next instruction. -/
theorem retires_of {i : Instr} {n k : Nat} {w : Effect} {es : List BusEvent} {s t : State}
    (h : HasShape i n k) (hf : Frame w (advance n k s) t) (hb : t.bus = s.bus.replay es) (ha : Answered es s)
    (hpc : t.pc = (advance n k s).pc) (hr : t.r = (advance n k s).r) (hi : t.inhibit = false) : Retires i w es s t :=
  retiresAt_of h hf hb ha (by rw [nextPc_eq h, hpc, advance_pc]) hr hi

/-- A change of the main set alone frames what it lists. -/
theorem main_frame {w : Effect} {s : State} {m : RegSet} (hr : ∀ r, r ∉ w.regs → State.reg { s with main := m } r = s.reg r)
    (hf : w.f = false → m.f = s.main.f) : Frame w s { s with main := m } where
  regs := hr
  f := hf
  alt _ := rfl
  ix _ := rfl
  iy _ := rfl
  sp _ := rfl
  i _ := rfl
  iff1 _ := rfl
  iff2 _ := rfl
  im _ := rfl
  halted _ := rfl
  nmi _ := rfl
  intLine := rfl
  intVector := rfl
  params := rfl
  unwritten := rfl

/-- A change of A and F. -/
theorem setAF_frame (a f : Byte) (s : State) :
    Frame { regs := [.a], f := true } s { s with main := { s.main with a := a, f := f } } :=
  main_frame (fun r hr => by cases r <;> first | rfl | simp at hr) (fun e => by simp at e)

/-! ### Loads -/

theorem loadByte_spec {i : Instr} {n k : Nat} (h : HasShape i n k) (dst : Loc8) (src : Src8) (s : State) :
    ∃ t, loadByte dst src n k s = .next t ∧
      Retires i (effectOf8 dst) (src.readEvents s ++ dst.writeEvents (src.read s) s) s t ∧
      Holds8 dst (src.read s) s t := by
  have hr : Retires i (effectOf8 dst) (src.readEvents s ++ dst.writeEvents (src.read s) s) s
      (dst.write (src.read (advance n k s)) (src.readDone (advance n k s))) := by
    refine retires_of h ?_ (by simp [replay_append]) ?_ (by simp) (by simp) (by simp)
    · rw [readDoneSrc_eq]; exact (didAll_frame _ _ _).trans (write8_frame dst _ _)
    · exact (answered_append _ _ _).mpr ⟨answered_readSrc _ _, answered_write8 _ _ _ _⟩
  refine ⟨_, rfl, hr, ?_⟩
  refine holds8_of_write (u := advance n k s) (fun _ => by simp) ?_ ?_ hr.bus hr.frame.params
  · rintro r rfl; simp [Loc8.write]
  · intro j; simp only [advance_readSrc, readDoneSrc_eq]; cases dst <;> simp [Loc8.write, State.setHalf]
    rename_i j' h'; cases h' <;> simp

theorem loadWord_spec {i : Instr} {n k : Nat} (h : HasShape i n k) (dst : Loc16) (nn : Word) (s : State) :
    ∃ t, loadWord dst nn n k s = .next t ∧ Retires i (effectOf16 dst) [] s t ∧ dst.read t = nn :=
  ⟨_, rfl, retires_of h (write16_frame _ _ _) (by simp) trivial (by simp) (by simp) (by simp), by simp⟩

theorem loadWordAt_spec {i : Instr} {n k : Nat} (h : HasShape i n k) (dst : Loc16) (nn : Word) (s : State) :
    ∃ t, loadWordAt dst nn n k s = .next t ∧
      Retires i (effectOf16 dst) (wordReads (highFirst s) nn (loRead s nn) (hiRead s nn)) s t ∧
      dst.read t = wordOf (hiRead s nn) (loRead s nn) := by
  refine ⟨_, rfl, retires_of h ?_ (by simp) (answered_wordReads s nn) (by simp) (by simp) (by simp), by simp⟩
  rw [memReadWordDone_eq]; exact (didAll_frame _ _ _).trans (write16_frame _ _ _)

theorem loadSp_spec {i : Instr} {n k : Nat} (h : HasShape i n k) (src : Loc16) (s : State) :
    ∃ t, loadSp src n k s = .next t ∧ Retires i { sp := true } [] s t ∧ t.sp = src.read s :=
  ⟨_, rfl, retires_of h (write16_frame .sp _ _) (by simp) trivial (by simp) (by simp) (by simp),
    advance_read16 n k s src⟩

theorem storeWordAt_spec {i : Instr} {n k : Nat} (h : HasShape i n k) (nn : Word) (src : Loc16) (s : State) :
    ∃ t, storeWordAt nn src n k s = .next t ∧ Retires i {} (wordWrites (highFirst s) nn (src.read s)) s t := by
  refine ⟨_, rfl, retires_of h ?_ (by simp) (answered_wordWrites _ _ _ _) (by simp) (by simp) (by simp)⟩
  rw [memWriteWord_eq]; exact didAll_frame _ _ _

theorem pushWord_spec {i : Instr} {n k : Nat} (h : HasShape i n k) (src : Loc16) (s : State) :
    ∃ t, pushWord src n k s = .next t ∧
      Retires i { sp := true } (wordWrites (highFirst s) (s.sp - 2) (src.read s)) s t ∧ t.sp = s.sp - 2 :=
  ⟨_, rfl, retires_of h (push16_frame _ _) (by simp) (answered_wordWrites _ _ _ _) (by simp) (by simp) (by simp),
    by simp⟩

theorem popWord_spec {i : Instr} {n k : Nat} (h : HasShape i n k) (dst : Loc16) (hd : dst ≠ .sp) (s : State) :
    ∃ t, popWord dst n k s = .next t ∧
      Retires i { effectOf16 dst with sp := true } (wordReads (highFirst s) s.sp (loRead s s.sp) (hiRead s s.sp)) s t ∧
      t.sp = s.sp + 2 ∧ dst.read t = wordOf (hiRead s s.sp) (loRead s s.sp) := by
  refine ⟨_, rfl, retires_of h ?_ (by simp) (answered_wordReads s s.sp) (by simp) (by simp) (by simp), ?_, ?_⟩
  · refine ((popped_frame _).mono ?_).trans ((write16_frame dst _ _).mono ?_) <;> constructor <;> simp
  · rcases dst with _ | _ | _ | _ | _ | j
    case sp => exact absurd rfl hd
    case idx => cases j <;> simp [Loc16.write, State.setIdx]
    all_goals simp [Loc16.write]
  · simp

theorem exchangeTop_spec {i : Instr} {n k : Nat} (h : HasShape i n k) (l : Loc16) (s : State) :
    ∃ t high, OrderAllowed s high ∧ exchangeTop l n k s = .next t ∧
      Retires i (effectOf16 l)
        (wordReads (highFirst s) s.sp (loRead s s.sp) (hiRead s s.sp) ++ wordWrites high s.sp (l.read s)) s t ∧
      l.read t = wordOf (hiRead s s.sp) (loRead s s.sp) := by
  refine ⟨_, highFirst (memReadWordDone s.sp (advance n k s)), orderAllowed_congr (orderAllowed_highFirst _) (by simp), rfl,
    retires_of h ?_ (by simp [replay_append]) ?_ (by simp) (by simp) (by simp), by simp⟩
  · simp only [memReadWordDone_eq, memWriteWord_eq]
    exact ((didAll_frame _ _ _).trans (didAll_frame _ _ _)).trans (write16_frame l _ _)
  · exact (answered_append _ _ _).mpr ⟨answered_wordReads s s.sp, answered_wordWrites _ _ _ _⟩

theorem swapDeHl_spec {i : Instr} {n : Nat} (h : HasShape i n 1) (s : State) :
    ∃ t, exchange swapDeHl n s = .next t ∧ Retires i { regs := [.d, .e, .h, .l] } [] s t ∧ t.de = s.hl ∧ t.hl = s.de := by
  refine ⟨_, rfl, retires_of h (main_frame (fun r hr => ?_) (fun _ => rfl)) (by simp [swapDeHl]) trivial rfl rfl rfl, ?_, ?_⟩
  · cases r <;> first | rfl | simp at hr
  · simp [swapDeHl, State.de, State.hl, Loc16.read]
  · simp [swapDeHl, State.de, State.hl, Loc16.read]

theorem swapAf_spec {i : Instr} {n : Nat} (h : HasShape i n 1) (s : State) :
    ∃ t, exchange swapAf n s = .next t ∧ Retires i { regs := [.a], f := true, alt := true } [] s t ∧
      t.main.a = s.alt.a ∧ t.main.f = s.alt.f ∧ t.alt = { s.alt with a := s.main.a, f := s.main.f } := by
  refine ⟨_, rfl, retires_of h ?_ (by simp [swapAf]) trivial rfl rfl rfl, by simp [swapAf], by simp [swapAf],
    by simp [swapAf]⟩
  exact { Frame.refl _ (advance n 1 s) with
    regs := fun r hr => by cases r <;> first | rfl | simp at hr
    f := nofun
    alt := nofun }

theorem swapExx_spec {i : Instr} {n : Nat} (h : HasShape i n 1) (s : State) :
    ∃ t, exchange swapExx n s = .next t ∧ Retires i { regs := [.b, .c, .d, .e, .h, .l], alt := true } [] s t ∧
      t.main = { s.alt with a := s.main.a, f := s.main.f } ∧ t.alt = { s.main with a := s.alt.a, f := s.alt.f } := by
  refine ⟨_, rfl, retires_of h ?_ (by simp [swapExx]) trivial rfl rfl rfl, by simp [swapExx], by simp [swapExx]⟩
  exact { Frame.refl _ (advance n 1 s) with
    regs := fun r hr => by cases r <;> first | rfl | simp at hr
    f := fun _ => rfl
    alt := nofun }

/-! ### Arithmetic and logic -/

theorem aluOnA_spec {i : Instr} {n k : Nat} (h : HasShape i n k) (op : AluOp) (src : Src8) (s : State) :
    ∃ t, aluOnA op src n k s = .next t ∧ Retires i { regs := [.a], f := true } (src.readEvents s) s t ∧
      t.main.a = (alu op s.main.a (src.read s) s.main.f).1 ∧ t.main.f = (alu op s.main.a (src.read s) s.main.f).2 := by
  refine ⟨_, rfl, retires_of h ?_ (by simp) (answered_readSrc _ _) (by simp) (by simp) (by simp), by simp, by simp⟩
  exact (by rw [readDoneSrc_eq]; exact didAll_frame _ _ _ : Frame _ (advance n k s) (src.readDone (advance n k s))).trans
    (setAF_frame _ _ _)

/-- A compare leaves A alone. -/
theorem compare_spec {i : Instr} {n k : Nat} (h : HasShape i n k) (src : Src8) (s : State) :
    ∃ t, aluOnA .cp src n k s = .next t ∧ Retires i { f := true } (src.readEvents s) s t ∧
      t.main.f = cp8 s.main.a (src.read s) := by
  obtain ⟨t, e, hr, ha, hf⟩ := aluOnA_spec h .cp src s
  refine ⟨t, e, { hr with frame := { hr.frame with regs := fun r _ => ?_ } }, hf⟩
  cases r
  case a => exact ha
  all_goals exact hr.frame.regs _ (by simp)

/-- Read, change, write: the operand and its copy hold the result, F the flags. -/
theorem modify_spec {i : Instr} {n k : Nat} (h : HasShape i n k) (g : Byte → Byte → Byte × Byte) (l : Loc8)
    (copy : Option Reg8) (s : State) :
    ∃ t, Host.Outcome.next (modifyByte g l copy (advance n k s)) = (.next t : Result) ∧
      Retires i { effectOf8 l with regs := (effectOf8 l).regs ++ copy.toList, f := true }
        (l.readEvents s ++ l.writeEvents (g (l.read s) s.main.f).1 s) s t ∧
      Holds8 l (g (l.read s) s.main.f).1 s t ∧ (∀ q, copy = some q → t.reg q = (g (l.read s) s.main.f).1) ∧
      t.main.f = (g (l.read s) s.main.f).2 := by
  have hr : Retires i { effectOf8 l with regs := (effectOf8 l).regs ++ copy.toList, f := true }
      (l.readEvents s ++ l.writeEvents (g (l.read s) s.main.f).1 s) s (modifyByte g l copy (advance n k s)) := by
    refine retires_of h ?_ (by cases copy <;> simp [modifyByte, replay_append])
      ((answered_append _ _ _).mpr ⟨answered_read8 _ _, answered_write8 _ _ _ _⟩) (by simp) (by simp) (by simp)
    have hw : Frame _ (advance n k s) _ := ((didAll_frame _ (l.readEvents (advance n k s)) (advance n k s)).trans
      (write8_frame l (g (l.read (advance n k s)) (advance n k s).main.f).1 _))
    cases copy <;> simp only [modifyByte, readDone8_eq]
    · refine (hw.mono ?_).trans ((setF_frame _ _).mono ?_) <;> constructor <;> simp
    · refine ((hw.mono ?_).trans ((setReg_frame _ _ _).mono ?_)).trans ((setF_frame _ _).mono ?_) <;>
        constructor <;> simp
  refine ⟨_, rfl, hr, ?_, ?_, ?_⟩
  · refine holds8_of_write (u := advance n k s) (fun _ => by simp) ?_ ?_ hr.bus hr.frame.params
    · rintro r rfl; cases copy <;> simp [modifyByte, Loc8.write]
    · intro j
      rcases l with r | ⟨j', h'⟩ | e
      · cases copy <;> simp [modifyByte, Loc8.write]
      · cases h' <;> cases copy <;> simp [modifyByte, Loc8.write, State.setHalf]
      · cases copy <;> simp [modifyByte, Loc8.write]
  · rintro q rfl; simp [modifyByte]
  · cases copy <;> simp [modifyByte]

theorem changeByte_spec {i : Instr} {n k : Nat} (h : HasShape i n k) (g : Byte → Byte → Byte × Byte) (l : Loc8) (s : State) :
    ∃ t, changeByte g l n k s = .next t ∧
      Retires i { effectOf8 l with f := true } (l.readEvents s ++ l.writeEvents (g (l.read s) s.main.f).1 s) s t ∧
      Holds8 l (g (l.read s) s.main.f).1 s t ∧ t.main.f = (g (l.read s) s.main.f).2 := by
  obtain ⟨t, e, hr, hh, -, hf⟩ := modify_spec h g l none s
  simp only [Option.toList_none, List.append_nil] at hr
  exact ⟨t, e, hr, hh, hf⟩

theorem drawFlags_spec {i : Instr} {n k : Nat} (h : HasShape i n k) (g : Byte → Byte → Byte) (s : State) :
    ∃ t, drawFlags g n k s = .next t ∧ Retires i { f := true } [] s t ∧ t.main.f = g s.main.f s.draw :=
  ⟨_, rfl, retires_of h ((drawn_frame _ _).trans (setF_frame _ _)) (by simp) trivial rfl rfl rfl, by simp⟩

theorem addWord_spec {i : Instr} {n k : Nat} (h : HasShape i n k) (g : Word → Word → Byte → Word × Byte)
    (dst src : Loc16) (hd : dst ≠ .af) (s : State) :
    ∃ t, addWord g dst src n k s = .next t ∧ Retires i { effectOf16 dst with f := true } [] s t ∧
      dst.read t = (g (dst.read s) (src.read s) s.main.f).1 ∧ t.main.f = (g (dst.read s) (src.read s) s.main.f).2 := by
  refine ⟨_, rfl, retires_of h (((write16_frame dst _ _).mono ?_).trans ((setF_frame _ _).mono ?_))
    (by simp) trivial (by simp) (by simp) (by simp), ?_, by simp⟩
  · constructor <;> simp
  · constructor <;> simp
  · simp only [advance_read16, advance_main]
    have e : ∀ (f : Byte) (u : State), dst.read (u.setF f) = dst.read u := by
      intro f u
      rcases dst with _ | _ | _ | _ | _ | j
      case af => exact absurd rfl hd
      all_goals rfl
    rw [e, write16_read]

theorem changeWord_spec {i : Instr} {n k : Nat} (h : HasShape i n k) (g : Word → Word) (l : Loc16) (s : State) :
    ∃ t, changeWord g l n k s = .next t ∧ Retires i (effectOf16 l) [] s t ∧ l.read t = g (l.read s) :=
  ⟨_, rfl, retires_of h (write16_frame _ _ _) (by simp) trivial (by simp) (by simp) (by simp), by simp⟩

/-! ### Rotates and bits -/

theorem rotateA_spec {i : Instr} {n k : Nat} (h : HasShape i n k) (op : RotOp) (s : State) :
    ∃ t, rotateA op n k s = .next t ∧ Retires i { regs := [.a], f := true } [] s t ∧
      t.main.a = (rotA op s.main.a s.main.f).1 ∧ t.main.f = (rotA op s.main.a s.main.f).2 := by
  obtain ⟨t, e, hr, hh, -, hf⟩ := modify_spec h (rotA op) (.reg .a) none s
  exact ⟨t, e, hr, hh, hf⟩

theorem rotateByte_spec {i : Instr} {n k : Nat} (h : HasShape i n k) (op : RotOp) (l : Loc8) (copy : Option Reg8) (s : State) :
    ∃ t, rotateByte op l copy n k s = .next t ∧
      Retires i { effectOf8 l with regs := (effectOf8 l).regs ++ copy.toList, f := true }
        (l.readEvents s ++ l.writeEvents (rotCb op (l.read s) s.main.f).1 s) s t ∧
      Holds8 l (rotCb op (l.read s) s.main.f).1 s t ∧ (∀ q, copy = some q → t.reg q = (rotCb op (l.read s) s.main.f).1) ∧
      t.main.f = (rotCb op (l.read s) s.main.f).2 := modify_spec h (rotCb op) l copy s

theorem rotateDigits_spec {i : Instr} {n k : Nat} (h : HasShape i n k) (g : Byte → Byte → Byte × Byte) (s : State) :
    ∃ t, rotateDigits g n k s = .next t ∧
      Retires i { regs := [.a], f := true }
        [.memRead s.hl (memRead s s.hl), .memWrite s.hl (g s.main.a (memRead s s.hl)).2] s t ∧
      t.main.a = (g s.main.a (memRead s s.hl)).1 ∧ t.main.f = inFlags t.main.a (parity8 t.main.a) s.main.f := by
  refine ⟨_, rfl, retires_of h ?_ ?_ ⟨rfl, trivial, trivial⟩ (by simp) (by simp) (by simp), by simp, by simp⟩
  · simp only [memReadDone_eq, memWrite_eq]
    exact ((didAll_frame _ _ _).trans (didAll_frame _ _ _)).trans (setAF_frame _ _ _)
  · simp [replay_cons]

theorem testBit_spec {i : Instr} {n k : Nat} (h : HasShape i n k) (b : BitVec 3) (l : Loc8) (xy : XySource) (s : State) :
    ∃ t, testBit b l xy n k s = .next t ∧ Retires i { f := true } (l.readEvents s) s t ∧
      t.main.f = bitFlags b (l.read s)
        (match xy with | .operand => l.read s | .address e => hiByte (e.addr s) | .free => s.draw) s.main.f := by
  have hd : Frame { f := true } (advance n k s) (l.readDone (advance n k s)) := by
    rw [readDone8_eq]; exact didAll_frame _ _ _
  cases xy with
  | operand =>
    exact ⟨_, rfl, retires_of h (hd.trans (setF_frame _ _)) (by simp) (answered_read8 _ _) (by simp) (by simp) (by simp),
      by simp⟩
  | address e =>
    exact ⟨_, rfl, retires_of h (hd.trans (setF_frame _ _)) (by simp) (answered_read8 _ _) (by simp) (by simp) (by simp),
      by simp⟩
  | free =>
    exact ⟨_, rfl, retires_of h ((hd.trans (drawn_frame _ _)).trans (setF_frame _ _)) (by simp) (answered_read8 _ _)
      (by simp) (by simp) (by simp), by simp [State.draw]⟩

/-- `SET` and `RES` write no flag. -/
theorem changeBit_spec {i : Instr} {n k : Nat} (h : HasShape i n k) (g : Byte → Byte) (l : Loc8) (copy : Option Reg8) (s : State) :
    ∃ t, changeBit g l copy n k s = .next t ∧
      Retires i { effectOf8 l with regs := (effectOf8 l).regs ++ copy.toList }
        (l.readEvents s ++ l.writeEvents (g (l.read s)) s) s t ∧
      Holds8 l (g (l.read s)) s t ∧ (∀ q, copy = some q → t.reg q = g (l.read s)) := by
  obtain ⟨t, e, hr, hh, hc, hf⟩ := modify_spec h (fun v f => (g v, f)) l copy s
  exact ⟨t, e, { hr with frame := { hr.frame with f := fun _ => hf } }, hh, hc⟩

/-! ### Jumps, calls, returns -/

theorem jumpIf_spec {i : Instr} {n k : Nat} (h : HasShape i n k) (cond : Byte → Bool) (nn : Word) (s : State) :
    ∃ t, jumpIf cond nn n k s = .next t ∧ RetiresAt (if cond s.main.f then nn else nextPc i s) i {} [] s t := by
  have e : cond (advance n k s).main.f = cond s.main.f := by rw [advance_main]
  refine ⟨_, rfl, ?_⟩
  simp only [e, nextPc_eq h]
  by_cases c : cond s.main.f = true <;> simp only [c, if_true, Bool.false_eq_true, if_false]
  · exact retiresAt_of h (setPc_frame _ _ _) (by simp) trivial rfl rfl rfl
  · exact retiresAt_of h (Frame.refl _ _) (by simp) trivial rfl rfl rfl

theorem jumpRelativeIf_spec {i : Instr} {n k : Nat} (h : HasShape i n k) (cond : Byte → Bool) (d : Byte) (s : State) :
    ∃ t, jumpRelativeIf cond d n k s = .next t ∧
      RetiresAt (if cond s.main.f then s.pc + BitVec.ofNat 16 n + d.signExtend 16 else nextPc i s) i {} [] s t := by
  have e : cond (advance n k s).main.f = cond s.main.f := by rw [advance_main]
  refine ⟨_, rfl, ?_⟩
  simp only [e, nextPc_eq h]
  by_cases c : cond s.main.f = true <;> simp only [c, if_true, Bool.false_eq_true, if_false]
  · exact retiresAt_of h (setPc_frame _ _ _) (by simp) trivial rfl rfl rfl
  · exact retiresAt_of h (Frame.refl _ _) (by simp) trivial rfl rfl rfl

theorem jumpTo_spec {i : Instr} {n k : Nat} (h : HasShape i n k) (l : Loc16) (s : State) :
    ∃ t, jumpTo l n k s = .next t ∧ RetiresAt (l.read s) i {} [] s t :=
  ⟨_, rfl, retiresAt_of h (setPc_frame _ _ _) (by simp) trivial (advance_read16 n k s l) rfl rfl⟩

theorem decrementAndJump_spec {i : Instr} {n k : Nat} (h : HasShape i n k) (e : Byte) (s : State) :
    ∃ t, decrementAndJump e n k s = .next t ∧ t.main.b = s.main.b - 1 ∧
      RetiresAt (if s.main.b = 1 then nextPc i s else s.pc + BitVec.ofNat 16 n + e.signExtend 16) i
        { regs := [.b] } [] s t := by
  have hb : (s.main.b - 1 = 0) ↔ (s.main.b = 1) := by
    constructor <;> intro hb <;> bv_omega
  have hs : (State.setReg (advance n k s) .b ((advance n k s).main.b - 1)).main.b = s.main.b - 1 := by
    rw [advance_main]; rfl
  refine ⟨_, rfl, ?_⟩
  simp only [hs, hb, nextPc_eq h]
  by_cases c : s.main.b = 1 <;> simp only [c, if_true, if_false]
  · exact ⟨hs.trans (by rw [c]), retiresAt_of h (setReg_frame _ _ _) (by simp) trivial rfl rfl rfl⟩
  · exact ⟨hs, retiresAt_of h ((setReg_frame _ _ _).trans (setPc_frame _ _ _)) (by simp) trivial rfl rfl rfl⟩

theorem callIf_spec {i : Instr} {n k : Nat} (h : HasShape i n k) (cond : Byte → Bool) (target : Word) (s : State) :
    ∃ t, callIf cond target n k s = .next t ∧
      (cond s.main.f = true → t.sp = s.sp - 2 ∧
        RetiresAt target i { sp := true } (wordWrites (highFirst s) (s.sp - 2) (nextPc i s)) s t) ∧
      (cond s.main.f = false → RetiresAt (nextPc i s) i {} [] s t) := by
  have e : cond (advance n k s).main.f = cond s.main.f := by rw [advance_main]
  refine ⟨_, rfl, ?_⟩
  simp only [e, nextPc_eq h]
  by_cases c : cond s.main.f = true <;>
    simp only [c, if_true, Bool.false_eq_true, if_false, true_implies, reduceCtorEq, false_implies, and_true, true_and]
  · exact ⟨by simp, retiresAt_of h ((push16_frame _ _).trans (setPc_frame _ target _)) (by simp)
      (answered_wordWrites _ _ _ _) rfl (by simp) (by simp)⟩
  · exact retiresAt_of h (Frame.refl _ _) (by simp) trivial rfl rfl rfl

theorem returnIf_spec {i : Instr} {n k : Nat} (h : HasShape i n k) (cond : Byte → Bool) (s : State) :
    ∃ t, returnIf cond n k s = .next t ∧
      (cond s.main.f = true → t.sp = s.sp + 2 ∧
        RetiresAt (wordOf (hiRead s s.sp) (loRead s s.sp)) i { sp := true }
          (wordReads (highFirst s) s.sp (loRead s s.sp) (hiRead s s.sp)) s t) ∧
      (cond s.main.f = false → RetiresAt (nextPc i s) i {} [] s t) := by
  have e : cond (advance n k s).main.f = cond s.main.f := by rw [advance_main]
  refine ⟨_, rfl, ?_⟩
  simp only [e, nextPc_eq h]
  by_cases c : cond s.main.f = true <;>
    simp only [c, if_true, Bool.false_eq_true, if_false, true_implies, reduceCtorEq, false_implies, and_true, true_and]
  · exact ⟨by simp, retiresAt_of h ((popped_frame _).trans (setPc_frame _ (topWord (advance n k s)) _)) (by simp)
      (answered_wordReads _ _) (by simp) (by simp) (by simp)⟩
  · exact retiresAt_of h (Frame.refl _ _) (by simp) trivial rfl rfl rfl

theorem interruptReturn_spec {i : Instr} {n k : Nat} (h : HasShape i n k) (s : State) :
    ∃ t, interruptReturn n k s = .next t ∧ t.sp = s.sp + 2 ∧ t.iff1 = s.iff2 ∧
      RetiresAt (wordOf (hiRead s s.sp) (loRead s s.sp)) i { sp := true, iff1 := true }
        (wordReads (highFirst s) s.sp (loRead s s.sp) (hiRead s s.sp)) s t := by
  have hf : Frame { sp := true, iff1 := true } (advance n k s) (returnFromInterrupt (advance n k s)) := by
    have : Frame { sp := true, iff1 := true } (advance n k s) (popped (advance n k s)) :=
      (popped_frame (advance n k s)).mono (by constructor <;> simp)
    exact { this with iff1 := fun e => by simp at e }
  exact ⟨_, rfl, by simp [returnFromInterrupt], by simp [returnFromInterrupt],
    retiresAt_of h hf (by simp [returnFromInterrupt]) (answered_wordReads _ _) (by simp [returnFromInterrupt])
      (by simp [returnFromInterrupt]) (by simp [returnFromInterrupt])⟩

/-! ### Input and output -/

theorem inputToA_spec {i : Instr} {n k : Nat} (h : HasShape i n k) (p : Byte) (s : State) :
    ∃ t, inputToA p n k s = .next t ∧
      Retires i { regs := [.a] } [.portRead (wordOf s.main.a p) (portAnswer s (wordOf s.main.a p))] s t ∧
        t.main.a = portAnswer s (wordOf s.main.a p) := by
  refine ⟨_, rfl, retires_of h ?_ (by simp) ⟨rfl, trivial⟩ (by simp) (by simp) (by simp), by simp [State.setReg]⟩
  exact (did_frame _ _ _).trans (setReg_frame .a _ _)

theorem inputFromC_spec {i : Instr} {n k : Nat} (h : HasShape i n k) (dst : Option Reg8) (s : State) :
    ∃ t, inputFromC dst n k s = .next t ∧
      Retires i { regs := dst.toList, f := true } [.portRead s.bc (portAnswer s s.bc)] s t ∧
      (∀ r, dst = some r → t.reg r = portAnswer s s.bc) ∧
      t.main.f = inFlags (portAnswer s s.bc) (parity8 (portAnswer s s.bc)) s.main.f := by
  cases dst with
  | none =>
    refine ⟨_, rfl, retires_of h ?_ (by simp) ⟨rfl, trivial⟩ (by simp) (by simp) (by simp), nofun, by simp⟩
    exact (did_frame _ _ _).trans (setF_frame _ _)
  | some r =>
    refine ⟨_, rfl, retires_of h ?_ (by simp) ⟨rfl, trivial⟩ (by simp) (by simp) (by simp), ?_, by simp⟩
    · refine ((did_frame _ _ _).trans ((setReg_frame r _ _).mono ?_)).trans ((setF_frame _ _).mono ?_) <;>
        constructor <;> simp
    · rintro _ ⟨⟩; simp

theorem outputA_spec {i : Instr} {n k : Nat} (h : HasShape i n k) (p : Byte) (s : State) :
    ∃ t, outputA p n k s = .next t ∧ Retires i {} [.portWrite (wordOf s.main.a p) s.main.a] s t :=
  ⟨_, rfl, retires_of h (did_frame _ _ _) (by simp) ⟨trivial, trivial⟩ rfl rfl rfl⟩

theorem outputToC_spec {i : Instr} {n k : Nat} (h : HasShape i n k) (v : State → Byte) (s : State)
    (hv : v (advance n k s) = v s) :
    ∃ t, outputToC v n k s = .next t ∧ Retires i {} [.portWrite s.bc (v s)] s t :=
  ⟨_, rfl, retires_of h (did_frame _ _ _) (by simp [hv]) ⟨trivial, trivial⟩ rfl rfl rfl⟩

/-! ### CPU control -/

theorem noOperation_spec {i : Instr} {n k : Nat} (h : HasShape i n k) (s : State) :
    ∃ t, noOperation n k s = .next t ∧ Retires i {} [] s t :=
  ⟨_, rfl, retires_of h (Frame.refl _ _) (by simp) trivial rfl rfl rfl⟩

theorem enterHalt_spec {i : Instr} (h : HasShape i 1 1) (s : State) :
    ∃ t, enterHalt s = .next t ∧ t.halted = true ∧ RetiresAt s.pc i { halted := true } [] s t :=
  ⟨_, rfl, rfl, retiresAt_of h { Frame.refl _ (advance 1 1 s) with halted := nofun } (by simp) trivial rfl rfl rfl⟩

theorem disableInterrupts_spec {i : Instr} (h : HasShape i 1 1) (s : State) :
    ∃ t, disableInterrupts s = .next t ∧ Retires i { iff1 := true, iff2 := true } [] s t ∧ t.iff1 = false ∧
      t.iff2 = false :=
  ⟨_, rfl, retires_of h { Frame.refl _ (advance 1 1 s) with iff1 := nofun, iff2 := nofun } (by simp) trivial rfl rfl rfl,
    rfl, rfl⟩

theorem enableInterrupts_spec (s : State) :
    ∃ t, enableInterrupts s = .next t ∧ t.iff1 = true ∧ t.iff2 = true ∧ t.inhibit = true ∧ t.pc = s.pc + 1 ∧
      Counted 1 s t ∧ Transacts [] s t ∧ Frame { iff1 := true, iff2 := true } s t :=
  ⟨_, rfl, rfl, rfl, rfl, rfl, counted_of_eq (advance_counted 1 1 s) rfl, Transacts.refl (by simp) (by simp),
    (advance_frame _ _ _ _).trans { Frame.refl _ (advance 1 1 s) with iff1 := nofun, iff2 := nofun }⟩

theorem setMode_spec {i : Instr} (h : HasShape i 2 2) (m : IntMode) (s : State) :
    ∃ t, setMode m s = .next t ∧ Retires i { im := true } [] s t ∧ t.im = m :=
  ⟨_, rfl, retires_of h { Frame.refl _ (advance 2 2 s) with im := nofun } (by simp) trivial rfl rfl rfl, rfl⟩

theorem loadIFromA_spec {i : Instr} (h : HasShape i 2 2) (s : State) :
    ∃ t, loadIFromA s = .next t ∧ Retires i { i := true } [] s t ∧ t.i = s.main.a :=
  ⟨_, rfl, retires_of h { Frame.refl _ (advance 2 2 s) with i := nofun } (by simp) trivial rfl rfl rfl, by simp⟩

/-- `LD R,A` frames everything but R. -/
theorem loadRFromA_spec (s : State) :
    ∃ t, loadRFromA s = .next t ∧ t.r = s.main.a ∧ t.pc = s.pc + 2 ∧ t.inhibit = false ∧ Transacts [] s t ∧
      Frame {} s t := by
  refine ⟨_, rfl, by simp, rfl, rfl, Transacts.refl (by simp) (by simp), (advance_frame {} 2 2 s).trans ?_⟩
  apply frame_of_fields <;> rfl

theorem loadAFromI_spec {i : Instr} (h : HasShape i 2 2) (s : State) :
    ∃ t, loadAFromI s = .next t ∧ Retires i { regs := [.a], f := true } [] s t ∧ t.main.a = s.i ∧
      t.main.f = inFlags s.i s.iff2 s.main.f :=
  ⟨_, rfl, retires_of h (setAF_frame _ _ _) (by simp [State.setAWithIff2]) trivial rfl rfl rfl,
    by simp [State.setAWithIff2], by simp [State.setAWithIff2]⟩

theorem loadAFromR_spec {i : Instr} (h : HasShape i 2 2) (s : State) :
    ∃ t, loadAFromR s = .next t ∧ Retires i { regs := [.a], f := true } [] s t ∧
      (s.params.rModel = .counted → t.main.a = t.r) ∧ t.main.f = inFlags t.main.a s.iff2 s.main.f := by
  unfold loadAFromR
  simp only [advance_params]
  cases s.params.rModel
  · exact ⟨_, rfl, retires_of h (setAF_frame _ _ _) (by simp [State.setAWithIff2]) trivial rfl rfl rfl, fun _ => rfl,
      by simp [State.setAWithIff2]⟩
  · exact ⟨_, rfl, retires_of h ((drawn_frame _ _).trans (setAF_frame _ _ _)) (by simp [State.setAWithIff2]) trivial
      rfl rfl rfl, nofun, by simp [State.setAWithIff2]⟩

/-- An `ED` hole under each policy. -/
theorem edHole_spec {i : Instr} (h : HasShape i 2 2) (op : Byte) (s : State) :
    (s.params.edHolePolicy = .strict ∧ edHole op s = .fault (.illegalOpcode s.pc 0xED op s.bus)) ∨
      (s.params.edHolePolicy = .nop ∧ ∃ t, edHole op s = .next t ∧ Retires i {} [] s t) := by
  unfold edHole
  cases s.params.edHolePolicy
  · exact .inr ⟨rfl, noOperation_spec h s⟩
  · exact .inl ⟨rfl, rfl⟩

/-- A superseded or ignored prefix. -/
theorem consumeByte_spec (s : State) :
    ∃ t, consumeByte s = .next t ∧ t.pc = s.pc + 1 ∧ t.inhibit = s.inhibit ∧ Counted 1 s t ∧ Transacts [] s t ∧
      Frame {} s t := by
  refine ⟨_, rfl, rfl, by simp, counted_of_eq (countM1_counted 1 s) rfl, Transacts.refl (by simp) (by simp), ?_⟩
  apply frame_of_fields <;> simp

end Sys2Proof.Machine
end

