-- ==== Sys2Proof/Laws/Blocks.lean ====
section
/-! SUPPORT. What one pass of each block instruction does, and what a repeating form adds to it. -/

namespace Sys2Proof.Machine

open Sys2Proof

/-! ### What a frame says of the pairs -/

theorem frame_bc {w : Effect} {s t : State} (h : Frame w s t) (hb : Reg8.b ∉ w.regs) (hc : Reg8.c ∉ w.regs) :
    t.bc = s.bc := by
  have e1 := h.regs .b hb
  have e2 := h.regs .c hc
  simp only [State.reg] at e1 e2
  simp only [State.bc, Loc16.read, e1, e2]

theorem frame_de {w : Effect} {s t : State} (h : Frame w s t) (hb : Reg8.d ∉ w.regs) (hc : Reg8.e ∉ w.regs) :
    t.de = s.de := by
  have e1 := h.regs .d hb
  have e2 := h.regs .e hc
  simp only [State.reg] at e1 e2
  simp only [State.de, Loc16.read, e1, e2]

theorem frame_hl {w : Effect} {s t : State} (h : Frame w s t) (hb : Reg8.h ∉ w.regs) (hc : Reg8.l ∉ w.regs) :
    t.hl = s.hl := by
  have e1 := h.regs .h hb
  have e2 := h.regs .l hc
  simp only [State.reg] at e1 e2
  simp only [State.hl, Loc16.read, e1, e2]

/-! ### Flags but Y and X -/

theorem withYX_pack (b : FlagBits) (v : Byte) : withYX b.pack v = { b with y := flagY v, x := flagX v }.pack := by
  obtain ⟨s, z, y, h, x, pv, n, c⟩ := b
  have := pack_flags ⟨s, z, y, h, x, pv, n, c⟩
  simp only [withYX, FlagBits.unpack, this.s, this.z, this.h, this.pv, this.n, this.c]

/-- `withYX` keeps the other six flags. -/
theorem withYX_flags (f v : Byte) : FlagsAre (withYX f v) { FlagBits.unpack f with y := flagY v, x := flagX v } :=
  pack_flags _

theorem flagsButYX_withYX {f v : Byte} {b : FlagBits} (h : FlagsButYXAre f b) : FlagsButYXAre (withYX f v) b := by
  have k := withYX_flags f v
  exact ⟨k.s.trans h.s, k.z.trans h.z, k.h.trans h.h, k.pv.trans h.pv, k.n.trans h.n, k.c.trans h.c⟩

theorem flagsButYX_of_flags {f : Byte} {b : FlagBits} (h : FlagsAre f b) : FlagsButYXAre f b :=
  ⟨h.s, h.z, h.h, h.pv, h.n, h.c⟩

/-! ### A pass and its repetition -/

/-- A pass: it writes within `w`, makes the transactions `es`, and leaves PC, R and `inhibit`. -/
structure IsPass (w : Effect) (es : List BusEvent) (s u : State) : Prop where
  frame : Frame w s u
  bus : u.bus = s.bus.replay es
  answered : Answered es s
  pc : u.pc = s.pc
  r : u.r = s.r
  inhibit : u.inhibit = s.inhibit

theorem advance_answered {n k : Nat} {s : State} {es : List BusEvent} (h : Answered es (advance n k s)) :
    Answered es s := (answered_congr (by simp) (by simp) es).mp h

/-- A pass that does not repeat. -/
theorem singlePass_spec {i : Instr} (h : HasShape i 2 2) {w : Effect} {es : List BusEvent} (pass : State → State) (s : State)
    (hp : IsPass w es (advance 2 2 s) (pass (advance 2 2 s))) :
    ∃ t, singlePass pass s = .next t ∧ t = pass (advance 2 2 s) ∧ RetiresAt (s.pc + 2) i w es s t :=
  ⟨_, rfl, rfl, retiresAt_of h hp.frame (by simpa using hp.bus) (advance_answered hp.answered) hp.pc hp.r hp.inhibit⟩

theorem rewind_frame (s : State) : Frame { f := true } s (rewind s) := by
  unfold rewind
  split
  · exact setPc_frame _ _ _
  · exact ((drawn_frame _ _).trans (setF_frame _ _)).trans (setPc_frame _ _ _)

@[simp] theorem rewind_pc (s : State) : (rewind s).pc = s.pc - 2 := by unfold rewind; split <;> rfl
@[simp] theorem rewind_r (s : State) : (rewind s).r = s.r := by unfold rewind; split <;> rfl
@[simp] theorem rewind_inhibit (s : State) : (rewind s).inhibit = s.inhibit := by unfold rewind; split <;> rfl
@[simp] theorem rewind_bus (s : State) : (rewind s).bus = s.bus := by unfold rewind; split <;> rfl

theorem rewind_flags {s : State} {b : FlagBits} (h : FlagsButYXAre s.main.f b) : FlagsButYXAre (rewind s).main.f b := by
  unfold rewind
  split
  · exact h
  · exact flagsButYX_withYX h

theorem rewind_singlePass {s : State} (h : s.params.repeatPassFlags = .singlePass) : (rewind s).main.f = s.main.f := by
  unfold rewind
  rw [h]

/-- A pass of a repeating form: the pass, then PC back at the `ED` byte while `again` holds, and at most Y and X of F
changed by that (R566). -/
theorem repeatPass_spec {i : Instr} (h : HasShape i 2 2) {w : Effect} {es : List BusEvent} (hw : w.f = true)
    (again : State → Bool) (pass : State → State) (s : State) (hp : IsPass w es (advance 2 2 s) (pass (advance 2 2 s))) :
    ∃ t, repeatPass again pass s = .next t ∧
      RetiresAt (if again (pass (advance 2 2 s)) then s.pc else s.pc + 2) i w es s t ∧
      Frame { f := true } (pass (advance 2 2 s)) t ∧
      (∀ b, FlagsButYXAre (pass (advance 2 2 s)).main.f b → FlagsButYXAre t.main.f b) ∧
      ((again (pass (advance 2 2 s)) = false ∨ s.params.repeatPassFlags = .singlePass) →
        t.main.f = (pass (advance 2 2 s)).main.f) := by
  refine ⟨_, rfl, ?_⟩
  have hpar : (pass (advance 2 2 s)).params = s.params := by rw [hp.frame.params, advance_params]
  cases c : again (pass (advance 2 2 s)) <;> simp only [if_true, Bool.false_eq_true, if_false]
  · exact ⟨retiresAt_of h hp.frame (by simpa using hp.bus) (advance_answered hp.answered) hp.pc hp.r hp.inhibit,
      Frame.refl _ _, fun _ k => k, by simp⟩
  · have hr : Frame w (pass (advance 2 2 s)) (rewind (pass (advance 2 2 s))) :=
      (rewind_frame _).mono (by constructor <;> simp [hw])
    have hpc : (advance 2 2 s).pc - 2 = s.pc := by
      rw [advance_pc]; show s.pc + 2#16 - 2#16 = s.pc; bv_omega
    refine ⟨retiresAt_of h (hp.frame.trans hr) (by rw [rewind_bus, hp.bus, advance_bus]) (advance_answered hp.answered)
      (by rw [rewind_pc, hp.pc, hpc]) (by rw [rewind_r, hp.r]) (by rw [rewind_inhibit, hp.inhibit, advance_inhibit]),
      rewind_frame _, fun _ k => rewind_flags k, ?_⟩
    rintro (e | e)
    · exact absurd e (by simp)
    · exact rewind_singlePass (by rw [hpar, e])

/-! ### The passes -/

theorem stepWord_toNat (up : Bool) (w : Word) :
    ((stepWord up w).toNat : Int) = (w.toNat + (if up then 1 else -1)) % 65536 := by
  cases up <;> simp only [stepWord, if_true, Bool.false_eq_true, if_false] <;> bv_omega

theorem blockMove_pass (up : Bool) (s : State) :
    IsPass { regs := [.b, .c, .d, .e, .h, .l], f := true }
        [.memRead s.hl (memRead s s.hl), .memWrite s.de (memRead s s.hl)] s (blockMove up s) ∧
      (blockMove up s).hl = stepWord up s.hl ∧ (blockMove up s).de = stepWord up s.de ∧
      (blockMove up s).bc = s.bc - 1 ∧
      (blockMove up s).main.f = ldxFlags (memRead s s.hl) s.main.a (s.bc - 1) s.main.f := by
  refine ⟨⟨?_, by simp [blockMove, replay_cons], ⟨rfl, trivial, trivial⟩, by simp [blockMove], by simp [blockMove],
    by simp [blockMove]⟩, ?_, ?_, ?_, ?_⟩
  · refine (((((did_frame _ _ s).trans (did_frame _ _ _)).trans ((write16_frame .hl _ _).mono ?_)).trans
      ((write16_frame .de _ _).mono ?_)).trans ((write16_frame .bc _ _).mono ?_)).trans ((setF_frame _ _).mono ?_) <;>
    constructor <;> simp [effectOf16]
  · simp [blockMove, State.hl, Loc16.read, Loc16.write, State.setF]
  · simp [blockMove, State.de, Loc16.read, Loc16.write, State.setF]
  · simp [blockMove, State.bc, Loc16.read, Loc16.write, State.setF]
  · simp [blockMove, State.bc, Loc16.read, Loc16.write, State.setF]

theorem blockCompare_pass (up : Bool) (s : State) :
    IsPass { regs := [.b, .c, .h, .l], f := true } [.memRead s.hl (memRead s s.hl)] s (blockCompare up s) ∧
      (blockCompare up s).hl = stepWord up s.hl ∧ (blockCompare up s).bc = s.bc - 1 ∧
      (blockCompare up s).main.f = cpxFlags s.main.a (memRead s s.hl) (s.bc - 1) s.main.f := by
  refine ⟨⟨?_, by simp [blockCompare], ⟨rfl, trivial⟩, by simp [blockCompare], by simp [blockCompare],
    by simp [blockCompare]⟩, ?_, ?_, ?_⟩
  · refine (((did_frame _ _ s).trans ((write16_frame .hl _ _).mono ?_)).trans ((write16_frame .bc _ _).mono ?_)).trans
      ((setF_frame _ _).mono ?_) <;>
    constructor <;> simp [effectOf16]
  · simp [blockCompare, State.hl, Loc16.read, Loc16.write, State.setF]
  · simp [blockCompare, State.bc, Loc16.read, Loc16.write, State.setF]
  · simp [blockCompare, State.bc, Loc16.read, Loc16.write, State.setF]

theorem blockInput_pass (up : Bool) (s : State) :
    IsPass { regs := [.b, .h, .l], f := true }
        [.portRead s.bc (portAnswer s s.bc), .memWrite s.hl (portAnswer s s.bc)] s (blockInput up s) ∧
      (blockInput up s).hl = stepWord up s.hl ∧ (blockInput up s).main.b = s.main.b - 1 ∧
      (blockInput up s).main.f =
        blkioFlags (portAnswer s s.bc) ((portAnswer s s.bc).toNat + (if up then s.main.c + 1 else s.main.c - 1).toNat)
          (s.main.b - 1) := by
  refine ⟨⟨?_, by simp [blockInput, replay_cons], ⟨rfl, trivial, trivial⟩, by simp [blockInput], by simp [blockInput],
    by simp [blockInput]⟩, ?_, ?_, ?_⟩
  · refine ((((did_frame _ _ s).trans (did_frame _ _ _)).trans ((write16_frame .hl _ _).mono ?_)).trans
      ((setReg_frame .b _ _).mono ?_)).trans ((setF_frame _ _).mono ?_) <;>
    constructor <;> simp [effectOf16]
  · simp [blockInput, State.hl, Loc16.read, Loc16.write, State.setF, State.setReg]
  · simp [blockInput, State.hl, Loc16.read, Loc16.write, State.setF, State.setReg]
  · simp [blockInput, State.hl, Loc16.read, Loc16.write, State.setF, State.setReg]

theorem blockOutput_pass (up : Bool) (s : State) :
    IsPass { regs := [.b, .h, .l], f := true }
        [.memRead s.hl (memRead s s.hl), .portWrite (wordOf (s.main.b - 1) s.main.c) (memRead s s.hl)] s
        (blockOutput up s) ∧
      (blockOutput up s).hl = stepWord up s.hl ∧ (blockOutput up s).main.b = s.main.b - 1 ∧
      (blockOutput up s).main.f =
        blkioFlags (memRead s s.hl) ((memRead s s.hl).toNat + (blockOutput up s).main.l.toNat) (s.main.b - 1) := by
  have hm : ∀ v x, memRead (s.setReg .b v) x = memRead s x := fun _ x => memRead_congr rfl rfl x
  have hh : ∀ v, (s.setReg .b v).hl = s.hl := fun _ => rfl
  have hb : ∀ v, (s.setReg .b v).bc = wordOf v s.main.c := fun _ => rfl
  refine ⟨⟨?_, by simp [blockOutput, replay_cons, hm, hh, hb], ⟨rfl, trivial, trivial⟩, by simp [blockOutput],
    by simp [blockOutput], by simp [blockOutput]⟩, ?_, ?_, ?_⟩
  · refine (((((setReg_frame .b _ s).mono ?_).trans (did_frame _ _ _)).trans (did_frame _ _ _)).trans
      ((write16_frame .hl _ _).mono ?_)).trans ((setF_frame _ _).mono ?_) <;>
    constructor <;> simp [effectOf16]
  · simp [blockOutput, State.hl, Loc16.read, Loc16.write, State.setF, State.setReg]
  · simp [blockOutput, State.hl, Loc16.read, Loc16.write, State.setF, State.setReg]
  · simp only [blockOutput, memReadDone_eq, portWrite_eq, hm]
    simp [State.hl, Loc16.read, Loc16.write, State.setF, State.setReg]

end Sys2Proof.Machine
end

