-- ==== Sys2Proof/Laws/Exec.lean ====
section
/-! SUPPORT. Every meaning as its shared operation with its operands, so that a rule about all instructions is proved
once per shared operation. -/

namespace Sys2Proof.Machine

open Sys2Proof Sys2Proof.Laws

/-- Run a shared operation for an instruction of `n` bytes and `k` M1 fetches. -/
def Op.run (o : Op) (n k : Nat) (s : State) : Result :=
  match o with
  | .loadByte dst src => Machine.loadByte dst src n k s
  | .loadWord dst nn => Machine.loadWord dst nn n k s
  | .loadWordAt dst nn => Machine.loadWordAt dst nn n k s
  | .storeWordAt nn src => Machine.storeWordAt nn src n k s
  | .loadSp src => Machine.loadSp src n k s
  | .pushWord src => Machine.pushWord src n k s
  | .popWord dst => Machine.popWord dst n k s
  | .swapDeHl => exchange Machine.swapDeHl n s
  | .swapAf => exchange Machine.swapAf n s
  | .swapExx => exchange Machine.swapExx n s
  | .exchangeTop l => Machine.exchangeTop l n k s
  | .aluOnA op src => Machine.aluOnA op src n k s
  | .changeByte g l => Machine.changeByte g l n k s
  | .drawFlags g => Machine.drawFlags g n k s
  | .addWord g dst src => Machine.addWord g dst src n k s
  | .changeWord g l => Machine.changeWord g l n k s
  | .rotateA op => Machine.rotateA op n k s
  | .rotateByte op l copy => Machine.rotateByte op l copy n k s
  | .rotateDigits g => Machine.rotateDigits g n k s
  | .testBit b l xy => Machine.testBit b l xy n k s
  | .changeBit g l copy => Machine.changeBit g l copy n k s
  | .jumpIf cond nn => Machine.jumpIf cond nn n k s
  | .jumpRelativeIf cond e => Machine.jumpRelativeIf cond e n k s
  | .jumpTo l => Machine.jumpTo l n k s
  | .decrementAndJump e => Machine.decrementAndJump e n k s
  | .callIf cond target => Machine.callIf cond target n k s
  | .returnIf cond => Machine.returnIf cond n k s
  | .interruptReturn => Machine.interruptReturn n k s
  | .blockMove up again =>
    if again then repeatPass counterLeft (Machine.blockMove up) s else singlePass (Machine.blockMove up) s
  | .blockCompare up again =>
    if again then repeatPass searchGoesOn (Machine.blockCompare up) s else singlePass (Machine.blockCompare up) s
  | .blockInput up again =>
    if again then repeatPass portCounterLeft (Machine.blockInput up) s else singlePass (Machine.blockInput up) s
  | .blockOutput up again =>
    if again then repeatPass portCounterLeft (Machine.blockOutput up) s else singlePass (Machine.blockOutput up) s
  | .inputToA p => Machine.inputToA p n k s
  | .outputA p => Machine.outputA p n k s
  | .inputFromC dst => Machine.inputFromC dst n k s
  | .outputReg r => outputToC (·.reg r) n k s
  | .outputZero => outputToC (fun _ => 0x00) n k s
  | .noOperation => Machine.noOperation n k s
  | .enterHalt => Machine.enterHalt s
  | .disableInterrupts => Machine.disableInterrupts s
  | .enableInterrupts => Machine.enableInterrupts s
  | .setMode m => Machine.setMode m s
  | .loadIFromA => Machine.loadIFromA s
  | .loadRFromA => Machine.loadRFromA s
  | .loadAFromI => Machine.loadAFromI s
  | .loadAFromR => Machine.loadAFromR s
  | .edHole op => Machine.edHole op s
  | .selectTable => Machine.selectTable s
  | .consumeByte => Machine.consumeByte s

/-- Every meaning is its shared operation. -/
theorem exec_eq (i : Instr) (s : State) : exec i s = (opOf i).run (Shape.bytes i) (Shape.fetches i) s := by
  cases i <;> rfl

end Sys2Proof.Machine
end

