-- ==== Sys2Proof/Laws/Rules.lean ====
section
/-! SUPPORT. What every instruction may write, from its shared operation; and that no instruction but `EX AF,AF'` and
`EXX` looks at the shadow set, and none at the interrupt requests. -/

namespace Sys2Proof.Machine

open Sys2Proof Sys2Proof.Laws

/-- What a shared operation may write. -/
def Op.effect (o : Op) : Effect :=
  match o with
  | .loadByte dst _ => effectOf8 dst
  | .loadWord dst _ => effectOf16 dst
  | .loadWordAt dst _ => effectOf16 dst
  | .storeWordAt _ _ => {}
  | .loadSp _ => { sp := true }
  | .pushWord _ => { sp := true }
  | .popWord dst => { effectOf16 dst with sp := true }
  | .swapDeHl => { regs := [.d, .e, .h, .l] }
  | .swapAf => { regs := [.a], f := true, alt := true }
  | .swapExx => { regs := [.b, .c, .d, .e, .h, .l], alt := true }
  | .exchangeTop l => effectOf16 l
  | .aluOnA _ _ => { regs := [.a], f := true }
  | .changeByte _ l => { effectOf8 l with f := true }
  | .drawFlags _ => { f := true }
  | .addWord _ dst _ => { effectOf16 dst with f := true }
  | .changeWord _ l => effectOf16 l
  | .rotateA _ => { regs := [.a], f := true }
  | .rotateByte _ l copy => { effectOf8 l with regs := (effectOf8 l).regs ++ copy.toList, f := true }
  | .rotateDigits _ => { regs := [.a], f := true }
  | .testBit _ _ _ => { f := true }
  | .changeBit _ l copy => { effectOf8 l with regs := (effectOf8 l).regs ++ copy.toList }
  | .jumpIf _ _ => {}
  | .jumpRelativeIf _ _ => {}
  | .jumpTo _ => {}
  | .decrementAndJump _ => { regs := [.b] }
  | .callIf _ _ => { sp := true }
  | .returnIf _ => { sp := true }
  | .interruptReturn => { sp := true, iff1 := true }
  | .blockMove _ _ => { regs := [.b, .c, .d, .e, .h, .l], f := true }
  | .blockCompare _ _ => { regs := [.b, .c, .h, .l], f := true }
  | .blockInput _ _ => { regs := [.b, .h, .l], f := true }
  | .blockOutput _ _ => { regs := [.b, .h, .l], f := true }
  | .inputToA _ => { regs := [.a] }
  | .outputA _ => {}
  | .inputFromC dst => { regs := dst.toList, f := true }
  | .outputReg _ => {}
  | .outputZero => {}
  | .noOperation => {}
  | .enterHalt => { halted := true }
  | .disableInterrupts => { iff1 := true, iff2 := true }
  | .enableInterrupts => { iff1 := true, iff2 := true }
  | .setMode _ => { im := true }
  | .loadIFromA => { i := true }
  | .loadRFromA => {}
  | .loadAFromI => { regs := [.a], f := true }
  | .loadAFromR => { regs := [.a], f := true }
  | .edHole _ => {}
  | .selectTable => {}
  | .consumeByte => {}

/-- The shared operation that leaves `inhibit` set. -/
def Op.isEi : Op → Bool
  | .enableInterrupts => true
  | _ => false

/-- The shared operation that loads R. -/
def Op.isLdR : Op → Bool
  | .loadRFromA => true
  | _ => false

/-- The shared operations that reach the port space. -/
def Op.reachesPorts : Op → Bool
  | .blockInput _ _ => true
  | .blockOutput _ _ => true
  | .inputToA _ => true
  | .outputA _ => true
  | .inputFromC _ => true
  | .outputReg _ => true
  | .outputZero => true
  | _ => false

@[simp] theorem portCount_append (es fs : List BusEvent) : portCount (es ++ fs) = portCount es + portCount fs := by
  simp [portCount]

@[simp] theorem portCount_wordReads (high : Bool) (a : Word) (lo hi : Byte) : portCount (wordReads high a lo hi) = 0 := by
  cases high <;> rfl

@[simp] theorem portCount_wordWrites (high : Bool) (a v : Word) : portCount (wordWrites high a v) = 0 := by
  cases high <;> rfl

@[simp] theorem portCount_read8 (l : Loc8) (s : State) : portCount (l.readEvents s) = 0 := by cases l <;> rfl

@[simp] theorem portCount_write8 (l : Loc8) (v : Byte) (s : State) : portCount (l.writeEvents v s) = 0 := by
  cases l <;> rfl

@[simp] theorem portCount_readSrc (o : Src8) (s : State) : portCount (o.readEvents s) = 0 := by
  cases o
  · exact portCount_read8 _ s
  · rfl

/-- What every instruction keeps to, whatever it computes. -/
structure Obeys (o : Op) (s t : State) : Prop where
  frame : Frame o.effect s t
  inhibit : t.inhibit = o.isEi
  bit7 : o.isLdR = false → t.r.getLsbD 7 = s.r.getLsbD 7
  bus : ∃ es, Transacts es s t ∧ portCount es = if o.reachesPorts then 1 else 0

theorem obeys_of_retires {i : Instr} {o : Op} {w : Effect} {es : List BusEvent} {s t : State} {a : Word}
    (h : RetiresAt a i w es s t) (hw : Within w o.effect) (he : o.isEi = false)
    (hp : portCount es = if o.reachesPorts then 1 else 0) : Obeys o s t :=
  ⟨h.frame.mono hw, by rw [h.inhibit, he], fun _ => h.r.bit7, es, h.bus, hp⟩

/-- Every shared operation but the prefix rows obeys its frame; the two fixed numbers stand for any shape. -/
theorem run_obeys {i : Instr} {n k : Nat} (h : HasShape i n k) (o : Op) (h1 : o ≠ .selectTable) (h2 : o ≠ .consumeByte)
    (hpop : ∀ l, o = .popWord l → l ≠ .sp) (hadd : ∀ g l m, o = .addWord g l m → l ≠ .af)
    (hex : o = .swapDeHl ∨ o = .swapAf ∨ o = .swapExx → k = 1)
    {s t : State} (ht : o.run n k s = .next t) : Obeys o s t := by
  have hi : HasShape .ldi 2 2 := shape rfl
  cases o
  case selectTable => exact absurd rfl h1
  case consumeByte => exact absurd rfl h2
  case loadByte dst src =>
    obtain ⟨u, e, r, -⟩ := loadByte_spec h dst src s
    obtain rfl : u = t := by simpa [Op.run, e] using ht
    exact obeys_of_retires r (Within.refl _) rfl (by simp [Op.reachesPorts])
  case loadWord dst nn =>
    obtain ⟨u, e, r, -⟩ := loadWord_spec h dst nn s
    obtain rfl : u = t := by simpa [Op.run, e] using ht
    exact obeys_of_retires r (Within.refl _) rfl rfl
  case loadWordAt dst nn =>
    obtain ⟨u, e, r, -⟩ := loadWordAt_spec h dst nn s
    obtain rfl : u = t := by simpa [Op.run, e] using ht
    exact obeys_of_retires r (Within.refl _) rfl (by simp [Op.reachesPorts])
  case storeWordAt nn src =>
    obtain ⟨u, e, r⟩ := storeWordAt_spec h nn src s
    obtain rfl : u = t := by simpa [Op.run, e] using ht
    exact obeys_of_retires r (Within.refl _) rfl (by simp [Op.reachesPorts])
  case loadSp src =>
    obtain ⟨u, e, r, -⟩ := loadSp_spec h src s
    obtain rfl : u = t := by simpa [Op.run, e] using ht
    exact obeys_of_retires r (Within.refl _) rfl rfl
  case pushWord src =>
    obtain ⟨u, e, r, -⟩ := pushWord_spec h src s
    obtain rfl : u = t := by simpa [Op.run, e] using ht
    exact obeys_of_retires r (Within.refl _) rfl (by simp [Op.reachesPorts])
  case popWord dst =>
    obtain ⟨u, e, r, -⟩ := popWord_spec h dst (hpop dst rfl) s
    obtain rfl : u = t := by simpa [Op.run, e] using ht
    exact obeys_of_retires r (Within.refl _) rfl (by simp [Op.reachesPorts])
  case swapDeHl =>
    have := hex (by simp); subst this
    obtain ⟨u, e, r, -⟩ := swapDeHl_spec h s
    obtain rfl : u = t := by simpa [Op.run, e] using ht
    exact obeys_of_retires r (Within.refl _) rfl rfl
  case swapAf =>
    have := hex (by simp); subst this
    obtain ⟨u, e, r, -⟩ := swapAf_spec h s
    obtain rfl : u = t := by simpa [Op.run, e] using ht
    exact obeys_of_retires r (Within.refl _) rfl rfl
  case swapExx =>
    have := hex (by simp); subst this
    obtain ⟨u, e, r, -⟩ := swapExx_spec h s
    obtain rfl : u = t := by simpa [Op.run, e] using ht
    exact obeys_of_retires r (Within.refl _) rfl rfl
  case exchangeTop l =>
    obtain ⟨u, high, -, e, r, -⟩ := exchangeTop_spec h l s
    obtain rfl : u = t := by simpa [Op.run, e] using ht
    exact obeys_of_retires r (Within.refl _) rfl (by simp [Op.reachesPorts])
  case aluOnA op src =>
    obtain ⟨u, e, r, -⟩ := aluOnA_spec h op src s
    obtain rfl : u = t := by simpa [Op.run, e] using ht
    exact obeys_of_retires r (Within.refl _) rfl (by simp [Op.reachesPorts])
  case changeByte g l =>
    obtain ⟨u, e, r, -⟩ := changeByte_spec h g l s
    obtain rfl : u = t := by simpa [Op.run, e] using ht
    exact obeys_of_retires r (Within.refl _) rfl (by simp [Op.reachesPorts])
  case drawFlags g =>
    obtain ⟨u, e, r, -⟩ := drawFlags_spec h g s
    obtain rfl : u = t := by simpa [Op.run, e] using ht
    exact obeys_of_retires r (Within.refl _) rfl rfl
  case addWord g dst src =>
    obtain ⟨u, e, r, -⟩ := addWord_spec h g dst src (hadd g dst src rfl) s
    obtain rfl : u = t := by simpa [Op.run, e] using ht
    exact obeys_of_retires r (Within.refl _) rfl rfl
  case changeWord g l =>
    obtain ⟨u, e, r, -⟩ := changeWord_spec h g l s
    obtain rfl : u = t := by simpa [Op.run, e] using ht
    exact obeys_of_retires r (Within.refl _) rfl rfl
  case rotateA op =>
    obtain ⟨u, e, r, -⟩ := rotateA_spec h op s
    obtain rfl : u = t := by simpa [Op.run, e] using ht
    exact obeys_of_retires r (Within.refl _) rfl rfl
  case rotateByte op l copy =>
    obtain ⟨u, e, r, -⟩ := rotateByte_spec h op l copy s
    obtain rfl : u = t := by simpa [Op.run, e] using ht
    exact obeys_of_retires r (Within.refl _) rfl (by simp [Op.reachesPorts])
  case rotateDigits g =>
    obtain ⟨u, e, r, -⟩ := rotateDigits_spec h g s
    obtain rfl : u = t := by simpa [Op.run, e] using ht
    exact obeys_of_retires r (Within.refl _) rfl rfl
  case testBit b l xy =>
    obtain ⟨u, e, r, -⟩ := testBit_spec h b l xy s
    obtain rfl : u = t := by simpa [Op.run, e] using ht
    exact obeys_of_retires r (Within.refl _) rfl (by simp [Op.reachesPorts])
  case changeBit g l copy =>
    obtain ⟨u, e, r, -⟩ := changeBit_spec h g l copy s
    obtain rfl : u = t := by simpa [Op.run, e] using ht
    exact obeys_of_retires r (Within.refl _) rfl (by simp [Op.reachesPorts])
  case jumpIf cond nn =>
    obtain ⟨u, e, r⟩ := jumpIf_spec h cond nn s
    obtain rfl : u = t := by simpa [Op.run, e] using ht
    exact obeys_of_retires r (Within.refl _) rfl rfl
  case jumpRelativeIf cond d =>
    obtain ⟨u, e, r⟩ := jumpRelativeIf_spec h cond d s
    obtain rfl : u = t := by simpa [Op.run, e] using ht
    exact obeys_of_retires r (Within.refl _) rfl rfl
  case jumpTo l =>
    obtain ⟨u, e, r⟩ := jumpTo_spec h l s
    obtain rfl : u = t := by simpa [Op.run, e] using ht
    exact obeys_of_retires r (Within.refl _) rfl rfl
  case decrementAndJump d =>
    obtain ⟨u, e, -, r⟩ := decrementAndJump_spec h d s
    obtain rfl : u = t := by simpa [Op.run, e] using ht
    exact obeys_of_retires r (Within.refl _) rfl rfl
  case callIf cond target =>
    obtain ⟨u, e, h3, h4⟩ := callIf_spec h cond target s
    obtain rfl : u = t := by simpa [Op.run, e] using ht
    cases c : cond s.main.f
    · exact obeys_of_retires (h4 c) (Within.empty _) rfl rfl
    · exact obeys_of_retires (h3 c).2 (Within.refl _) rfl (by simp [Op.reachesPorts])
  case returnIf cond =>
    obtain ⟨u, e, h3, h4⟩ := returnIf_spec h cond s
    obtain rfl : u = t := by simpa [Op.run, e] using ht
    cases c : cond s.main.f
    · exact obeys_of_retires (h4 c) (Within.empty _) rfl rfl
    · exact obeys_of_retires (h3 c).2 (Within.refl _) rfl (by simp [Op.reachesPorts])
  case interruptReturn =>
    obtain ⟨u, e, -, -, r⟩ := interruptReturn_spec h s
    obtain rfl : u = t := by simpa [Op.run, e] using ht
    exact obeys_of_retires r (Within.refl _) rfl (by simp [Op.reachesPorts])
  case blockMove up again =>
    have hp := (blockMove_pass up (advance 2 2 s)).1
    cases again
    · obtain ⟨u, e, -, r⟩ := singlePass_spec hi (Machine.blockMove up) s hp
      obtain rfl : u = t := by simpa [Op.run, e] using ht
      exact obeys_of_retires r (Within.refl _) rfl rfl
    · obtain ⟨u, e, r, -⟩ := repeatPass_spec hi rfl counterLeft (Machine.blockMove up) s hp
      obtain rfl : u = t := by simpa [Op.run, e] using ht
      exact obeys_of_retires r (Within.refl _) rfl rfl
  case blockCompare up again =>
    have hp := (blockCompare_pass up (advance 2 2 s)).1
    cases again
    · obtain ⟨u, e, -, r⟩ := singlePass_spec hi (Machine.blockCompare up) s hp
      obtain rfl : u = t := by simpa [Op.run, e] using ht
      exact obeys_of_retires r (Within.refl _) rfl rfl
    · obtain ⟨u, e, r, -⟩ := repeatPass_spec hi rfl searchGoesOn (Machine.blockCompare up) s hp
      obtain rfl : u = t := by simpa [Op.run, e] using ht
      exact obeys_of_retires r (Within.refl _) rfl rfl
  case blockInput up again =>
    have hp := (blockInput_pass up (advance 2 2 s)).1
    cases again
    · obtain ⟨u, e, -, r⟩ := singlePass_spec hi (Machine.blockInput up) s hp
      obtain rfl : u = t := by simpa [Op.run, e] using ht
      exact obeys_of_retires r (Within.refl _) rfl rfl
    · obtain ⟨u, e, r, -⟩ := repeatPass_spec hi rfl portCounterLeft (Machine.blockInput up) s hp
      obtain rfl : u = t := by simpa [Op.run, e] using ht
      exact obeys_of_retires r (Within.refl _) rfl rfl
  case blockOutput up again =>
    have hp := (blockOutput_pass up (advance 2 2 s)).1
    cases again
    · obtain ⟨u, e, -, r⟩ := singlePass_spec hi (Machine.blockOutput up) s hp
      obtain rfl : u = t := by simpa [Op.run, e] using ht
      exact obeys_of_retires r (Within.refl _) rfl rfl
    · obtain ⟨u, e, r, -⟩ := repeatPass_spec hi rfl portCounterLeft (Machine.blockOutput up) s hp
      obtain rfl : u = t := by simpa [Op.run, e] using ht
      exact obeys_of_retires r (Within.refl _) rfl rfl
  case inputToA p =>
    obtain ⟨u, e, r, -⟩ := inputToA_spec h p s
    obtain rfl : u = t := by simpa [Op.run, e] using ht
    exact obeys_of_retires r (Within.refl _) rfl rfl
  case outputA p =>
    obtain ⟨u, e, r⟩ := outputA_spec h p s
    obtain rfl : u = t := by simpa [Op.run, e] using ht
    exact obeys_of_retires r (Within.refl _) rfl rfl
  case inputFromC dst =>
    obtain ⟨u, e, r, -⟩ := inputFromC_spec h dst s
    obtain rfl : u = t := by simpa [Op.run, e] using ht
    exact obeys_of_retires r (Within.refl _) rfl rfl
  case outputReg q =>
    obtain ⟨u, e, r⟩ := outputToC_spec h (·.reg q) s (advance_reg _ _ _ _)
    obtain rfl : u = t := by simpa [Op.run, e] using ht
    exact obeys_of_retires r (Within.refl _) rfl rfl
  case outputZero =>
    obtain ⟨u, e, r⟩ := outputToC_spec h (fun _ => 0x00) s rfl
    obtain rfl : u = t := Host.Outcome.next.inj (e.symm.trans ht)
    exact obeys_of_retires r (Within.refl _) rfl rfl
  case noOperation =>
    obtain ⟨u, e, r⟩ := noOperation_spec h s
    obtain rfl : u = t := by simpa [Op.run, e] using ht
    exact obeys_of_retires r (Within.refl _) rfl rfl
  case enterHalt =>
    obtain ⟨u, e, -, r⟩ := enterHalt_spec (shape (i := .halt) rfl) s
    obtain rfl : u = t := by simpa [Op.run, e] using ht
    exact obeys_of_retires r (Within.refl _) rfl rfl
  case disableInterrupts =>
    obtain ⟨u, e, r, -⟩ := disableInterrupts_spec (shape (i := .di) rfl) s
    obtain rfl : u = t := by simpa [Op.run, e] using ht
    exact obeys_of_retires r (Within.refl _) rfl rfl
  case enableInterrupts =>
    obtain ⟨u, e, -, -, hi, -, hr, hb, f⟩ := enableInterrupts_spec s
    obtain rfl : u = t := by simpa [Op.run, e] using ht
    exact ⟨f, hi, fun _ => hr.bit7, [], hb, rfl⟩
  case setMode m =>
    obtain ⟨u, e, r, -⟩ := setMode_spec hi m s
    obtain rfl : u = t := by simpa [Op.run, e] using ht
    exact obeys_of_retires r (Within.refl _) rfl rfl
  case loadIFromA =>
    obtain ⟨u, e, r, -⟩ := loadIFromA_spec hi s
    obtain rfl : u = t := by simpa [Op.run, e] using ht
    exact obeys_of_retires r (Within.refl _) rfl rfl
  case loadRFromA =>
    obtain ⟨u, e, -, -, hn, hb, f⟩ := loadRFromA_spec s
    obtain rfl : u = t := by simpa [Op.run, e] using ht
    exact ⟨f, hn, nofun, [], hb, rfl⟩
  case loadAFromI =>
    obtain ⟨u, e, r, -⟩ := loadAFromI_spec hi s
    obtain rfl : u = t := by simpa [Op.run, e] using ht
    exact obeys_of_retires r (Within.refl _) rfl rfl
  case loadAFromR =>
    obtain ⟨u, e, r, -⟩ := loadAFromR_spec hi s
    obtain rfl : u = t := by simpa [Op.run, e] using ht
    exact obeys_of_retires r (Within.refl _) rfl rfl
  case edHole op =>
    rcases edHole_spec hi op s with ⟨-, e⟩ | ⟨-, u, e, r⟩
    · simp [Op.run, e] at ht
    · obtain rfl : u = t := by simpa [Op.run, e] using ht
      exact obeys_of_retires r (Within.refl _) rfl rfl

/-- Every instruction obeys its frame; so does a prefix row, but for `inhibit`. -/
theorem exec_obeys {i : Instr} (hp : Shape.isPrefixRow i = false) {s t : State} (ht : exec i s = .next t) :
    Obeys (opOf i) s t := by
  rw [exec_eq] at ht
  refine run_obeys (shape hp) (opOf i) ?_ ?_ ?_ ?_ ?_ ht <;> clear ht
  · cases i <;> first | (intro h; cases h; done) | cases hp
  · cases i <;> first | (intro h; cases h; done) | cases hp
  · cases i <;> intro l h <;> cases h
    case popQq.refl qq => cases qq <;> decide
    all_goals decide
  · cases i <;> intro g l m h <;> cases h <;> decide
  · cases i <;> rintro (h | h | h) <;> cases h <;> rfl

theorem prefix_obeys {i : Instr} (hp : Shape.isPrefixRow i = true) {s t : State} (ht : exec i s = .next t) :
    Frame {} s t ∧ Transacts [] s t ∧ t.r.getLsbD 7 = s.r.getLsbD 7 := by
  rw [exec_eq] at ht
  have h : opOf i = .selectTable ∨ opOf i = .consumeByte := by cases i <;> first | exact .inl rfl | exact .inr rfl | cases hp
  rcases h with h | h <;> rw [h] at ht
  · obtain rfl : s = t := Host.Outcome.next.inj ht
    exact ⟨Frame.refl _ _, Transacts.refl rfl rfl, rfl⟩
  · obtain ⟨u, e, -, -, hr, hb, f⟩ := consumeByte_spec s
    obtain rfl : u = t := Host.Outcome.next.inj (e.symm.trans ht)
    exact ⟨f, hb, hr.bit7⟩

/-- The frame of every row. -/
theorem exec_frame {i : Instr} {s t : State} (ht : exec i s = .next t) : Frame (opOf i).effect s t := by
  cases hp : Shape.isPrefixRow i
  · exact (exec_obeys hp ht).frame
  · exact (prefix_obeys hp ht).1.mono (Within.empty _)

/-- The transactions of every row: one in the port space for the input and output instructions, else none. -/
theorem exec_transacts {i : Instr} {s t : State} (ht : exec i s = .next t) :
    ∃ es, Transacts es s t ∧ portCount es = if (opOf i).reachesPorts then 1 else 0 := by
  cases hp : Shape.isPrefixRow i
  · exact (exec_obeys hp ht).bus
  · refine ⟨[], (prefix_obeys hp ht).2.1, ?_⟩
    cases i <;> first | rfl | cases hp

/-! ### Stops -/

/-- No meaning refuses. -/
theorem exec_not_refused (i : Instr) (s : State) (r : Refusal) : exec i s ≠ .refused r := by
  rw [exec_eq]
  intro h
  generalize opOf i = o at h
  cases o
  case edHole => simp only [Op.run, edHole] at h; split at h <;> cases h
  case blockMove up again => cases again <;> cases h
  case blockCompare up again => cases again <;> cases h
  case blockInput up again => cases again <;> cases h
  case blockOutput up again => cases again <;> cases h
  case testBit b l xy => cases xy <;> cases h
  case loadAFromR => simp only [Op.run, loadAFromR] at h; split at h <;> cases h
  all_goals cases h

/-- A meaning faults only on an `ED` hole under `strict`. -/
theorem exec_fault {i : Instr} {s : State} {f : Fault} (h : exec i s = .fault f) :
    s.params.edHolePolicy = .strict ∧ ∃ op, opOf i = .edHole op ∧ f = .illegalOpcode s.pc 0xED op s.bus := by
  rw [exec_eq] at h
  generalize opOf i = o at h ⊢
  cases o
  case edHole op =>
    simp only [Op.run, edHole] at h
    split at h
    · cases h
    · cases h; exact ⟨‹_›, op, rfl, rfl⟩
  case blockMove up again => cases again <;> cases h
  case blockCompare up again => cases again <;> cases h
  case blockInput up again => cases again <;> cases h
  case blockOutput up again => cases again <;> cases h
  case testBit b l xy => cases xy <;> cases h
  case loadAFromR => simp only [Op.run, loadAFromR] at h; split at h <;> cases h
  all_goals cases h

/-! ### Who writes what, besides registers and F -/

theorem effect_nmi (o : Op) : o.effect.nmi = false := by
  have h8 : ∀ l : Loc8, (effectOf8 l).nmi = false := by
    intro l; rcases l with _ | ⟨_ | _, _⟩ | _ <;> rfl
  have h16 : ∀ l : Loc16, (effectOf16 l).nmi = false := by
    intro l; rcases l with _ | _ | _ | _ | _ | (_ | _) <;> rfl
  cases o <;> first | rfl | exact h8 _ | exact h16 _

/-- The shared operations that write `alt`. -/
def Op.writesAlt : Op → Bool
  | .swapAf => true
  | .swapExx => true
  | _ => false

theorem effect_alt (o : Op) : o.effect.alt = o.writesAlt := by
  have h8 : ∀ l : Loc8, (effectOf8 l).alt = false := by
    intro l; rcases l with _ | ⟨_ | _, _⟩ | _ <;> rfl
  have h16 : ∀ l : Loc16, (effectOf16 l).alt = false := by
    intro l; rcases l with _ | _ | _ | _ | _ | (_ | _) <;> rfl
  cases o <;> first | rfl | exact h8 _ | exact h16 _

/-- The shared operations that write `iff1`. -/
def Op.writesIff1 : Op → Bool
  | .interruptReturn => true
  | .disableInterrupts => true
  | .enableInterrupts => true
  | _ => false

theorem effect_iff1 (o : Op) : o.effect.iff1 = o.writesIff1 := by
  have h8 : ∀ l : Loc8, (effectOf8 l).iff1 = false := by
    intro l; rcases l with _ | ⟨_ | _, _⟩ | _ <;> rfl
  have h16 : ∀ l : Loc16, (effectOf16 l).iff1 = false := by
    intro l; rcases l with _ | _ | _ | _ | _ | (_ | _) <;> rfl
  cases o <;> first | rfl | exact h8 _ | exact h16 _

/-- The shared operations that write `iff2`. -/
def Op.writesIff2 : Op → Bool
  | .disableInterrupts => true
  | .enableInterrupts => true
  | _ => false

theorem effect_iff2 (o : Op) : o.effect.iff2 = o.writesIff2 := by
  have h8 : ∀ l : Loc8, (effectOf8 l).iff2 = false := by
    intro l; rcases l with _ | ⟨_ | _, _⟩ | _ <;> rfl
  have h16 : ∀ l : Loc16, (effectOf16 l).iff2 = false := by
    intro l; rcases l with _ | _ | _ | _ | _ | (_ | _) <;> rfl
  cases o <;> first | rfl | exact h8 _ | exact h16 _

/-- The shared operations that write `im`. -/
def Op.writesIm : Op → Bool
  | .setMode _ => true
  | _ => false

theorem effect_im (o : Op) : o.effect.im = o.writesIm := by
  have h8 : ∀ l : Loc8, (effectOf8 l).im = false := by
    intro l; rcases l with _ | ⟨_ | _, _⟩ | _ <;> rfl
  have h16 : ∀ l : Loc16, (effectOf16 l).im = false := by
    intro l; rcases l with _ | _ | _ | _ | _ | (_ | _) <;> rfl
  cases o <;> first | rfl | exact h8 _ | exact h16 _

/-- The shared operations that write `i`. -/
def Op.writesI : Op → Bool
  | .loadIFromA => true
  | _ => false

theorem effect_i (o : Op) : o.effect.i = o.writesI := by
  have h8 : ∀ l : Loc8, (effectOf8 l).i = false := by
    intro l; rcases l with _ | ⟨_ | _, _⟩ | _ <;> rfl
  have h16 : ∀ l : Loc16, (effectOf16 l).i = false := by
    intro l; rcases l with _ | _ | _ | _ | _ | (_ | _) <;> rfl
  cases o <;> first | rfl | exact h8 _ | exact h16 _

/-- The shared operations that write `halted`. -/
def Op.writesHalted : Op → Bool
  | .enterHalt => true
  | _ => false

theorem effect_halted (o : Op) : o.effect.halted = o.writesHalted := by
  have h8 : ∀ l : Loc8, (effectOf8 l).halted = false := by
    intro l; rcases l with _ | ⟨_ | _, _⟩ | _ <;> rfl
  have h16 : ∀ l : Loc16, (effectOf16 l).halted = false := by
    intro l; rcases l with _ | _ | _ | _ | _ | (_ | _) <;> rfl
  cases o <;> first | rfl | exact h8 _ | exact h16 _

/-- `EI` alone leaves `inhibit` set. -/
theorem isEi_iff (i : Instr) : (opOf i).isEi = true ↔ i = .ei := by
  constructor
  · intro h; cases i <;> first | rfl | cases h
  · rintro rfl; rfl

end Sys2Proof.Machine
end

