-- ==== Sys2Proof/Laws/Agree.lean ====
section
/-! SUPPORT. No instruction looks at a register outside its reads, and none at the interrupt requests: from two states that
agree but for such registers it goes to two states that agree but for those it has not written. -/

namespace Sys2Proof.Machine

open Sys2Proof Sys2Proof.Laws

/-- The registers of `U` that are not among `ws`. -/
def Less (U : Unspecified → Prop) (ws : List Unspecified) : Unspecified → Prop := fun x => U x ∧ x ∉ ws

section Agree

variable {U V : Unspecified → Prop} {s t : State}

theorem agree_mono (h : AgreeBut U s t) (le : ∀ x, U x → V x) : AgreeBut V s t :=
  { h with
    main := fun r k => h.main r (fun u => k (le _ u))
    alt := fun r k => h.alt r (fun u => k (le _ u))
    altF := fun k => h.altF (fun u => k (le _ u))
    half := fun j x k => h.half j x (fun u => k (le _ u))
    i := fun k => h.i (fun u => k (le _ u))
    r := fun k => h.r (fun u => k (le _ u)) }

/-! ### Reading -/

theorem agree_reg (h : AgreeBut U s t) (r : Reg8) (hr : ∀ x ∈ Unspecified.ofReg r, ¬ U x) : t.reg r = s.reg r := by
  cases r
  case a => exact h.a
  all_goals exact h.main _ (hr _ (by simp [Unspecified.ofReg]))

theorem agree_idx (h : AgreeBut U s t) (j : Idx) (hr : ∀ x ∈ Unspecified.ofLoc16 (.idx j), ¬ U x) :
    t.idx j = s.idx j := by
  have h1 := h.half j .hi (hr _ (by simp [Unspecified.ofLoc16]))
  have h2 := h.half j .lo (hr _ (by simp [Unspecified.ofLoc16]))
  simp only [State.half] at h1 h2
  rw [← wordOf_hi_lo (t.idx j), ← wordOf_hi_lo (s.idx j), h1, h2]

theorem agree_read16 (h : AgreeBut U s t) (l : Loc16) (hr : ∀ x ∈ Unspecified.ofLoc16 l, ¬ U x) : l.read t = l.read s := by
  have hm : ∀ r, Unspecified.main r ∈ Unspecified.ofLoc16 l → t.reg r = s.reg r := fun r k => h.main r (hr _ k)
  rcases l with _ | _ | _ | _ | _ | j
  case idx => exact agree_idx h j hr
  case sp => exact h.sp
  case af => simp only [Loc16.read, h.a, h.f]
  case bc =>
    have h1 := hm .b (by simp [Unspecified.ofLoc16]); have h2 := hm .c (by simp [Unspecified.ofLoc16])
    simp only [State.reg] at h1 h2; simp only [Loc16.read, h1, h2]
  case de =>
    have h1 := hm .d (by simp [Unspecified.ofLoc16]); have h2 := hm .e (by simp [Unspecified.ofLoc16])
    simp only [State.reg] at h1 h2; simp only [Loc16.read, h1, h2]
  case hl =>
    have h1 := hm .h (by simp [Unspecified.ofLoc16]); have h2 := hm .l (by simp [Unspecified.ofLoc16])
    simp only [State.reg] at h1 h2; simp only [Loc16.read, h1, h2]

theorem agree_addr (h : AgreeBut U s t) (e : Ea) (hr : ∀ x ∈ Unspecified.ofEa e, ¬ U x) : e.addr t = e.addr s := by
  cases e
  case bc => exact agree_read16 h .bc hr
  case de => exact agree_read16 h .de hr
  case hl => exact agree_read16 h .hl hr
  case abs => rfl
  case idx j d => simp only [Ea.addr, agree_idx h j hr]

theorem agree_memRead (h : AgreeBut U s t) (x : Word) : memRead t x = memRead s x := memRead_congr h.bus h.params x

theorem agree_portAnswer (h : AgreeBut U s t) : portAnswer t = portAnswer s := portAnswer_congr h.bus

theorem agree_highFirst (h : AgreeBut U s t) : highFirst t = highFirst s := highFirst_congr h.bus h.params

theorem agree_read8 (h : AgreeBut U s t) (l : Loc8) (hr : ∀ x ∈ Unspecified.readByLoc8 l, ¬ U x) :
    l.read t = l.read s := by
  rcases l with r | ⟨j, k⟩ | e
  · exact agree_reg h r hr
  · exact h.half j k (hr _ (by simp [Unspecified.readByLoc8]))
  · simp only [Loc8.read, agree_addr h e hr, agree_memRead h]

theorem agree_readSrc (h : AgreeBut U s t) (o : Src8) (hr : ∀ x ∈ Unspecified.readBySrc8 o, ¬ U x) :
    o.read t = o.read s := by
  cases o
  · exact agree_read8 h _ hr
  · rfl

/-! ### Writing -/

theorem agree_didAll (h : AgreeBut U s t) (es : List BusEvent) : AgreeBut U (s.didAll es) (t.didAll es) :=
  { h with bus := by simp [h.bus], main := h.main, alt := h.alt, half := h.half }

theorem agree_did (h : AgreeBut U s t) (e : BusEvent) : AgreeBut U (s.did e) (t.did e) := agree_didAll h [e]

theorem agree_setF (h : AgreeBut U s t) (f : Byte) : AgreeBut U (s.setF f) (t.setF f) :=
  { h with f := rfl, main := fun r k => by simpa using h.main r k, alt := h.alt, half := h.half }

theorem agree_setReg (h : AgreeBut U s t) (q : Reg8) (v : Byte) :
    AgreeBut (Less U (Unspecified.ofReg q)) (s.setReg q v) (t.setReg q v) where
  a := by cases q <;> first | rfl | exact h.a
  f := by simpa using h.f
  main r k := by
    simp only [setReg_reg]
    split
    · rfl
    · rename_i hrq
      refine h.main r (fun u => k ⟨u, ?_⟩)
      cases q <;> simp [Unspecified.ofReg] <;> exact fun e => hrq e
  alt r k := by
    have := h.alt r (fun u => k ⟨u, by cases q <;> simp [Unspecified.ofReg]⟩)
    cases q <;> exact this
  altF k := by simpa using h.altF (fun u => k ⟨u, by cases q <;> simp [Unspecified.ofReg]⟩)
  half j x k := by
    have := h.half j x (fun u => k ⟨u, by cases q <;> simp [Unspecified.ofReg]⟩)
    cases q <;> exact this
  sp := by simpa using h.sp
  pc := by simpa using h.pc
  i k := by simpa using h.i (fun u => k ⟨u, by cases q <;> simp [Unspecified.ofReg]⟩)
  r k := by simpa using h.r (fun u => k ⟨u, by cases q <;> simp [Unspecified.ofReg]⟩)
  iff1 := by simpa using h.iff1
  iff2 := by simpa using h.iff2
  im := by simpa using h.im
  halted := by simpa using h.halted
  inhibit := by simpa using h.inhibit
  bus := by simpa using h.bus
  params := by simpa using h.params
  draws := by simpa using h.draws
  unwritten := by simpa using h.unwritten

/-- Writing an index register from a word whose halves agree outside `V`. -/
theorem agree_setIdx (h : AgreeBut U s t) (j : Idx) (v w : Word) (le : ∀ x, (∀ k, x ≠ .half j k) → U x → V x)
    (le' : ∀ j' k, j' ≠ j → U (.half j' k) → V (.half j' k))
    (hi : ¬ V (.half j .hi) → hiByte w = hiByte v) (lo : ¬ V (.half j .lo) → loByte w = loByte v) :
    AgreeBut V (s.setIdx j v) (t.setIdx j w) where
  a := by simpa using h.a
  f := by simpa using h.f
  main r k := by
    have := h.main r (fun u => k (le _ (by simp) u))
    cases j <;> exact this
  alt r k := by
    have := h.alt r (fun u => k (le _ (by simp) u))
    cases j <;> exact this
  altF k := by simpa using h.altF (fun u => k (le _ (by simp) u))
  half j' x k := by
    by_cases e : j' = j
    · subst e
      cases x <;> simp only [State.half, setIdx_idx, if_true]
      · exact hi k
      · exact lo k
    · have := h.half j' x (fun u => k (le' _ _ e u))
      cases x <;> simpa only [State.half, setIdx_idx, if_neg e] using this
  sp := by simpa using h.sp
  pc := by simpa using h.pc
  i k := by simpa using h.i (fun u => k (le _ (by simp) u))
  r k := by simpa using h.r (fun u => k (le _ (by simp) u))
  iff1 := by simpa using h.iff1
  iff2 := by simpa using h.iff2
  im := by simpa using h.im
  halted := by simpa using h.halted
  inhibit := by simpa using h.inhibit
  bus := by simpa using h.bus
  params := by simpa using h.params
  draws := by simpa using h.draws
  unwritten := by simpa using h.unwritten

theorem agree_setHalf (h : AgreeBut U s t) (j : Idx) (x : IdxHalf) (v : Byte) :
    AgreeBut (Less U [.half j x]) (s.setHalf j x v) (t.setHalf j x v) := by
  have other : ∀ y, y ≠ x → ¬ Less U [.half j x] (.half j y) → t.half j y = s.half j y := by
    intro y hy k
    exact h.half j y (fun u => k ⟨u, by simpa using hy⟩)
  cases x
  · refine agree_setIdx h j _ _ (fun x hx u => ⟨u, by simpa using hx .hi⟩) (fun j' k e u => ⟨u, by simp [e]⟩) ?_ ?_
    · simp
    · intro k; have := other .lo (by simp) k; simpa [State.half] using this
  · refine agree_setIdx h j _ _ (fun x hx u => ⟨u, by simpa using hx .lo⟩) (fun j' k e u => ⟨u, by simp [e]⟩) ?_ ?_
    · intro k; have := other .hi (by simp) k; simpa [State.half] using this
    · simp

/-- A change of the main set: what it gives agrees where `V` does not hold. -/
theorem agree_main (h : AgreeBut U s t) {m n : RegSet} (a : n.a = m.a) (f : n.f = m.f)
    (main : ∀ r, ¬ V (.main r) → State.reg { t with main := n } r = State.reg { s with main := m } r)
    (le : ∀ x, (∀ r, x ≠ .main r) → U x → V x) :
    AgreeBut V { s with main := m } { t with main := n } :=
  { a := a, f := f, main := main,
    alt := fun r k => h.alt r (fun u => k (le _ (by simp) u)),
    altF := fun k => h.altF (fun u => k (le _ (by simp) u)),
    half := fun j x k => h.half j x (fun u => k (le _ (by simp) u)),
    sp := h.sp, pc := h.pc,
    i := fun k => h.i (fun u => k (le _ (by simp) u)),
    r := fun k => h.r (fun u => k (le _ (by simp) u)),
    iff1 := h.iff1, iff2 := h.iff2, im := h.im, halted := h.halted, inhibit := h.inhibit, bus := h.bus,
    params := h.params, draws := h.draws, unwritten := h.unwritten }

theorem agree_write16 (h : AgreeBut U s t) (l : Loc16) (w : Word) :
    AgreeBut (Less U (Unspecified.ofLoc16 l)) (l.write w s) (l.write w t) := by
  have hle : ∀ x, (∀ r, x ≠ .main r) → (∀ j, l ≠ .idx j) → U x → Less U (Unspecified.ofLoc16 l) x := by
    intro x hx hl u
    refine ⟨u, ?_⟩
    rcases l with _ | _ | _ | _ | _ | j <;> simp [Unspecified.ofLoc16, hx]
    exact absurd rfl (hl j)
  rcases l with _ | _ | _ | _ | _ | j
  case idx =>
    refine agree_setIdx h j w w (fun x hx u => ⟨u, by simp [Unspecified.ofLoc16, hx]⟩)
      (fun j' k e u => ⟨u, by simp [Unspecified.ofLoc16, e]⟩) (fun _ => rfl) (fun _ => rfl)
  case sp =>
    have := agree_mono (V := Less U (Unspecified.ofLoc16 .sp)) h (fun x u => ⟨u, by simp [Unspecified.ofLoc16]⟩)
    exact { this with sp := rfl, main := this.main, alt := this.alt, half := this.half }
  case af =>
    refine agree_main h rfl rfl (fun r k => ?_) (fun x hx u => hle x hx (by simp) u)
    have := fun hr : r ≠ .a => h.main r (fun u => k ⟨u, by simp [Unspecified.ofLoc16]⟩)
    cases r <;> first | rfl | exact this (by simp)
  all_goals
    refine agree_main h h.a h.f (fun r k => ?_) (fun x hx u => hle x hx (by simp) u)
    have := fun hr => h.main r (fun u => k ⟨u, hr⟩)
    cases r <;> first | rfl | exact this (by simp [Unspecified.ofLoc16])

theorem agree_write8 (h : AgreeBut U s t) (l : Loc8) (v : Byte) (hr : ∀ x ∈ Unspecified.addressOfLoc8 l, ¬ U x) :
    AgreeBut (Less U (Unspecified.writtenByLoc8 l)) (l.write v s) (l.write v t) := by
  rcases l with r | ⟨j, k⟩ | e
  · exact agree_setReg h r v
  · exact agree_setHalf h j k v
  · have := agree_did h (.memWrite (e.addr s) v)
    simp only [Loc8.write, memWrite, agree_addr h e hr]
    exact agree_mono this (fun x u => ⟨u, by simp [Unspecified.writtenByLoc8]⟩)

theorem agree_countM1 (h : AgreeBut U s t) (k : Nat) : AgreeBut U (s.countM1 k) (t.countM1 k) := by
  unfold State.countM1
  rw [h.params]
  split
  · exact { h with params := rfl, r := fun u => by simp [h.r u], main := h.main, alt := h.alt, half := h.half }
  · exact h

theorem agree_setPc (h : AgreeBut U s t) (a : Word) : AgreeBut U { s with pc := a } { t with pc := a } :=
  { h with pc := rfl, main := h.main, alt := h.alt, half := h.half }

theorem agree_advance (h : AgreeBut U s t) (n k : Nat) : AgreeBut U (advance n k s) (advance n k t) := by
  have := agree_countM1 h k
  exact { this with
    pc := by simp [h.pc], inhibit := rfl, main := this.main, alt := this.alt, half := this.half }

theorem agree_drawn (h : AgreeBut U s t) : AgreeBut U s.drawn t.drawn :=
  { h with draws := by simp [State.drawn, h.draws], main := h.main, alt := h.alt, half := h.half }

theorem agree_draw (h : AgreeBut U s t) : t.draw = s.draw := by simp [State.draw, h.draws]

/-! ### Operations -/

theorem agree_readDone8 (h : AgreeBut U s t) (l : Loc8) (hr : ∀ x ∈ Unspecified.readByLoc8 l, ¬ U x) :
    AgreeBut U (l.readDone s) (l.readDone t) := by
  rcases l with r | ⟨j, k⟩ | e
  · exact h
  · exact h
  · simp only [Loc8.readDone, memReadDone, agree_addr h e hr, agree_memRead h]; exact agree_did h _

theorem agree_readDoneSrc (h : AgreeBut U s t) (o : Src8) (hr : ∀ x ∈ Unspecified.readBySrc8 o, ¬ U x) :
    AgreeBut U (o.readDone s) (o.readDone t) := by
  cases o
  · exact agree_readDone8 h _ hr
  · exact h

theorem agree_memReadDone (h : AgreeBut U s t) (a : Word) : AgreeBut U (memReadDone a s) (memReadDone a t) := by
  simp only [memReadDone, agree_memRead h]; exact agree_did h _

theorem agree_memReadWord (h : AgreeBut U s t) (a : Word) : memReadWord t a = memReadWord s a := by
  unfold memReadWord
  rw [agree_highFirst h, agree_memRead h, agree_memRead h, agree_memRead (agree_memReadDone h _),
    agree_memRead (agree_memReadDone h _)]

theorem agree_memReadWordDone (h : AgreeBut U s t) (a : Word) :
    AgreeBut U (memReadWordDone a s) (memReadWordDone a t) := by
  unfold memReadWordDone
  rw [agree_highFirst h]
  split <;> exact agree_memReadDone (agree_memReadDone h _) _

theorem agree_memWriteWord (h : AgreeBut U s t) (a w : Word) :
    AgreeBut U (memWriteWord a w s) (memWriteWord a w t) := by
  simp only [memWriteWord_eq, agree_highFirst h]; exact agree_didAll h _

theorem agree_push16 (h : AgreeBut U s t) (w : Word) : AgreeBut U (push16 w s) (push16 w t) := by
  have := agree_memWriteWord (s := { s with sp := s.sp - 2 }) (t := { t with sp := s.sp - 2 })
    { h with sp := rfl, main := h.main, alt := h.alt, half := h.half } (s.sp - 2) w
  unfold push16
  rw [h.sp]
  exact this

theorem agree_popped (h : AgreeBut U s t) : AgreeBut U (popped s) (popped t) := by
  have := agree_memReadWordDone h s.sp
  unfold popped
  rw [h.sp]
  exact { this with sp := by simp [h.sp], main := this.main, alt := this.alt, half := this.half }

theorem agree_topWord (h : AgreeBut U s t) : topWord t = topWord s := by
  unfold topWord; rw [h.sp, agree_memReadWord h]

theorem agree_modifyByte (h : AgreeBut U s t) (g : Byte → Byte → Byte × Byte) (l : Loc8) (copy : Option Reg8)
    (hr : ∀ x ∈ Unspecified.readByLoc8 l, ¬ U x) :
    AgreeBut (Less U (Unspecified.writtenByLoc8 l ++ Unspecified.ofCopy copy)) (modifyByte g l copy s)
      (modifyByte g l copy t) := by
  have ha : ∀ x ∈ Unspecified.addressOfLoc8 l, ¬ U x := by
    intro x hx; cases l <;> first | exact hr x hx | simp [Unspecified.addressOfLoc8] at hx
  have hw := agree_write8 (agree_readDone8 h l hr) l (g (l.read s) s.main.f).1 ha
  unfold modifyByte
  rw [agree_read8 h l hr, h.f]
  cases copy with
  | none => exact agree_mono (agree_setF hw _) (fun x u => ⟨u.1, by simpa [Unspecified.ofCopy] using u.2⟩)
  | some q =>
    exact agree_mono (agree_setF (agree_setReg hw q _) _)
      (fun x u => ⟨u.1.1, by simpa [Unspecified.ofCopy] using ⟨u.1.2, u.2⟩⟩)

theorem agree_setI (h : AgreeBut U s t) (v : Byte) : AgreeBut (Less U [.i]) { s with i := v } { t with i := v } :=
  { h with
    i := fun _ => rfl
    main := fun r k => h.main r (fun u => k ⟨u, by simp⟩)
    alt := fun r k => h.alt r (fun u => k ⟨u, by simp⟩)
    altF := fun k => h.altF (fun u => k ⟨u, by simp⟩)
    half := fun j x k => h.half j x (fun u => k ⟨u, by simp⟩)
    r := fun k => h.r (fun u => k ⟨u, by simp⟩) }

theorem agree_setR (h : AgreeBut U s t) (v : Byte) : AgreeBut (Less U [.r]) { s with r := v } { t with r := v } :=
  { h with
    r := fun _ => rfl
    main := fun r k => h.main r (fun u => k ⟨u, by simp⟩)
    alt := fun r k => h.alt r (fun u => k ⟨u, by simp⟩)
    altF := fun k => h.altF (fun u => k ⟨u, by simp⟩)
    half := fun j x k => h.half j x (fun u => k ⟨u, by simp⟩)
    i := fun k => h.i (fun u => k ⟨u, by simp⟩) }

/-- A and the flags of `LD A,I` and `LD A,R`. -/
theorem agree_setAWithIff2 (h : AgreeBut U s t) (v : Byte) : AgreeBut U (s.setAWithIff2 v) (t.setAWithIff2 v) := by
  simp only [State.setAWithIff2]
  exact agree_main h rfl (by rw [h.iff2, h.f]) (fun r k => by cases r <;> first | rfl | exact h.main _ k)
    (fun x _ u => u)

theorem agree_swapDeHl (h : AgreeBut U s t) (hr : ∀ x ∈ Unspecified.ofLoc16 .de ++ Unspecified.ofLoc16 .hl, ¬ U x) :
    AgreeBut (Less U (Unspecified.ofLoc16 .de ++ Unspecified.ofLoc16 .hl)) (swapDeHl s) (swapDeHl t) := by
  refine agree_main h h.a h.f (fun r k => ?_) (fun x hx u => ⟨u, by simp [Unspecified.ofLoc16, hx]⟩)
  have hm : ∀ q, Unspecified.main q ∈ Unspecified.ofLoc16 .de ++ Unspecified.ofLoc16 .hl → t.reg q = s.reg q := fun q hq => h.main q (hr _ hq)
  cases r
  case a => exact h.a
  case b => exact h.main .b (fun u => k ⟨u, by simp [Unspecified.ofLoc16]⟩)
  case c => exact h.main .c (fun u => k ⟨u, by simp [Unspecified.ofLoc16]⟩)
  case d => exact hm .h (by simp [Unspecified.ofLoc16])
  case e => exact hm .l (by simp [Unspecified.ofLoc16])
  case h => exact hm .d (by simp [Unspecified.ofLoc16])
  case l => exact hm .e (by simp [Unspecified.ofLoc16])

theorem agree_swapAf (h : AgreeBut U s t) (hr : ∀ x ∈ Unspecified.shadowAf, ¬ U x) :
    AgreeBut (Less U Unspecified.shadowAf) (swapAf s) (swapAf t) :=
  { h with
    a := h.alt .a (hr _ (by simp [Unspecified.shadowAf]))
    f := h.altF (hr _ (by simp [Unspecified.shadowAf]))
    main := fun r k => by
      have := h.main r (fun u => k ⟨u, by simp [Unspecified.shadowAf]⟩)
      cases r
      case a => exact h.alt .a (hr _ (by simp [Unspecified.shadowAf]))
      all_goals exact this
    alt := fun r k => by
      have := fun hq : r ≠ .a => h.alt r (fun u => k ⟨u, by simp [Unspecified.shadowAf, hq]⟩)
      cases r
      case a => exact h.a
      all_goals exact this (by simp)
    altF := fun _ => h.f
    half := fun j x k => h.half j x (fun u => k ⟨u, by simp [Unspecified.shadowAf]⟩)
    i := fun k => h.i (fun u => k ⟨u, by simp [Unspecified.shadowAf]⟩)
    r := fun k => h.r (fun u => k ⟨u, by simp [Unspecified.shadowAf]⟩) }

theorem agree_swapExx (h : AgreeBut U s t) (hr : ∀ x ∈ Unspecified.bothBanks, ¬ U x) :
    AgreeBut (Less U Unspecified.bothBanks) (swapExx s) (swapExx t) :=
  { h with
    main := fun r k => by
      have := fun hq : Unspecified.alt r ∈ Unspecified.bothBanks => h.alt r (hr _ hq)
      cases r
      case a => exact h.a
      all_goals exact this (by simp [Unspecified.bothBanks])
    alt := fun r k => by
      have := fun hq : Unspecified.main r ∈ Unspecified.bothBanks => h.main r (hr _ hq)
      cases r
      case a => exact h.alt .a (fun u => k ⟨u, by simp [Unspecified.bothBanks]⟩)
      all_goals exact this (by simp [Unspecified.bothBanks])
    altF := fun k => h.altF (fun u => k ⟨u, by simp [Unspecified.bothBanks]⟩)
    half := fun j x k => h.half j x (fun u => k ⟨u, by simp [Unspecified.bothBanks]⟩)
    i := fun k => h.i (fun u => k ⟨u, by simp [Unspecified.bothBanks]⟩)
    r := fun k => h.r (fun u => k ⟨u, by simp [Unspecified.bothBanks]⟩) }

/-! ### The shared operations -/

theorem agree_reads {W : List Unspecified} (hr : ∀ x ∈ W, ¬ U x) {L : List Unspecified} (le : L ⊆ W) :
    ∀ x ∈ L, ¬ U x := fun x hx => hr x (le hx)

theorem less_written {L W : List Unspecified} (le : L ⊆ W) : ∀ x ∈ L, ¬ Less U W x := fun _ hx u => u.2 (le hx)

theorem agree_bc (h : AgreeBut U s t) (hr : ∀ x ∈ Unspecified.ofLoc16 .bc, ¬ U x) : t.bc = s.bc := agree_read16 h .bc hr

theorem agree_de (h : AgreeBut U s t) (hr : ∀ x ∈ Unspecified.ofLoc16 .de, ¬ U x) : t.de = s.de := agree_read16 h .de hr

theorem agree_hl (h : AgreeBut U s t) (hr : ∀ x ∈ Unspecified.ofLoc16 .hl, ¬ U x) : t.hl = s.hl := agree_read16 h .hl hr

theorem agree_less (h : AgreeBut U s t) : AgreeBut (Less U []) s t := agree_mono h (fun x u => ⟨u, by simp⟩)

/-- A pass that reads `rs` and writes `ws`. -/
def PassAgrees (pass : State → State) (rs ws : List Unspecified) : Prop :=
  ∀ (U : Unspecified → Prop) (s t : State), AgreeBut U s t → (∀ x ∈ rs, ¬ U x) → AgreeBut (Less U ws) (pass s) (pass t)

theorem blockMove_agrees (up : Bool) : PassAgrees (blockMove up)
    (Unspecified.ofLoc16 .bc ++ Unspecified.ofLoc16 .de ++ Unspecified.ofLoc16 .hl)
    (Unspecified.ofLoc16 .bc ++ Unspecified.ofLoc16 .de ++ Unspecified.ofLoc16 .hl) := by
  intro U s t h hr
  have hb := agree_bc h (agree_reads hr (by simp))
  have hd := agree_de h (agree_reads hr (by simp))
  have hh := agree_hl h (agree_reads hr (by simp))
  have h1 := agree_did (agree_memReadDone h s.hl) (.memWrite s.de (memRead s s.hl))
  have h2 := agree_write16 h1 .hl (stepWord up s.hl)
  have h3 := agree_write16 h2 .de (stepWord up s.de)
  have h4 := agree_write16 h3 .bc (s.bc - 1)
  have h5 := agree_setF h4 (ldxFlags (memRead s s.hl) s.main.a (s.bc - 1) s.main.f)
  have e : ∀ (u : State), blockMove up u =
      (Loc16.bc.write (u.bc - 1) (Loc16.de.write (stepWord up u.de) (Loc16.hl.write (stepWord up u.hl)
        ((memReadDone u.hl u).did (.memWrite u.de (memRead u u.hl)))))).setF
        (ldxFlags (memRead u u.hl) u.main.a (u.bc - 1) u.main.f) := by
    intro u
    simp [blockMove, State.bc, State.de, State.hl, Loc16.read, Loc16.write, did_eq]
  rw [e s, e t, hh, hd, hb, agree_memRead h, h.a, h.f]
  exact agree_mono h5 (fun x u => ⟨u.1.1.1, by
    have := u.1.1.2; have := u.1.2; have := u.2; simp only [List.mem_append]; tauto⟩)

theorem blockCompare_agrees (up : Bool) : PassAgrees (blockCompare up)
    (Unspecified.ofLoc16 .bc ++ Unspecified.ofLoc16 .hl) (Unspecified.ofLoc16 .bc ++ Unspecified.ofLoc16 .hl) := by
  intro U s t h hr
  have hb := agree_bc h (agree_reads hr (by simp))
  have hh := agree_hl h (agree_reads hr (by simp))
  have h1 := agree_memReadDone h s.hl
  have h2 := agree_write16 h1 .hl (stepWord up s.hl)
  have h4 := agree_write16 h2 .bc (s.bc - 1)
  have h5 := agree_setF h4 (cpxFlags s.main.a (memRead s s.hl) (s.bc - 1) s.main.f)
  have e : ∀ (u : State), blockCompare up u =
      (Loc16.bc.write (u.bc - 1) (Loc16.hl.write (stepWord up u.hl) (memReadDone u.hl u))).setF
        (cpxFlags u.main.a (memRead u u.hl) (u.bc - 1) u.main.f) := by
    intro u
    simp [blockCompare, State.bc, State.hl, Loc16.read, Loc16.write]
  rw [e s, e t, hh, hb, agree_memRead h, h.a, h.f]
  exact agree_mono h5 (fun x u => ⟨u.1.1, by have := u.1.2; have := u.2; simp only [List.mem_append]; tauto⟩)

theorem blockInput_agrees (up : Bool) : PassAgrees (blockInput up)
    (Unspecified.ofLoc16 .bc ++ Unspecified.ofLoc16 .hl) (.main .b :: Unspecified.ofLoc16 .hl) := by
  intro U s t h hr
  have hb := agree_bc h (agree_reads hr (by simp))
  have hh := agree_hl h (agree_reads hr (by simp))
  have hB : t.main.b = s.main.b := h.main .b (hr _ (by simp [Unspecified.ofLoc16]))
  have hC : t.main.c = s.main.c := h.main .c (hr _ (by simp [Unspecified.ofLoc16]))
  have h1 := agree_did (agree_did h (.portRead s.bc (portAnswer s s.bc))) (.memWrite s.hl (portAnswer s s.bc))
  have h2 := agree_write16 h1 .hl (stepWord up s.hl)
  have h4 := agree_setReg h2 .b (s.main.b - 1)
  have h5 := agree_setF h4 (blkioFlags (portAnswer s s.bc)
    ((portAnswer s s.bc).toNat + (if up then s.main.c + 1 else s.main.c - 1).toNat) (s.main.b - 1))
  have e : ∀ (u : State), blockInput up u =
      ((Loc16.hl.write (stepWord up u.hl) ((u.did (.portRead u.bc (portAnswer u u.bc))).did
        (.memWrite u.hl (portAnswer u u.bc)))).setReg .b (u.main.b - 1)).setF (blkioFlags (portAnswer u u.bc)
          ((portAnswer u u.bc).toNat + (if up then u.main.c + 1 else u.main.c - 1).toNat) (u.main.b - 1)) := by
    intro u
    simp [blockInput, State.hl, Loc16.read, Loc16.write, State.setReg, did_eq]
  rw [e s, e t, hh, hb, hB, hC, agree_portAnswer h]
  exact agree_mono h5 (fun x u => ⟨u.1.1, by
    have := u.1.2; have := u.2; simp only [List.mem_cons, Unspecified.ofReg] at *; tauto⟩)

theorem blockOutput_agrees (up : Bool) : PassAgrees (blockOutput up)
    (Unspecified.ofLoc16 .bc ++ Unspecified.ofLoc16 .hl) (.main .b :: Unspecified.ofLoc16 .hl) := by
  intro U s t h hr
  have hh := agree_hl h (agree_reads hr (by simp))
  have hB : t.main.b = s.main.b := h.main .b (hr _ (by simp [Unspecified.ofLoc16]))
  have hC : t.main.c = s.main.c := h.main .c (hr _ (by simp [Unspecified.ofLoc16]))
  have h0 := agree_setReg h .b (s.main.b - 1)
  have h1 := agree_did (agree_did h0 (.memRead s.hl (memRead s s.hl)))
    (.portWrite (wordOf (s.main.b - 1) s.main.c) (memRead s s.hl))
  have h2 := agree_write16 h1 .hl (stepWord up s.hl)
  have h5 := agree_setF h2 (blkioFlags (memRead s s.hl)
    ((memRead s s.hl).toNat + (loByte (stepWord up s.hl)).toNat) (s.main.b - 1))
  have e : ∀ (u : State), blockOutput up u =
      (Loc16.hl.write (stepWord up u.hl) (((u.setReg .b (u.main.b - 1)).did (.memRead u.hl (memRead u u.hl))).did
        (.portWrite (wordOf (u.main.b - 1) u.main.c) (memRead u u.hl)))).setF (blkioFlags (memRead u u.hl)
          ((memRead u u.hl).toNat + (loByte (stepWord up u.hl)).toNat) (u.main.b - 1)) := by
    intro u
    have hm : ∀ v x, memRead (u.setReg .b v) x = memRead u x := fun _ x => memRead_congr rfl rfl x
    have hl : ∀ v, (u.setReg .b v).hl = u.hl := fun _ => rfl
    have hb : ∀ v, (u.setReg .b v).bc = wordOf v u.main.c := fun _ => rfl
    simp only [blockOutput, memReadDone, portWrite, did_eq, hm, hl, hb, didAll_hl, didAll_bc]
    rfl
  rw [e s, e t, hh, hB, hC, agree_memRead h]
  exact agree_mono h5 (fun x u => ⟨u.1.1, by
    have := u.1.2; have := u.2; simp only [List.mem_cons, Unspecified.ofReg] at *; tauto⟩)

theorem agree_rewind (h : AgreeBut U s t) : AgreeBut U (rewind s) (rewind t) := by
  unfold rewind
  rw [h.params]
  split
  · dsimp only; rw [h.pc]; exact agree_setPc h _
  · have := agree_setF (agree_drawn h) (withYX s.main.f s.draw)
    rw [agree_draw h, h.f]
    exact { this with pc := by simp [h.pc], main := this.main, alt := this.alt, half := this.half }

theorem agree_singlePass {pass : State → State} {rs ws : List Unspecified} (hp : PassAgrees pass rs ws) (h : AgreeBut U s t)
    (hr : ∀ x ∈ rs, ¬ U x) {s' : State} (hs : singlePass pass s = .next s') :
    ∃ t', singlePass pass t = .next t' ∧ AgreeBut (Less U ws) s' t' := by
  obtain rfl := Host.Outcome.next.inj hs
  exact ⟨_, rfl, hp _ _ _ (agree_advance h 2 2) hr⟩

theorem agree_repeatPass {pass : State → State} {rs ws : List Unspecified} (hp : PassAgrees pass rs ws)
    {again : State → Bool} (ha : ∀ (u v : State), AgreeBut (Less U ws) u v → again v = again u) (h : AgreeBut U s t)
    (hr : ∀ x ∈ rs, ¬ U x) {s' : State} (hs : repeatPass again pass s = .next s') :
    ∃ t', repeatPass again pass t = .next t' ∧ AgreeBut (Less U ws) s' t' := by
  have k := hp _ _ _ (agree_advance h 2 2) hr
  obtain rfl := Host.Outcome.next.inj hs
  refine ⟨_, rfl, ?_⟩
  rw [ha _ _ k]
  split
  · exact agree_rewind k
  · exact k

/-- A change of the registers beyond the main set and the bus. -/
theorem agree_jump (h : AgreeBut U s t) {u v : State} (hu : AgreeBut U u v) (c : Bool) :
    AgreeBut U (if c then u else s) (if c then v else t) := by
  cases c
  · exact h
  · exact hu

/-- From two states that agree but for registers it does not read, a shared operation goes to two that agree but for
those of them it has not written. -/
theorem agree_run {n k : Nat} {o : Op} (h : AgreeBut U s t) (hr : ∀ x ∈ (o.access s.params.rModel).reads, ¬ U x) {s' : State}
    (hs : o.run n k s = .next s') : ∃ t', o.run n k t = .next t' ∧ AgreeBut (Less U (o.access s.params.rModel).writes) s' t' := by
  have ha := agree_advance h n k
  have h11 := agree_advance h 1 1
  have h22 := agree_advance h 2 2
  cases o
  case blockMove up again =>
    cases again
    · exact agree_singlePass (blockMove_agrees up) h hr hs
    · refine agree_repeatPass (blockMove_agrees up) (fun u v k => ?_) h hr hs
      simp only [counterLeft, agree_bc k (less_written (by simp))]
  case blockCompare up again =>
    cases again
    · exact agree_singlePass (blockCompare_agrees up) h hr hs
    · refine agree_repeatPass (blockCompare_agrees up) (fun u v k => ?_) h hr hs
      simp only [searchGoesOn, agree_bc k (less_written (by simp)), k.f]
  case blockInput up again =>
    cases again
    · exact agree_singlePass (blockInput_agrees up) h hr hs
    · refine agree_repeatPass (blockInput_agrees up) (fun u v k => ?_) h hr hs
      have : v.main.b = u.main.b := k.main .b (less_written (L := [.main .b]) (by simp) _ (by simp))
      simp only [portCounterLeft, this]
  case blockOutput up again =>
    cases again
    · exact agree_singlePass (blockOutput_agrees up) h hr hs
    · refine agree_repeatPass (blockOutput_agrees up) (fun u v k => ?_) h hr hs
      have : v.main.b = u.main.b := k.main .b (less_written (L := [.main .b]) (by simp) _ (by simp))
      simp only [portCounterLeft, this]
  case edHole op =>
    simp only [Op.run, edHole, h.params] at hs ⊢
    split at hs
    · obtain rfl := Host.Outcome.next.inj hs; exact ⟨_, rfl, agree_less h22⟩
    · cases hs
  case loadAFromR =>
    simp only [Op.run, loadAFromR, h22.params, advance_params] at hs ⊢
    cases hm : s.params.rModel <;> simp only [hm, Op.access] at hr hs ⊢ <;> obtain rfl := Host.Outcome.next.inj hs <;>
      refine ⟨_, rfl, agree_less ?_⟩
    · rw [h22.r (hr _ (by simp))]; exact agree_setAWithIff2 h22 _
    · rw [agree_draw h22]; exact agree_setAWithIff2 (agree_drawn h22) _
  case testBit b m xy =>
    have hm := agree_read8 ha m (agree_reads hr (by simp [Op.access]))
    have hd := agree_readDone8 ha m (agree_reads hr (by simp [Op.access]))
    cases xy <;> obtain rfl := Host.Outcome.next.inj hs <;> refine ⟨_, rfl, agree_less ?_⟩
    · rw [hm, hd.f]; exact agree_setF hd _
    · rw [hm, hd.f, agree_addr ha _ (agree_reads hr (by simp [Op.access, Unspecified.readByXy]))]; exact agree_setF hd _
    · rw [hm, hd.f, agree_draw hd]; exact agree_setF (agree_drawn hd) _
  case inputFromC dst =>
    obtain rfl := Host.Outcome.next.inj hs
    refine ⟨_, rfl, ?_⟩
    have hb := agree_bc ha hr
    have h1 := agree_did ha (.portRead (advance n k s).bc (portAnswer (advance n k s) (advance n k s).bc))
    dsimp only [portReadDone]
    rw [hb, agree_portAnswer ha]
    cases dst with
    | none => dsimp only; rw [h1.f]; exact agree_less (agree_setF h1 _)
    | some q =>
      have h2 := agree_setReg h1 q (portAnswer (advance n k s) (advance n k s).bc)
      dsimp only; rw [h2.f]; exact agree_setF h2 _
  all_goals obtain rfl := Host.Outcome.next.inj hs
  case loadByte dst src =>
    refine ⟨_, rfl, ?_⟩
    rw [agree_readSrc ha src (agree_reads hr (by simp [Op.access]))]
    exact agree_write8 (agree_readDoneSrc ha src (agree_reads hr (by simp [Op.access]))) dst _
      (agree_reads hr (by simp [Op.access]))
  case loadWord dst nn => exact ⟨_, rfl, agree_write16 ha dst nn⟩
  case loadWordAt dst nn =>
    refine ⟨_, rfl, ?_⟩
    rw [agree_memReadWord ha]
    exact agree_write16 (agree_memReadWordDone ha nn) dst _
  case storeWordAt nn src =>
    refine ⟨_, rfl, agree_less ?_⟩
    rw [agree_read16 ha src hr]
    exact agree_memWriteWord ha nn _
  case loadSp src =>
    refine ⟨_, rfl, ?_⟩
    rw [agree_read16 ha src hr]
    exact agree_write16 ha .sp _
  case pushWord src =>
    refine ⟨_, rfl, agree_less ?_⟩
    rw [agree_read16 ha src hr]
    exact agree_push16 ha _
  case popWord dst =>
    refine ⟨_, rfl, ?_⟩
    rw [agree_topWord ha]
    exact agree_write16 (agree_popped ha) dst _
  case swapDeHl => exact ⟨_, rfl, agree_swapDeHl (agree_advance h n 1) hr⟩
  case swapAf => exact ⟨_, rfl, agree_swapAf (agree_advance h n 1) hr⟩
  case swapExx => exact ⟨_, rfl, agree_swapExx (agree_advance h n 1) hr⟩
  case exchangeTop l =>
    refine ⟨_, rfl, ?_⟩
    rw [agree_topWord ha, agree_read16 ha l hr, ha.sp]
    exact agree_write16 (agree_memWriteWord (agree_memReadWordDone ha _) _ _) l _
  case aluOnA op src =>
    refine ⟨_, rfl, agree_less ?_⟩
    have h1 := agree_readDoneSrc ha src hr
    dsimp only
    rw [agree_readSrc ha src hr, ha.a, ha.f]
    exact agree_main h1 rfl rfl (fun r k => by cases r <;> first | rfl | exact h1.main _ k) (fun x _ u => u)
  case changeByte g l =>
    exact ⟨_, rfl, agree_mono (agree_modifyByte ha g l none hr) (fun x u => ⟨u.1, by
      simpa [Op.access, Unspecified.ofCopy] using u.2⟩)⟩
  case drawFlags g =>
    refine ⟨_, rfl, agree_less ?_⟩
    rw [ha.f, agree_draw ha]
    exact agree_setF (agree_drawn ha) _
  case addWord g dst src =>
    refine ⟨_, rfl, ?_⟩
    rw [agree_read16 ha dst (agree_reads hr (by simp [Op.access])), agree_read16 ha src (agree_reads hr (by simp [Op.access])),
      ha.f]
    exact agree_setF (agree_write16 ha dst _) _
  case changeWord g l =>
    refine ⟨_, rfl, ?_⟩
    rw [agree_read16 ha l hr]
    exact agree_write16 ha l _
  case rotateA op =>
    exact ⟨_, rfl, agree_mono (agree_modifyByte ha _ (.reg .a) none (by simp [Unspecified.readByLoc8, Unspecified.ofReg]))
      (fun x u => ⟨u.1, by simp [Op.access]⟩)⟩
  case rotateByte op l copy => exact ⟨_, rfl, agree_modifyByte ha _ l copy hr⟩
  case rotateDigits g =>
    refine ⟨_, rfl, agree_less ?_⟩
    dsimp only
    rw [agree_hl ha hr, agree_memRead ha, ha.a]
    have h1 := agree_did (agree_memReadDone ha (advance n k s).hl)
      (.memWrite (advance n k s).hl (g (advance n k s).main.a (memRead (advance n k s) (advance n k s).hl)).2)
    exact agree_main h1 rfl (congrArg (inFlags _ _) h1.f) (fun r k => by cases r <;> first | rfl | exact h1.main _ k) (fun x _ u => u)
  case changeBit g l copy => exact ⟨_, rfl, agree_modifyByte ha _ l copy hr⟩
  case jumpIf cond nn =>
    refine ⟨_, rfl, agree_less ?_⟩
    rw [ha.f]
    exact agree_jump ha (agree_setPc ha nn) _
  case jumpRelativeIf cond e =>
    refine ⟨_, rfl, agree_less ?_⟩
    rw [ha.f, ha.pc]
    exact agree_jump ha (agree_setPc ha _) _
  case jumpTo l =>
    refine ⟨_, rfl, agree_less ?_⟩
    rw [agree_read16 ha l hr]
    exact agree_setPc ha _
  case decrementAndJump e =>
    refine ⟨_, rfl, ?_⟩
    have hB : (advance n k t).main.b = (advance n k s).main.b := ha.main .b (hr _ (by simp [Op.access]))
    have h1 := agree_setReg ha .b ((advance n k s).main.b - 1)
    have e1 : ∀ u : State, ∀ v, (u.setReg .b v).main.b = v := fun _ _ => rfl
    simp only [hB, e1, h1.pc]
    split
    · exact h1
    · exact agree_setPc h1 _
  case callIf cond target =>
    refine ⟨_, rfl, agree_less ?_⟩
    dsimp only
    rw [ha.f, ha.pc]
    exact agree_jump ha (agree_setPc (agree_push16 ha _) target) _
  case returnIf cond =>
    refine ⟨_, rfl, agree_less ?_⟩
    dsimp only
    rw [ha.f, agree_topWord ha]
    exact agree_jump ha (agree_setPc (agree_popped ha) _) _
  case interruptReturn =>
    refine ⟨_, rfl, agree_less ?_⟩
    have h1 := agree_popped ha
    exact { h1 with
      pc := agree_topWord ha, iff1 := ha.iff2, main := h1.main, alt := h1.alt, half := h1.half }
  case inputToA p =>
    refine ⟨_, rfl, agree_less ?_⟩
    have h1 := agree_did ha (.portRead (wordOf (advance n k s).main.a p)
      (portAnswer (advance n k s) (wordOf (advance n k s).main.a p)))
    dsimp only [portReadDone]
    rw [agree_portAnswer ha, ha.a]
    exact agree_mono (agree_setReg h1 .a _) (fun x u => u.1)
  case outputA p =>
    refine ⟨_, rfl, agree_less ?_⟩
    dsimp only [portWrite]
    rw [ha.a]
    exact agree_did ha _
  case outputReg q =>
    refine ⟨_, rfl, agree_less ?_⟩
    dsimp only [portWrite]
    rw [agree_bc ha (agree_reads hr (by simp [Op.access])), agree_reg ha q (agree_reads hr (by simp [Op.access]))]
    exact agree_did ha _
  case outputZero =>
    refine ⟨_, rfl, agree_less ?_⟩
    dsimp only [portWrite]
    rw [agree_bc ha (agree_reads hr (by simp [Op.access]))]
    exact agree_did ha _
  case noOperation => exact ⟨_, rfl, agree_less ha⟩
  case enterHalt =>
    exact ⟨_, rfl, agree_less { h11 with halted := rfl, pc := h.pc, main := h11.main, alt := h11.alt, half := h11.half }⟩
  case disableInterrupts =>
    exact ⟨_, rfl, agree_less { h11 with iff1 := rfl, iff2 := rfl, main := h11.main, alt := h11.alt, half := h11.half }⟩
  case enableInterrupts =>
    exact ⟨_, rfl, agree_less { h11 with
      iff1 := rfl, iff2 := rfl, inhibit := rfl, main := h11.main, alt := h11.alt, half := h11.half }⟩
  case setMode m =>
    exact ⟨_, rfl, agree_less { h22 with im := rfl, main := h22.main, alt := h22.alt, half := h22.half }⟩
  case loadIFromA =>
    refine ⟨_, rfl, ?_⟩
    rw [h22.a]
    exact agree_setI h22 _
  case loadRFromA =>
    refine ⟨_, rfl, ?_⟩
    rw [h22.a]
    exact agree_setR h22 _
  case loadAFromI =>
    refine ⟨_, rfl, agree_less ?_⟩
    rw [h22.i (hr _ (by simp [Op.access]))]
    exact agree_setAWithIff2 h22 _
  case selectTable => exact ⟨_, rfl, agree_less h⟩
  case consumeByte =>
    refine ⟨_, rfl, agree_less ?_⟩
    dsimp only
    rw [h.pc]
    exact agree_setPc (agree_countM1 h 1) _

/-- The same of every row. -/
theorem agree_exec {i : Instr} (h : AgreeBut U s t) (hr : ∀ x ∈ ((opOf i).access s.params.rModel).reads, ¬ U x) {s' : State}
    (hs : exec i s = .next s') : ∃ t', exec i t = .next t' ∧ AgreeBut (Less U ((opOf i).access s.params.rModel).writes) s' t' := by
  rw [exec_eq] at hs ⊢
  exact agree_run h hr hs

end Agree

theorem regSet_eq {m n : RegSet} (ha : n.a = m.a) (hf : n.f = m.f) (hb : n.b = m.b) (hc : n.c = m.c) (hd : n.d = m.d)
    (he : n.e = m.e) (hh : n.h = m.h) (hl : n.l = m.l) : n = m := by
  cases m; cases n
  simp only at *
  subst_vars
  rfl

/-- Two states that agree but for shadow registers, and have the same ones and the same requests, are one state. -/
theorem agree_eq {U : Unspecified → Prop} {s t : State} (h : AgreeBut U s t) (hm : ∀ r, ¬ U (.main r))
    (hh : ∀ j k, ¬ U (.half j k)) (hi : ¬ U .i) (hr : ¬ U .r) (ha : t.alt = s.alt) (hn : t.nmiPending = s.nmiPending)
    (hl : t.intLine = s.intLine) (hv : t.intVector = s.intVector) : t = s := by
  have hreg : ∀ r, t.reg r = s.reg r := fun r => h.main r (hm r)
  have hx : ∀ j, t.idx j = s.idx j := fun j => by
    have h1 := h.half j .hi (hh j .hi)
    have h2 := h.half j .lo (hh j .lo)
    simp only [State.half] at h1 h2
    rw [← wordOf_hi_lo (t.idx j), ← wordOf_hi_lo (s.idx j), h1, h2]
  have m : t.main = s.main :=
    regSet_eq h.a h.f (hreg .b) (hreg .c) (hreg .d) (hreg .e) (hreg .h) (hreg .l)
  have x := hx .ix
  have y := hx .iy
  obtain ⟨-, -, -, -, -, -, sp, pc, i, r, f1, f2, im, hal, inh, bus, par, dr, un⟩ := h
  have i := i hi
  have r := r hr
  cases s; cases t
  simp only [State.idx] at *
  subst_vars
  rfl

end Sys2Proof.Machine
end

