-- ==== Sys2Proof/Laws/Flags.lean ====
section
/-! SUPPORT. What the flag engine computes, in integers: carry, half carry and overflow as comparisons of the exact
result. -/

namespace Sys2Proof.Machine

open Sys2Proof

/-! ### Bits and integers -/

theorem byte_top (x : Byte) : x.getLsbD 7 = decide (128 ≤ x.toNat) := by
  revert x; decide

theorem byte_toInt (x : Byte) : x.toInt = if 128 ≤ x.toNat then (x.toNat : Int) - 256 else x.toNat := by
  rw [BitVec.toInt_eq_toNat_cond]
  have := x.isLt
  split <;> split <;> omega

theorem word_top (x : Word) : x.getLsbD 15 = decide (32768 ≤ x.toNat) := by
  have h : x.getLsbD 15 = x.msb := by simp [BitVec.msb_eq_getLsbD_last]
  rw [h, BitVec.msb_eq_decide]

theorem word_toInt (x : Word) : x.toInt = if 32768 ≤ x.toNat then (x.toNat : Int) - 65536 else x.toNat := by
  rw [BitVec.toInt_eq_toNat_cond]
  have := x.isLt
  split <;> split <;> omega

theorem eq_zero_iff_toNat {n : Nat} (x : BitVec n) : (x == 0) = decide (x.toNat = 0) := by
  rw [Bool.eq_iff_iff, beq_iff_eq, decide_eq_true_eq]
  exact ⟨fun h => by rw [h]; simp, fun h => BitVec.eq_of_toNat_eq (by rw [h]; simp)⟩

/-- Signed overflow of a sum, as R183 computes it from the sign bits. -/
theorem overflow_add8 (a b r : Byte) (c : Nat) (hc : c ≤ 1) (hr : r.toNat = (a.toNat + b.toNat + c) % 256) :
    (~~~(a ^^^ b) &&& (a ^^^ r)).getLsbD 7 = overflows8 (a.toInt + b.toInt + c) := by
  have ha := a.isLt
  have hb := b.isLt
  simp only [BitVec.getLsbD_and, BitVec.getLsbD_not, BitVec.getLsbD_xor]
  simp only [byte_top, overflows8, byte_toInt, hr]
  by_cases h1 : 128 ≤ a.toNat <;> by_cases h2 : 128 ≤ b.toNat <;>
    simp only [h1, h2, decide_true, decide_false, if_true, if_false] <;> rw [Bool.eq_iff_iff] <;> simp <;> omega

/-- Signed overflow of a difference, as R184 computes it from the sign bits. -/
theorem overflow_sub8 (a b r : Byte) (c : Nat) (hc : c ≤ 1)
    (hr : (r.toNat : Int) = ((a.toNat : Int) - b.toNat - c) % 256) :
    ((a ^^^ b) &&& (a ^^^ r)).getLsbD 7 = overflows8 (a.toInt - b.toInt - c) := by
  have ha := a.isLt
  have hb := b.isLt
  have hr' := r.isLt
  simp only [BitVec.getLsbD_and, BitVec.getLsbD_xor]
  simp only [byte_top, overflows8, byte_toInt]
  by_cases h1 : 128 ≤ a.toNat <;> by_cases h2 : 128 ≤ b.toNat <;>
    simp only [h1, h2, decide_true, decide_false, if_true, if_false] <;> rw [Bool.eq_iff_iff] <;> simp <;> omega

theorem overflow_add16 (a b r : Word) (c : Nat) (hc : c ≤ 1) (hr : r.toNat = (a.toNat + b.toNat + c) % 65536) :
    (~~~(a ^^^ b) &&& (a ^^^ r)).getLsbD 15 = overflows16 (a.toInt + b.toInt + c) := by
  have ha := a.isLt
  have hb := b.isLt
  simp only [BitVec.getLsbD_and, BitVec.getLsbD_not, BitVec.getLsbD_xor]
  simp only [word_top, overflows16, word_toInt, hr]
  by_cases h1 : 32768 ≤ a.toNat <;> by_cases h2 : 32768 ≤ b.toNat <;>
    simp only [h1, h2, decide_true, decide_false, if_true, if_false] <;> rw [Bool.eq_iff_iff] <;> simp <;> omega

theorem overflow_sub16 (a b r : Word) (c : Nat) (hc : c ≤ 1)
    (hr : (r.toNat : Int) = ((a.toNat : Int) - b.toNat - c) % 65536) :
    ((a ^^^ b) &&& (a ^^^ r)).getLsbD 15 = overflows16 (a.toInt - b.toInt - c) := by
  have ha := a.isLt
  have hb := b.isLt
  have hr' := r.isLt
  simp only [BitVec.getLsbD_and, BitVec.getLsbD_xor]
  simp only [word_top, overflows16, word_toInt]
  by_cases h1 : 32768 ≤ a.toNat <;> by_cases h2 : 32768 ≤ b.toNat <;>
    simp only [h1, h2, decide_true, decide_false, if_true, if_false] <;> rw [Bool.eq_iff_iff] <;> simp <;> omega

theorem pack_eq_flags {f : Byte} {b b' : FlagBits} (h : f = b.pack) (e : b = b') : FlagsAre f b' := by
  subst h e; exact pack_flags b

/-! ### 8-bit arithmetic -/

theorem add8_result (a b : Byte) (c : Bool) : (add8 a b c).1.toNat = (a.toNat + b.toNat + c.toNat) % 256 := by
  simp [add8]

/-- `add8` (R183). -/
theorem add8_flags (a b : Byte) (c : Bool) :
    FlagsAre (add8 a b c).2
      { s := (add8 a b c).1.getLsbD 7
        z := decide ((add8 a b c).1.toNat = 0)
        y := (add8 a b c).1.getLsbD 5
        h := decide (16 ≤ a.toNat % 16 + b.toNat % 16 + c.toNat)
        x := (add8 a b c).1.getLsbD 3
        pv := overflows8 (a.toInt + b.toInt + c.toNat)
        n := false
        c := decide (256 ≤ a.toNat + b.toNat + c.toNat) } := by
  have hp := overflow_add8 a b (add8 a b c).1 c.toNat (by cases c <;> simp) (add8_result a b c)
  refine pack_eq_flags rfl ?_
  simp only [sz53, FlagBits.mk.injEq, eq_zero_iff_toNat, ge_iff_le]
  refine ⟨?_, ?_, ?_, ?_, ?_, hp, ?_, ?_⟩ <;> trivial

theorem toNat_ofInt8 (v : Int) : ((BitVec.ofInt 8 v).toNat : Int) = v % 256 := by
  rw [BitVec.toNat_ofInt]
  have := Int.emod_nonneg v (b := 256) (by decide)
  simp only [Nat.reducePow]
  omega

theorem toNat_ofInt16 (v : Int) : ((BitVec.ofInt 16 v).toNat : Int) = v % 65536 := by
  rw [BitVec.toNat_ofInt]
  have := Int.emod_nonneg v (b := 65536) (by decide)
  simp only [Nat.reducePow]
  omega

theorem sub8_result (a b : Byte) (c : Bool) :
    ((sub8 a b c).1.toNat : Int) = ((a.toNat : Int) - b.toNat - c.toNat) % 256 := toNat_ofInt8 _

/-- `sub8` (R184). -/
theorem sub8_flags (a b : Byte) (c : Bool) :
    FlagsAre (sub8 a b c).2
      { s := (sub8 a b c).1.getLsbD 7
        z := decide ((sub8 a b c).1.toNat = 0)
        y := (sub8 a b c).1.getLsbD 5
        h := decide (a.toNat % 16 < b.toNat % 16 + c.toNat)
        x := (sub8 a b c).1.getLsbD 3
        pv := overflows8 (a.toInt - b.toInt - c.toNat)
        n := true
        c := decide (a.toNat < b.toNat + c.toNat) } := by
  have hp := overflow_sub8 a b (sub8 a b c).1 c.toNat (by cases c <;> simp) (sub8_result a b c)
  refine pack_eq_flags rfl ?_
  simp only [sz53, FlagBits.mk.injEq, eq_zero_iff_toNat]
  refine ⟨rfl, rfl, rfl, ?_, rfl, hp, trivial, ?_⟩ <;> rw [decide_eq_decide] <;> omega

theorem sub8_noBorrow (a b : Byte) : (sub8 a b false).1 = a - b := by
  apply BitVec.eq_of_toNat_eq
  have h := sub8_result a b false
  have := (a - b).isLt
  rw [BitVec.toNat_sub] at this ⊢
  have ha := a.isLt
  have hb := b.isLt
  simp only [Bool.toNat_false] at h
  omega

/-- `cp8` (R185). -/
theorem cp8_flags (a b : Byte) :
    FlagsAre (cp8 a b)
      { s := (a - b).getLsbD 7
        z := decide (a = b)
        y := b.getLsbD 5
        h := decide (a.toNat % 16 < b.toNat % 16)
        x := b.getLsbD 3
        pv := overflows8 (a.toInt - b.toInt)
        n := true
        c := decide (a.toNat < b.toNat) } := by
  have h := sub8_flags a b false
  rw [sub8_noBorrow] at h
  simp only [Bool.toNat_false, Nat.add_zero, Nat.cast_zero, Int.sub_zero] at h
  refine pack_eq_flags rfl ?_
  simp only [FlagBits.unpack, h.s, h.z, h.h, h.pv, h.n, h.c, FlagBits.mk.injEq]
  refine ⟨trivial, ?_, rfl, trivial, rfl, trivial, trivial, trivial⟩
  rw [decide_eq_decide]
  have ha := a.isLt
  have hb := b.isLt
  constructor <;> intro e <;> bv_omega

/-- The number of 1 bits decides `parity8` (R181). -/
theorem parity8_card (v : Byte) :
    parity8 v = decide (((Finset.range 8).filter (fun k => v.getLsbD k = true)).card % 2 = 0) := by
  revert v; decide

/-- `logic8` (R186). -/
theorem logic8_flags (v : Byte) (isAnd : Bool) :
    FlagsAre (logic8 v isAnd)
      { s := v.getLsbD 7
        z := decide (v = 0)
        y := v.getLsbD 5
        h := isAnd
        x := v.getLsbD 3
        pv := parity8 v
        n := false
        c := false } := pack_eq_flags rfl rfl

/-- `inc8` (R187). -/
theorem inc8_flags (v f : Byte) :
    FlagsAre (inc8 v f).2
      { s := (v + 1).getLsbD 7
        z := decide (v = 0xFF)
        y := (v + 1).getLsbD 5
        h := decide (v.toNat % 16 = 15)
        x := (v + 1).getLsbD 3
        pv := decide (v = 0x7F)
        n := false
        c := flagC f } := by
  refine pack_eq_flags rfl ?_
  simp only [sz53, FlagBits.mk.injEq]
  refine ⟨trivial, ?_, trivial, rfl, trivial, rfl, trivial, trivial⟩
  revert v; decide

/-- `dec8` (R188). -/
theorem dec8_flags (v f : Byte) :
    FlagsAre (dec8 v f).2
      { s := (v - 1).getLsbD 7
        z := decide (v = 0x01)
        y := (v - 1).getLsbD 5
        h := decide (v.toNat % 16 = 0)
        x := (v - 1).getLsbD 3
        pv := decide (v = 0x80)
        n := true
        c := flagC f } := by
  refine pack_eq_flags rfl ?_
  simp only [sz53, FlagBits.mk.injEq]
  refine ⟨trivial, ?_, trivial, rfl, trivial, rfl, trivial, trivial⟩
  revert v; decide

/-! ### 16-bit arithmetic -/

theorem add16_result (a b : Word) (f : Byte) : (add16 a b f).1.toNat = (a.toNat + b.toNat) % 65536 := by
  simp [add16]

/-- `add16` (R191). -/
theorem add16_flags (a b : Word) (f : Byte) :
    FlagsAre (add16 a b f).2
      { FlagBits.unpack f with
        y := (add16 a b f).1.getLsbD 13
        h := decide (4096 ≤ a.toNat % 4096 + b.toNat % 4096)
        x := (add16 a b f).1.getLsbD 11
        n := false
        c := decide (65536 ≤ a.toNat + b.toNat) } := pack_eq_flags rfl rfl

theorem adc16_result (a b : Word) (f : Byte) :
    (adc16 a b f).1.toNat = (a.toNat + b.toNat + (flagC f).toNat) % 65536 := by
  simp [adc16]

/-- `adc16` (R192). -/
theorem adc16_flags (a b : Word) (f : Byte) :
    FlagsAre (adc16 a b f).2
      { s := (adc16 a b f).1.getLsbD 15
        z := decide ((adc16 a b f).1 = 0)
        y := (adc16 a b f).1.getLsbD 13
        h := decide (4096 ≤ a.toNat % 4096 + b.toNat % 4096 + (flagC f).toNat)
        x := (adc16 a b f).1.getLsbD 11
        pv := overflows16 (a.toInt + b.toInt + (flagC f).toNat)
        n := false
        c := decide (65536 ≤ a.toNat + b.toNat + (flagC f).toNat) } := by
  have hp := overflow_add16 a b (adc16 a b f).1 (flagC f).toNat (by cases flagC f <;> simp) (adc16_result a b f)
  refine pack_eq_flags rfl ?_
  simp only [FlagBits.mk.injEq]
  refine ⟨?_, ?_, ?_, ?_, ?_, hp, ?_, ?_⟩ <;> trivial

theorem sbc16_result (a b : Word) (f : Byte) :
    ((sbc16 a b f).1.toNat : Int) = ((a.toNat : Int) - b.toNat - (flagC f).toNat) % 65536 := toNat_ofInt16 _

/-- `sbc16` (R193). -/
theorem sbc16_flags (a b : Word) (f : Byte) :
    FlagsAre (sbc16 a b f).2
      { s := (sbc16 a b f).1.getLsbD 15
        z := decide ((sbc16 a b f).1 = 0)
        y := (sbc16 a b f).1.getLsbD 13
        h := decide (a.toNat % 4096 < b.toNat % 4096 + (flagC f).toNat)
        x := (sbc16 a b f).1.getLsbD 11
        pv := overflows16 (a.toInt - b.toInt - (flagC f).toNat)
        n := true
        c := decide (a.toNat < b.toNat + (flagC f).toNat) } := by
  have hp := overflow_sub16 a b (sbc16 a b f).1 (flagC f).toNat (by cases flagC f <;> simp) (sbc16_result a b f)
  refine pack_eq_flags rfl ?_
  simp only [FlagBits.mk.injEq]
  refine ⟨rfl, rfl, rfl, ?_, rfl, hp, trivial, ?_⟩ <;> rw [decide_eq_decide] <;> omega

/-! ### Decimal adjust, accumulator and carry operations -/

/-- The new A of `daa` from A and the three flags it reads (R194). -/
theorem daa_result (a f : Byte) :
    ((daa a f).1.toNat : Int) =
      (if flagN f then (a.toNat : Int) - (6 * (flagH f || decide (9 < a.toNat % 16)).toNat +
          0x60 * (flagC f || decide (0x99 < a.toNat)).toNat : Nat)
       else (a.toNat : Int) + (6 * (flagH f || decide (9 < a.toNat % 16)).toNat +
          0x60 * (flagC f || decide (0x99 < a.toNat)).toNat : Nat)) % 256 := by
  simp only [daa]
  generalize flagN f = n
  generalize flagH f = h
  generalize flagC f = c
  cases n <;> cases h <;> cases c <;> revert a <;> decide

/-- `daa` (R194). -/
theorem daa_flags (a f : Byte) :
    FlagsAre (daa a f).2
      { s := (daa a f).1.getLsbD 7
        z := decide ((daa a f).1 = 0)
        y := (daa a f).1.getLsbD 5
        h := if flagN f then flagH f && decide (a.toNat % 16 < 6) else decide (9 < a.toNat % 16)
        x := (daa a f).1.getLsbD 3
        pv := parity8 (daa a f).1
        n := flagN f
        c := flagC f || decide (0x99 < a.toNat) } := pack_eq_flags rfl rfl

/-- `CPL` (R349). -/
theorem cplA_flags (a f : Byte) :
    FlagsAre (cplA a f).2
      { FlagBits.unpack f with y := (cplA a f).1.getLsbD 5, h := true, x := (cplA a f).1.getLsbD 3, n := true } :=
  pack_eq_flags rfl rfl

/-- `CCF` (R351). -/
theorem ccf_flags (f yx : Byte) :
    FlagsAre (ccfFlags f yx)
      { FlagBits.unpack f with y := flagY yx, h := flagC f, x := flagX yx, n := false, c := !flagC f } :=
  pack_eq_flags rfl rfl

/-- `SCF` (R352). -/
theorem scf_flags (f yx : Byte) :
    FlagsAre (scfFlags f yx)
      { FlagBits.unpack f with y := flagY yx, h := false, x := flagX yx, n := false, c := true } :=
  pack_eq_flags rfl rfl

/-! ### Rotates -/

/-- `rota_flags` (R190). -/
theorem rotaFlags_flags (res f : Byte) (c : Bool) :
    FlagsAre (rotaFlags res c f)
      { FlagBits.unpack f with y := res.getLsbD 5, h := false, x := res.getLsbD 3, n := false, c := c } :=
  pack_eq_flags rfl rfl

/-- The flags of a `CB` rotate (R189). -/
theorem rotCb_flags (op : RotOp) (v f : Byte) :
    FlagsAre (rotCb op v f).2
      { s := (rotCb op v f).1.getLsbD 7
        z := decide ((rotCb op v f).1 = 0)
        y := (rotCb op v f).1.getLsbD 5
        h := false
        x := (rotCb op v f).1.getLsbD 3
        pv := parity8 (rotCb op v f).1
        n := false
        c := (rot8 op v (flagC f)).2 } := pack_eq_flags rfl rfl

/-! ### Block operations, bit test and input -/

/-- `ldx_flags` (R195). -/
theorem ldx_flags (t a : Byte) (bc : Word) (f : Byte) :
    FlagsAre (ldxFlags t a bc f)
      { FlagBits.unpack f with y := (t + a).getLsbD 1, h := false, x := (t + a).getLsbD 3, pv := decide (bc ≠ 0), n := false } :=
  pack_eq_flags rfl (by simp only [bne, beq_eq_decide, ne_eq, decide_not])

/-- `cpx_flags` (R196). -/
theorem cpx_flags (a t : Byte) (bc : Word) (f : Byte) :
    FlagsAre (cpxFlags a t bc f)
      { s := (a - t).getLsbD 7
        z := decide (a = t)
        y := (a - t - BitVec.ofNat 8 (decide (a.toNat % 16 < t.toNat % 16)).toNat).getLsbD 1
        h := decide (a.toNat % 16 < t.toNat % 16)
        x := (a - t - BitVec.ofNat 8 (decide (a.toNat % 16 < t.toNat % 16)).toNat).getLsbD 3
        pv := decide (bc ≠ 0)
        n := true
        c := flagC f } := by
  have hz : ((a - t) == 0) = decide (a = t) := by
    rw [beq_eq_decide, decide_eq_decide]
    constructor <;> intro h <;> bv_omega
  have hk : (if decide (a.toNat % 16 < t.toNat % 16) = true then 1 else 0 : Byte) =
      BitVec.ofNat 8 (decide (a.toNat % 16 < t.toNat % 16)).toNat := by
    cases decide (a.toNat % 16 < t.toNat % 16) <;> rfl
  refine pack_eq_flags rfl ?_
  simp only [hz, hk, bne, beq_eq_decide, ne_eq, decide_not]

/-- `blkio_flags` (R197). -/
theorem blkio_flags (t : Byte) (k : Nat) (b : Byte) :
    FlagsAre (blkioFlags t k b)
      { s := b.getLsbD 7
        z := decide (b = 0)
        y := b.getLsbD 5
        h := decide (255 < k)
        x := b.getLsbD 3
        pv := parity8 (BitVec.ofNat 8 (k % 8) ^^^ b)
        n := t.getLsbD 7
        c := decide (255 < k) } := pack_eq_flags rfl rfl

/-- `bit_flags` (R198). -/
theorem bit_flags (b : BitVec 3) (v xy f : Byte) :
    FlagsAre (bitFlags b v xy f)
      { s := decide (b = 7) && v.getLsbD 7
        z := !v.getLsbD b.toNat
        y := xy.getLsbD 5
        h := true
        x := xy.getLsbD 3
        pv := !v.getLsbD b.toNat
        n := false
        c := flagC f } := pack_eq_flags rfl rfl

/-- `in_flags` (R199). -/
theorem in_flags (v : Byte) (pv : Bool) (f : Byte) :
    FlagsAre (inFlags v pv f)
      { s := v.getLsbD 7
        z := decide (v = 0)
        y := v.getLsbD 5
        h := false
        x := v.getLsbD 3
        pv := pv
        n := false
        c := flagC f } := pack_eq_flags rfl rfl

end Sys2Proof.Machine
end

