-- ==== Sys2Proof/Laws/Step.lean ====
section
/-! SUPPORT. What a step comes down to: interrupt entry, `HALT` again, or the bytes fetched from PC up and the row they
decode to. -/

namespace Sys2Proof.Machine

open Sys2Proof Sys2Proof.Laws

/-! ### Fetching -/

theorem fetchDone_eq (n : Nat) (a : Word) (s : State) :
    fetchDone n a s = s.didAll (fetches a (fetchBytes n a s)) := by
  induction n generalizing a s with
  | zero => rfl
  | succ n ih => exact ih (a + 1) (memReadDone a s)

@[simp] theorem fetchBytes_length (n : Nat) (a : Word) (s : State) : (fetchBytes n a s).length = n := by
  induction n generalizing a s with
  | zero => rfl
  | succ n ih => simp [fetchBytes, ih]

theorem answered_fetchBytes (n : Nat) (a : Word) (s : State) : Answered (fetches a (fetchBytes n a s)) s := by
  induction n generalizing a s with
  | zero => trivial
  | succ n ih => exact ⟨rfl, ih (a + 1) (memReadDone a s)⟩

/-- What the machine answers to fetches is one sequence of bytes. -/
theorem fetchBytes_of_answered {bs : List Byte} {a : Word} {s : State} (h : Answered (fetches a bs) s) :
    fetchBytes bs.length a s = bs := by
  induction bs generalizing a s with
  | nil => rfl
  | cons b bs ih =>
    obtain ⟨hb, hr⟩ := h
    subst hb
    exact congrArg (memRead s a :: ·) (ih hr)

theorem fetches_append (a : Word) (bs cs : List Byte) :
    fetches a (bs ++ cs) = fetches a bs ++ fetches (a + BitVec.ofNat 16 bs.length) cs := by
  induction bs generalizing a with
  | nil => simp [fetches]
  | cons b bs ih =>
    simp only [List.cons_append, fetches, ih, List.length_cons]
    rw [Nat.add_comm, BitVec.ofNat_add, ← BitVec.add_assoc]
    rfl

@[simp] theorem portCount_fetches (a : Word) (bs : List Byte) : portCount (fetches a bs) = 0 := by
  induction bs generalizing a with
  | nil => rfl
  | cons b bs ih => exact ih _

/-! ### How many bytes a row has -/

/-- What the byte after an opcode does not decide. -/
structure SameShape (i j : Instr) : Prop where
  length : i.length = j.length
  ignored : i.isIgnoredPrefix = j.isIgnoredPrefix
  halt : i = .halt → j = .halt

theorem main_shape (op b1 b2 : Byte) : SameShape (decodeMain op b1 b2) (decodeMain op 0 0) := by
  unfold decodeMain decodeMain0 decodeMain1 decodeMain2 decodeMain3 aluN aluR aluHl
  repeat' split
  all_goals exact ⟨rfl, rfl, by first | exact id | nofun⟩

theorem ed_shape (op b1 b2 : Byte) : SameShape (decodeEd op b1 b2) (decodeEd op 0 0) := by
  unfold decodeEd decodeEd1 blockOf
  repeat' split
  all_goals exact ⟨rfl, rfl, nofun⟩

theorem dd_shape (op b1 b2 : Byte) : SameShape (decodeDd op b1 b2) (decodeDd op 0 0) := by
  unfold decodeDd decodeHalfOr aluIxHalf aluIxD
  repeat' split
  all_goals exact ⟨rfl, rfl, nofun⟩

theorem fd_shape (op b1 b2 : Byte) : SameShape (decodeFd op b1 b2) (decodeFd op 0 0) := by
  unfold decodeFd decodeHalfOr aluIyHalf aluIyD
  repeat' split
  all_goals exact ⟨rfl, rfl, nofun⟩

theorem ddCb_shape (d op : Byte) : SameShape (decodeDdCb d op) (.rlcIxD 0) := by
  unfold decodeDdCb rotIxD rotIxDCopy
  repeat' split
  all_goals exact ⟨rfl, rfl, nofun⟩

theorem fdCb_shape (d op : Byte) : SameShape (decodeFdCb d op) (.rlcIxD 0) := by
  unfold decodeFdCb rotIyD rotIyDCopy
  repeat' split
  all_goals exact ⟨rfl, rfl, nofun⟩

/-- The tables without operand bytes, opcode by opcode. -/
theorem table_shapes : ∀ op : Byte,
    ((decodeCb op).length = 2 ∧ (decodeCb op).isIgnoredPrefix = false ∧ decodeCb op ≠ .halt) ∧
    (2 ≤ (decodeEd op 0 0).length ∧ (decodeEd op 0 0).isIgnoredPrefix = false ∧ decodeEd op 0 0 ≠ .halt) ∧
    (decodeDd op 0 0 ≠ .halt ∧
      (op ≠ 0xCB → (decodeDd op 0 0).isIgnoredPrefix = false → 2 ≤ (decodeDd op 0 0).length)) ∧
    (decodeFd op 0 0 ≠ .halt ∧
      (op ≠ 0xCB → (decodeFd op 0 0).isIgnoredPrefix = false → 2 ≤ (decodeFd op 0 0).length)) ∧
    (decodeMain op 0 0).isIgnoredPrefix = false ∧ (isPrefixByte op = false → 1 ≤ (decodeMain op 0 0).length) ∧
    (decodeMain op 0 0 = .halt → op = 0x76) := by decide

theorem length_ignored {i : Instr} (h : i.isIgnoredPrefix = true) : i.length = 1 := by
  cases i <;> first | rfl | cases h

/-- The first byte of a row, and after a prefix its second, say how long the row is and whether it is an ignored prefix;
`HALT` is one byte. -/
theorem window_shape (b0 b1 b2 b3 : Byte) :
    SameShape (decodeWindow b0 b1 b2 b3).instr (decodeWindow b0 (if isPrefixByte b0 then b1 else 0) 0 0).instr ∧
      ((decodeWindow b0 b1 b2 b3).instr.isIgnoredPrefix = false →
        1 ≤ (decodeWindow b0 b1 b2 b3).instr.length ∧
        (isPrefixByte b0 = true → 2 ≤ (decodeWindow b0 b1 b2 b3).instr.length)) ∧
      ((decodeWindow b0 b1 b2 b3).instr.isIgnoredPrefix = true → isIndexByte b0 = true) ∧
      ((decodeWindow b0 b1 b2 b3).instr = .halt → b0 = 0x76) := by
  obtain ⟨⟨c1, c2, c3⟩, ⟨e1, e2, e3⟩, ⟨d1, d2⟩, ⟨f1, f2⟩, -⟩ := table_shapes b1
  obtain ⟨-, -, -, -, m1, m2, m3⟩ := table_shapes b0
  by_cases h1 : b0 = 0xCB#8
  · subst h1
    exact ⟨⟨rfl, rfl, id⟩, fun _ => ⟨le_trans (by decide) c1.ge, fun _ => c1.ge⟩, fun h => absurd (c2.symm.trans h) (by simp),
      fun h => absurd h c3⟩
  by_cases h2 : b0 = 0xED#8
  · subst h2
    have k := ed_shape b1 b2 b3
    have k2 := k.length ▸ e1
    exact ⟨k, fun _ => ⟨le_trans (by decide) k2, fun _ => k2⟩, fun h => absurd (e2.symm.trans (k.ignored.symm.trans h)) (by simp),
      fun h => absurd (k.halt h) e3⟩
  by_cases h3 : b0 = 0xDD#8
  · subst h3
    by_cases hc : b1 = 0xCB#8
    · subst hc
      have k := ddCb_shape b2 b3
      have k2 : 2 ≤ (decodeDdCb b2 b3).length := k.length ▸ by decide
      exact ⟨⟨k.length.trans (ddCb_shape 0 0).length.symm, k.ignored.trans (ddCb_shape 0 0).ignored.symm, fun h => absurd (k.halt h) nofun⟩,
        fun _ => ⟨le_trans (by decide) k2, fun _ => k2⟩, fun _ => rfl, fun h => absurd (k.halt h) nofun⟩
    · have k := dd_shape b1 b2 b3
      have e : ∀ x y, decodeWindow 0xDD#8 b1 x y = ⟨[.prefixDd], decodeDd b1 x y⟩ := fun x y => by simp [decodeWindow, hc]
      have hp : isPrefixByte 0xDD#8 = true := rfl
      simp only [hp, if_true, e]
      refine ⟨k, fun h => ?_, fun _ => rfl, fun h => absurd (k.halt h) d1⟩
      have k2 := k.length ▸ d2 hc (k.ignored ▸ h)
      exact ⟨le_trans (by decide) k2, fun _ => k2⟩
  by_cases h4 : b0 = 0xFD#8
  · subst h4
    by_cases hc : b1 = 0xCB#8
    · subst hc
      have k := fdCb_shape b2 b3
      have k2 : 2 ≤ (decodeFdCb b2 b3).length := k.length ▸ by decide
      exact ⟨⟨k.length.trans (fdCb_shape 0 0).length.symm, k.ignored.trans (fdCb_shape 0 0).ignored.symm, fun h => absurd (k.halt h) nofun⟩,
        fun _ => ⟨le_trans (by decide) k2, fun _ => k2⟩, fun _ => rfl, fun h => absurd (k.halt h) nofun⟩
    · have k := fd_shape b1 b2 b3
      have e : ∀ x y, decodeWindow 0xFD#8 b1 x y = ⟨[.prefixFd], decodeFd b1 x y⟩ := fun x y => by simp [decodeWindow, hc]
      have hp : isPrefixByte 0xFD#8 = true := rfl
      simp only [hp, if_true, e]
      refine ⟨k, fun h => ?_, fun _ => rfl, fun h => absurd (k.halt h) f1⟩
      have k2 := k.length ▸ f2 hc (k.ignored ▸ h)
      exact ⟨le_trans (by decide) k2, fun _ => k2⟩
  · have hp : isPrefixByte b0 = false := by simp [isPrefixByte, h1, h2, h3, h4]
    have e : ∀ x y z, decodeWindow b0 x y z = ⟨[], decodeMain b0 x y⟩ := fun x y z => by simp [decodeWindow, h1, h2, h3, h4]
    have k := main_shape b0 b1 b2
    simp only [hp, Bool.false_eq_true, if_false, e]
    exact ⟨k, fun _ => ⟨k.length ▸ m2 hp, nofun⟩, fun h => absurd (m1.symm.trans (k.ignored.symm.trans h)) (by simp),
      fun h => m3 (k.halt h)⟩

/-- The row that begins with `bs` decodes as `bs` followed by anything. -/
theorem decode_bytes {bs : List Byte} (h : bs ≠ []) : decode (bs ++ [0, 0, 0]) = .ok (decodeBytes bs) := by
  rcases bs with _ | ⟨a, _ | ⟨b, _ | ⟨c, _ | ⟨d, rest⟩⟩⟩⟩
  · exact absurd rfl h
  all_goals rfl

/-- The bytes fetched for a row that is no ignored prefix are as many as its row has. -/
theorem rowLength_of_row {b0 : Byte} {s : State} {rest : List Byte} (ha : Answered (fetches (s.pc + 1) rest) s)
    (hi : (decodeBytes (b0 :: rest)).instr.isIgnoredPrefix = false)
    (hl : (b0 :: rest).length = (decodeBytes (b0 :: rest)).instr.length) : rowLength b0 s = (b0 :: rest).length := by
  obtain ⟨⟨h1, -, -⟩, h3, -⟩ := window_shape b0 ((b0 :: rest).getD 1 0) ((b0 :: rest).getD 2 0) ((b0 :: rest).getD 3 0)
  have e : decodeBytes (b0 :: rest) =
      decodeWindow b0 ((b0 :: rest).getD 1 0) ((b0 :: rest).getD 2 0) ((b0 :: rest).getD 3 0) := rfl
  rw [← e] at h1 h3
  obtain ⟨-, h4⟩ := h3 hi
  unfold rowLength
  cases hp : isPrefixByte b0
  · rw [hl, h1, hp]; rfl
  · have h5 := h4 hp
    rw [hp] at h1
    rcases rest with _ | ⟨b1, rest⟩
    · simp at hl; omega
    · have hb : b1 = memRead s (s.pc + 1) := ha.1
      simp only [if_true]
      have e2 : (decodeBytes [b0, memRead s (s.pc + 1)]).instr.length = (decodeBytes (b0 :: b1 :: rest)).instr.length := by
        rw [h1, ← hb]; rfl
      rw [e2, hl]; omega

/-- The bytes fetched for a row decode to it, and there are two of them for an ignored prefix. -/
theorem rowBytes_shape (b0 : Byte) (s : State) :
    (decodeBytes (rowBytes b0 s)).instr.isIgnoredPrefix = false ∧
        (rowBytes b0 s).length = (decodeBytes (rowBytes b0 s)).instr.length ∨
      (decodeBytes (rowBytes b0 s)).instr.isIgnoredPrefix = true ∧ rowBytes b0 s = [b0, memRead s (s.pc + 1)] ∧
        isIndexByte b0 = true := by
  have hb : ∀ n, fetchBytes (n + 1) (s.pc + 1) s =
      memRead s (s.pc + 1) :: fetchBytes n (s.pc + 1 + 1) (memReadDone (s.pc + 1) s) := fun _ => rfl
  obtain ⟨⟨h1, -, -⟩, h3, h4, -⟩ := window_shape b0 ((rowBytes b0 s).getD 1 0) ((rowBytes b0 s).getD 2 0) ((rowBytes b0 s).getD 3 0)
  have e : decodeBytes (rowBytes b0 s) =
      decodeWindow b0 ((rowBytes b0 s).getD 1 0) ((rowBytes b0 s).getD 2 0) ((rowBytes b0 s).getD 3 0) := rfl
  rw [← e] at h1 h3 h4
  have hlen : (rowBytes b0 s).length = rowLength b0 s - 1 + 1 := by simp [rowBytes]
  cases hp : isPrefixByte b0
  · rw [hp] at h1
    have hr : rowLength b0 s = (decodeBytes (rowBytes b0 s)).instr.length := by
      rw [h1]; simp only [rowLength, hp, Bool.false_eq_true, if_false]; rfl
    cases hi : (decodeBytes (rowBytes b0 s)).instr.isIgnoredPrefix
    · have := (h3 hi).1
      exact .inl ⟨rfl, by omega⟩
    · have := h4 hi
      simp only [isIndexByte, Bool.or_eq_true, beq_iff_eq] at this
      rcases this with rfl | rfl <;> cases hp
  · have hl2 : 2 ≤ rowLength b0 s := by
      unfold rowLength; rw [hp]; simp
    have hg : (rowBytes b0 s).getD 1 0 = memRead s (s.pc + 1) := by
      unfold rowBytes
      obtain ⟨k, hk⟩ : ∃ k, rowLength b0 s - 1 = k + 1 := ⟨rowLength b0 s - 2, by omega⟩
      rw [hk, hb]; rfl
    rw [hp, hg] at h1
    simp only [if_true] at h1
    have hr : rowLength b0 s = max 2 (decodeBytes (rowBytes b0 s)).instr.length := by
      rw [h1]; simp only [rowLength, hp, if_true]; rfl
    cases hi : (decodeBytes (rowBytes b0 s)).instr.isIgnoredPrefix
    · have := (h3 hi).2 hp
      exact .inl ⟨rfl, by omega⟩
    · refine .inr ⟨rfl, ?_, h4 hi⟩
      have : rowLength b0 s = 2 := by rw [hr, length_ignored hi]; rfl
      unfold rowBytes
      rw [this]; rfl

/-! ### Running one row -/

@[simp] theorem markWritten_nil {i : Instr} {s : State} (h : ((opOf i).access s.params.rModel).writes = []) :
    markWritten i s = s := by
  simp [markWritten, h]

theorem markWritten_congr {i : Instr} {s t : State} (h : t.unwritten = s.unwritten) (hp : t.params = s.params) :
    (markWritten i t).unwritten = (markWritten i s).unwritten := by simp only [markWritten, h, hp]

/-- What is left unwritten after a row. -/
theorem mem_markWritten {i : Instr} {s : State} {x : Unspecified} :
    x ∈ (markWritten i s).unwritten ↔ x ∈ s.unwritten ∧ x ∉ ((opOf i).access s.params.rModel).writes := by
  simp [markWritten]

/-- Under `RESET_UNSPEC = draw` a row is its meaning. -/
theorem runRow_draw {s : State} (h : s.params.resetUnspec = .draw) (i : Instr) : runRow i s = exec i s := by
  simp only [runRow, h]

/-- A row that touches no unspecified register is its meaning, whatever `RESET_UNSPEC` is. -/
theorem runRow_noAccess {i : Instr} (h : ∀ m, (opOf i).access m = ⟨[], []⟩) (s : State) : runRow i s = exec i s := by
  unfold runRow
  cases s.params.resetUnspec
  · rfl
  · simp only [firstUnwritten, h, List.find?_nil]
    cases exec i s <;> simp [h]

/-- A row that answers a next state is its meaning, with what it wrote marked as written. -/
theorem runRow_next {i : Instr} {s t : State} (h : runRow i s = .next t) :
    ∃ u, exec i s = .next u ∧
      (s.params.resetUnspec = .draw ∧ t = u ∨
        s.params.resetUnspec = .faultOnRead ∧ t = markWritten i u ∧
          ∀ x ∈ ((opOf i).access s.params.rModel).reads, x ∉ s.unwritten) := by
  unfold runRow at h
  cases hr : s.params.resetUnspec <;> simp only [hr] at h
  · exact ⟨t, h, .inl ⟨rfl, rfl⟩⟩
  · cases hf : firstUnwritten i s <;> simp only [hf] at h
    · rcases hu : exec i s with u | f | r <;> rw [hu] at h <;> cases h
      refine ⟨u, rfl, .inr ⟨rfl, rfl, fun x hx hm => ?_⟩⟩
      have := List.find?_eq_none.mp hf x hx
      simp at this
      exact this hm
    · cases h

theorem runRow_fault {i : Instr} {s : State} {f : Fault} (h : runRow i s = .fault f) : exec i s = .fault f := by
  unfold runRow at h
  split at h
  · exact h
  · split at h
    · cases h
    · split at h <;> first | (cases h; done) | (cases h; assumption)

/-- A row is refused only for a register that nothing has written. -/
theorem runRow_refused {i : Instr} {s : State} {r : Refusal} (h : runRow i s = .refused r) :
    s.params.resetUnspec = .faultOnRead ∧
      ∃ x ∈ ((opOf i).access s.params.rModel).reads, x ∈ s.unwritten ∧ r = .unspecifiedRead x := by
  unfold runRow at h
  split at h
  · exact absurd h (exec_not_refused i s r)
  · rename_i hr
    split at h
    · rename_i x hx
      cases h
      exact ⟨hr, x, List.mem_of_find?_eq_some hx, by simpa using List.find?_some hx, rfl⟩
    · split at h
      · cases h
      · cases h
      · exact absurd ‹_› (exec_not_refused i s _)

/-- A row that reads no register that nothing has written is its meaning, and what it writes is then written. -/
theorem runRow_runs {i : Instr} {s : State} (hf : s.params.resetUnspec = .faultOnRead)
    (hr : ∀ x ∈ ((opOf i).access s.params.rModel).reads, x ∉ s.unwritten) :
    (∀ t, exec i s = .next t → runRow i s = .next (markWritten i t)) ∧
      ∀ f, exec i s = .fault f → runRow i s = .fault f := by
  have hn : firstUnwritten i s = none := by
    rw [firstUnwritten, List.find?_eq_none]
    intro x hx
    simpa using hr x hx
  exact ⟨fun t ht => by simp only [runRow, hf, hn, ht], fun f h => by simp only [runRow, hf, hn, h]⟩

/-- A row that reads a register that nothing has written is refused, for the first it reads. -/
theorem runRow_refuses {i : Instr} {s : State} (hr : s.params.resetUnspec = .faultOnRead) {x : Unspecified}
    (hx : ((opOf i).access s.params.rModel).reads.find? (fun x => s.unwritten.contains x) = some x) :
    runRow i s = .refused (.unspecifiedRead x) := by
  simp only [runRow, hr, firstUnwritten, hx]

theorem ignored_noAccess {i : Instr} (h : i.isIgnoredPrefix = true) (m : Config.RModel) : (opOf i).access m = ⟨[], []⟩ := by
  cases i <;> first | rfl | cases h

theorem tablePrefix_noAccess {i : Instr} (h : i.isTablePrefix = true) (m : Config.RModel) : (opOf i).access m = ⟨[], []⟩ := by
  cases i <;> first | rfl | cases h

theorem runRow_ignored {i : Instr} (h : i.isIgnoredPrefix = true) (s : State) : runRow i s = .next (skipPrefixes 1 s) := by
  rw [runRow_noAccess (ignored_noAccess h)]
  cases i <;> first | rfl | cases h

theorem runRow_tablePrefix {i : Instr} (h : i.isTablePrefix = true) (s : State) : runRow i s = .next s := by
  rw [runRow_noAccess (tablePrefix_noAccess h)]
  cases i <;> first | rfl | cases h

/-- What a row leaves alone, and its transactions (R99). -/
theorem runRow_frame {i : Instr} {s t : State} (h : runRow i s = .next t) :
    Frame (opOf i).effect s { t with unwritten := s.unwritten } ∧
      ∃ es, Transacts es s t ∧ portCount es = if (opOf i).reachesPorts then 1 else 0 := by
  obtain ⟨u, hu, ⟨-, rfl⟩ | ⟨-, rfl, -⟩⟩ := runRow_next h
  · have f := exec_frame hu
    exact ⟨by rw [← f.unwritten]; exact f, exec_transacts hu⟩
  · have f := exec_frame hu
    obtain ⟨es, k, hp⟩ := exec_transacts hu
    refine ⟨by rw [← f.unwritten]; exact f, es, ⟨k.bus, k.answered, k.cells, fun hq x hx h => ?_⟩, hp⟩
    rw [← k.reads hq x hx h]
    exact memRead_congr rfl rfl x

/-! ### The rows at PC -/

/-- The path of a window is made of table-selecting prefixes. -/
theorem decodeWindow_path (b0 b1 b2 b3 : Byte) : ∀ p ∈ (decodeWindow b0 b1 b2 b3).path, p.isTablePrefix = true := by
  have h1 : ∀ i : Instr, i.isTablePrefix = true → ∀ p ∈ [i], p.isTablePrefix = true := by simp
  have h2 : ∀ i j : Instr, i.isTablePrefix = true → j.isTablePrefix = true → ∀ p ∈ [i, j], p.isTablePrefix = true := by
    rintro i j h k p hp
    rcases List.mem_cons.mp hp with rfl | hp
    · exact h
    · exact h1 j k p hp
  unfold decodeWindow
  repeat' split
  all_goals first | exact h1 _ rfl | exact h2 _ _ rfl rfl | nofun

/-- The table-selecting prefixes before a row add nothing. -/
theorem runRows_path (path : List Instr) (i : Instr) (s : State) (h : ∀ p ∈ path, p.isTablePrefix = true) :
    runRows (path ++ [i]) s = runRow i s := by
  induction path with
  | nil =>
    show (match runRow i s with | .next t => runRows [] t | .fault f => .fault f | .refused r => .refused r) = _
    cases runRow i s <;> rfl
  | cons p rest ih =>
    show (match runRow p s with | .next t => runRows (rest ++ [i]) t | .fault f => .fault f | .refused r => .refused r) = _
    rw [runRow_tablePrefix (h p (by simp))]
    exact ih (fun q hq => h q (by simp [hq]))

/-- One turn of `executeFrom`. -/
theorem executeFrom_succ (fuel : Nat) (b0 : Byte) (s : State) :
    executeFrom (fuel + 1) b0 s =
      match runRow (decodeBytes (rowBytes b0 s)).instr (rowFetched b0 s) with
      | .next t =>
        if (decodeBytes (rowBytes b0 s)).instr.isIgnoredPrefix then executeFrom fuel ((rowBytes b0 s).getD 1 0) t
        else .next t
      | .fault f => .fault f
      | .refused r => .refused r := by
  show (match runRows ((decodeBytes (rowBytes b0 s)).path ++ [(decodeBytes (rowBytes b0 s)).instr]) (rowFetched b0 s) with
    | .next t =>
      if (decodeBytes (rowBytes b0 s)).instr.isIgnoredPrefix then executeFrom fuel ((rowBytes b0 s).getD 1 0) t
      else .next t
    | .fault f => .fault f
    | .refused r => .refused r) = _
  have hp : ∀ p ∈ (decodeBytes (rowBytes b0 s)).path, p.isTablePrefix = true := decodeWindow_path _ _ _ _
  rw [runRows_path _ _ _ hp]

/-- A row that is no ignored prefix ends the step. -/
theorem executeFrom_row (fuel : Nat) {b0 : Byte} {s : State}
    (hi : (decodeBytes (rowBytes b0 s)).instr.isIgnoredPrefix = false) :
    executeFrom (fuel + 1) b0 s = runRow (decodeBytes (rowBytes b0 s)).instr (rowFetched b0 s) := by
  rw [executeFrom_succ, hi]
  cases runRow (decodeBytes (rowBytes b0 s)).instr (rowFetched b0 s) <;> rfl

theorem rowFetched_eq (b0 : Byte) (s : State) :
    rowFetched b0 s = s.didAll (fetches (s.pc + 1) (rowBytes b0 s).tail) := fetchDone_eq _ _ _

theorem rowBytes_answered (b0 : Byte) (s : State) : Answered (fetches (s.pc + 1) (rowBytes b0 s).tail) s :=
  answered_fetchBytes _ _ _

/-- A whole row whose bytes the machine answers is what is fetched. -/
theorem rowBytes_of_answered {b0 : Byte} {s : State} {rest : List Byte} (ha : Answered (fetches (s.pc + 1) rest) s)
    (hi : (decodeBytes (b0 :: rest)).instr.isIgnoredPrefix = false)
    (hl : (b0 :: rest).length = (decodeBytes (b0 :: rest)).instr.length) : rowBytes b0 s = b0 :: rest := by
  unfold rowBytes
  rw [rowLength_of_row ha hi hl]
  exact congrArg (b0 :: ·) (fetchBytes_of_answered ha)

/-- An ignored prefix: its second byte is fetched and begins the next row. -/
theorem executeFrom_ignored (fuel : Nat) {b0 : Byte} {s : State}
    (h : (decodeBytes [b0, memRead s (s.pc + 1)]).instr.isIgnoredPrefix = true) :
    executeFrom (fuel + 1) b0 s =
      executeFrom fuel (memRead s (s.pc + 1)) (skipPrefixes 1 (memReadDone (s.pc + 1) s)) := by
  obtain ⟨k, -, hx, -⟩ := window_shape b0 (memRead s (s.pc + 1)) 0 0
  have hp : isPrefixByte b0 = true := by
    have := hx h
    simp only [isIndexByte, Bool.or_eq_true, beq_iff_eq] at this
    rcases this with rfl | rfl <;> rfl
  have hl : rowLength b0 s = 2 := by
    unfold rowLength; rw [hp, length_ignored h]; rfl
  have hb : rowBytes b0 s = [b0, memRead s (s.pc + 1)] := by unfold rowBytes; rw [hl]; rfl
  have hf : rowFetched b0 s = memReadDone (s.pc + 1) s := by unfold rowFetched; rw [hl]; rfl
  rw [executeFrom_succ, hb, hf, runRow_ignored h]
  simp only [h, if_true]
  rfl

/-! ### Ignored prefixes -/

@[simp] theorem skipPrefixes_pc (n : Nat) (s : State) : (skipPrefixes n s).pc = s.pc + BitVec.ofNat 16 n := rfl
@[simp] theorem skipPrefixes_bus (n : Nat) (s : State) : (skipPrefixes n s).bus = s.bus := by simp [skipPrefixes]
@[simp] theorem skipPrefixes_params (n : Nat) (s : State) : (skipPrefixes n s).params = s.params := by simp [skipPrefixes]

theorem skipPrefixes_zero (s : State) : skipPrefixes 0 s = s := by
  unfold skipPrefixes
  rw [countM1_zero, BitVec.add_zero]

theorem skipPrefixes_add (s : State) (m n : Nat) : skipPrefixes n (skipPrefixes m s) = skipPrefixes (m + n) s := by
  have h1 : (skipPrefixes m s).countM1 n = { (s.countM1 m).countM1 n with pc := s.pc + BitVec.ofNat 16 m } := by
    unfold skipPrefixes State.countM1
    cases h : s.params.rModel <;> simp only [h]
  show { (skipPrefixes m s).countM1 n with pc := s.pc + BitVec.ofNat 16 m + BitVec.ofNat 16 n } = _
  rw [h1, countM1_add]
  unfold skipPrefixes
  rw [BitVec.ofNat_add, ← BitVec.add_assoc]

theorem skipPrefixes_didAll (n : Nat) (s : State) (es : List BusEvent) :
    skipPrefixes n (s.didAll es) = (skipPrefixes n s).didAll es := by
  unfold skipPrefixes State.countM1 State.didAll
  dsimp only
  cases s.params.rModel <;> rfl

theorem skipPrefixes_frame (w : Effect) (n : Nat) (s : State) : Frame w s (skipPrefixes n s) := by
  apply frame_of_fields <;> simp [skipPrefixes]

theorem skipPrefixes_counted (n : Nat) (s : State) : Counted n s (skipPrefixes n s) := counted_of_eq (countM1_counted n s) rfl

/-! ### The rows of a step -/

theorem ignoredRun_index {pre : List Byte} {next : Byte} (h : IgnoredRun pre next) : ∀ b ∈ pre, isIndexByte b = true := by
  induction pre with
  | nil => nofun
  | cons p rest ih =>
    intro b hb
    rcases List.mem_cons.mp hb with rfl | hb
    · exact (window_shape b (rest.headD next) 0 0).2.2.1 h.1
    · exact ih h.2 b hb

theorem headD_append {pre bs rest : List Byte} {b : Byte} (h : b :: rest = pre ++ bs) (hb : bs ≠ []) :
    pre.headD (bs.headD 0) = b := by
  rcases pre with _ | ⟨p, pre⟩
  · rcases bs with _ | ⟨c, bs⟩
    · exact absurd rfl hb
    · exact (List.cons.inj h).1.symm
  · exact (List.cons.inj h).1.symm

theorem didAll_cons (s : State) (e : BusEvent) (es : List BusEvent) : s.didAll (e :: es) = (s.did e).didAll es := rfl

/-- The row after `pre.length` ignored prefixes is what the rows from here come to. -/
theorem executeFrom_runs {pre bs rest : List Byte} {fuel : Nat} {b0 : Byte} {s : State} (hc : b0 :: rest = pre ++ bs)
    (hb : bs ≠ []) (ha : Answered (fetches (s.pc + 1) rest) s) (hp : IgnoredRun pre (bs.headD 0))
    (hi : (decodeBytes bs).instr.isIgnoredPrefix = false) (hl : bs.length = (decodeBytes bs).instr.length)
    (hf : pre.length < fuel) :
    executeFrom fuel b0 s =
      runRow (decodeBytes bs).instr (skipPrefixes pre.length (s.didAll (fetches (s.pc + 1) rest))) := by
  induction pre generalizing fuel b0 s rest with
  | nil =>
    obtain ⟨fuel, rfl⟩ : ∃ k, fuel = k + 1 := ⟨fuel - 1, by simp at hf; omega⟩
    subst hc
    have hr := rowBytes_of_answered ha hi hl
    rw [executeFrom_row fuel (by rw [hr]; exact hi), hr, rowFetched_eq, hr]
    exact congrArg _ (skipPrefixes_zero _).symm
  | cons p pre ih =>
    obtain ⟨fuel, rfl⟩ : ∃ k, fuel = k + 1 := ⟨fuel - 1, by simp at hf; omega⟩
    have hc' : rest = pre ++ bs := (List.cons.inj hc).2
    obtain rfl : b0 = p := (List.cons.inj hc).1
    rcases rest with _ | ⟨b1, rest⟩
    · exact absurd (List.append_eq_nil_iff.mp hc'.symm).2 hb
    · have h1 := hp.1
      rw [headD_append hc' hb] at h1
      obtain ⟨rfl, ha⟩ := ha
      rw [executeFrom_ignored fuel h1,
        ih hc' ((answered_congr (s := memReadDone (s.pc + 1) s) (by simp) (by simp) _).mpr ha) hp.2 (by simpa using hf),
        ← skipPrefixes_didAll, skipPrefixes_add, Nat.add_comm]
      rfl

/-- The rows from here: a row after fewer than `fuel` ignored prefixes, or `fuel` ignored prefixes. -/
theorem executeFrom_cases (fuel : Nat) (b0 : Byte) (s : State) :
    ∃ pre bs rest, b0 :: rest = pre ++ bs ∧ bs ≠ [] ∧ Answered (fetches (s.pc + 1) rest) s ∧ IgnoredRun pre (bs.headD 0) ∧
      (pre.length < fuel ∧ (decodeBytes bs).instr.isIgnoredPrefix = false ∧
          bs.length = (decodeBytes bs).instr.length ∨
        pre.length = fuel ∧ executeFrom fuel b0 s = .refused .endlessPrefixRun) := by
  induction fuel generalizing b0 s with
  | zero => exact ⟨[], [b0], [], rfl, by simp, trivial, trivial, .inr ⟨rfl, rfl⟩⟩
  | succ fuel ih =>
    rcases rowBytes_shape b0 s with ⟨hi, hl⟩ | ⟨hi, hr, -⟩
    · exact ⟨[], rowBytes b0 s, (rowBytes b0 s).tail, rfl, by simp [rowBytes], rowBytes_answered b0 s, trivial,
        .inl ⟨Nat.succ_pos _, hi, hl⟩⟩
    · rw [hr] at hi
      obtain ⟨pre, bs, rest, hc, hb, ha, hp, h⟩ := ih (memRead s (s.pc + 1)) (skipPrefixes 1 (memReadDone (s.pc + 1) s))
      refine ⟨b0 :: pre, bs, memRead s (s.pc + 1) :: rest, by rw [hc]; rfl, hb,
        ⟨rfl, (answered_congr (s := memReadDone (s.pc + 1) s) (by simp) (by simp) _).mp ha⟩,
        ⟨by rw [headD_append hc hb]; exact hi, hp⟩, ?_⟩
      rw [executeFrom_ignored fuel hi]
      rcases h with ⟨h1, h2⟩ | ⟨h1, h2⟩
      · exact .inl ⟨Nat.succ_lt_succ h1, h2⟩
      · exact .inr ⟨congrArg Nat.succ h1, h2⟩

/-- `fuel` ignored prefixes end in the refusal. -/
theorem executeFrom_endless {pre rest : List Byte} {fuel : Nat} {b0 next : Byte} {s : State}
    (hc : b0 :: rest = pre ++ [next]) (ha : Answered (fetches (s.pc + 1) rest) s) (hp : IgnoredRun pre next)
    (hf : pre.length = fuel) : executeFrom fuel b0 s = .refused .endlessPrefixRun := by
  induction pre generalizing fuel b0 s rest with
  | nil => subst hf; rfl
  | cons p pre ih =>
    obtain ⟨fuel, rfl⟩ : ∃ k, fuel = k + 1 := ⟨fuel - 1, by simp at hf; omega⟩
    have hc' : rest = pre ++ [next] := (List.cons.inj hc).2
    obtain rfl : b0 = p := (List.cons.inj hc).1
    rcases rest with _ | ⟨b1, rest⟩
    · simp at hc'
    · have h1 := hp.1
      rw [show pre.headD next = b1 from headD_append hc' (by simp)] at h1
      obtain ⟨rfl, ha⟩ := ha
      rw [executeFrom_ignored fuel h1]
      exact ih hc' ((answered_congr (s := memReadDone (s.pc + 1) s) (by simp) (by simp) _).mpr ha) hp.2 (by simpa using hf)

/-! ### `execute_one` -/

/-- The record of a fault has the address of the first byte of the step (R711). -/
def named (a : Word) (o : Result) : Result :=
  match o with
  | .fault (.illegalOpcode _ x y b) => .fault (.illegalOpcode a x y b)
  | o => o

theorem executeOne_eq (s : State) :
    executeOne s = named s.pc (executeFrom 65536 (memRead s s.pc) (memReadDone s.pc s)) := rfl

theorem fetched_bytes {pre bs : List Byte} {i : Instr} {s : State} (h : Fetched pre bs i s) :
    bs ≠ [] ∧ (decodeBytes bs).instr = i := by
  obtain ⟨path, hd⟩ := h.decodes
  have hb : bs ≠ [] := by rintro rfl; cases hd
  rw [decode_bytes hb] at hd
  exact ⟨hb, by rw [Except.ok.inj hd]⟩

/-- `execute_one` runs the row fetched, after the ignored prefixes before it. -/
theorem executeOne_runs {pre bs : List Byte} {i : Instr} {s : State} (h : Fetched pre bs i s) (hn : pre.length < 65536) :
    executeOne s =
      named s.pc (runRow i (skipPrefixes pre.length (s.didAll (fetches s.pc (pre ++ bs))))) := by
  obtain ⟨hb, rfl⟩ := fetched_bytes h
  have ha := h.answered
  rw [executeOne_eq]
  rcases hc : pre ++ bs with _ | ⟨b0, rest⟩
  · exact absurd (List.append_eq_nil_iff.mp hc).2 hb
  · rw [hc] at ha
    obtain ⟨rfl, ha⟩ := ha
    rw [executeFrom_runs (s := memReadDone s.pc s) hc.symm hb ha h.prefixes h.row h.whole hn]
    rfl

/-- What `execute_one` comes to. -/
theorem executeOne_cases (s : State) :
    (∃ pre bs i, pre.length < 65536 ∧ Fetched pre bs i s) ∨
      executeOne s = .refused .endlessPrefixRun ∧
        ∃ pre next, pre.length = 65536 ∧ Answered (fetches s.pc (pre ++ [next])) s ∧ IgnoredRun pre next := by
  obtain ⟨pre, bs, rest, hc, hb, ha, hp, h⟩ := executeFrom_cases 65536 (memRead s s.pc) (memReadDone s.pc s)
  have ha' : Answered (fetches s.pc (pre ++ bs)) s := by rw [← hc]; exact ⟨rfl, ha⟩
  rcases h with ⟨h1, h2, h3⟩ | ⟨h1, h2⟩
  · exact .inl ⟨pre, bs, (decodeBytes bs).instr, h1, ha', hp, ⟨_, decode_bytes hb⟩, h2, h3⟩
  · refine .inr ⟨by rw [executeOne_eq, h2]; rfl, pre, bs.headD 0, h1, ?_, hp⟩
    rcases bs with _ | ⟨b, bs⟩
    · exact absurd rfl hb
    · rw [show pre ++ b :: bs = pre ++ [b] ++ bs by simp, fetches_append] at ha'
      exact ((answered_append _ _ _).mp ha').1

theorem executeOne_endless {pre : List Byte} {next : Byte} {s : State} (h1 : pre.length = 65536)
    (ha : Answered (fetches s.pc (pre ++ [next])) s) (hp : IgnoredRun pre next) :
    executeOne s = .refused .endlessPrefixRun := by
  rw [executeOne_eq]
  rcases hc : pre ++ [next] with _ | ⟨b0, rest⟩
  · simp at hc
  · rw [hc] at ha
    obtain ⟨rfl, ha⟩ := ha
    rw [executeFrom_endless (s := memReadDone s.pc s) hc.symm ha hp h1]
    rfl

/-! ### The kinds of step -/

theorem step_executes {s : State} (h : Executes s) : step s = executeOne s := by
  obtain ⟨h1, h2, h3⟩ := h
  simp only [acceptsInterrupt, Bool.or_eq_false_iff] at h2
  simp [step, h1, h2.1, h2.2, h3]

/-- A step of a halted core is `HALT` again, whatever the machine answers (R651). -/
theorem step_halted {s : State} (hm : s.params.cpuModel = .z80) (h : acceptsInterrupt s = false) (hh : s.halted = true) :
    step s = exec .halt (memReadDone s.pc s) := by
  simp only [acceptsInterrupt, Bool.or_eq_false_iff] at h
  rw [← runRow_noAccess (i := .halt) (fun _ => rfl)]
  simp [step, hm, h.1, h.2, hh, executeHalted]

theorem step_nmi {s : State} (hm : s.params.cpuModel = .z80) (h : s.nmiPending = true) : step s = .next (acceptNmi s) := by
  simp [step, hm, h]

theorem step_int {s : State} (h : TakesInt s) : step s = acceptInt s := by
  obtain ⟨h1, h2, h3, h4, h5⟩ := h
  simp [step, h1, h2, h3, h4, h5]

/-- Every step is one of five (R700). -/
theorem step_kinds (s : State) :
    (s.params.cpuModel = .r800 ∧ step s = .refused .r800Model) ∨
    (s.params.cpuModel = .z80 ∧ s.nmiPending = true ∧ step s = .next (acceptNmi s)) ∨
    (TakesInt s ∧ step s = acceptInt s) ∨
    (s.params.cpuModel = .z80 ∧ acceptsInterrupt s = false ∧ s.halted = true ∧
      step s = exec .halt (memReadDone s.pc s)) ∨
    (Executes s ∧ step s = executeOne s) := by
  cases hm : s.params.cpuModel
  · cases hn : s.nmiPending
    · cases hi : (s.intLine && s.iff1 && !s.inhibit)
      · have ha : acceptsInterrupt s = false := by simp [acceptsInterrupt, hn, hi]
        cases hh : s.halted
        · exact .inr (.inr (.inr (.inr ⟨⟨hm, ha, hh⟩, step_executes ⟨hm, ha, hh⟩⟩)))
        · exact .inr (.inr (.inr (.inl ⟨rfl, ha, rfl, step_halted hm ha hh⟩)))
      · simp only [Bool.and_eq_true, Bool.not_eq_true'] at hi
        have ht : TakesInt s := ⟨hm, hn, hi.1.1, hi.1.2, hi.2⟩
        exact .inr (.inr (.inl ⟨ht, step_int ht⟩))
    · exact .inr (.inl ⟨rfl, rfl, step_nmi hm hn⟩)
  · exact .inl ⟨rfl, by simp [step, hm]⟩

/-! ### Registers that nothing has written -/

theorem agree_skipPrefixes {U : Unspecified → Prop} {s t : State} (h : AgreeBut U s t) (n : Nat) :
    AgreeBut U (skipPrefixes n s) (skipPrefixes n t) := by
  unfold skipPrefixes
  rw [h.pc]
  exact agree_setPc (agree_countM1 h n) _

/-- Under `fault_on_read` a row that runs does the same whatever the registers that nothing has written hold. -/
theorem agree_runRow {i : Instr} {s t s' : State} (hf : s.params.resetUnspec = .faultOnRead)
    (h : AgreeBut (fun x => x ∈ s.unwritten) s t) (hs : runRow i s = .next s') :
    ∃ t', runRow i t = .next t' ∧ AgreeBut (fun x => x ∈ s'.unwritten) s' t' ∧ s'.unwritten ⊆ s.unwritten := by
  obtain ⟨u, hu, ⟨hd, -⟩ | ⟨-, rfl, hr⟩⟩ := runRow_next hs
  · rw [hf] at hd; cases hd
  · obtain ⟨v, hv, k⟩ := agree_exec h hr hu
    have hf' : t.params.resetUnspec = .faultOnRead := by rw [h.params]; exact hf
    have hr' : ∀ x ∈ ((opOf i).access t.params.rModel).reads, x ∉ t.unwritten := by rw [h.params, h.unwritten]; exact hr
    refine ⟨markWritten i v, (runRow_runs hf' hr').1 v hv, ?_, ?_⟩
    · have k2 := agree_mono k (V := fun x => x ∈ (markWritten i u).unwritten) (fun x hx => by
        simpa [markWritten, (exec_frame hu).unwritten, (exec_frame hu).params, Less] using hx)
      exact { k2 with unwritten := markWritten_congr k2.unwritten k2.params, main := k2.main, alt := k2.alt, half := k2.half }
    · intro x hx
      simp only [markWritten, (exec_frame hu).unwritten, List.mem_filter] at hx
      exact hx.1

/-! ### What `execute_one` can answer -/

theorem named_next {a : Word} {o : Result} {t : State} (h : named a o = .next t) : o = .next t := by
  rcases o with u | ⟨x, y, z, b⟩ | r
  · exact h
  · cases h
  · cases h

theorem executeOne_next {s t : State} (h : executeOne s = .next t) :
    ∃ pre bs i, pre.length < 65536 ∧ Fetched pre bs i s ∧
      runRow i (skipPrefixes pre.length (s.didAll (fetches s.pc (pre ++ bs)))) = .next t := by
  rcases executeOne_cases s with ⟨pre, bs, i, hn, hf⟩ | ⟨he, -⟩
  · exact ⟨pre, bs, i, hn, hf, named_next (by rw [← executeOne_runs hf hn]; exact h)⟩
  · rw [he] at h; cases h

/-- The only fault: an `ED` hole under `strict` (R711). -/
theorem executeOne_fault {s : State} {f : Fault} (h : executeOne s = .fault f) :
    s.params.edHolePolicy = .strict ∧
      ∃ pre bs i op, Fetched pre bs i s ∧ opOf i = .edHole op ∧
        f = .illegalOpcode s.pc 0xED op (s.didAll (fetches s.pc (pre ++ bs))).bus := by
  rcases executeOne_cases s with ⟨pre, bs, i, hn, hf⟩ | ⟨he, -⟩
  · rw [executeOne_runs hf hn] at h
    rcases hr : runRow i (skipPrefixes pre.length (s.didAll (fetches s.pc (pre ++ bs)))) with u | g | r <;> rw [hr] at h
    · cases h
    · obtain ⟨h1, op, h2, rfl⟩ := exec_fault (runRow_fault hr)
      cases h
      exact ⟨by simpa using h1, pre, bs, i, op, hf, h2, by rw [skipPrefixes_bus]⟩
    · cases h
  · rw [he] at h; cases h

/-- The only refusals: the first read of a register that nothing has written, and an endless prefix run (R712). -/
theorem executeOne_refused {s : State} {r : Refusal} (h : executeOne s = .refused r) :
    (s.params.resetUnspec = .faultOnRead ∧ ∃ x ∈ s.unwritten, r = .unspecifiedRead x ∧
        ∃ pre bs i, Fetched pre bs i s ∧ x ∈ ((opOf i).access s.params.rModel).reads) ∨
      r = .endlessPrefixRun ∧ FetchesIndexBytes 65536 s := by
  rcases executeOne_cases s with ⟨pre, bs, i, hn, hf⟩ | ⟨he, pre, next, h1, ha, hp⟩
  · rw [executeOne_runs hf hn] at h
    rcases hr : runRow i (skipPrefixes pre.length (s.didAll (fetches s.pc (pre ++ bs)))) with u | ⟨x, y, z, b⟩ | q <;>
      rw [hr] at h
    · cases h
    · cases h
    · obtain ⟨h1, x, hm, hx, rfl⟩ := runRow_refused hr
      cases h
      exact .inl ⟨by simpa using h1, x, by simpa [skipPrefixes] using hx, rfl, pre, bs, i, hf, by simpa using hm⟩
  · rw [he] at h
    cases h
    rw [fetches_append] at ha
    exact .inr ⟨rfl, pre, h1, ignoredRun_index hp, ((answered_append _ _ _).mp ha).1⟩

/-- What `execute_one` leaves alone, and its transactions: the fetches, then those of the row (R99). -/
theorem executeOne_frame {s t : State} (h : executeOne s = .next t) :
    ∃ i : Instr, Frame (opOf i).effect s { t with unwritten := s.unwritten } ∧ ∃ es, Transacts es s t := by
  obtain ⟨pre, bs, i, -, hf, hr⟩ := executeOne_next h
  obtain ⟨f, es, k, -⟩ := runRow_frame hr
  have f0 : Frame (opOf i).effect s (skipPrefixes pre.length (s.didAll (fetches s.pc (pre ++ bs)))) :=
    (didAll_frame _ _ _).trans (skipPrefixes_frame _ _ _)
  have k0 : Transacts (fetches s.pc (pre ++ bs)) s (skipPrefixes pre.length (s.didAll (fetches s.pc (pre ++ bs)))) :=
    transacts_of (by simp) (by simp) hf.answered
  have hu : (skipPrefixes pre.length (s.didAll (fetches s.pc (pre ++ bs)))).unwritten = s.unwritten := f0.unwritten
  rw [hu] at f
  exact ⟨i, f0.trans f, _, k0.trans k f0.params f.params⟩

end Sys2Proof.Machine
end

