-- ==== Sys2Proof/Laws/Interrupts.lean ====
section
/-! SUPPORT. Interrupt entry (R720 to R726): what `accept_nmi` and `accept_int` share, and where each goes; and what a
whole step leaves alone. -/

namespace Sys2Proof.Machine

open Sys2Proof Sys2Proof.Laws

theorem wake_frame (s : State) : Frame { halted := true } s (wake s) where
  regs r _ := reg_congr (by simp) r
  f _ := by simp
  alt _ := by simp
  ix _ := by simp
  iy _ := by simp
  sp _ := by simp
  i _ := by simp
  iff1 _ := by simp
  iff2 _ := by simp
  im _ := by simp
  halted e := by simp at e
  nmi _ := by simp
  intLine := by simp
  intVector := by simp
  params := by simp
  unwritten := by simp

@[simp] theorem wake_halted (s : State) : (wake s).halted = false := by
  unfold wake
  split
  · rfl
  · rename_i h; simpa using h

/-- The return address (R720). -/
theorem wake_pc (s : State) :
    (wake s).pc = if s.halted ∧ s.params.haltResume = .next then s.pc + 1 else s.pc := by
  unfold wake
  cases s.halted <;> cases s.params.haltResume <;> rfl

/-- What `accept_nmi` and `accept_int` share (R722, R726). -/
theorem enterInterrupt_spec (b : Bool) (s : State) :
    (enterInterrupt b s).halted = false ∧ (enterInterrupt b s).iff1 = false ∧ (enterInterrupt b s).iff2 = b ∧
      (enterInterrupt b s).inhibit = false ∧ (enterInterrupt b s).sp = s.sp - 2 ∧ Counted 1 s (enterInterrupt b s) ∧
      (enterInterrupt b s).bus = s.bus.replay (wordWrites (highFirst s) (s.sp - 2)
        (if s.halted ∧ s.params.haltResume = .next then s.pc + 1 else s.pc)) ∧
      Frame { iff1 := true, iff2 := true, halted := true, sp := true } s (enterInterrupt b s) := by
  have hc := countM1_counted 1 (wake s)
  unfold enterInterrupt
  refine ⟨by simp, by simp, by simp, by simp, by simp, ⟨?_, fun h => ?_⟩, ?_, ?_⟩
  · have := hc.bit7
    simpa using this
  · have := hc.low (by simpa using h)
    simpa using this
  · rw [← wake_pc]
    simp
    rfl
  · have h1 : Frame { iff1 := true, iff2 := true, halted := true, sp := true } s (wake s) :=
      (wake_frame s).mono (by constructor <;> simp)
    have h2 : Frame { iff1 := true, iff2 := true, halted := true, sp := true } s ((wake s).countM1 1) :=
      h1.trans (by apply frame_of_fields <;> simp)
    refine (h2.trans (u := { (wake s).countM1 1 with iff1 := false, iff2 := b, inhibit := false })
      { Frame.refl _ _ with iff1 := nofun, iff2 := nofun }).trans ((push16_frame _ _).mono ?_)
    constructor <;> simp

/-- `accept_int` refuses a mode-0 byte that is no `RST`, and in mode 2 a vector register that nothing has written; else it
is the entry, and PC is the target (R712, R726). -/
theorem acceptInt_cases (s : State) :
    (s.im = .im0 ∧ isRst s.intVector = false ∧ acceptInt s = .refused (.mode0NotRst s.intVector)) ∨
    (s.im = .im2 ∧ s.params.resetUnspec = .faultOnRead ∧ .i ∈ s.unwritten ∧
      acceptInt s = .refused (.unspecifiedRead .i)) ∨
    ((s.im = .im0 → isRst s.intVector = true) ∧ (s.im = .im2 → s.params.resetUnspec = .faultOnRead → .i ∉ s.unwritten) ∧
      acceptInt s = .next { intTargetDone s.intVector (enterInterrupt false s) with
        pc := intTarget s.intVector (enterInterrupt false s) }) := by
  unfold acceptInt
  by_cases h0 : (s.im == .im0 && !isRst s.intVector) = true
  · rw [if_pos h0]
    simp only [Bool.and_eq_true, beq_iff_eq, Bool.not_eq_true'] at h0
    exact .inl ⟨h0.1, h0.2, rfl⟩
  · rw [if_neg h0]
    simp only [Bool.and_eq_true, beq_iff_eq, Bool.not_eq_true', not_and, Bool.not_eq_false] at h0
    by_cases h2 : readsUnwrittenI s = true
    · rw [if_pos h2]
      simp only [readsUnwrittenI, Bool.and_eq_true, beq_iff_eq, List.contains_iff_mem] at h2
      exact .inr (.inl ⟨h2.1.2, h2.1.1, h2.2, rfl⟩)
    · rw [if_neg h2]
      refine .inr (.inr ⟨h0, fun e1 e2 hm => h2 ?_, rfl⟩)
      simp [readsUnwrittenI, e1, e2, hm]

/-- An accepted maskable interrupt (R724, R725, R726). -/
theorem acceptInt_spec {s t : State} (ht : acceptInt s = .next t) :
    t.halted = false ∧ t.iff1 = false ∧ t.iff2 = false ∧ t.inhibit = false ∧ t.sp = s.sp - 2 ∧ Counted 1 s t ∧
      Frame { iff1 := true, iff2 := true, halted := true, sp := true } s t ∧
      ∃ target reads, t.pc = target ∧
        Transacts (wordWrites (highFirst s) (s.sp - 2)
          (if s.halted ∧ s.params.haltResume = .next then s.pc + 1 else s.pc) ++ reads) s t ∧
        (s.im = .im0 → isRst s.intVector = true ∧ target = (s.intVector &&& 0x38).setWidth 16 ∧ reads = []) ∧
        (s.im = .im1 → target = 0x0038 ∧ reads = []) ∧
        (s.im = .im2 → ∃ high lo hi, OrderAllowed s high ∧ target = wordOf hi lo ∧
          reads = wordReads high (wordOf s.i s.intVector) lo hi) := by
  rcases acceptInt_cases s with ⟨-, -, h⟩ | ⟨-, -, -, h⟩ | ⟨h0, -, h⟩
  · rw [h] at ht; cases ht
  · rw [h] at ht; cases ht
  obtain rfl := Host.Outcome.next.inj (h.symm.trans ht)
  obtain ⟨e1, e2, e3, e4, e5, e6, e7, e8⟩ := enterInterrupt_spec false s
  have hp : (enterInterrupt false s).params = s.params := e8.params
  have hi : (enterInterrupt false s).i = s.i := e8.i rfl
  have him : (enterInterrupt false s).im = s.im := e8.im rfl
  generalize enterInterrupt false s = u at *
  have key : ∀ (target : Word) (reads : List BusEvent), Answered reads u →
      Transacts (wordWrites (highFirst s) (s.sp - 2)
        (if s.halted ∧ s.params.haltResume = .next then s.pc + 1 else s.pc) ++ reads) s
        { u.didAll reads with pc := target } := by
    intro target reads ha
    refine transacts_of ?_ hp ?_
    · rw [replay_append, ← e7]; rfl
    · exact (answered_append _ _ _).mpr ⟨answered_wordWrites _ _ _ _, (answered_congr (s := s.didAll _) e7 hp _).mp ha⟩
  have frame : ∀ (target : Word) (reads : List BusEvent),
      Frame { iff1 := true, iff2 := true, halted := true, sp := true } s { u.didAll reads with pc := target } :=
    fun target reads => (e8.trans (didAll_frame _ _ _)).trans (setPc_frame _ _ _)
  cases hm : s.im
  · have hd : intTargetDone s.intVector u = u.didAll [] := by simp only [intTargetDone, him, hm]; rfl
    rw [hd]
    refine ⟨e1, e2, e3, e4, e5, counted_of_eq e6 rfl, frame _ _, _, [], rfl, key _ _ trivial, fun _ => ⟨h0 hm, ?_, rfl⟩,
      nofun, nofun⟩
    simp only [intTarget, him, hm]
  · have hd : intTargetDone s.intVector u = u.didAll [] := by simp only [intTargetDone, him, hm]; rfl
    rw [hd]
    refine ⟨e1, e2, e3, e4, e5, counted_of_eq e6 rfl, frame _ _, _, [], rfl, key _ _ trivial, nofun, fun _ => ⟨?_, rfl⟩, nofun⟩
    simp only [intTarget, him, hm]
  · have hd : intTargetDone s.intVector u =
        u.didAll (wordReads (highFirst u) (wordOf s.i s.intVector) (loRead u (wordOf s.i s.intVector))
          (hiRead u (wordOf s.i s.intVector))) := by
      simp only [intTargetDone, him, hm, hi, memReadWordDone_eq]
    rw [hd]
    refine ⟨e1, e2, e3, e4, e5, counted_of_eq e6 rfl, frame _ _, _, _, rfl, key _ _ (answered_wordReads _ _), nofun, nofun,
      fun _ => ⟨_, _, _, orderAllowed_congr (orderAllowed_highFirst u) hp.symm, ?_, rfl⟩⟩
    simp only [intTarget, him, hm, hi, memReadWord_eq]

/-- An accepted NMI (R722). -/
theorem acceptNmi_spec (s : State) :
    (acceptNmi s).pc = 0x0066 ∧ (acceptNmi s).nmiPending = false ∧ (acceptNmi s).halted = false ∧
      (acceptNmi s).iff1 = false ∧ (acceptNmi s).inhibit = false ∧ (acceptNmi s).sp = s.sp - 2 ∧
      Counted 1 s (acceptNmi s) ∧ Frame { iff1 := true, halted := true, nmi := true, sp := true } s (acceptNmi s) ∧
      Transacts (wordWrites (highFirst s) (s.sp - 2)
        (if s.halted ∧ s.params.haltResume = .next then s.pc + 1 else s.pc)) s (acceptNmi s) := by
  obtain ⟨h1, h2, h3, h4, h5, h6, h7, h8⟩ := enterInterrupt_spec s.iff2 { s with nmiPending := false }
  have h0 : Frame { iff1 := true, halted := true, nmi := true, sp := true } s { s with nmiPending := false } :=
    { Frame.refl _ s with nmi := nofun }
  have h8' : Frame { iff1 := true, halted := true, sp := true } { s with nmiPending := false }
    (enterInterrupt s.iff2 { s with nmiPending := false }) := { h8 with iff2 := fun _ => h3 }
  refine ⟨rfl, by simp [acceptNmi], h1, h2, h4, h5, ⟨h6.bit7, h6.low⟩, (h0.trans (h8'.mono ?_)).trans (setPc_frame _ _ _),
    transacts_of h7 h8.params (answered_wordWrites _ _ _ _)⟩
  constructor <;> simp

/-! ### Entry does not look at registers -/

theorem agree_wake {U : Unspecified → Prop} {s t : State} (h : AgreeBut U s t) : AgreeBut U (wake s) (wake t) := by
  unfold wake
  rw [h.halted, h.params, h.pc]
  split
  · exact { h with halted := rfl, pc := rfl, params := rfl, main := h.main, alt := h.alt, half := h.half }
  · exact h

theorem agree_enterInterrupt {U : Unspecified → Prop} {s t : State} (h : AgreeBut U s t) (b : Bool) :
    AgreeBut U (enterInterrupt b s) (enterInterrupt b t) := by
  have k := agree_countM1 (agree_wake h) 1
  unfold enterInterrupt
  dsimp only
  rw [k.pc]
  apply agree_push16
  exact { k with iff1 := rfl, iff2 := rfl, inhibit := rfl, pc := rfl, main := k.main, alt := k.alt, half := k.half }

/-- What a whole step leaves alone, and its transactions. -/
theorem step_frame {s t : State} (h : step s = .next t) :
    (∃ es, Transacts es s t) ∧ t.intLine = s.intLine ∧ t.intVector = s.intVector ∧ t.params = s.params ∧
      t.nmiPending = false := by
  rcases step_kinds s with ⟨-, e⟩ | ⟨-, -, e⟩ | ⟨⟨-, hn, -⟩, e⟩ | ⟨-, ha, -, e⟩ | ⟨⟨-, ha, -⟩, e⟩ <;> rw [e] at h
  · cases h
  · obtain rfl := Host.Outcome.next.inj h
    obtain ⟨-, h2, -, -, -, -, -, f, k⟩ := acceptNmi_spec s
    exact ⟨⟨_, k⟩, f.intLine, f.intVector, f.params, h2⟩
  · obtain ⟨-, -, -, -, -, -, f, _, _, -, k, -⟩ := acceptInt_spec h
    exact ⟨⟨_, k⟩, f.intLine, f.intVector, f.params, (f.nmi rfl).trans hn⟩
  · have f := exec_frame h
    obtain ⟨es, k, -⟩ := exec_transacts h
    have k0 : Transacts [.memRead s.pc (memRead s s.pc)] s (memReadDone s.pc s) := transacts_of rfl rfl ⟨rfl, trivial⟩
    simp only [acceptsInterrupt, Bool.or_eq_false_iff] at ha
    exact ⟨⟨_, k0.trans k rfl f.params⟩, f.intLine, f.intVector, f.params, (f.nmi (effect_nmi _)).trans ha.1⟩
  · obtain ⟨i, f, k⟩ := executeOne_frame h
    simp only [acceptsInterrupt, Bool.or_eq_false_iff] at ha
    exact ⟨k, f.intLine, f.intVector, f.params, (f.nmi (effect_nmi _)).trans ha.1⟩

/-- A step keeps the backing store in its canonical form. -/
theorem step_wf {s t : State} (hw : s.bus.mem.wf) (h : step s = .next t) : t.bus.mem.wf := by
  obtain ⟨⟨es, k⟩, -⟩ := step_frame h
  rw [k.bus]
  exact replay_wf _ _ hw

end Sys2Proof.Machine
end

