-- ==== Sys2Proof/Tests/Slice0.lean ====
section
/-! SUPPORT. The model's own tests. The expected results are the vectors of spec/95_test_vectors.md (named by their number)
and the encodings of the spec; the witnesses show states and operands that meet the hypotheses of the statements. -/

namespace Sys2Proof.Tests

open Sys2Proof Sys2Proof.Machine

/-! ### Helpers -/

/-- Bytes stored from an address up. -/
def poke (a : Word) (bytes : List Byte) (s : State) : State :=
  match bytes with
  | [] => s
  | b :: rest => poke (a + 1) rest { s with bus := { s.bus with mem := s.bus.mem.write a.toNat b } }

/-- Bytes stored at PC. -/
def code (bytes : List Byte) (s : State) : State := poke s.pc bytes s

/-- The baseline state of spec/95_test_vectors.md section 0, with the low byte of a word first: under the default `any` the
order is free, and no test can run through it. -/
def base : State :=
  { State.reset with
    main := { a := 0, f := 0, b := 0, c := 0, d := 0, e := 0, h := 0, l := 0 }
    sp := 0xFF00
    pc := 0x0100
    params := { Config.Params.default with wordAccessOrder := .lowFirst } }

/-- The machine does nothing of its own in `n` transactions, and then `r`. -/
def reacting (n : Nat) (r : Reaction) (s : State) : State :=
  setReactions (List.replicate n { answer := none, remap := none } ++ [r]) s

/-- The machine answers `v` after `n` transactions. -/
def answering (n : Nat) (v : Byte) (s : State) : State := reacting n { answer := some v, remap := none } s

/-- The transactions after the first `n`, the latest first. -/
def logAfter (n : Nat) (s : State) : List BusEvent := s.bus.log.take (s.bus.log.length - n)

/-- What one step leaves. -/
def after {α : Type} (f : State → α) (s : State) : Option α :=
  match step s with
  | .next t => some (f t)
  | _ => none

/-- Each word decodes to its row: as the instruction, or as a prefix row before it. -/
def readsAll (words : List (List Byte × Instr)) : Bool :=
  words.all fun (bytes, i) =>
    match decode (bytes ++ [0, 0, 0]) with
    | .ok d => d.instr == i || d.path.contains i
    | .error _ => false

/-! ### Well-formedness: ill-formed terms are refused -/

theorem test_wf_refusesIxLoadWithoutHalf : (Instr.ldRRIx .b .c).wf = false := by decide
theorem test_wf_refusesIyLoadWithoutHalf : (Instr.ldRRIy .b .c).wf = false := by decide
theorem test_wf_refusesRetnThatIsReti : (Instr.retn 1).wf = false := by decide
theorem test_wf_refusesIgnoredDdOfAffectedOpcode : (Instr.ignoredDd 0x21).wf = false := by decide
theorem test_wf_refusesIgnoredDdOfPrefix : (Instr.ignoredDd 0xDD).wf = false := by decide
theorem test_wf_refusesIgnoredFdOfAffectedOpcode : (Instr.ignoredFd 0x86).wf = false := by decide
theorem test_wf_refusesIgnoredFdOfPrefix : (Instr.ignoredFd 0xCB).wf = false := by decide
theorem test_wf_acceptsNeighbours :
    (Instr.ldRRIx .b .hi).wf = true ∧ (Instr.retn 0).wf = true ∧ (Instr.ignoredDd 0x00).wf = true := by decide

/-! ### Decoding: one word of every row, written from the table's encodings -/

theorem test_decodesMain1 :
    readsAll [
      ([0b00000000], .nop),
      ([0b00001000], .exAfAf),
      ([0b00010000, 0x85], .djnz 0x85),
      ([0b00011000, 0x85], .jr 0x85),
      ([0b00110000, 0x85], .jrCc .nc 0x85),
      ([0b00010001, 0x34, 0x12], .ldDdNn .de 0x1234),
      ([0b00101001], .addHlSs .hl),
      ([0b00000010], .ldMemBcA),
      ([0b00010010], .ldMemDeA),
      ([0b00100010, 0x34, 0x12], .ldMemNnHl 0x1234),
      ([0b00110010, 0x34, 0x12], .ldMemNnA 0x1234),
      ([0b00001010], .ldAMemBc),
      ([0b00011010], .ldAMemDe),
      ([0b00101010, 0x34, 0x12], .ldHlMemNn 0x1234),
      ([0b00111010, 0x34, 0x12], .ldAMemNn 0x1234),
      ([0b00110011], .incSs .sp),
      ([0b00101011], .decSs .hl),
      ([0b00100100], .incR .h),
      ([0b00110100], .incHl),
      ([0b00010101], .decR .d),
      ([0b00110101], .decHl),
      ([0b00000110, 0x85], .ldRN .b 0x85),
      ([0b00110110, 0x85], .ldHlN 0x85),
      ([0b00000111], .rlca),
      ([0b00001111], .rrca),
      ([0b00010111], .rla)] = true := by decide

theorem test_decodesMain2 :
    readsAll [
      ([0b00011111], .rra),
      ([0b00100111], .daa),
      ([0b00101111], .cpl),
      ([0b00110111], .scf),
      ([0b00111111], .ccf),
      ([0b01110110], .halt),
      ([0b01011101], .ldRR .e .l),
      ([0b01111110], .ldRHl .a),
      ([0b01110001], .ldHlR .c),
      ([0b10000100], .addAR .h),
      ([0b10000110], .addAHl),
      ([0b11000110, 0x85], .addAN 0x85),
      ([0b10001010], .adcAR .d),
      ([0b10001110], .adcAHl),
      ([0b11001110, 0x85], .adcAN 0x85),
      ([0b10010000], .subR .b),
      ([0b10010110], .subHl),
      ([0b11010110, 0x85], .subN 0x85),
      ([0b10011011], .sbcAR .e),
      ([0b10011110], .sbcAHl),
      ([0b11011110, 0x85], .sbcAN 0x85),
      ([0b10100101], .andR .l),
      ([0b10100110], .andHl),
      ([0b11100110, 0x85], .andN 0x85),
      ([0b10101111], .xorR .a),
      ([0b10101110], .xorHl)] = true := by decide

theorem test_decodesMain3 :
    readsAll [
      ([0b11101110, 0x85], .xorN 0x85),
      ([0b10110001], .orR .c),
      ([0b10110110], .orHl),
      ([0b11110110, 0x85], .orN 0x85),
      ([0b10111100], .cpR .h),
      ([0b10111110], .cpHl),
      ([0b11111110, 0x85], .cpN 0x85),
      ([0b11101000], .retCc .pe),
      ([0b11010001], .popQq .de),
      ([0b11001001], .ret),
      ([0b11011001], .exx),
      ([0b11101001], .jpHl),
      ([0b11111001], .ldSpHl),
      ([0b11011010, 0x34, 0x12], .jpCcNn .c 0x1234),
      ([0b11000011, 0x34, 0x12], .jpNn 0x1234),
      ([0b11010011, 0x85], .outNA 0x85),
      ([0b11011011, 0x85], .inAN 0x85),
      ([0b11100011], .exSpHl),
      ([0b11101011], .exDeHl),
      ([0b11110011], .di),
      ([0b11111011], .ei),
      ([0b11100100, 0x34, 0x12], .callCcNn .po 0x1234),
      ([0b11100101], .pushQq .hl),
      ([0b11001101, 0x34, 0x12], .callNn 0x1234),
      ([0b11110111], .rst 6),
      ([0b11001011], .prefixCb)] = true := by decide

theorem test_decodesMain4 :
    readsAll [
      ([0b11011101], .prefixDd),
      ([0b11101101], .prefixEd),
      ([0b11111101], .prefixFd)] = true := by decide

theorem test_decodesCb :
    readsAll [
      ([0xCB, 0b00000100], .rlcR .h),
      ([0xCB, 0b00000110], .rlcHl),
      ([0xCB, 0b00001010], .rrcR .d),
      ([0xCB, 0b00001110], .rrcHl),
      ([0xCB, 0b00010000], .rlR .b),
      ([0xCB, 0b00010110], .rlHl),
      ([0xCB, 0b00011011], .rrR .e),
      ([0xCB, 0b00011110], .rrHl),
      ([0xCB, 0b00100101], .slaR .l),
      ([0xCB, 0b00100110], .slaHl),
      ([0xCB, 0b00101111], .sraR .a),
      ([0xCB, 0b00101110], .sraHl),
      ([0xCB, 0b00110001], .sllR .c),
      ([0xCB, 0b00110110], .sllHl),
      ([0xCB, 0b00111100], .srlR .h),
      ([0xCB, 0b00111110], .srlHl),
      ([0xCB, 0b01101000], .bitBR 5 .b),
      ([0xCB, 0b01011110], .bitBHl 3),
      ([0xCB, 0b10110111], .resBR 6 .a),
      ([0xCB, 0b10010110], .resBHl 2),
      ([0xCB, 0b11011010], .setBR 3 .d),
      ([0xCB, 0b11101110], .setBHl 5)] = true := by decide

theorem test_decodesEd1 :
    readsAll [
      ([0xED, 0b01011000], .inRC .e),
      ([0xED, 0b01110000], .inC),
      ([0xED, 0b01101001], .outCR .l),
      ([0xED, 0b01110001], .outC0),
      ([0xED, 0b01000010], .sbcHlSs .bc),
      ([0xED, 0b01011010], .adcHlSs .de),
      ([0xED, 0b01100011, 0x34, 0x12], .ldMemNnDd .hl 0x1234),
      ([0xED, 0b01111011, 0x34, 0x12], .ldDdMemNn .sp 0x1234),
      ([0xED, 0b01110100], .neg 6),
      ([0xED, 0b01101101], .retn 5),
      ([0xED, 0b01001101], .reti),
      ([0xED, 0b01100110], .im0 1 0),
      ([0xED, 0b01010110], .im1 0),
      ([0xED, 0b01111110], .im2 1),
      ([0xED, 0b01000111], .ldIA),
      ([0xED, 0b01001111], .ldRA),
      ([0xED, 0b01010111], .ldAI),
      ([0xED, 0b01011111], .ldAR),
      ([0xED, 0b01100111], .rrd),
      ([0xED, 0b01101111], .rld),
      ([0xED, 0b01110111], .noni77),
      ([0xED, 0b01111111], .noni7F),
      ([0xED, 0b10100000], .ldi),
      ([0xED, 0b10100001], .cpi),
      ([0xED, 0b10100010], .ini),
      ([0xED, 0b10100011], .outi)] = true := by decide

theorem test_decodesEd2 :
    readsAll [
      ([0xED, 0b10101000], .ldd),
      ([0xED, 0b10101001], .cpd),
      ([0xED, 0b10101010], .ind),
      ([0xED, 0b10101011], .outd),
      ([0xED, 0b10110000], .ldir),
      ([0xED, 0b10110001], .cpir),
      ([0xED, 0b10110010], .inir),
      ([0xED, 0b10110011], .otir),
      ([0xED, 0b10111000], .lddr),
      ([0xED, 0b10111001], .cpdr),
      ([0xED, 0b10111010], .indr),
      ([0xED, 0b10111011], .otdr),
      ([0xED, 0b00000110], .noni00 6),
      ([0xED, 0b11000101], .noniC0 5),
      ([0xED, 0b10000010], .noni80 2),
      ([0xED, 0b10110101], .noniA4 2 1)] = true := by decide

theorem test_decodesDd1 :
    readsAll [
      ([0xDD, 0b00011001], .addIxPp .de),
      ([0xDD, 0b00100001, 0x34, 0x12], .ldIxNn 0x1234),
      ([0xDD, 0b00100010, 0x34, 0x12], .ldMemNnIx 0x1234),
      ([0xDD, 0b00100011], .incIx),
      ([0xDD, 0b00101011], .decIx),
      ([0xDD, 0b00101010, 0x34, 0x12], .ldIxMemNn 0x1234),
      ([0xDD, 0b00100100], .incIxHalf .hi),
      ([0xDD, 0b00101101], .decIxHalf .lo),
      ([0xDD, 0b00101110, 0x85], .ldIxHalfN .lo 0x85),
      ([0xDD, 0b00110100, 0x85], .incIxD 0x85),
      ([0xDD, 0b00110101, 0x85], .decIxD 0x85),
      ([0xDD, 0b00110110, 0x85, 0x6A], .ldIxDN 0x85 0x6A),
      ([0xDD, 0b01001110, 0x85], .ldRIxD .c 0x85),
      ([0xDD, 0b01110100, 0x85], .ldIxDR 0x85 .h),
      ([0xDD, 0b01100111], .ldRRIx .hi .a),
      ([0xDD, 0b10000101], .addAIxHalf .lo),
      ([0xDD, 0b10000110, 0x85], .addAIxD 0x85),
      ([0xDD, 0b10001100], .adcAIxHalf .hi),
      ([0xDD, 0b10001110, 0x85], .adcAIxD 0x85),
      ([0xDD, 0b10010101], .subIxHalf .lo),
      ([0xDD, 0b10010110, 0x85], .subIxD 0x85),
      ([0xDD, 0b10011101], .sbcAIxHalf .lo),
      ([0xDD, 0b10011110, 0x85], .sbcAIxD 0x85),
      ([0xDD, 0b10100100], .andIxHalf .hi),
      ([0xDD, 0b10100110, 0x85], .andIxD 0x85),
      ([0xDD, 0b10101101], .xorIxHalf .lo)] = true := by decide

theorem test_decodesDd2 :
    readsAll [
      ([0xDD, 0b10101110, 0x85], .xorIxD 0x85),
      ([0xDD, 0b10110101], .orIxHalf .lo),
      ([0xDD, 0b10110110, 0x85], .orIxD 0x85),
      ([0xDD, 0b10111100], .cpIxHalf .hi),
      ([0xDD, 0b10111110, 0x85], .cpIxD 0x85),
      ([0xDD, 0b11100001], .popIx),
      ([0xDD, 0b11100011], .exSpIx),
      ([0xDD, 0b11100101], .pushIx),
      ([0xDD, 0b11101001], .jpIx),
      ([0xDD, 0b11111001], .ldSpIx),
      ([0xDD, 0b11001011], .prefixDdCb),
      ([0xDD, 0b11101101], .supersededDd .ed),
      ([0xDD, 0b00111100], .ignoredDd 0x3C)] = true := by decide

theorem test_decodesFd1 :
    readsAll [
      ([0xFD, 0b00011001], .addIyPp .de),
      ([0xFD, 0b00100001, 0x34, 0x12], .ldIyNn 0x1234),
      ([0xFD, 0b00100010, 0x34, 0x12], .ldMemNnIy 0x1234),
      ([0xFD, 0b00100011], .incIy),
      ([0xFD, 0b00101011], .decIy),
      ([0xFD, 0b00101010, 0x34, 0x12], .ldIyMemNn 0x1234),
      ([0xFD, 0b00100100], .incIyHalf .hi),
      ([0xFD, 0b00101101], .decIyHalf .lo),
      ([0xFD, 0b00101110, 0x85], .ldIyHalfN .lo 0x85),
      ([0xFD, 0b00110100, 0x85], .incIyD 0x85),
      ([0xFD, 0b00110101, 0x85], .decIyD 0x85),
      ([0xFD, 0b00110110, 0x85, 0x6A], .ldIyDN 0x85 0x6A),
      ([0xFD, 0b01100110, 0x85], .ldRIyD .h 0x85),
      ([0xFD, 0b01110010, 0x85], .ldIyDR 0x85 .d),
      ([0xFD, 0b01100111], .ldRRIy .hi .a),
      ([0xFD, 0b10000101], .addAIyHalf .lo),
      ([0xFD, 0b10000110, 0x85], .addAIyD 0x85),
      ([0xFD, 0b10001100], .adcAIyHalf .hi),
      ([0xFD, 0b10001110, 0x85], .adcAIyD 0x85),
      ([0xFD, 0b10010101], .subIyHalf .lo),
      ([0xFD, 0b10010110, 0x85], .subIyD 0x85),
      ([0xFD, 0b10011101], .sbcAIyHalf .lo),
      ([0xFD, 0b10011110, 0x85], .sbcAIyD 0x85),
      ([0xFD, 0b10100100], .andIyHalf .hi),
      ([0xFD, 0b10100110, 0x85], .andIyD 0x85),
      ([0xFD, 0b10101101], .xorIyHalf .lo)] = true := by decide

theorem test_decodesFd2 :
    readsAll [
      ([0xFD, 0b10101110, 0x85], .xorIyD 0x85),
      ([0xFD, 0b10110101], .orIyHalf .lo),
      ([0xFD, 0b10110110, 0x85], .orIyD 0x85),
      ([0xFD, 0b10111100], .cpIyHalf .hi),
      ([0xFD, 0b10111110, 0x85], .cpIyD 0x85),
      ([0xFD, 0b11100001], .popIy),
      ([0xFD, 0b11100011], .exSpIy),
      ([0xFD, 0b11100101], .pushIy),
      ([0xFD, 0b11101001], .jpIy),
      ([0xFD, 0b11111001], .ldSpIy),
      ([0xFD, 0b11001011], .prefixFdCb),
      ([0xFD, 0b11101101], .supersededFd .ed),
      ([0xFD, 0b10000000], .ignoredFd 0x80)] = true := by decide

theorem test_decodesDdcb :
    readsAll [
      ([0xDD, 0xCB, 0x85, 0b00000110], .rlcIxD 0x85),
      ([0xDD, 0xCB, 0x85, 0b00000101], .ldRRlcIxD .l 0x85),
      ([0xDD, 0xCB, 0x85, 0b00001110], .rrcIxD 0x85),
      ([0xDD, 0xCB, 0x85, 0b00001111], .ldRRrcIxD .a 0x85),
      ([0xDD, 0xCB, 0x85, 0b00010110], .rlIxD 0x85),
      ([0xDD, 0xCB, 0x85, 0b00010001], .ldRRlIxD .c 0x85),
      ([0xDD, 0xCB, 0x85, 0b00011110], .rrIxD 0x85),
      ([0xDD, 0xCB, 0x85, 0b00011100], .ldRRrIxD .h 0x85),
      ([0xDD, 0xCB, 0x85, 0b00100110], .slaIxD 0x85),
      ([0xDD, 0xCB, 0x85, 0b00100010], .ldRSlaIxD .d 0x85),
      ([0xDD, 0xCB, 0x85, 0b00101110], .sraIxD 0x85),
      ([0xDD, 0xCB, 0x85, 0b00101000], .ldRSraIxD .b 0x85),
      ([0xDD, 0xCB, 0x85, 0b00110110], .sllIxD 0x85),
      ([0xDD, 0xCB, 0x85, 0b00110011], .ldRSllIxD .e 0x85),
      ([0xDD, 0xCB, 0x85, 0b00111110], .srlIxD 0x85),
      ([0xDD, 0xCB, 0x85, 0b00111101], .ldRSrlIxD .l 0x85),
      ([0xDD, 0xCB, 0x85, 0b01101010], .bitBIxD 5 2 0x85),
      ([0xDD, 0xCB, 0x85, 0b10011110], .resBIxD 3 0x85),
      ([0xDD, 0xCB, 0x85, 0b10110000], .ldRResBIxD .b 6 0x85),
      ([0xDD, 0xCB, 0x85, 0b11010110], .setBIxD 2 0x85),
      ([0xDD, 0xCB, 0x85, 0b11011111], .ldRSetBIxD .a 3 0x85)] = true := by decide

theorem test_decodesFdcb :
    readsAll [
      ([0xFD, 0xCB, 0x85, 0b00000110], .rlcIyD 0x85),
      ([0xFD, 0xCB, 0x85, 0b00000001], .ldRRlcIyD .c 0x85),
      ([0xFD, 0xCB, 0x85, 0b00001110], .rrcIyD 0x85),
      ([0xFD, 0xCB, 0x85, 0b00001100], .ldRRrcIyD .h 0x85),
      ([0xFD, 0xCB, 0x85, 0b00010110], .rlIyD 0x85),
      ([0xFD, 0xCB, 0x85, 0b00010010], .ldRRlIyD .d 0x85),
      ([0xFD, 0xCB, 0x85, 0b00011110], .rrIyD 0x85),
      ([0xFD, 0xCB, 0x85, 0b00011000], .ldRRrIyD .b 0x85),
      ([0xFD, 0xCB, 0x85, 0b00100110], .slaIyD 0x85),
      ([0xFD, 0xCB, 0x85, 0b00100011], .ldRSlaIyD .e 0x85),
      ([0xFD, 0xCB, 0x85, 0b00101110], .sraIyD 0x85),
      ([0xFD, 0xCB, 0x85, 0b00101101], .ldRSraIyD .l 0x85),
      ([0xFD, 0xCB, 0x85, 0b00110110], .sllIyD 0x85),
      ([0xFD, 0xCB, 0x85, 0b00110111], .ldRSllIyD .a 0x85),
      ([0xFD, 0xCB, 0x85, 0b00111110], .srlIyD 0x85),
      ([0xFD, 0xCB, 0x85, 0b00111001], .ldRSrlIyD .c 0x85),
      ([0xFD, 0xCB, 0x85, 0b01101010], .bitBIyD 5 2 0x85),
      ([0xFD, 0xCB, 0x85, 0b10011110], .resBIyD 3 0x85),
      ([0xFD, 0xCB, 0x85, 0b10110101], .ldRResBIyD .l 6 0x85),
      ([0xFD, 0xCB, 0x85, 0b11010110], .setBIyD 2 0x85),
      ([0xFD, 0xCB, 0x85, 0b11011100], .ldRSetBIyD .h 3 0x85)] = true := by decide

/-! ### Decoding: corners -/

theorem test_decode_refusesNoBytes : (match decode [] with | .ok _ => false | .error _ => true) = true := by decide
theorem test_decode_stackedPrefixes :
    (decodeWindow 0xDD 0xFD 0x21 0x34).instr = .supersededDd .fd := by decide
theorem test_decode_tableWord : decodeTableWord 8 0xC6 = some (.addAN 0x00) := by decide
theorem test_decode_tableWordSecondByteIsHigher : decodeTableWord 16 0xB0ED = some .ldir := by decide

/-! ### One step (spec/95_test_vectors.md) -/

theorem test_step_T1_supersededPrefix :
    after (fun t => (t.iy, t.pc, t.r)) (code [0xDD, 0xFD, 0x21, 0x34, 0x12] base) = some (0x1234, 0x0105, 0x03) := by decide
theorem test_step_T2_ignoredPrefix : after (fun t => (t.pc, t.r)) (code [0xDD, 0x00] base) = some (0x0102, 0x02) := by decide
theorem test_step_T8_edHole : after (fun t => (t.pc, t.r)) (code [0xED, 0x00] base) = some (0x0102, 0x02) := by decide
theorem test_step_T9_immediateWraps :
    after (fun t => (t.main.a, t.pc)) (code [0x3E, 0x42] { base with pc := 0xFFFF }) = some (0x42, 0x0001) := by decide
theorem test_step_L17_halfToHalf : after (fun t => t.ix) (code [0xDD, 0x65] { base with ix := 0x1234 }) = some 0x3434 := by
  decide
theorem test_step_W5_wordStoreWraps :
    after (fun t => (memRead t 0xFFFF, memRead t 0x0000)) (code [0x22, 0xFF, 0xFF] (Loc16.hl.write 0xBEEF base)) =
      some (0xEF, 0xBE) := by decide
theorem test_step_W12_popAf :
    after (fun t => (t.main.a, t.main.f, t.sp)) (poke 0xFF00 [0xD7, 0x12] (code [0xF1] base)) =
      some (0x12, 0xD7, 0xFF02) := by decide
theorem test_step_W17_exchangeTop :
    after (fun t => (t.hl, memReadWord t 0xFF00))
      (poke 0xFF00 [0x78, 0x56] (code [0xE3] (Loc16.hl.write 0x1234 base))) = some (0x5678, 0x1234) := by decide
theorem test_step_A2_addOverflows :
    after (fun t => (t.main.a, t.main.f)) (code [0xC6, 0x01] { base with main.a := 0x7F }) = some (0x80, 0x94) := by decide
theorem test_step_A6_sbcBorrows :
    after (fun t => (t.main.a, t.main.f)) (code [0x98] { base with main.f := 0x01 }) = some (0xFF, 0xBB) := by decide
theorem test_step_A10_compareTakesYXFromOperand :
    after (fun t => (t.main.a, t.main.f)) (code [0xFE, 0x28] { base with main.a := 0x10 }) = some (0x10, 0xBB) := by decide
theorem test_step_A12_subIndexed :
    after (fun t => (t.main.a, t.main.f))
      (poke 0x2005 [0x01] (code [0xDD, 0x96, 0x05] { base with main.a := 0x10, ix := 0x2000 })) = some (0x0F, 0x1A) := by
  decide
theorem test_step_A14_incKeepsCarry :
    after (fun t => (t.main.a, t.main.f)) (code [0x3C] { base with main.a := 0x7F, main.f := 0x01 }) =
      some (0x80, 0x95) := by decide
theorem test_step_A20_daaAfterSubtraction :
    after (fun t => (t.main.a, t.main.f)) (code [0x27] { base with main.a := 0x0F, main.f := 0x12 }) =
      some (0x09, 0x0E) := by decide
theorem test_step_A29_adcWord :
    after (fun t => (t.hl, t.main.f)) (code [0xED, 0x5A] (Loc16.hl.write 0x7FFF { base with main.f := 0x01 })) =
      some (0x8000, 0x94) := by decide
theorem test_step_A30_sbcWord :
    after (fun t => (t.hl, t.main.f)) (code [0xED, 0x42] (Loc16.bc.write 0x0001 base)) = some (0xFFFF, 0xBB) := by decide
theorem test_step_O7_rotateThroughCarry :
    after (fun t => (t.main.c, t.main.f)) (code [0xCB, 0x11] { base with main.f := 0x01 }) = some (0x01, 0x00) := by decide
theorem test_step_O14_indexedRotateCopies :
    after (fun t => (t.main.b, memRead t 0x2001, t.main.f))
      (poke 0x2001 [0x80] (code [0xDD, 0xCB, 0x01, 0x00] { base with ix := 0x2000 })) = some (0x01, 0x01, 0x01) := by decide
theorem test_step_O17_rrd :
    after (fun t => (t.main.a, memRead t 0x2000, t.main.f))
      (poke 0x2000 [0x34] (code [0xED, 0x67] (Loc16.hl.write 0x2000 { base with main.a := 0x12 }))) =
      some (0x14, 0x23, 0x04) := by decide
theorem test_step_B4_bitIndexedTakesYXFromAddress :
    after (fun t => t.main.f) (code [0xDD, 0xCB, 0x02, 0x4E] { base with ix := 0x2A00 }) = some 0x7C := by decide
theorem test_step_B9_resIndexedCopies :
    after (fun t => (t.main.d, memRead t 0x2000))
      (poke 0x2000 [0xFF] (code [0xDD, 0xCB, 0xFF, 0xBA] { base with ix := 0x2001 })) = some (0x7F, 0x7F) := by decide
theorem test_step_J8_relativeJumpBack :
    after (fun t => t.pc) (code [0x38, 0x80] { base with main.f := 0x01 }) = some 0x0082 := by decide
theorem test_step_J14_djnzWraps :
    after (fun t => (t.main.b, t.pc)) (code [0x10, 0xFE] base) = some (0xFF, 0x0100) := by decide
theorem test_step_J20_reti :
    after (fun t => (t.pc, t.iff1)) (poke 0x7FFE [0x00, 0x12] (code [0xED, 0x4D] { base with sp := 0x7FFE, iff2 := true })) =
      some (0x1200, true) := by decide
theorem test_step_J24_rstStackWraps :
    after (fun t => (t.pc, t.sp, memRead t 0xFFFF, memRead t 0x0000)) (code [0xD7] { base with sp := 0x0001 }) =
      some (0x0010, 0xFFFF, 0x01, 0x01) := by decide
theorem test_step_K4_ldirRepeats :
    after (fun t => (t.pc, t.bc, memRead t 0x3000, t.main.f))
      (poke 0x2000 [0x11] (code [0xED, 0xB0]
        (Loc16.bc.write 3 (Loc16.de.write 0x3000 (Loc16.hl.write 0x2000 base))))) = some (0x0100, 2, 0x11, 0x04) := by decide
theorem test_step_K8_cpd :
    after (fun t => (t.bc, t.hl, t.main.f))
      (poke 0x2000 [0x01] (code [0xED, 0xA9]
        (Loc16.bc.write 4 (Loc16.hl.write 0x2000 { base with main.a := 0x10, main.f := 0x01 })))) =
      some (3, 0x1FFF, 0x3F) := by decide
theorem test_step_K14_indr :
    after (fun t => (t.pc, t.main.f, memRead t 0x2000, logAfter 2 t))
      (code [0xED, 0xBA] (Loc16.bc.write 0x0100 (Loc16.hl.write 0x2000 (answering 2 0x5A base)))) =
      some (0x0102, 0x51, 0x5A, [.memWrite 0x2000 0x5A, .portRead 0x0100 0x5A]) := by decide
theorem test_step_K15_outi :
    after (fun t => (t.hl, t.main.f, logAfter 2 t))
      (poke 0x20FF [0x81] (code [0xED, 0xA3] (Loc16.bc.write 0x0110 (Loc16.hl.write 0x20FF base)))) =
      some (0x2100, 0x42, [.portWrite 0x0010 0x81, .memRead 0x20FF 0x81]) := by decide
theorem test_step_P1_inFromAPort :
    after (fun t => (t.main.a, logAfter 2 t)) (code [0xDB, 0x34] (answering 2 0x5A { base with main.a := 0x12 })) =
      some (0x5A, [.portRead 0x1234 0x5A]) := by decide
theorem test_step_P8_outZero :
    after (fun t => logAfter 2 t) (code [0xED, 0x71] (Loc16.bc.write 0x10FE base)) = some [.portWrite 0x10FE 0x00] := by decide
theorem test_step_C4_prefixedHalt :
    after (fun t => (t.pc, t.halted, t.r)) (code [0xDD, 0x76] base) = some (0x0101, true, 0x02) := by decide
theorem test_step_C12_loadAFromI :
    after (fun t => (t.main.a, t.main.f)) (code [0xED, 0x57] { base with i := 0x80, iff2 := true }) = some (0x80, 0x84) := by
  decide
theorem test_step_C14_loadAFromR :
    after (fun t => (t.main.a, t.r)) (code [0xED, 0x5F] { base with r := 0x7F }) = some (0x01, 0x01) := by decide
theorem test_step_I2_mode2 :
    after (fun t => (t.pc, memReadWord t 0xFEFE, t.iff1, t.iff2))
      (poke 0x3010 [0x00, 0x50]
        { base with iff1 := true, iff2 := true, im := .im2, i := 0x30, intLine := true, intVector := 0x10 }) =
      some (0x5000, 0x0100, false, false) := by decide
theorem test_step_I10_nmiBeatsEverything :
    after (fun t => (t.pc, t.iff1, t.iff2, t.nmiPending))
      { base with inhibit := true, iff1 := true, iff2 := true, im := .im1, intLine := true, nmiPending := true } =
      some (0x0066, false, true, false) := by decide
theorem test_step_I12_haltResumesNext :
    after (fun t => (memReadWord t 0xFEFE, t.halted))
      (code [0x76] { base with iff1 := true, iff2 := true, im := .im1, halted := true, intLine := true }) =
      some (0x0101, false) := by decide

/-! ### The machine on the bus (R82, R83, R99) -/

/-- Each byte of an instruction is fetched once, in address order, before its own transactions. -/
theorem test_step_transactionsInOrder :
    after (fun t => t.bus.log) (poke 0x2005 [0x80] (code [0xFD, 0xCB, 0x05, 0x06] { base with iy := 0x2000 })) =
      some [.memWrite 0x2005 0x01, .memRead 0x2005 0x80, .memRead 0x0103 0x06, .memRead 0x0102 0x05,
        .memRead 0x0101 0xCB, .memRead 0x0100 0xFD] := by decide

/-- A second page for the addresses from 0x2000. -/
def secondPage : List Region := [{ base := 0x2000, size := 0x1000, backing := .ram, target := 0x50000 }]

/-- `INI`: its port read switches the page, and its memory write goes to the new one (R83). -/
theorem test_step_portReadSwitchesPage :
    after (fun t => (t.bus.mem.read 0x50000, t.bus.mem.read 0x2000))
      (code [0xED, 0xA2] (Loc16.bc.write 0x0100 (Loc16.hl.write 0x2000
        (reacting 2 { answer := some 0x5A, remap := some secondPage } base)))) = some (0x5A, 0x00) := by decide

/-- `LD A,(nn)` from a device gives A what the device answers (R82). -/
theorem test_step_deviceAnswers :
    after (fun t => t.main.a)
      (code [0x3A, 0x00, 0x80]
        (answering 3 0x42 (setMap [{ base := 0x8000, size := 1, backing := .device, target := 0 }] base))) = some 0x42 := by
  decide

/-- A port without a device reads as 0xFF, and one with a device as what the device answers (R95). -/
theorem test_step_portWithoutDevice :
    after (fun t => t.main.a) (code [0xDB, 0xFE] base) = some 0xFF ∧
    after (fun t => t.main.a) (code [0xDB, 0xFE] (answering 2 0x5A (setPorts [{ base := 0x00FE, size := 1 }] base))) =
      some 0x5A ∧
    (setPorts [{ base := 0x00FE, size := 1 }] base).bus.claims 0x00FE = true ∧
    (setPorts [{ base := 0x00FE, size := 1 }] base).bus.claims 0x00FF = false := by decide

/-- A write to read-only storage changes no cell, but is a transaction that the machine sees (R90). -/
theorem test_step_writeToRomIsSeen :
    after (fun t => (t.bus.mem, t.bus.log.head?))
      (setMap [{ base := 0, size := 0x10000, backing := .rom, target := 0 }] (code [0x70] (Loc16.hl.write 0x2000 base))) =
      some ((code [0x70] base).bus.mem, some (.memWrite 0x2000 0x00)) := by decide

/-! ### `RESET_UNSPEC = fault_on_read` (R712 item 4) -/

/-- Under `fault_on_read`. -/
def watched : State := { base with params := { base.params with resetUnspec := .faultOnRead } }

theorem test_step_firstReadIsRefused : step (code [0x78] watched) = .refused (.unspecifiedRead (.main .b)) := rfl
theorem test_step_writtenRegisterIsRead :
    after (fun t => t.main.a) (code [0x78] { watched with main.b := 0x12, unwritten := [.main .c] }) = some 0x12 := by decide
/-- `LD A,R` reads R under `R_MODEL = counted` alone (log 3). -/
theorem test_step_ldARReadsR :
    step (code [0xED, 0x5F] watched) = .refused (.unspecifiedRead .r) ∧
    ∃ t, step (code [0xED, 0x5F] { watched with params := { watched.params with rModel := .draw } }) = .next t :=
  ⟨rfl, _, rfl⟩
theorem test_step_writingMarks :
    after (fun t => (t.unwritten.contains (.main .b), t.unwritten.contains (.main .c))) (code [0x06, 0x12] watched) =
      some (false, true) := by decide

/-! ### The interface -/

theorem test_withFetchWord_runsThatInstruction :
    after (fun t => t.main.a) (State.reset.withFetchWord 16 0x123E) = some 0x12 := by decide
theorem test_stepResult_ldirRepeats :
    stepResult (code [0xED, 0xB0] (Loc16.bc.write 3 (Loc16.de.write 0x3000 base))) =
      some { kind := .instruction, length := 2, repeats := true, illegal := none } := by decide
theorem test_stepResult_illegal :
    stepResult (code [0xDD, 0xED, 0xFF] { base with params := { base.params with edHolePolicy := .strict } }) =
      some { kind := .illegal, length := 0, repeats := false, illegal := some { pc := 0x0100, first := 0xED, second := 0xFF } } := by
  decide
theorem test_dumpState_hasTheRequestInputs :
    ((dumpState (requestInterrupt 0xC7 base)).intLine, (dumpState (requestInterrupt 0xC7 base)).intVector) = (true, 0xC7) := by
  decide
theorem test_construct_refusesUnknownModel : construct "6502" = none := by decide

/-! ### Witnesses: states and operands that meet the hypotheses of the statements

Each theorem is named after its statement; a statement with several clauses has one conjunct per clause. -/

/-- Everything is unmapped and reads as `DD`. -/
def allDd : State :=
  { base with
    bus := { base.bus with map := [{ base := 0, size := 65536, backing := .unmapped, target := 0 }] }
    params := { base.params with unmappedRead := 0xDD } }

/-- `DD` from 0x0001 to 0xFFFF, PC on the first of them, and a `NOP` at 0x0000. -/
def longRun : State :=
  { base with
    pc := 0x0001
    bus := { base.bus with map := [{ base := 1, size := 65535, backing := .unmapped, target := 0 }] }
    params := { base.params with unmappedRead := 0xDD } }

/-- A map with a writable page, a read-only page that shows the first, a hole, two addresses of one cell, and a device. -/
def paged : State :=
  setMap [
    { base := 0x0000, size := 0x1000, backing := .ram, target := 0x10000 },
    { base := 0x1000, size := 0x1000, backing := .rom, target := 0x10000 },
    { base := 0x2000, size := 0x1000, backing := .unmapped, target := 0 },
    { base := 0x3000, size := 0x0001, backing := .ram, target := 0x10000 },
    { base := 0x3001, size := 0x0001, backing := .ram, target := 0x10000 },
    { base := 0x4000, size := 0x0001, backing := .device, target := 0 }] base

theorem allDd_resolves (a : Word) : resolve allDd.bus.map a = .unmapped := by
  have h : a.toNat < 65536 := a.isLt
  simp [resolve, allDd, Region.covers, Region.place, h]

theorem longRun_resolves (a : Word) (h : a ≠ 0) : resolve longRun.bus.map a = .unmapped := by
  have h1 : a.toNat < 65536 := a.isLt
  have h2 : a.toNat ≠ 0 := fun e => h (BitVec.eq_of_toNat_eq e)
  have h3 : (1 ≤ a.toNat ∧ a.toNat < 1 + 65535) := by omega
  simp [resolve, longRun, Region.covers, Region.place, h3]

/-- Fetching from an unmapped stretch of a machine that does nothing of its own: nothing but the log changes. -/
theorem answered_unmapped (n : Nat) (a : Word) (s : State) (next : Byte) (hq : Quiet s)
    (hu : ∀ k < n, resolve s.bus.map (a + BitVec.ofNat 16 k) = .unmapped) (hd : s.params.unmappedRead = 0xDD)
    (hr : ∃ p, resolve s.bus.map (a + BitVec.ofNat 16 n) = .ram p ∧ s.bus.mem.read p = next ∨
      resolve s.bus.map (a + BitVec.ofNat 16 n) = .unmapped ∧ next = 0xDD) :
    Answered (fetches a (List.replicate n 0xDD ++ [next])) s := by
  induction n generalizing a s with
  | zero =>
    refine ⟨?_, trivial⟩
    show next = memRead s a
    obtain ⟨p, h⟩ := hr
    rw [memRead_quiet hq]
    rcases h with ⟨h, e⟩ | ⟨h, e⟩ <;> rw [BitVec.add_zero] at h <;> rw [h]
    · exact e.symm
    · exact e.trans hd.symm
  | succ n ih =>
    have h0 := hu 0 (by omega)
    rw [BitVec.add_zero] at h0
    have ha : ∀ k, a + 1 + BitVec.ofNat 16 k = a + BitVec.ofNat 16 (k + 1) := fun k => by
      rw [BitVec.ofNat_add, BitVec.add_comm (BitVec.ofNat 16 k), ← BitVec.add_assoc]; rfl
    obtain ⟨q1, q2⟩ := transact_quiet hq (.memRead a 0xDD)
    have hm : (s.did (.memRead a 0xDD)).bus.mem = s.bus.mem := by
      show (s.bus.transact _).mem = _
      rw [transact_mem]
    refine ⟨?_, ih (a + 1) _ q1 (fun k hk => ?_) hd ?_⟩
    · show (0xDD : Byte) = memRead s a
      rw [memRead_quiet hq, h0]; exact hd.symm
    · rw [ha]; exact (congrArg (resolve · _) q2).trans (hu (k + 1) (by omega))
    · obtain ⟨p, h⟩ := hr
      rw [ha]
      exact ⟨p, by rw [show resolve (s.did (.memRead a 0xDD)).bus.map _ = _ from congrArg (resolve · _) q2, hm]; exact h⟩

theorem ignoredRun_dd (n : Nat) (next : Byte) (h : (decodeBytes [0xDD, next]).instr.isIgnoredPrefix = true) :
    IgnoredRun (List.replicate n 0xDD) next := by
  induction n with
  | zero => trivial
  | succ n ih =>
    refine ⟨?_, ih⟩
    cases n with
    | zero => exact h
    | succ n => simp only [List.replicate_succ, List.headD_cons]; rfl

theorem test_witness_DecodeOfEncode :
    (Instr.wf .nop = true ∧ 3 ≤ [0x12#8, 0x34, 0x56].length ∧ Instr.isTablePrefix .nop = false) ∧
    (Instr.wf .prefixDdCb = true ∧ Instr.isTablePrefix .prefixDdCb = true) := by decide

theorem test_witness_StepRunsDecodedInstruction :
    (Executes (code [0xC6, 0x01] base) ∧ Fetched [] [0xC6, 0x01] (.addAN 0x01) (code [0xC6, 0x01] base)) ∧
    Fetched [] [0xDD, 0xCB, 0x05, 0xC6] (.setBIxD 0 0x05) (code [0xDD, 0xCB, 0x05, 0xC6] watched) ∧
    base.params.resetUnspec = .draw :=
  ⟨⟨⟨rfl, rfl, rfl⟩, ⟨rfl, rfl, trivial⟩, trivial, ⟨_, rfl⟩, rfl, rfl⟩,
    ⟨⟨rfl, rfl, rfl, rfl, trivial⟩, trivial, ⟨_, rfl⟩, rfl, rfl⟩, rfl⟩

theorem test_witness_IgnoredPrefixes_one :
    Executes base ∧ Fetched [0xDD] [0x00] .nop (code [0xDD, 0x00] base) :=
  ⟨⟨rfl, rfl, rfl⟩, ⟨rfl, rfl, trivial⟩, ⟨rfl, trivial⟩, ⟨_, rfl⟩, rfl, rfl⟩

/-- The longest run that ends, 65535 prefixes. -/
theorem test_witness_IgnoredPrefixes_longest :
    Executes longRun ∧ Fetched (List.replicate 65535 0xDD) [0x00] .nop longRun := by
  refine ⟨⟨rfl, rfl, rfl⟩, answered_unmapped 65535 0x0001 longRun 0x00 rfl (fun k hk => ?_) rfl ⟨0, .inl ⟨by decide, rfl⟩⟩,
    ignoredRun_dd _ _ rfl, ⟨_, rfl⟩, rfl, rfl⟩
  apply longRun_resolves
  intro e
  have := congrArg BitVec.toNat e
  simp at this
  omega

theorem allDd_answered (n : Nat) : Answered (fetches allDd.pc (List.replicate n 0xDD ++ [0xDD])) allDd :=
  answered_unmapped n _ allDd 0xDD rfl (fun _ _ => allDd_resolves _) rfl ⟨0, .inr ⟨allDd_resolves _, rfl⟩⟩

theorem test_witness_IgnoredPrefixes_endless :
    Executes allDd ∧ (List.replicate 65536 (0xDD : Byte)).length = 65536 ∧ IgnoredRun (List.replicate 65536 0xDD) 0xDD ∧
      Answered (fetches allDd.pc (List.replicate 65536 0xDD ++ [0xDD])) allDd :=
  ⟨⟨rfl, rfl, rfl⟩, List.length_replicate, ignoredRun_dd _ _ rfl, allDd_answered _⟩

theorem test_witness_NmiIsAccepted :
    ({ base with nmiPending := true } : State).params.cpuModel = .z80 ∧
    base.pc + 1 = (if ({ base with nmiPending := true, halted := true } : State).halted ∧ base.params.haltResume = .next
      then base.pc + 1 else base.pc) ∧
    (∃ t, step { base with nmiPending := true, inhibit := true, intLine := true } = .next t) :=
  ⟨rfl, by decide, _, rfl⟩

/-- A machine whose next step accepts a maskable interrupt. -/
def asked (m : IntMode) (v : Byte) : State :=
  { base with intLine := true, intVector := v, iff1 := true, iff2 := true, im := m }

theorem test_witness_IntIsAccepted :
    (TakesInt (asked .im0 0xC7) ∧ mode0NonRst (asked .im0 0xC7) = false) ∧
    (TakesInt (asked .im0 0xFF) ∧ mode0NonRst (asked .im0 0xFF) = false) ∧
    (TakesInt (asked .im1 0x00) ∧ mode0NonRst (asked .im1 0x00) = false) ∧
    (TakesInt { asked .im2 0xFF with halted := true } ∧ mode0NonRst { asked .im2 0xFF with halted := true } = false) ∧
    (watched.params.resetUnspec = .faultOnRead ∧
      .i ∉ ({ asked .im2 0xFF with params := watched.params, unwritten := [] } : State).unwritten) :=
  ⟨⟨⟨rfl, rfl, rfl, rfl, rfl⟩, by decide⟩, ⟨⟨rfl, rfl, rfl, rfl, rfl⟩, by decide⟩, ⟨⟨rfl, rfl, rfl, rfl, rfl⟩, by decide⟩,
    ⟨⟨rfl, rfl, rfl, rfl, rfl⟩, by decide⟩, rfl, nofun⟩

theorem test_witness_IntTarget :
    (∃ t, step (asked .im0 0xC7) = .next t ∧ t.pc = 0x0000) ∧ (∃ t, step (asked .im0 0xFF) = .next t ∧ t.pc = 0x0038) ∧
    (∃ t, step (asked .im1 0x00) = .next t ∧ t.pc = 0x0038) ∧ (∃ t, step (asked .im2 0xFF) = .next t ∧ t.pc = 0x0000) ∧
    Plain (asked .im2 0xFF) :=
  ⟨⟨_, rfl, by decide⟩, ⟨_, rfl, by decide⟩, ⟨_, rfl, by decide⟩, ⟨_, rfl, by decide⟩, rfl, nofun⟩

theorem test_witness_Mode0NonRstIsRefused :
    ((asked .im0 0xBF).intVector.toNat / 64 ≠ 3 ∧ step (asked .im0 0xBF) = .refused (.mode0NotRst 0xBF)) ∧
    ((asked .im0 0xC6).intVector.toNat % 8 ≠ 7 ∧ step (asked .im0 0xC6) = .refused (.mode0NotRst 0xC6)) :=
  ⟨⟨by decide, rfl⟩, ⟨by decide, rfl⟩⟩

theorem test_witness_EiShadow :
    (base.params.cpuModel = .z80 ∧ base.nmiPending = false) ∧
    (Instr.isTablePrefix .ei = false ∧ Instr.isIgnoredPrefix .ei = false ∧ ∃ t, exec .ei base = .next t ∧ t.inhibit = true) ∧
    (∃ t, exec .nop { base with inhibit := true } = .next t ∧ t.inhibit = false) ∧
    (∃ t, exec .ei base = .next t ∧ t = { t with intLine := false, intVector := 0xFF } ∧
      requestInterrupt 0xFF t = { t with intLine := true, intVector := 0xFF }) :=
  ⟨⟨rfl, rfl⟩, ⟨rfl, rfl, _, rfl, rfl⟩, ⟨_, rfl, rfl⟩, _, rfl, by decide, rfl⟩

/-- A halted core on a `HALT` opcode. -/
def asleep : State := code [0x76] { base with halted := true }

theorem test_witness_HaltedStep :
    asleep.params.cpuModel = .z80 ∧ acceptsInterrupt asleep = false ∧ asleep.halted = true ∧
      memRead asleep asleep.pc = 0x76 := by decide

theorem test_witness_DefaultParametersNeverStop :
    DefaultParams State.reset ∧ mode0NonRst State.reset = false ∧ ¬ FetchesIndexBytes 65536 State.reset := by
  refine ⟨rfl, rfl, ?_⟩
  rintro ⟨_ | ⟨b, bs⟩, hl, hb, ha⟩
  · cases hl
  · have h := hb b List.mem_cons_self
    rw [show b = 0x00 from ha.1] at h
    cases h

theorem test_witness_Refuses_r800 :
    step { base with params := { base.params with cpuModel := .r800 } } = .refused .r800Model := rfl

theorem test_witness_Refuses_mode0 :
    step (asked .im0 0x00) = .refused (.mode0NotRst 0x00) ∧ mode0NonRst (asked .im0 0x00) = true := ⟨rfl, rfl⟩

theorem test_witness_Refuses_endless : Executes allDd ∧ FetchesIndexBytes 65536 allDd := by
  refine ⟨⟨rfl, rfl, rfl⟩, List.replicate 65536 0xDD, List.length_replicate, fun b hb => ?_, ?_⟩
  · rw [List.eq_of_mem_replicate hb]; rfl
  · have h := allDd_answered 65535
    rwa [← List.replicate_succ'] at h

theorem test_witness_Refuses_unspecified :
    step (code [0x78] watched) = .refused (.unspecifiedRead (.main .b)) ∧ .main .b ∈ watched.unwritten ∧
    Executes watched ∧ Fetched [] [0x78] (.ldRR .a .b) (code [0x78] watched) ∧
    .main .b ∈ ((opOf (.ldRR .a .b)).access watched.params.rModel).reads :=
  ⟨rfl, by decide, ⟨rfl, rfl, rfl⟩, ⟨⟨rfl, trivial⟩, trivial, ⟨_, rfl⟩, rfl, rfl⟩, by decide⟩

theorem test_witness_Refuses_unspecifiedI :
    step { asked .im2 0x00 with params := watched.params } = .refused (.unspecifiedRead .i) ∧
    TakesInt { asked .im2 0x00 with params := watched.params } := ⟨rfl, rfl, rfl, rfl, rfl, rfl⟩

theorem test_witness_FirstReadsAreRefused :
    watched.params.resetUnspec = .faultOnRead ∧
    (Forms.readsOne (.ldRR .a .l) = some (.main .l) ∧ .main .l ∈ watched.unwritten) ∧
    (Forms.readsOne (.ldRRIy .a .lo) = some (.half .iy .lo) ∧ .half .iy .lo ∈ watched.unwritten) ∧
    (Forms.readsOne .ldAR = some .r ∧ watched.params.rModel = .counted ∧ .r ∈ watched.unwritten) ∧
    (∀ x ∈ ((opOf (.addAR .a)).access watched.params.rModel).reads, x ∉ watched.unwritten) ∧
    (.alt .a ∈ watched.unwritten ∧ .altF ∈ watched.unwritten ∧ .main .b ∈ watched.unwritten ∧ .alt .l ∈ watched.unwritten) ∧
    ((asked .im2 0x00).im = .im2 ∧ .i ∈ (asked .im2 0x00).unwritten) ∧
    Forms.writesOne .ldRA = some .r ∧ Forms.writesOne (.ldIxHalfN .hi 0x00) = some (.half .ix .hi) ∧
    base.params.resetUnspec = .draw := by decide

theorem test_witness_UnwrittenRegistersCannotBeObserved :
    watched.params.resetUnspec = .faultOnRead ∧ SameButUnwritten watched { watched with main.b := 0x12, i := 0x34 } ∧
      ∃ t, step watched = .next t := by
  refine ⟨rfl, ⟨?_, rfl, rfl, rfl⟩, _, rfl⟩
  constructor <;> first | rfl | skip
  · intro r h; cases r <;> first | rfl | exact absurd (by decide) h
  · intro r _; rfl
  · intro _; rfl
  · intro j k _; rfl
  · intro h; exact absurd (by decide) h
  · intro _; rfl

/-- Under `ED_HOLE_POLICY = strict`. -/
def strict : State := { base with params := { base.params with edHolePolicy := .strict } }

theorem test_witness_EdHoles :
    Forms.hole .noni77 = some 0x77 ∧ Forms.hole .noni7F = some 0x7F ∧ Forms.hole (.noni00 0) = some 0x00 ∧
    Forms.hole (.noni00 0x3F) = some 0x3F ∧ Forms.hole (.noniC0 0x3F) = some 0xFF ∧ Forms.hole (.noni80 0x1F) = some 0x9F ∧
    Forms.hole (.noniA4 3 3) = some 0xBF ∧ strict.params.edHolePolicy = .strict ∧ base.params.edHolePolicy = .nop := by decide

theorem test_witness_FaultsOnlyOnStrictHoles :
    (∃ b, step (code [0xED, 0x00] strict) = .fault (.illegalOpcode 0x0100 0xED 0x00 b)) ∧
    (∃ b, step (code [0xDD, 0xED, 0xFF] strict) = .fault (.illegalOpcode 0x0100 0xED 0xFF b)) := ⟨⟨_, rfl⟩, ⟨_, rfl⟩⟩

/-- The machine sees the fetches of a step that ends in `IllegalOpcode`, and may react to them (R99, R711). -/
theorem test_step_illegalFetchesAreSeen :
    (match step (reacting 1 { answer := none, remap := some secondPage } (code [0xED, 0xFF] strict)) with
      | .fault f =>
        let t := afterFault f strict
        (t.pc, t.r, t.bus.log, t.bus.map == secondPage, t.bus.reactions)
      | _ => (0, 0, [], false, [])) =
    (0x0100, 0x00, [.memRead 0x0101 0xFF, .memRead 0x0100 0xED], true, []) := by decide

theorem test_witness_StepKeepsMemoryCanonical : MemoryCanonical base ∧ ∃ t, step (code [0xC7] base) = .next t :=
  ⟨⟨by decide, by decide⟩, _, rfl⟩

theorem test_witness_StepKeepsHaltedAtHalt :
    (Plain asleep ∧ HaltedAtHalt asleep ∧ ∃ t, step asleep = .next t ∧ t.halted = true) ∧
    (Plain base ∧ HaltedAtHalt base ∧ ∃ t, step (code [0x76] base) = .next t ∧ t.halted = true) :=
  ⟨⟨⟨rfl, nofun⟩, fun _ => by decide, _, rfl, by decide⟩, ⟨rfl, nofun⟩, nofun, _, rfl, by decide⟩

theorem test_witness_StepKeepsWhatTheHostOwns : ∃ t, step { base with nmiPending := true } = .next t := ⟨_, rfl⟩

theorem test_witness_ShadowSetIsUntouched :
    Instr.ldRR .b .c ≠ .exAfAf ∧ Instr.ldRR .b .c ≠ .exx ∧ ∃ t, exec (.ldRR .b .c) base = .next t :=
  ⟨by decide, by decide, _, rfl⟩

theorem test_witness_InstructionsIgnoreRequests : ∃ t, exec (.incR .b) base = .next t := ⟨_, rfl⟩

theorem test_witness_ControlRegisterWriters :
    (∃ t, exec .ei base = .next t ∧ t.iff1 ≠ base.iff1 ∧ t.iff2 ≠ base.iff2) ∧
    (∃ t, exec (.retn 0) { base with iff2 := true } = .next t ∧ t.iff1 = true) ∧
    (∃ t, exec (.im2 0) base = .next t ∧ t.im ≠ base.im) ∧
    (∃ t, exec .ldIA { base with main.a := 1 } = .next t ∧ t.i = 1) ∧
    (∃ t, exec .halt base = .next t ∧ t.halted = true) ∧
    (∃ t, exec .ldRA { base with main.a := 0x80 } = .next t ∧ t.r = 0x80) :=
  ⟨⟨_, rfl, by decide, by decide⟩, ⟨_, rfl, rfl⟩, ⟨_, rfl, by decide⟩, ⟨_, rfl, rfl⟩, ⟨_, rfl, rfl⟩, ⟨_, rfl, rfl⟩⟩

theorem test_witness_OnlyIoReachesPorts :
    (Forms.reachesPorts .outC0 = true ∧ ∃ t, exec .outC0 base = .next t) ∧
    (Forms.reachesPorts .nop = false ∧ ∃ t, exec .nop base = .next t) := ⟨⟨rfl, _, rfl⟩, rfl, _, rfl⟩

theorem test_witness_ByteTransactions :
    (answering 0 0x42 base).bus.reactions = { answer := some 0x42, remap := none } :: [] ∧
    (answering 0 0x42 base).bus.answer = some 0x42 ∧ base.bus.answer = none ∧ Quiet paged ∧
    IsRam paged.bus.map 0x0FFF ∧ sharesCell paged.bus.map 0x0FFF 0x0FFE = false ∧
    sharesCell paged.bus.map 0x0FFF 0x1FFF = true ∧ resolve paged.bus.map 0x1000 = .rom 0x10000 ∧
    ¬ IsRam paged.bus.map 0x1000 ∧ ¬ IsDevice paged.bus.map 0x1000 ∧ IsDevice paged.bus.map 0x4000 ∧
    resolve paged.bus.map 0x2FFF = .unmapped ∧ IsRam base.bus.map 0xFFFF := by
  have h : resolve paged.bus.map 0x1000 = .rom 0x10000 := by decide
  refine ⟨rfl, rfl, rfl, rfl, ⟨0x10FFF, by decide⟩, by decide, by decide, h, ?_, ?_, ⟨0, by decide⟩, by decide,
    ⟨0xFFFF, by decide⟩⟩
  · rintro ⟨p, h'⟩; rw [h] at h'; cases h'
  · rintro ⟨p, h'⟩; rw [h] at h'; cases h'

theorem test_witness_WordTransactions :
    Quiet base ∧ Quiet paged ∧
    (IsRam base.bus.map 0xFFFF ∧ IsRam base.bus.map (0xFFFF + 1) ∧ sharesCell base.bus.map 0xFFFF (0xFFFF + 1) = false) ∧
    (IsRam paged.bus.map 0x3000 ∧ IsRam paged.bus.map (0x3000 + 1) ∧
      sharesCell paged.bus.map 0x3000 (0x3000 + 1) = true) ∧
    ({ Config.Params.default with wordAccessOrder := .lowFirst } : Config.Params).wordAccessOrder = .lowFirst ∧
    ({ Config.Params.default with wordAccessOrder := .highFirst } : Config.Params).wordAccessOrder = .highFirst :=
  ⟨rfl, rfl, ⟨⟨0xFFFF, by decide⟩, ⟨0, by decide⟩, by decide⟩, ⟨⟨0x10000, by decide⟩, ⟨0x10000, by decide⟩, by decide⟩, rfl, rfl⟩

theorem test_witness_ByteLoads :
    Forms.byteLoad (.ldRHl .a) = some (.reg .a, .loc (.mem .hl)) ∧
    Forms.byteLoad (.ldMemNnA 0xFFFF) = some (.mem (.abs 0xFFFF), .loc (.reg .a)) ∧
    Forms.byteLoad (.ldRRIx .lo .b) = some (.half .ix .lo, .loc (.reg .b)) ∧
    Forms.byteLoad (.ldIyDN 0x80 0x01) = some (.mem (.idx .iy 0x80), .imm 0x01) := by decide

theorem test_witness_WordLoadsAndStores :
    Forms.wordLoad base (.ldDdNn .sp 0xFFFF) = some (.sp, 0xFFFF) ∧
    Forms.wordLoadAt (.ldHlMemNn 0xFFFF) = some (.hl, 0xFFFF) ∧
    Forms.wordStore (.ldMemNnDd .sp 0xFFFF) = some (0xFFFF, .sp) := by decide

theorem test_witness_PushAndPop :
    Forms.push (.pushQq .af) = some .af ∧ Forms.push .pushIx = some (.idx .ix) ∧ Forms.pop (.popQq .af) = some .af ∧
    Forms.pop .popIy = some (.idx .iy) := by decide

theorem test_witness_Exchanges : Forms.exchangeTop .exSpHl = some .hl ∧ Forms.exchangeTop .exSpIx = some (.idx .ix) := by
  decide

theorem test_witness_AddToA :
    Forms.aluOn (.addAN 0x80) = some (.add, .imm 0x80) ∧ Forms.aluOn .adcAHl = some (.adc, .loc (.mem .hl)) ∧
    1 = (flagC ({ base with main.f := 0x01 } : State).main.f).toNat := by decide

theorem test_witness_SubtractFromA :
    Forms.aluOn (.subR .a) = some (.sub, .loc (.reg .a)) ∧ Forms.aluOn (.sbcAIyHalf .lo) = some (.sbc, .loc (.half .iy .lo)) ∧
    (∃ y, Instr.neg 7 = .neg y) := ⟨by decide, by decide, 7, rfl⟩

theorem test_witness_CompareWithA : Forms.aluOn (.cpIxD 0x80) = some (.cp, .loc (.mem (.idx .ix 0x80))) := by decide

theorem test_witness_LogicOnA :
    Forms.aluOn (.andR .a) = some (.and, .loc (.reg .a)) ∧ Forms.aluOn (.xorR .a) = some (.xor, .loc (.reg .a)) ∧
    Forms.aluOn (.orN 0xFF) = some (.or, .imm 0xFF) := by decide

theorem test_witness_IncrementAndDecrementByte :
    Forms.increment (.incR .a) = some (.reg .a) ∧ Forms.decrement (.decIyD 0xFF) = some (.mem (.idx .iy 0xFF)) := by decide

theorem test_witness_DecimalAdjust :
    (false = (flagH ({ base with main.a := 0x99 } : State).main.f || decide (9 < 0x99 % 16)) ∧
      false = (flagC ({ base with main.a := 0x99 } : State).main.f || decide (0x99 < 0x99))) ∧
    (true = (flagH ({ base with main.a := 0x9A } : State).main.f || decide (9 < 0x9A % 16)) ∧
      true = (flagC ({ base with main.a := 0x9A } : State).main.f || decide (0x99 < 0x9A))) := by decide

theorem test_witness_AddWord :
    Forms.addWord (.addHlSs .hl) = some (.hl, .hl) ∧ Forms.addWord (.addIxPp .idx) = some (.idx .ix, .idx .ix) := by decide

theorem test_witness_AddWordWithCarry : 1 = (flagC ({ base with main.f := 0x01 } : State).main.f).toNat := by decide

theorem test_witness_StepWord :
    Forms.stepWord (.incSs .sp) = some (.sp, 1) ∧ Forms.stepWord .decIy = some (.idx .iy, -1) := by decide

theorem test_witness_Rotates :
    Forms.rotateA .rla = some .rl ∧ Forms.rotate (.sllR .b) = some (.sll, .reg .b, none) ∧
    Forms.rotate (.ldRSraIxD .a 0x80) = some (.sra, .mem (.idx .ix 0x80), some .a) := by decide

theorem test_witness_RotateDigits : (0 : Nat) = (memRead base base.hl).toNat ∧ Quiet base ∧ IsRam base.bus.map base.hl :=
  ⟨by decide, rfl, ⟨0, by decide⟩⟩

theorem test_witness_BitTests :
    Forms.testBit base (.bitBR 7 .a) = some (7, .reg .a, 0x00) ∧
    Forms.testBit { base with ix := 0x2A00 } (.bitBIxD 0 0 0xFF) = some (0, .mem (.idx .ix 0xFF), 0x29) := by decide

theorem test_witness_ChangeBit :
    Forms.changeBit (.setBR 7 .a) = some (7, true, .reg .a, none) ∧
    Forms.changeBit (.ldRResBIyD .l 0 0x7F) = some (0, false, .mem (.idx .iy 0x7F), some .l) := by decide

theorem test_witness_JumpsAndDjnz :
    Forms.jump base (.jpCcNn .z 0x8000) = some (false, 0x8000) ∧
    Forms.jump { base with main.f := 0x40 } (.jpCcNn .z 0x8000) = some (true, 0x8000) ∧
    Forms.jump { base with main.f := 0x04 } (.jpCcNn .po 0x8000) = some (false, 0x8000) ∧
    Forms.jump { base with main.f := 0x7F } (.jpCcNn .p 0x8000) = some (true, 0x8000) ∧
    Forms.jump { base with main.f := 0x01 } (.jrCc .nc 0x7F) = some (false, 0x0181) ∧
    Forms.jump base (.jr 0x80) = some (true, 0x0082) ∧
    (∃ t, exec (.djnz 0xFE) { base with main.b := 1 } = .next t ∧ t.pc = 0x0102) ∧
    (∃ t, exec (.djnz 0xFE) base = .next t ∧ t.pc = 0x0100) :=
  ⟨by decide, by decide, by decide, by decide, by decide, by decide, ⟨_, rfl, by decide⟩, ⟨_, rfl, by decide⟩⟩

theorem test_witness_Calls :
    Forms.call base (.callCcNn .m 0x2000) = some (false, 0x2000) ∧
    Forms.call { base with main.f := 0x80 } (.callCcNn .m 0x2000) = some (true, 0x2000) ∧
    Forms.call base (.rst 7) = some (true, 0x0038) := by decide

theorem test_witness_Returns :
    Forms.returnFrom base (.retCc .nz) = some (true, false) ∧
    Forms.returnFrom { base with main.f := 0x40 } (.retCc .nz) = some (false, false) ∧
    Forms.returnFrom base .reti = some (true, true) := by decide

theorem test_witness_BlockMove :
    Forms.blockMove .ldir = some ⟨1, true⟩ ∧ Forms.blockMove .ldd = some ⟨-1, false⟩ ∧
    (∃ t, exec .ldir (Loc16.bc.write 1 base) = .next t ∧ t.bc = 0) ∧ (∃ t, exec .ldir base = .next t ∧ t.bc = 0xFFFF) :=
  ⟨rfl, rfl, ⟨_, rfl, by decide⟩, ⟨_, rfl, by decide⟩⟩

theorem test_witness_BlockCompare :
    Forms.blockCompare .cpir = some ⟨1, true⟩ ∧ 0x00 = memRead base base.hl ∧
    false = decide (base.main.a.toNat % 16 < (0x00#8).toNat % 16) ∧
    (∃ t, exec .cpir base = .next t ∧ t.pc = 0x0102) ∧
    (∃ t, exec .cpir { base with main.a := 1 } = .next t ∧ t.pc = 0x0100) :=
  ⟨rfl, by decide, by decide, ⟨_, rfl, by decide⟩, ⟨_, rfl, by decide⟩⟩

theorem test_witness_BlockInput :
    Forms.blockInput .inir = some ⟨1, true⟩ ∧ 0x5A = portAnswer (answering 0 0x5A base) (answering 0 0x5A base).bc ∧
    ((0x5A : Nat) : Int) = (0x5A#8).toNat + (((0xFF#8).toNat : Int) + 1) % 256 ∧
    (((0x5A + 0xFF : Nat)) : Int) = (0x5A#8).toNat + (((0x00#8).toNat : Int) + -1) % 256 :=
  ⟨rfl, rfl, by decide, by decide⟩

theorem test_witness_BlockOutput : Forms.blockOutput .otdr = some ⟨-1, true⟩ ∧ 0x00 = memRead base base.hl :=
  ⟨rfl, by decide⟩

theorem test_witness_PortInput :
    0x5A = portAnswer (answering 0 0x5A base) (wordOf (answering 0 0x5A base).main.a 0xFE) ∧
    0x5A = portAnswer (answering 0 0x5A base) (answering 0 0x5A base).bc ∧
    0xFF = portAnswer base base.bc ∧ (Instr.inRC .a = .inC ∧ (none : Option Reg8) = none ∨
      ∃ r, Instr.inRC .a = .inRC r ∧ some Reg8.a = some r) := ⟨rfl, rfl, rfl, .inr ⟨.a, rfl, rfl⟩⟩

theorem test_witness_PortOutput :
    Forms.output { base with main.a := 0x07 } (.outNA 0xFE) = some (0x07FE, 0x07) ∧
    Forms.output base .outC0 = some (0x0000, 0x00) := by decide

theorem test_witness_CpuControl :
    Forms.setMode (.im0 0 0) = some .im0 ∧ Forms.setMode (.im1 0) = some .im1 ∧ Forms.setMode (.im2 1) = some .im2 := by decide

theorem test_witness_MovesOfIAndR : base.params.rModel = .counted := rfl

theorem test_witness_PrefixRows :
    Instr.isTablePrefix .prefixEd = true ∧ Instr.isIgnoredPrefix (.ignoredFd 0x00) = true ∧
    Instr.isIgnoredPrefix (.supersededDd .ed) = true := by decide

end Sys2Proof.Tests
end

section
/-! The scope rules: where a step can be refused, the first read of a register that reset leaves unspecified, what no
step writes, and the byte and port transactions. -/

namespace Sys2Proof.Machine

open Sys2Proof

/-! ### Where a step can be refused (R4, R712) -/

/-- A request that is taken is refused for its byte exactly in mode 0, when the byte is no `RST`. -/
theorem mode0NonRst_iff {s : State} (h : TakesInt s) :
    mode0NonRst s = true ↔ s.im = .im0 ∧ isRst s.intVector = false := by
  obtain ⟨-, hn, hl, hi, hh⟩ := h
  simp [mode0NonRst, hn, hl, hi, hh]

/-- The two refusals of `accept_int` (R712 items 1 and 4). -/
theorem acceptInt_refused {s : State} {r : Refusal} (h : acceptInt s = .refused r) :
    (r = .mode0NotRst s.intVector ∧ s.im = .im0 ∧ isRst s.intVector = false) ∨
      (r = .unspecifiedRead .i ∧ s.im = .im2 ∧ s.params.resetUnspec = .faultOnRead ∧ .i ∈ s.unwritten) := by
  rcases acceptInt_cases s with ⟨hm, hv, e⟩ | ⟨hm, hf, hi, e⟩ | ⟨-, -, e⟩ <;> rw [e] at h <;> cases h
  · exact .inl ⟨rfl, hm, hv⟩
  · exact .inr ⟨rfl, hm, hf, hi⟩

/-- Settles O13: by the five kinds of step, each with its own refusals. -/
theorem refusesOnlyWhatTheSpecRefuses : Obligations.RefusesOnlyWhatTheSpecRefuses := by
  refine ⟨fun s r h => ?_, fun s hm => by simp only [step, hm]⟩
  rcases step_kinds s with ⟨hm, e⟩ | ⟨-, -, e⟩ | ⟨ht, e⟩ | ⟨-, -, -, e⟩ | ⟨hx, e⟩ <;> rw [e] at h
  · cases h
    exact .inl ⟨rfl, hm⟩
  · cases h
  · rcases acceptInt_refused h with ⟨rfl, hv⟩ | ⟨rfl, hm, hf, hi⟩
    · exact .inr (.inl ⟨rfl, ht, (mode0NonRst_iff ht).mpr hv⟩)
    · exact .inr (.inr (.inr ⟨hf, .i, hi, rfl, .inl ⟨rfl, ht, hm⟩⟩))
  · exact absurd h (exec_not_refused _ _ _)
  · rcases executeOne_refused h with ⟨hf, x, hu, rfl, hi⟩ | ⟨rfl, hb⟩
    · exact .inr (.inr (.inr ⟨hf, x, hu, rfl, .inr ⟨hx, hi⟩⟩))
    · exact .inr (.inr (.inl ⟨rfl, hx, hb⟩))

/-! ### The first read of an unspecified register (R712 item 4, R800) -/

/-- A row that reads a register that nothing has written is refused, by the name of such a register. -/
theorem runRow_refused_of_read {i : Instr} {s : State} {x : Unspecified} (hf : s.params.resetUnspec = .faultOnRead)
    (hx : x ∈ ((opOf i).access s.params.rModel).reads) (hu : x ∈ s.unwritten) :
    ∃ y ∈ s.unwritten, y ∈ ((opOf i).access s.params.rModel).reads ∧ runRow i s = .refused (.unspecifiedRead y) := by
  cases hy : firstUnwritten i s with
  | none => exact absurd hu (by simpa using List.find?_eq_none.mp hy x hx)
  | some y =>
    exact ⟨y, by simpa using List.find?_some hy, List.mem_of_find?_eq_some hy, runRow_refuses hf hy⟩

/-- Every row but an `ED` hole has a next state. -/
theorem exec_next_of_not_edHole {i : Instr} (hi : ∀ op, opOf i ≠ .edHole op) (s : State) : ∃ t, exec i s = .next t := by
  rcases he : exec i s with t | f | r
  · exact ⟨t, rfl⟩
  · obtain ⟨-, op, ho, -⟩ := exec_fault he
    exact absurd ho (hi op)
  · exact absurd he (exec_not_refused _ _ _)

/-- A row that reads no register that nothing has written has its meaning, and what it writes is then written. -/
theorem runRow_of_exec {i : Instr} {s t : State} (hf : s.params.resetUnspec = .faultOnRead)
    (hr : ∀ x ∈ ((opOf i).access s.params.rModel).reads, x ∉ s.unwritten) (ht : exec i s = .next t) :
    ∃ u, runRow i s = .next u ∧ u = { t with unwritten := u.unwritten } ∧
      ∀ x, x ∈ u.unwritten ↔ x ∈ s.unwritten ∧ x ∉ ((opOf i).access s.params.rModel).writes := by
  have f := exec_frame ht
  refine ⟨markWritten i t, (runRow_runs hf hr).1 t ht, rfl, fun x => ?_⟩
  rw [mem_markWritten, f.unwritten, f.params]

/-- `readsOne` is what the table of accesses says; `LD A,R` reads R under `R_MODEL = counted` (log 3). -/
theorem access_of_readsOne {i : Instr} {x : Unspecified} {m : Config.RModel} (h : Forms.readsOne i = some x)
    (hm : i = .ldAR → m = .counted) : ((opOf i).access m).reads = [x] := by
  by_cases hr : i = .ldAR
  · subst hr
    cases h
    rw [hm rfl]
    rfl
  · unfold Forms.readsOne at h
    split at h <;> cases h <;> first | exact absurd rfl hr | rfl

/-- `writesOne` is what the table of accesses says. -/
theorem access_of_writesOne {i : Instr} {x : Unspecified} (h : Forms.writesOne i = some x) (m : Config.RModel) :
    (opOf i).access m = ⟨[], [x]⟩ := by
  unfold Forms.writesOne at h
  split at h <;> cases h <;> rfl

/-- An instruction of `writesOne` is no `ED` hole: a hole writes no register. -/
theorem not_edHole_of_writesOne {i : Instr} {x : Unspecified} (h : Forms.writesOne i = some x) (op : Byte) :
    opOf i ≠ .edHole op := by
  intro ho
  have ha := access_of_writesOne h .counted
  rw [ho] at ha
  cases ha

/-- `EXX` exchanges every register but A with its shadow (R266). -/
theorem mem_bothBanks {r : Reg8} (h : r ≠ .a) : .main r ∈ Unspecified.bothBanks ∧ .alt r ∈ Unspecified.bothBanks := by
  cases r
  case a => exact absurd rfl h
  all_goals decide

/-- Settles O14: the check of `runRow` looks the accesses of the row's shared operation up in the registers that nothing
has written, and each named instruction has the accesses that its table says. -/
theorem firstReadsAreRefused : Obligations.FirstReadsAreRefused := by
  refine fun s => ⟨fun hf => ⟨?_, ?_, ?_, ?_, ?_, ?_, ?_⟩, fun hd i => runRow_draw hd i⟩
  · intro i x hi hm hx
    have ha := access_of_readsOne hi hm
    obtain ⟨y, -, hy, e⟩ := runRow_refused_of_read hf (by rw [ha]; exact List.mem_singleton_self x) hx
    rw [ha, List.mem_singleton] at hy
    rwa [hy] at e
  · intro h
    obtain ⟨x, hx, hu⟩ : ∃ x ∈ Unspecified.shadowAf, x ∈ s.unwritten :=
      h.elim (fun hu => ⟨_, by decide, hu⟩) (fun hu => ⟨_, by decide, hu⟩)
    obtain ⟨y, hy, -, e⟩ := runRow_refused_of_read (i := .exAfAf) hf hx hu
    exact ⟨y, hy, e⟩
  · rintro ⟨r, hr, h⟩
    obtain ⟨x, hx, hu⟩ : ∃ x ∈ Unspecified.bothBanks, x ∈ s.unwritten :=
      h.elim (fun hu => ⟨_, (mem_bothBanks hr).1, hu⟩) (fun hu => ⟨_, (mem_bothBanks hr).2, hu⟩)
    obtain ⟨y, hy, -, e⟩ := runRow_refused_of_read (i := .exx) hf hx hu
    exact ⟨y, hy, e⟩
  · intro ht hm hi
    rw [step_int ht]
    rcases acceptInt_cases s with ⟨h0, -, -⟩ | ⟨-, -, -, e⟩ | ⟨-, hn, -⟩
    · rw [hm] at h0; cases h0
    · exact e
    · exact absurd hi (hn hm hf)
  · intro i x hi
    have ha := access_of_writesOne hi s.params.rModel
    obtain ⟨t, ht⟩ := exec_next_of_not_edHole (not_edHole_of_writesOne hi) s
    obtain ⟨u, hu, -, hw⟩ := runRow_of_exec hf (by simp [ha]) ht
    exact ⟨u, hu, by simpa [ha] using hw⟩
  · rintro i _ rfl hr
    exact ⟨fun t ht => runRow_of_exec hf hr ht, (runRow_runs hf hr).2⟩
  · intro hm
    obtain ⟨t, ht⟩ := exec_next_of_not_edHole (i := .ldAR) nofun s
    have ha : ((opOf .ldAR).access s.params.rModel).reads = [] := by rw [hm]; rfl
    obtain ⟨u, hu, -⟩ := runRow_of_exec hf (by simp [ha]) ht
    exact ⟨u, hu⟩

/-! ### What the host and the machine own (R50, R101, R715) -/

/-- The maps that the machine may have after transactions it had, or had ready, before them. -/
theorem replay_maps (b : Bus) (es : List BusEvent) : ∀ m ∈ (b.replay es).maps, m ∈ b.maps := by
  induction es generalizing b with
  | nil => exact fun _ hm => hm
  | cons e es ih => exact fun m hm => transact_maps b e m (ih _ m hm)

/-- Settles O20: the frame of a step (`step_frame`), and what its transactions can do to the bus. -/
theorem stepKeepsWhatTheHostOwns : Obligations.StepKeepsWhatTheHostOwns := by
  intro s t h
  obtain ⟨⟨es, k⟩, hl, hv, hp, hn⟩ := step_frame h
  refine ⟨hl, hv, hp, hn, ⟨es, k⟩, ?_, ?_, fun hq => ?_⟩ <;> rw [k.bus]
  · exact replay_ports _ _
  · exact replay_maps _ _
  · exact (replay_quiet hq es).2

/-! ### Byte and port transactions (R82 to R85, R90, R94 to R96, R99) -/

/-- A transaction uses up the reaction that the machine has ready for it, and the map it brings is then the map. -/
theorem did_reacts {s : State} {e : BusEvent} {r : Reaction} {rest : List Reaction} (h : s.bus.reactions = r :: rest) :
    (s.did e).bus.reactions = rest ∧ (s.did e).bus.map = r.remap.getD s.bus.map := by
  constructor
  · exact (transact_reactions _ _).trans (by rw [h]; rfl)
  · exact (transact_map _ _).trans (by rw [h]; rfl)

/-- What the machine answers is what a read gets. -/
theorem reads_of_answer {s : State} {w : Byte} (h : s.bus.answer = some w) (a : Word) :
    memRead s a = w ∧ portAnswer s a = w := by
  simp only [memRead, portAnswer, h, and_self]

/-- A read of storage, writable or not, gets the byte of the cell. -/
theorem memRead_of_cell {s : State} {a : Word} {p : Nat} (h : s.bus.answer = none)
    (hp : resolve s.bus.map a = .ram p ∨ resolve s.bus.map a = .rom p) : memRead s a = s.bus.mem.read p := by
  rcases hp with hp | hp <;> simp only [memRead, h, hp]

/-- A read of nothing gets `UNMAPPED_READ` (R90). -/
theorem memRead_of_unmapped {s : State} {a : Word} (h : s.bus.answer = none) (hp : resolve s.bus.map a = .unmapped) :
    memRead s a = s.params.unmappedRead := by
  simp only [memRead, h, hp]

/-- No device claims a port that lies in no claimed range. -/
theorem claims_eq_false {b : Bus} {a : Word} (h : ∀ g ∈ b.ports, ¬ (g.base ≤ a.toNat ∧ a.toNat < g.base + g.size)) :
    b.claims a = false := by
  rw [Bus.claims, List.any_eq_false]
  intro g hg
  simpa [PortRange.holds] using h g hg

/-- A write to anything but writable storage changes no cell (R90). -/
theorem memWrite_mem_of_not_ram {s : State} {a : Word} (v : Byte) (h : ¬ IsRam s.bus.map a) :
    (memWrite a v s).bus.mem = s.bus.mem := by
  refine (transact_mem _ _).trans ?_
  rcases hr : resolve s.bus.map a with p | p | p | _
  · exact absurd ⟨p, hr⟩ h
  all_goals simp only [Bus.store, hr]

/-- Settles O27: one lemma for each way a transaction can go. -/
theorem byteTransactions : Obligations.ByteTransactions := by
  intro s a x v
  refine ⟨⟨rfl, rfl, rfl, rfl⟩, fun e => transact_log _ e, fun e r rest h => did_reacts h, fun w h => reads_of_answer h a,
    fun h => ⟨fun p hp => memRead_of_cell h hp, memRead_of_unmapped h,
      fun hc => portAnswer_unclaimed h (claims_eq_false hc)⟩, fun hq ha => ?_, fun hq hx hs => ?_,
    memWrite_mem_of_not_ram v⟩
  · exact (memRead_did hq _ (not_device_of_ram ha)).trans (if_pos (sharesCell_self ha))
  · exact (memRead_did hq _ hx).trans (if_neg (by simp [hs]))

end Sys2Proof.Machine
end

section
/-! The state (10_state.md): registers that nothing has written cannot be observed, the shadow set, `HALT` as an invariant,
the `EI` shadow, the writers of the control registers, reset, and register pairs. -/

namespace Sys2Proof.Machine

open Sys2Proof

/-! ### Registers that nothing has written cannot be observed (R52, R712 item 4, R800) -/

/-- A mode-2 target reads I and no other register that reset leaves unspecified (R724, R725). -/
theorem agree_intTarget {U : Unspecified → Prop} {s t : State} (h : AgreeBut U s t) (hi : s.im = .im2 → ¬ U .i)
    (v : Byte) :
    intTarget v t = intTarget v s ∧ AgreeBut U (intTargetDone v s) (intTargetDone v t) := by
  unfold intTarget intTargetDone
  rw [h.im]
  cases hm : s.im
  case im0 => exact ⟨rfl, h⟩
  case im1 => exact ⟨rfl, h⟩
  case im2 =>
    dsimp only
    rw [h.i (hi hm)]
    exact ⟨agree_memReadWord h _, agree_memReadWordDone h _⟩

/-- An accepted NMI looks at no register but PC and SP (R722). -/
theorem agree_acceptNmi {U : Unspecified → Prop} {s t : State} (h : AgreeBut U s t) :
    AgreeBut U (acceptNmi s) (acceptNmi t) := by
  have h0 : AgreeBut U { s with nmiPending := false } { t with nmiPending := false } :=
    { h with main := h.main, alt := h.alt, half := h.half }
  unfold acceptNmi
  rw [congrArg enterInterrupt h.iff2]
  exact agree_setPc (agree_enterInterrupt h0 s.iff2) _

/-- Under `fault_on_read` a maskable interrupt is accepted alike whatever the registers that nothing has written hold:
mode 2, which reads I, is refused while I is one of them. -/
theorem agree_acceptInt {s t s' : State} (hf : s.params.resetUnspec = .faultOnRead)
    (h : AgreeBut (fun x => x ∈ s.unwritten) s t) (hv : t.intVector = s.intVector) (hs : acceptInt s = .next s') :
    ∃ t', acceptInt t = .next t' ∧ AgreeBut (fun x => x ∈ s.unwritten) s' t' := by
  rcases acceptInt_cases s with ⟨-, -, e⟩ | ⟨-, -, -, e⟩ | ⟨h0, h2, e⟩ <;> rw [e] at hs <;> cases hs
  rcases acceptInt_cases t with ⟨hm, hr, -⟩ | ⟨hm, -, hi, -⟩ | ⟨-, -, e'⟩
  · rw [hv, h0 (h.im ▸ hm)] at hr
    cases hr
  · exact absurd (h.unwritten ▸ hi) (h2 (h.im ▸ hm) hf)
  · obtain ⟨ht, hd⟩ := agree_intTarget (agree_enterInterrupt h false) (fun hm => h2 (by simpa using hm) hf) s.intVector
    refine ⟨_, e', ?_⟩
    rw [hv, ht]
    exact agree_setPc hd _

/-- Fetches answer the same where PC, the bus and the parameters are the same. -/
theorem fetched_congr {pre bs : List Byte} {i : Instr} {s t : State} (h : Fetched pre bs i s) (hpc : t.pc = s.pc)
    (hb : t.bus = s.bus) (hp : t.params = s.params) : Fetched pre bs i t :=
  { h with answered := by rw [hpc]; exact (answered_congr hb hp _).mpr h.answered }

/-- Under `fault_on_read` an instruction with its ignored prefixes runs alike whatever the registers that nothing has
written hold. -/
theorem agree_executeOne {s t s' : State} (hf : s.params.resetUnspec = .faultOnRead)
    (h : AgreeBut (fun x => x ∈ s.unwritten) s t) (hs : executeOne s = .next s') :
    ∃ t', executeOne t = .next t' ∧ AgreeBut (fun x => x ∈ s'.unwritten) s' t' ∧ s'.unwritten ⊆ s.unwritten := by
  obtain ⟨pre, bs, i, hn, hfe, hr⟩ := executeOne_next hs
  have hu : (skipPrefixes pre.length (s.didAll (fetches s.pc (pre ++ bs)))).unwritten = s.unwritten := by
    simp [skipPrefixes]
  have k := agree_skipPrefixes (agree_didAll h (fetches s.pc (pre ++ bs))) pre.length
  rw [← hu] at k ⊢
  obtain ⟨t', ht, hk⟩ := agree_runRow (by simpa using hf) k hr
  refine ⟨t', ?_, hk⟩
  rw [executeOne_runs (fetched_congr hfe h.pc h.bus h.params) hn, h.pc, ht]
  rfl

/-- Two states that agree but for registers that nothing has written have the same interrupts to accept. -/
theorem acceptsInterrupt_congr {s t : State} (h : SameButUnwritten s t) :
    acceptsInterrupt t = acceptsInterrupt s := by
  simp only [acceptsInterrupt, h.nmiPending, h.intLine, h.agree.iff1, h.agree.inhibit]

/-- The registers after a step agree but for those that nothing has written, whichever kind of step it is. -/
theorem agree_step {s t s' : State} (hf : s.params.resetUnspec = .faultOnRead) (h : SameButUnwritten s t)
    (hs : step s = .next s') :
    ∃ t', step t = .next t' ∧ AgreeBut (fun x => x ∈ s'.unwritten) s' t' ∧ s'.unwritten ⊆ s.unwritten := by
  have ⟨ha, hn, hl, hv⟩ := h
  rcases step_kinds s with ⟨-, e⟩ | ⟨hm, hp, e⟩ | ⟨⟨hm, h1, h2, h3, h4⟩, e⟩ | ⟨hm, hx, hh, e⟩ | ⟨⟨hm, hx, hh⟩, e⟩ <;>
    rw [e] at hs
  · cases hs
  · obtain rfl := Host.Outcome.next.inj hs
    obtain ⟨-, -, -, -, -, -, -, f, -⟩ := acceptNmi_spec s
    rw [f.unwritten]
    exact ⟨_, step_nmi (ha.params ▸ hm) (hn.trans hp), agree_acceptNmi ha, List.Subset.refl _⟩
  · obtain ⟨-, -, -, -, -, -, f, -⟩ := acceptInt_spec hs
    obtain ⟨t', ht, k⟩ := agree_acceptInt hf ha hv hs
    rw [f.unwritten]
    exact ⟨t', (step_int ⟨ha.params ▸ hm, hn.trans h1, hl.trans h2, ha.iff1.trans h3, ha.inhibit.trans h4⟩).trans ht, k,
      List.Subset.refl _⟩
  · rw [← runRow_noAccess (i := .halt) (fun _ => rfl)] at hs
    obtain ⟨t', ht, k⟩ := agree_runRow (s := memReadDone s.pc s) hf (agree_memReadDone ha s.pc) hs
    rw [← ha.pc, runRow_noAccess (i := .halt) (fun _ => rfl)] at ht
    exact ⟨t', (step_halted (ha.params ▸ hm) ((acceptsInterrupt_congr h).trans hx) (ha.halted.trans hh)).trans ht, k⟩
  · obtain ⟨t', ht, k⟩ := agree_executeOne hf ha hs
    exact ⟨t', (step_executes ⟨ha.params ▸ hm, (acceptsInterrupt_congr h).trans hx, ha.halted.trans hh⟩).trans ht, k⟩

/-- Settles O21: the registers agree by the kinds of step (`agree_step`), and the requests by the frame of a step. -/
theorem unwrittenRegistersCannotBeObserved : Obligations.UnwrittenRegistersCannotBeObserved := by
  intro s t s' hf h hs
  obtain ⟨t', ht, k, hu⟩ := agree_step hf h hs
  obtain ⟨-, hl, hv, -, hn⟩ := step_frame hs
  obtain ⟨-, hl', hv', -, hn'⟩ := step_frame ht
  exact ⟨t', ht, ⟨k, hn'.trans hn.symm, by rw [hl', hl, h.intLine], by rw [hv', hv, h.intVector]⟩, hu⟩

/-! ### The shadow set (R34) -/

/-- The register belongs to the shadow set. -/
def Unspecified.isShadow : Unspecified → Bool
  | .alt _ => true
  | .altF => true
  | _ => false

/-- None of the registers belongs to the shadow set. -/
def Unspecified.noneShadow (L : List Unspecified) : Bool := L.all (!·.isShadow)

@[simp] theorem noneShadow_nil : Unspecified.noneShadow [] = true := rfl

@[simp] theorem noneShadow_cons (x : Unspecified) (L : List Unspecified) :
    Unspecified.noneShadow (x :: L) = (!x.isShadow && Unspecified.noneShadow L) := rfl

@[simp] theorem noneShadow_append (L M : List Unspecified) :
    Unspecified.noneShadow (L ++ M) = (Unspecified.noneShadow L && Unspecified.noneShadow M) := List.all_append

@[simp] theorem noneShadow_ofReg (r : Reg8) : Unspecified.noneShadow (Unspecified.ofReg r) = true := by
  cases r <;> rfl

@[simp] theorem noneShadow_ofLoc16 (l : Loc16) : Unspecified.noneShadow (Unspecified.ofLoc16 l) = true := by
  cases l <;> rfl

@[simp] theorem noneShadow_ofEa (e : Ea) : Unspecified.noneShadow (Unspecified.ofEa e) = true := by
  cases e <;> rfl

@[simp] theorem noneShadow_readByLoc8 (l : Loc8) : Unspecified.noneShadow (Unspecified.readByLoc8 l) = true := by
  cases l
  case reg r => exact noneShadow_ofReg r
  case half => rfl
  case mem e => exact noneShadow_ofEa e

@[simp] theorem noneShadow_addressOfLoc8 (l : Loc8) : Unspecified.noneShadow (Unspecified.addressOfLoc8 l) = true := by
  cases l
  case mem e => exact noneShadow_ofEa e
  all_goals rfl

@[simp] theorem noneShadow_readBySrc8 (o : Src8) : Unspecified.noneShadow (Unspecified.readBySrc8 o) = true := by
  cases o
  case loc l => exact noneShadow_readByLoc8 l
  case imm => rfl

@[simp] theorem noneShadow_readByXy (xy : XySource) : Unspecified.noneShadow (Unspecified.readByXy xy) = true := by
  cases xy
  case address e => exact noneShadow_ofEa e
  all_goals rfl

/-- Only the two exchanges that write the shadow set read it. -/
theorem noneShadow_reads {o : Op} (ho : o.writesAlt = false) (m : Config.RModel) :
    Unspecified.noneShadow (o.access m).reads = true := by
  cases o
  case swapAf => cases ho
  case swapExx => cases ho
  case loadAFromR => cases m <;> rfl
  all_goals simp [Op.access, Unspecified.isShadow]

/-- The shared operation of every instruction but the two exchanges leaves the shadow set alone. -/
theorem writesAlt_eq_false {i : Instr} (haf : i ≠ .exAfAf) (hexx : i ≠ .exx) : (opOf i).writesAlt = false := by
  cases i
  case exAfAf => exact absurd rfl haf
  case exx => exact absurd rfl hexx
  all_goals rfl

theorem agree_refl (U : Unspecified → Prop) (s : State) : AgreeBut U s s := by
  constructor <;> intros <;> rfl

/-- Two states that agree but for the shadow set still do so whatever their shadow sets are. -/
theorem agree_setAlt {s t : State} (h : AgreeBut (fun y => y.isShadow = true) s t) (x x' : RegSet) :
    AgreeBut (fun y => y.isShadow = true) { s with alt := x } { t with alt := x' } :=
  { h with main := h.main, half := h.half, alt := fun _ k => absurd rfl k, altF := fun k => absurd rfl k }

/-- Settles O22: no such instruction reads a shadow register, so with another shadow set it goes to a state that agrees but for
that set (`agree_exec`), and its frame keeps the set. -/
theorem shadowSetIsUntouched : Obligations.ShadowSetIsUntouched := by
  intro i s t x haf hexx ht
  have hw := writesAlt_eq_false haf hexx
  have keepsAlt : ∀ {u v : State}, exec i u = .next v → v.alt = u.alt := fun h =>
    (exec_frame h).alt ((effect_alt _).trans hw)
  have hr := List.all_eq_true.mp (noneShadow_reads hw s.params.rModel)
  obtain ⟨t', ht', k⟩ := agree_exec (agree_setAlt (agree_refl _ s) s.alt x) (fun y hy => by simpa using hr y hy) ht
  have halt : t'.alt = x := keepsAlt ht'
  have f := exec_frame ht
  have f' := exec_frame ht'
  have hn := effect_nmi (opOf i)
  refine ⟨keepsAlt ht, ht'.trans (congrArg _ ?_)⟩
  exact agree_eq (agree_setAlt (agree_mono k fun _ u => u.1) x t'.alt) (fun _ => nofun) (fun _ _ => nofun) nofun nofun
    halt ((f'.nmi hn).trans (f.nmi hn).symm) (f'.intLine.trans f.intLine.symm)
    (f'.intVector.trans f.intVector.symm)

/-! ### A halted core stands at a `HALT` opcode (R48, R651, R720) -/

/-- No address of a plain machine leads to a device. -/
theorem plain_not_device {s : State} (h : Plain s) (x : Word) : ¬ IsDevice s.bus.map x := by
  rintro ⟨p, hx⟩
  obtain ⟨g, hg, hd⟩ := resolve_mem _ _ _ hx
  exact h.2 g hg hd

/-- Transactions leave a plain machine plain: its map stays, and no reaction comes. -/
theorem plain_of_transacts {es : List BusEvent} {s t : State} (h : Plain s) (k : Transacts es s t) : Plain t := by
  obtain ⟨hq, hm⟩ := replay_quiet h.1 es
  rw [← k.bus] at hq hm
  exact ⟨hq, by rw [hm]; exact h.2⟩

theorem memWrite_notMem_fetches (x : Word) (v : Byte) (a : Word) (bs : List Byte) :
    .memWrite x v ∉ fetches a bs := by
  induction bs generalizing a with
  | nil => nofun
  | cons b bs ih => simp [fetches, ih]

/-- Fetches change nothing that a plain machine reads. -/
theorem memRead_didAll_fetches {s : State} (h : Plain s) (a x : Word) (bs : List Byte) :
    memRead (s.didAll (fetches a bs)) x = memRead s x := by
  rw [memRead_didAll h.1 _ (plain_not_device h x), lastStored_other]
  exact fun y v hy => absurd hy (memWrite_notMem_fetches y v a bs)

/-- `HALT` keeps PC and what every address reads. -/
theorem exec_halt_keeps {s t : State} (h : exec .halt s = .next t) : t.pc = s.pc ∧ ∀ x, memRead t x = memRead s x := by
  obtain rfl := Host.Outcome.next.inj h
  exact ⟨rfl, memRead_congr (by simp) (by simp)⟩

/-- The bytes fetched for `HALT` are its one opcode byte. -/
theorem fetched_halt_bytes {pre bs : List Byte} {s : State} (h : Fetched pre bs .halt s) : bs = [0x76] := by
  obtain ⟨b, rfl⟩ := List.length_eq_one_iff.mp h.whole
  obtain ⟨-, hd⟩ := fetched_bytes h
  obtain ⟨-, -, -, h76⟩ := window_shape b 0 0 0
  rw [h76 hd]

/-- In a plain machine the opcode of a `HALT` fetched after ignored prefixes stands behind them. -/
theorem memRead_of_fetched_halt {pre bs : List Byte} {s : State} (hs : Plain s) (h : Fetched pre bs .halt s) :
    memRead s (s.pc + BitVec.ofNat 16 pre.length) = 0x76 := by
  have ha := h.answered
  rw [fetched_halt_bytes h, fetches_append, answered_append] at ha
  obtain ⟨-, hb, -⟩ := ha
  rw [← memRead_didAll_fetches hs s.pc _ pre]
  exact hb.symm

/-- `HALT` alone enters the HALTED state (R48). -/
theorem eq_halt_of_writesHalted {i : Instr} (h : (opOf i).writesHalted = true) : i = .halt := by
  cases i
  case halt => rfl
  all_goals cases h

theorem runRow_keeps_halted {i : Instr} {s t : State} (hi : (opOf i).writesHalted = false) (h : runRow i s = .next t) :
    t.halted = s.halted := by
  obtain ⟨f, -⟩ := runRow_frame h
  exact f.halted ((effect_halted _).trans hi)

@[simp] theorem skipPrefixes_halted (n : Nat) (s : State) : (skipPrefixes n s).halted = s.halted := by
  simp [skipPrefixes]

/-- A step of a halted core in a plain machine stays at the same `HALT`. -/
theorem haltedAtHalt_exec_halt {s t : State} (hs : Plain s) (hh : HaltedAtHalt s) (h : s.halted = true)
    (ht : exec .halt (memReadDone s.pc s) = .next t) : HaltedAtHalt t := by
  intro _
  obtain ⟨hpc, hm⟩ := exec_halt_keeps ht
  rw [hm, hpc]
  exact (memRead_didAll_fetches hs s.pc s.pc [memRead s s.pc]).trans (hh h)

/-- An instruction of a running core in a plain machine leaves it running, or is a `HALT`, whose opcode PC then points
to. -/
theorem haltedAtHalt_executeOne {s t : State} (hs : Plain s) (h : s.halted = false) (ht : executeOne s = .next t) :
    HaltedAtHalt t := by
  intro hh
  obtain ⟨pre, bs, i, -, hf, hr⟩ := executeOne_next ht
  cases hw : (opOf i).writesHalted
  · have hk := (runRow_keeps_halted hw hr).trans (skipPrefixes_halted _ _)
    exact absurd (hh.symm.trans (hk.trans h)) nofun
  · obtain rfl := eq_halt_of_writesHalted hw
    rw [runRow_noAccess (fun _ => rfl)] at hr
    obtain ⟨hpc, hm⟩ := exec_halt_keeps hr
    rw [hm, hpc, skipPrefixes_pc, memRead_congr (skipPrefixes_bus _ _) (skipPrefixes_params _ _),
      memRead_didAll_fetches hs]
    exact memRead_of_fetched_halt hs hf

/-- Settles O18: an accepted interrupt leaves the core running, a halted core runs the `HALT` that stands at PC again, and an
instruction that halts the core is the `HALT` that was fetched. -/
theorem stepKeepsHaltedAtHalt : Obligations.StepKeepsHaltedAtHalt := by
  intro s t hs hh h
  obtain ⟨⟨es, k⟩, -⟩ := step_frame h
  refine ⟨plain_of_transacts hs k, ?_⟩
  rcases step_kinds s with ⟨-, e⟩ | ⟨-, -, e⟩ | ⟨-, e⟩ | ⟨-, -, hl, e⟩ | ⟨⟨-, -, hr⟩, e⟩ <;> rw [e] at h
  · cases h
  · obtain rfl := Host.Outcome.next.inj h
    obtain ⟨-, -, hf, -⟩ := acceptNmi_spec s
    exact fun ht => absurd (hf.symm.trans ht) nofun
  · obtain ⟨hf, -⟩ := acceptInt_spec h
    exact fun ht => absurd (hf.symm.trans ht) nofun
  · exact haltedAtHalt_exec_halt hs hh hl h
  · exact haltedAtHalt_executeOne hs hr h

/-! ### The `EI` shadow (R49, R653, R716) -/

/-- Under the shadow, with no NMI pending, a step accepts nothing but executes an instruction, whatever the request. -/
theorem step_inhibited {s : State} (hm : s.params.cpuModel = .z80) (hn : s.nmiPending = false)
    (hi : s.inhibit = true) : step s = if s.halted then executeHalted s else executeOne s := by
  simp [step, hm, hn, hi]

/-- Settles O10: what `EI` leaves (`enableInterrupts_spec`) inhibits the next step, and the rule of all instructions says
which leave `inhibit` set. -/
theorem eiShadow : Obligations.EiShadow := by
  constructor
  · intro s hm hn
    obtain ⟨t, ht, h1, h2, hi, hpc, hr, hb, f⟩ := enableInterrupts_spec s
    refine ⟨t, ht, h1, h2, hi, hpc, hr, hb, f, ?_⟩
    rintro l v u rfl
    rw [← (f.halted rfl : t.halted = s.halted)]
    exact step_inhibited (f.params ▸ hm) ((f.nmi rfl).trans hn) hi
  · intro i s t h1 h2 ht
    have hp : Laws.Shape.isPrefixRow i = false := by rw [Laws.Shape.isPrefixRow, h1, h2]; rfl
    rw [(exec_obeys hp ht).inhibit, isEi_iff]

/-! ### The writers of the control registers (R38, R44, R45, R47, R48, R660) -/

/-- The writers of IFF1 (R44). -/
theorem eq_of_writesIff1 {i : Instr} (h : (opOf i).writesIff1 = true) :
    i = .di ∨ i = .ei ∨ i = .reti ∨ ∃ y, i = .retn y := by
  cases i
  case di => exact .inl rfl
  case ei => exact .inr (.inl rfl)
  case reti => exact .inr (.inr (.inl rfl))
  case retn y => exact .inr (.inr (.inr ⟨y, rfl⟩))
  all_goals cases h

/-- The writers of IFF2 (R44). -/
theorem eq_of_writesIff2 {i : Instr} (h : (opOf i).writesIff2 = true) : i = .di ∨ i = .ei := by
  cases i
  case di => exact .inl rfl
  case ei => exact .inr rfl
  all_goals cases h

/-- The writers of IM (R45), each with its mode. -/
theorem im_of_writesIm {i : Instr} {s t : State} (h : (opOf i).writesIm = true) (ht : exec i s = .next t) :
    ∃ m, Forms.setMode i = some m ∧ t.im = m := by
  cases i
  case im0 => cases ht; exact ⟨_, rfl, rfl⟩
  case im1 => cases ht; exact ⟨_, rfl, rfl⟩
  case im2 => cases ht; exact ⟨_, rfl, rfl⟩
  all_goals cases h

/-- The writer of I (R38). -/
theorem eq_ldIA_of_writesI {i : Instr} (h : (opOf i).writesI = true) : i = .ldIA := by
  cases i
  case ldIA => rfl
  all_goals cases h

/-- The one instruction that loads R (R660). -/
theorem eq_ldRA_of_isLdR {i : Instr} (h : (opOf i).isLdR = true) : i = .ldRA := by
  cases i
  case ldRA => rfl
  all_goals cases h

/-- Counting M1 fetches keeps R[7], so every row but `LD R,A` does (R47). -/
theorem exec_keeps_r7 {i : Instr} {s t : State} (hi : (opOf i).isLdR = false) (ht : exec i s = .next t) :
    t.r.getLsbD 7 = s.r.getLsbD 7 := by
  cases hp : Laws.Shape.isPrefixRow i
  · exact (exec_obeys hp ht).bit7 hi
  · obtain ⟨-, -, h⟩ := prefix_obeys hp ht
    exact h

/-- Settles O24: the frame of every instruction, register by register, and the instructions whose frame lets them write it. -/
theorem controlRegisterWriters : Obligations.ControlRegisterWriters := by
  intro i s t ht
  have f := exec_frame ht
  exact ⟨(Bool.dichotomy _).imp (fun h => f.iff1 ((effect_iff1 _).trans h)) eq_of_writesIff1,
    (Bool.dichotomy _).imp (fun h => f.iff2 ((effect_iff2 _).trans h)) eq_of_writesIff2,
    (Bool.dichotomy _).imp (fun h => f.im ((effect_im _).trans h)) (fun h => im_of_writesIm h ht),
    (Bool.dichotomy _).imp (fun h => f.i ((effect_i _).trans h)) eq_ldIA_of_writesI,
    (Bool.dichotomy _).imp (fun h => f.halted ((effect_halted _).trans h)) eq_halt_of_writesHalted,
    (Bool.dichotomy _).imp (fun h => exec_keeps_r7 h ht) eq_ldRA_of_isLdR⟩

/-! ### Reset (R52, R800, R801) -/

/-- Settles O19: the store lists nothing, the map is the identity and no reaction waits, and the core runs. -/
theorem resetIsSound : Obligations.ResetIsSound :=
  ⟨⟨List.Pairwise.nil, nofun⟩, ⟨rfl, nofun⟩, nofun⟩

/-- Settles O26: both resets give these fields outright; memory reads as before since bus and parameters are kept. -/
theorem resetLeavesWhatTheSpecSays : Obligations.ResetLeavesWhatTheSpecSays :=
  ⟨⟨rfl, rfl, rfl, rfl, rfl, rfl, rfl, rfl, rfl, rfl, rfl⟩,
    fun _ => ⟨rfl, rfl, rfl, rfl, rfl, rfl, rfl, rfl, rfl, rfl, rfl, rfl, memRead_congr rfl rfl, rfl, rfl, rfl⟩⟩

/-! ### Register pairs (R33, R131, R133) -/

/-- A word is `(h << 8) | l` of its bytes. -/
theorem wordOf_toNat (h l : Byte) : (wordOf h l).toNat = h.toNat * 256 + l.toNat := by
  show (h ++ l : BitVec (8 + 8)).toNat = _
  rw [BitVec.toNat_append, ← Nat.shiftLeft_add_eq_or_of_lt l.isLt, Nat.shiftLeft_eq]

/-- An index register is the pair of its halves. -/
theorem idx_eq_wordOf (s : State) (j : Idx) : s.idx j = wordOf (s.half j .hi) (s.half j .lo) :=
  (wordOf_hi_lo (s.idx j)).symm

/-- Writing the high half of an index register. -/
theorem setHalf_hi_idx (s : State) (j : Idx) (v : Byte) :
    (s.setHalf j .hi v).idx j = wordOf v (s.half j .lo) := by
  simp [State.setHalf, State.half]

/-- Writing the low half of an index register. -/
theorem setHalf_lo_idx (s : State) (j : Idx) (v : Byte) :
    (s.setHalf j .lo v).idx j = wordOf (s.half j .hi) v := by
  simp [State.setHalf, State.half]

/-- Settles O29: each pair, before and after a write to a half, is `wordOf` of its halves (`wordOf_toNat`). -/
theorem pairsAliasTheirHalves : Obligations.PairsAliasTheirHalves := by
  intro l w s v
  refine ⟨⟨write16_read s l w, write16_frame l w s⟩,
    ⟨wordOf_toNat _ _, wordOf_toNat _ _, wordOf_toNat _ _, wordOf_toNat _ _, fun j => ?_⟩,
    ⟨wordOf_toNat _ _, wordOf_toNat _ _, wordOf_toNat _ _, wordOf_toNat _ _, wordOf_toNat _ _, wordOf_toNat _ _,
      wordOf_toNat _ _, wordOf_toNat _ _, fun j => ⟨?_, ?_⟩⟩,
    ⟨fun r => setReg_frame r v s, setF_frame v s, fun j h => write8_frame (.half j h) v s⟩,
    ⟨rfl, rfl, rfl, rfl, rfl, rfl, rfl, rfl⟩, ⟨rfl, rfl, rfl, rfl⟩, ⟨rfl, rfl, rfl, rfl⟩,
    fun _ => ⟨rfl, rfl, rfl, rfl⟩, fun _ => ⟨rfl, rfl, rfl, rfl, rfl, rfl, rfl⟩⟩
  · rw [idx_eq_wordOf, wordOf_toNat]
  · rw [setHalf_hi_idx, wordOf_toNat]
  · rw [setHalf_lo_idx, wordOf_toNat]

end Sys2Proof.Machine
end

section
/-! Memory and fetching (20_memory.md): the instruction at PC is fetched and run, the one fault a step can end in, the
canonical form of the store, the ports, word transactions, and the stack. -/

namespace Sys2Proof.Machine

open Sys2Proof

/-! ### The instruction at PC (R121, R124, R701) -/

/-- The fault of a row already has the row's own address, so naming it by that address changes nothing. -/
theorem named_runRow (i : Instr) (u : State) : named u.pc (runRow i u) = runRow i u := by
  rcases h : runRow i u with t | f | r
  · rfl
  · obtain ⟨-, op, -, rfl⟩ := exec_fault (runRow_fault h)
    rfl
  · rfl

/-- Settles O4: the step is `execute_one`, which runs the row fetched (`executeOne_runs`), here after no ignored prefixes. -/
theorem stepRunsDecodedInstruction : Obligations.StepRunsDecodedInstruction := by
  intro s bs i hx hf
  have hstep : step s = runRow i (s.didAll (fetches s.pc bs)) := by
    rw [step_executes hx, executeOne_runs hf (by decide), List.length_nil, skipPrefixes_zero]
    exact named_runRow i (s.didAll _)
  exact ⟨hstep, fun hd => hstep.trans (runRow_draw (s := s.didAll _) hd i)⟩

/-! ### The one fault of a step (R148, R710, R711) -/

/-- The shared operation of a hole names its opcode byte. -/
theorem hole_of_edHole {i : Instr} {op : Byte} (h : opOf i = .edHole op) : Forms.hole i = some op := by
  cases i <;> cases h <;> rfl

/-- A hole is two bytes. -/
theorem length_of_hole {i : Instr} {op : Byte} (h : Forms.hole i = some op) : i.length = 2 := by
  cases i <;> cases h <;> rfl

theorem hole_decodeCb : ∀ op : Byte, Forms.hole (decodeCb op) = none := by decide

theorem hole_decodeMain (op b1 b2 : Byte) : Forms.hole (decodeMain op b1 b2) = none := by
  unfold decodeMain decodeMain0 decodeMain1 decodeMain2 decodeMain3 aluN aluR aluHl
  repeat' split
  all_goals rfl

theorem hole_decodeDd (op b1 b2 : Byte) : Forms.hole (decodeDd op b1 b2) = none := by
  unfold decodeDd decodeHalfOr aluIxHalf aluIxD
  repeat' split
  all_goals rfl

theorem hole_decodeFd (op b1 b2 : Byte) : Forms.hole (decodeFd op b1 b2) = none := by
  unfold decodeFd decodeHalfOr aluIyHalf aluIyD
  repeat' split
  all_goals rfl

/-- Whether an `ED` opcode is a hole does not depend on the bytes after it. -/
theorem hole_decodeEd_operands (op b1 b2 : Byte) : Forms.hole (decodeEd op b1 b2) = Forms.hole (decodeEd op 0 0) := by
  unfold decodeEd decodeEd1
  repeat' split
  all_goals rfl

/-- A hole of the `ED` table keeps its opcode byte (R148). -/
theorem hole_decodeEd : ∀ op : Byte, (Forms.hole (decodeEd op 0 0)).getD op = op := by decide

/-- The windows that decode to a hole begin with `ED` and its opcode byte (R148): the rows of `DD CB` and `FD CB` are longer
than a hole, and the other tables have none. -/
theorem window_of_hole {b0 b1 b2 b3 op : Byte} (h : Forms.hole (decodeWindow b0 b1 b2 b3).instr = some op) :
    b0 = 0xED ∧ b1 = op := by
  unfold decodeWindow at h
  split at h
  · rw [hole_decodeCb] at h; cases h
  split at h
  · rw [hole_decodeEd_operands] at h
    have hop := hole_decodeEd b1
    rw [h] at hop
    exact ⟨‹_›, hop.symm⟩
  split at h
  · split at h
    · exact absurd ((ddCb_shape b2 b3).length.symm.trans (length_of_hole h)) (by decide)
    · rw [hole_decodeDd] at h; cases h
  split at h
  · split at h
    · exact absurd ((fdCb_shape b2 b3).length.symm.trans (length_of_hole h)) (by decide)
    · rw [hole_decodeFd] at h; cases h
  · rw [hole_decodeMain] at h; cases h

/-- The bytes of a hole that a step fetches are `ED` and its opcode byte. -/
theorem bytes_of_fetched_hole {pre bs : List Byte} {i : Instr} {op : Byte} {s : State} (hf : Fetched pre bs i s)
    (h : Forms.hole i = some op) : bs = [0xED, op] := by
  obtain ⟨-, hi⟩ := fetched_bytes hf
  obtain ⟨b0, b1, rfl⟩ := List.length_eq_two.mp (hf.whole.trans (length_of_hole h))
  rw [← hi] at h
  obtain ⟨rfl, rfl⟩ := window_of_hole h
  rfl

/-- An acceptance is no fault. -/
theorem acceptInt_not_fault (s : State) (f : Fault) : acceptInt s ≠ .fault f := by
  rcases acceptInt_cases s with ⟨-, -, e⟩ | ⟨-, -, -, e⟩ | ⟨-, -, e⟩ <;> rw [e] <;> nofun

/-- A step faults only in `execute_one`: no acceptance faults, and `HALT` is no hole. -/
theorem step_fault {s : State} {f : Fault} (h : step s = .fault f) : Executes s ∧ executeOne s = .fault f := by
  rcases step_kinds s with ⟨-, e⟩ | ⟨-, -, e⟩ | ⟨-, e⟩ | ⟨-, -, -, e⟩ | ⟨hx, e⟩ <;> rw [e] at h
  · cases h
  · cases h
  · exact absurd h (acceptInt_not_fault s f)
  · obtain ⟨-, _, ho, -⟩ := exec_fault h
    cases ho
  · exact ⟨hx, h⟩

/-- Settles O16: the fault is one of `execute_one` (`executeOne_fault`), and the row fetched then is a hole, so its bytes are
`ED` and its opcode byte. -/
theorem faultsOnlyOnStrictHoles : Obligations.FaultsOnlyOnStrictHoles := by
  intro s f h
  obtain ⟨hx, he⟩ := step_fault h
  obtain ⟨hs, pre, bs, i, op, hf, ho, rfl⟩ := executeOne_fault he
  have hh := hole_of_edHole ho
  obtain rfl := bytes_of_fetched_hole hf hh
  exact ⟨hs, hx, pre, i, op, hh, hf, rfl, rfl, by simp only [stepResult, h]⟩

/-! ### The canonical form of the store (R80, R82, R85) -/

/-- Settles O17: the bus of a step changes by transactions alone, and each keeps the canonical form (`step_wf`). -/
theorem stepKeepsMemoryCanonical : Obligations.StepKeepsMemoryCanonical :=
  fun _ _ hw h => step_wf hw h

/-! ### The port space (R81, R94, R96) -/

/-- The instructions of `Forms.reachesPorts` are those whose shared operation reaches the port space. -/
theorem opOf_reachesPorts (i : Instr) : (opOf i).reachesPorts = Forms.reachesPorts i := by
  cases i <;> rfl

/-- Settles O25: by the transactions of every row (`exec_transacts`). -/
theorem onlyIoReachesPorts : Obligations.OnlyIoReachesPorts := by
  intro i s t ht
  rw [← opOf_reachesPorts]
  exact exec_transacts ht

/-! ### Word transactions (R86, R87, R91) -/

/-- In a machine that does nothing of its own, a read changes what no storage address reads. -/
theorem memRead_memReadDone {s : State} (h : Quiet s) (a : Word) {x : Word} (hx : ¬ IsDevice s.bus.map x) :
    memRead (memReadDone a s) x = memRead s x :=
  memRead_did h _ hx

/-- So the order of a word read is not seen in its low byte. -/
theorem loRead_quiet {s : State} (h : Quiet s) {a : Word} (ha : ¬ IsDevice s.bus.map a) : loRead s a = memRead s a := by
  unfold loRead
  rw [memRead_memReadDone h _ ha, ite_self]

/-- Nor in its high byte. -/
theorem hiRead_quiet {s : State} (h : Quiet s) {a : Word} (ha : ¬ IsDevice s.bus.map (a + 1)) :
    hiRead s a = memRead s (a + 1) := by
  unfold hiRead
  rw [memRead_memReadDone h _ ha, ite_self]

/-- Two addresses of one cell share it both ways. -/
theorem sharesCell_swap {map : List Region} {a b : Word} (hb : IsRam map b) (h : sharesCell map a b = true) :
    sharesCell map b a = true :=
  Bool.of_not_eq_false fun hn => absurd ((sharesCell_symm hb hn).symm.trans h) nofun

theorem memWriteWord_transacts (s : State) (a v : Word) :
    Transacts (wordWrites (highFirst s) a v) s (memWriteWord a v s) := by
  rw [memWriteWord_eq]
  exact transacts_didAll (answered_wordWrites _ _ _ _)

/-- After a word write whose bytes go to different cells the word reads back. -/
theorem memReadWord_memWriteWord {s : State} {a : Word} (v : Word) (hq : Quiet s) (ha : IsRam s.bus.map a)
    (hb : IsRam s.bus.map (a + 1)) (hd : sharesCell s.bus.map a (a + 1) = false) :
    memReadWord (memWriteWord a v s) a = v := by
  obtain ⟨hq', hm⟩ : Quiet (memWriteWord a v s) ∧ (memWriteWord a v s).bus.map = s.bus.map := by
    rw [memWriteWord_eq]
    exact replay_quiet hq _
  have stored : WordStored a v s (memWriteWord a v s) :=
    Transacts.word_stored (es := []) (memWriteWord_transacts s a v) (by simp)
  calc memReadWord (memWriteWord a v s) a
      = wordOf (memRead (memWriteWord a v s) (a + 1)) (memRead (memWriteWord a v s) a) := by
        rw [memReadWord_eq, hiRead_quiet hq' (hm ▸ not_device_of_ram hb), loRead_quiet hq' (hm ▸ not_device_of_ram ha)]
    _ = wordOf (hiByte v) (loByte v) := by rw [stored.high hq hb (sharesCell_symm ha hd), stored.low hq ha hd]
    _ = v := wordOf_hi_lo v

/-- After a word write whose bytes go to one cell, an address of that cell reads the byte written last. -/
theorem memRead_memWriteWord_shared {s : State} {a x : Word} (v : Word) (hq : Quiet s) (hx : IsRam s.bus.map x)
    (h1 : sharesCell s.bus.map a x = true) (h2 : sharesCell s.bus.map (a + 1) x = true) :
    memRead (memWriteWord a v s) x = if highFirst s then loByte v else hiByte v := by
  rw [(memWriteWord_transacts s a v).memRead_eq (by simp) hq (not_device_of_ram hx)]
  cases highFirst s <;> simp only [wordWrites, lastStored, h1, h2, if_true, if_false, Bool.false_eq_true]

/-- Settles O28: a word access is its two transactions in the order `highFirst` takes; what reads back is the word
(`memReadWord_memWriteWord`), or at one cell the byte written last (`memRead_memWriteWord_shared`). -/
theorem wordTransactions : Obligations.WordTransactions := by
  intro s a v
  refine ⟨⟨highFirst s, loRead s a, hiRead s a, orderAllowed_highFirst s, answered_wordReads s a, memReadWord_eq s a,
      memReadWordDone_eq s a⟩, ⟨highFirst s, orderAllowed_highFirst s, memWriteWord_eq s a v⟩,
    fun hq ha hb => ⟨memReadWord_memWriteWord v hq ha hb, fun hs => ?_⟩⟩
  have low := memRead_memWriteWord_shared v hq ha (sharesCell_self ha) (sharesCell_swap hb hs)
  have high := memRead_memWriteWord_shared v hq hb hs (sharesCell_self hb)
  obtain ⟨hlow, hhigh⟩ := orderAllowed_highFirst s
  refine ⟨high.trans low.symm, fun ho => ?_, fun ho => ?_, ?_⟩ <;> rw [low]
  · rw [hlow ho]; rfl
  · rw [hhigh ho]; rfl
  · split
    · exact .inl rfl
    · exact .inr rfl

/-! ### The stack (R88, R89, R260 to R263) -/

/-- Each `PUSH` is the shared push of its pair, and an instruction by itself. -/
theorem opOf_push {i : Instr} {src : Loc16} (h : Forms.push i = some src) :
    opOf i = .pushWord src ∧ Laws.Shape.isPrefixRow i = false := by
  cases i <;> cases h <;> exact ⟨rfl, rfl⟩

/-- Each `POP` is the shared pop into its pair, which is not SP, and an instruction by itself. -/
theorem opOf_pop {i : Instr} {dst : Loc16} (h : Forms.pop i = some dst) :
    opOf i = .popWord dst ∧ dst ≠ .sp ∧ Laws.Shape.isPrefixRow i = false := by
  cases i <;> cases h
  case popQq.refl qq => cases qq <;> exact ⟨rfl, nofun, rfl⟩
  all_goals exact ⟨rfl, nofun, rfl⟩

/-- Settles O32: by what the shared push and pop do (`pushWord_spec`, `popWord_spec`). -/
theorem pushAndPop : Obligations.PushAndPop := by
  refine ⟨fun i src s h => ?_, fun i dst s h => ?_⟩
  · obtain ⟨ho, hp⟩ := opOf_push h
    obtain ⟨t, ht, hr, hsp⟩ := pushWord_spec (shape hp) src s
    refine ⟨t, highFirst s, orderAllowed_highFirst s, by rw [exec_eq, ho]; exact ht, hr, hsp, ?_⟩
    exact Transacts.word_stored (es := []) hr.bus hr.frame.params
  · obtain ⟨ho, hd, hp⟩ := opOf_pop h
    obtain ⟨t, ht, hr, hsp, hv⟩ := popWord_spec (shape hp) dst hd s
    exact ⟨t, highFirst s, _, _, orderAllowed_highFirst s, by rw [exec_eq, ho]; exact ht, hr, hsp, hv⟩

end Sys2Proof.Machine
end

section
/-! Encoding (30_encoding.md): every window decodes to a row that it begins with, the encoding of a row decodes to the row,
and what rows of prefixes, the `ED` holes and a run of ignored prefixes do. -/

namespace Sys2Proof.Machine

open Sys2Proof

/-! ### The table that reads a window (R124) -/

theorem decodeWindow_main {op : Byte} (h : isPrefixByte op = false) (b1 b2 b3 : Byte) :
    decodeWindow op b1 b2 b3 = ⟨[], decodeMain op b1 b2⟩ := by
  obtain ⟨⟨⟨hcb, hdd⟩, hed⟩, hfd⟩ : ((op ≠ 0xCB#8 ∧ op ≠ 0xDD#8) ∧ op ≠ 0xED#8) ∧ op ≠ 0xFD#8 := by
    simpa [isPrefixByte] using h
  simp [decodeWindow, hcb, hdd, hed, hfd]

theorem decodeWindow_dd {op : Byte} (h : op ≠ 0xCB#8) (b1 b2 : Byte) :
    decodeWindow 0xDD op b1 b2 = ⟨[.prefixDd], decodeDd op b1 b2⟩ := by
  simp [decodeWindow, h]

theorem decodeWindow_fd {op : Byte} (h : op ≠ 0xCB#8) (b1 b2 : Byte) :
    decodeWindow 0xFD op b1 b2 = ⟨[.prefixFd], decodeFd op b1 b2⟩ := by
  simp [decodeWindow, h]

/-! ### Every window decodes to a row that it begins with (R120, R148)

The bytes after an opcode reach a row only as its operands (`SameOpcode`). What is left to check has no operands in it: it is
about opcode bytes alone. -/

/-- `i` and `j` are rows whose first `n` bytes are the same, and the bytes of `i` after them begin `operands`. -/
structure SameOpcode (n : Nat) (operands : List Byte) (i j : Instr) : Prop where
  wf : i.wf = j.wf
  table : i.isTablePrefix = j.isTablePrefix
  opcode : (encode i).take n = (encode j).take n
  operands : (encode i).drop n <+: operands

/-- `i` is a row that a window leads to, and its encoding begins with the bytes `opcode`. -/
abbrev HasOpcode (i : Instr) (opcode : List Byte) : Prop :=
  i.wf = true ∧ i.isTablePrefix = false ∧ (encode i).take opcode.length = opcode

/-- `i` is a row that a window leads to, and its encoding is how the bytes `bs` begin. -/
def RowBegins (i : Instr) (bs : List Byte) : Prop :=
  i.wf = true ∧ i.isTablePrefix = false ∧ encode i <+: bs

theorem SameOpcode.rowBegins {opcode operands : List Byte} {i j : Instr} (h : SameOpcode opcode.length operands i j)
    (hj : HasOpcode j opcode) : RowBegins i (opcode ++ operands) := by
  obtain ⟨hw, ht, ho⟩ := hj
  refine ⟨h.wf.trans hw, h.table.trans ht, ?_⟩
  rw [← List.take_append_drop opcode.length (encode i), h.opcode, ho]
  exact (List.prefix_append_right_inj _).mpr h.operands

theorem decodeMain_sameOpcode (op b1 b2 b3 : Byte) :
    SameOpcode 1 [b1, b2, b3] (decodeMain op b1 b2) (decodeMain op 0 0) := by
  unfold decodeMain decodeMain0 decodeMain1 decodeMain2 decodeMain3 aluN aluR aluHl
  repeat' split
  all_goals exact ⟨rfl, rfl, rfl, by simp [encode]⟩

theorem decodeEd_sameOpcode (op b1 b2 : Byte) : SameOpcode 2 [b1, b2] (decodeEd op b1 b2) (decodeEd op 0 0) := by
  unfold decodeEd decodeEd1 blockOf
  repeat' split
  all_goals exact ⟨rfl, rfl, rfl, by simp [encode]⟩

theorem decodeDd_sameOpcode (op b1 b2 : Byte) : SameOpcode 2 [b1, b2] (decodeDd op b1 b2) (decodeDd op 0 0) := by
  unfold decodeDd decodeHalfOr aluIxHalf aluIxD
  repeat' split
  all_goals exact ⟨rfl, rfl, rfl, by simp [encode]⟩

theorem decodeFd_sameOpcode (op b1 b2 : Byte) : SameOpcode 2 [b1, b2] (decodeFd op b1 b2) (decodeFd op 0 0) := by
  unfold decodeFd decodeHalfOr aluIyHalf aluIyD
  repeat' split
  all_goals exact ⟨rfl, rfl, rfl, by simp [encode]⟩

theorem decodeMain_hasOpcode : ∀ op : Byte, isPrefixByte op = false → HasOpcode (decodeMain op 0 0) [op] := by decide

theorem decodeEd_hasOpcode : ∀ op : Byte, HasOpcode (decodeEd op 0 0) [0xED, op] := by decide

theorem decodeDd_hasOpcode : ∀ op : Byte, op ≠ 0xCB#8 → HasOpcode (decodeDd op 0 0) [0xDD, op] := by decide

theorem decodeFd_hasOpcode : ∀ op : Byte, op ≠ 0xCB#8 → HasOpcode (decodeFd op 0 0) [0xFD, op] := by decide

/-- The `CB` table has no operand bytes (R144). -/
theorem decodeCb_row : ∀ op : Byte,
    (decodeCb op).wf = true ∧ (decodeCb op).isTablePrefix = false ∧ encode (decodeCb op) = [0xCB, op] := by decide

theorem ddCb_opcode : ∀ op : Byte, (encode (decodeDdCb 0 op)).drop 3 = [op] := by decide

theorem fdCb_opcode : ∀ op : Byte, (encode (decodeFdCb 0 op)).drop 3 = [op] := by decide

/-- The displacement of a `DD CB` row stands before its opcode (R147). -/
theorem decodeDdCb_row (d op : Byte) :
    (decodeDdCb d op).wf = true ∧ (decodeDdCb d op).isTablePrefix = false ∧
      encode (decodeDdCb d op) = [0xDD, 0xCB, d, op] := by
  show _ ∧ _ ∧ _ = [0xDD, 0xCB, d] ++ [op]
  rw [← ddCb_opcode op]
  unfold decodeDdCb rotIxD rotIxDCopy
  repeat' split
  all_goals exact ⟨rfl, rfl, rfl⟩

/-- The displacement of an `FD CB` row stands before its opcode (R147). -/
theorem decodeFdCb_row (d op : Byte) :
    (decodeFdCb d op).wf = true ∧ (decodeFdCb d op).isTablePrefix = false ∧
      encode (decodeFdCb d op) = [0xFD, 0xCB, d, op] := by
  show _ ∧ _ ∧ _ = [0xFD, 0xCB, d] ++ [op]
  rw [← fdCb_opcode op]
  unfold decodeFdCb rotIyD rotIyDCopy
  repeat' split
  all_goals exact ⟨rfl, rfl, rfl⟩

/-- A row whose encoding is given outright. -/
theorem rowBegins_of_encode {i : Instr} {bs : List Byte} (h : i.wf = true ∧ i.isTablePrefix = false ∧ encode i = bs)
    (rest : List Byte) : RowBegins i (bs ++ rest) := by
  obtain ⟨hw, ht, rfl⟩ := h
  exact ⟨hw, ht, List.prefix_append _ _⟩

/-- Settles O2: table by table, by the first byte and after `DD` and `FD` by the second. -/
theorem encodeOfDecode : Obligations.EncodeOfDecode := by
  intro b0 b1 b2 b3
  show RowBegins (decodeWindow b0 b1 b2 b3).instr [b0, b1, b2, b3]
  cases hp : isPrefixByte b0
  · rw [decodeWindow_main hp]
    exact (decodeMain_sameOpcode b0 b1 b2 b3).rowBegins (opcode := [b0]) (decodeMain_hasOpcode b0 hp)
  · simp only [isPrefixByte, Bool.or_eq_true, beq_iff_eq] at hp
    obtain ((rfl | rfl) | rfl) | rfl := hp
    · exact rowBegins_of_encode (decodeCb_row b1) [b2, b3]
    · by_cases hc : b1 = 0xCB#8
      · subst hc
        exact rowBegins_of_encode (decodeDdCb_row b2 b3) []
      · rw [decodeWindow_dd hc]
        exact (decodeDd_sameOpcode b1 b2 b3).rowBegins (opcode := [0xDD, b1]) (decodeDd_hasOpcode b1 hc)
    · exact (decodeEd_sameOpcode b1 b2 b3).rowBegins (opcode := [0xED, b1]) (decodeEd_hasOpcode b1)
    · by_cases hc : b1 = 0xCB#8
      · subst hc
        exact rowBegins_of_encode (decodeFdCb_row b2 b3) []
      · rw [decodeWindow_fd hc]
        exact (decodeFd_sameOpcode b1 b2 b3).rowBegins (opcode := [0xFD, b1]) (decodeFd_hasOpcode b1 hc)

/-! ### The fields of an opcode byte (R122, R130) -/

@[simp] theorem fx_opXyz (x : BitVec 2) (y z : BitVec 3) : fx (opXyz x y z) = x := by
  revert x y z; decide

@[simp] theorem fy_opXyz (x : BitVec 2) (y z : BitVec 3) : fy (opXyz x y z) = y := by
  revert x y z; decide

@[simp] theorem fz_opXyz (x : BitVec 2) (y z : BitVec 3) : fz (opXyz x y z) = z := by
  revert x y z; decide

@[simp] theorem reg8_ofCode_code (r : Reg8) : Reg8.ofCode r.code = some r := by cases r <;> rfl

@[simp] theorem reg8_ofCode_six : Reg8.ofCode 6#3 = none := rfl

/-! ### The encoding of a row decodes to it (R120 to R148) -/

/-- An `ED` row of two bytes does not depend on the bytes after it. -/
theorem decodeEd_eq_of_opcode {i : Instr} {op : Byte} (h : decodeEd op 0 0 = i) (hl : (encode i).length = 2)
    (b1 b2 : Byte) : decodeEd op b1 b2 = i := by
  subst h
  revert hl
  unfold decodeEd decodeEd1
  repeat' split
  all_goals first | exact fun _ => rfl | nofun

/-- A `DD` row of two bytes does not depend on the bytes after it. -/
theorem decodeDd_eq_of_opcode {i : Instr} {op : Byte} (h : decodeDd op 0 0 = i) (hl : (encode i).length = 2)
    (b1 b2 : Byte) : decodeDd op b1 b2 = i := by
  subst h
  revert hl
  unfold decodeDd decodeHalfOr aluIxD
  repeat' split
  all_goals first | exact fun _ => rfl | nofun

/-- An `FD` row of two bytes does not depend on the bytes after it. -/
theorem decodeFd_eq_of_opcode {i : Instr} {op : Byte} (h : decodeFd op 0 0 = i) (hl : (encode i).length = 2)
    (b1 b2 : Byte) : decodeFd op b1 b2 = i := by
  subst h
  revert hl
  unfold decodeFd decodeHalfOr aluIyD
  repeat' split
  all_goals first | exact fun _ => rfl | nofun

theorem decodeDd_ignored : ∀ op : Byte, ignoresIndex op = true →
    op ≠ 0xCB#8 ∧ decodeDd op 0 0 = .ignoredDd op := by decide

theorem decodeFd_ignored : ∀ op : Byte, ignoresIndex op = true →
    op ≠ 0xCB#8 ∧ decodeFd op 0 0 = .ignoredFd op := by decide

/-- The encoding of a row decodes to it, by cases on the row: a register, pair or condition by its values, a bit number by
the fields of the opcode byte, and a byte operand as it stands. -/
theorem decode_encode {i : Instr} (hw : i.wf = true) (hp : i.isTablePrefix = false) (r0 r1 r2 : Byte)
    (rest : List Byte) : (decode (encode i ++ r0 :: r1 :: r2 :: rest)).map (·.instr) = .ok i := by
  cases i
  case prefixCb | prefixDd | prefixEd | prefixFd | prefixDdCb | prefixFdCb => cases hp
  -- 8-bit registers (R130) and index halves (R133)
  case incR r | decR r | ldRHl r | ldHlR r | addAR r | adcAR r | subR r | sbcAR r | andR r | xorR r | orR r | cpR r
      | rlcR r | rrcR r | rlR r | rrR r | slaR r | sraR r | sllR r | srlR r | inRC r | outCR r
      | ldRN r _ | ldRIxD r _ | ldRIyD r _ | ldIxDR _ r | ldIyDR _ r
      | ldRRlcIxD r _ | ldRRrcIxD r _ | ldRRlIxD r _ | ldRRrIxD r _
      | ldRSlaIxD r _ | ldRSraIxD r _ | ldRSllIxD r _ | ldRSrlIxD r _
      | ldRRlcIyD r _ | ldRRrcIyD r _ | ldRRlIyD r _ | ldRRrIyD r _
      | ldRSlaIyD r _ | ldRSraIyD r _ | ldRSllIyD r _ | ldRSrlIyD r _ => cases r <;> rfl
  case ldRR dst src => cases dst <;> cases src <;> rfl
  -- with two plain registers `DD` and `FD` are ignored: no well-formed row (R214)
  case ldRRIx dst src | ldRRIy dst src => cases dst <;> cases src <;> first | rfl | cases hw
  case incIxHalf h | decIxHalf h | ldIxHalfN h _ | addAIxHalf h | adcAIxHalf h | subIxHalf h | sbcAIxHalf h
      | andIxHalf h | xorIxHalf h | orIxHalf h | cpIxHalf h
      | incIyHalf h | decIyHalf h | ldIyHalfN h _ | addAIyHalf h | adcAIyHalf h | subIyHalf h | sbcAIyHalf h
      | andIyHalf h | xorIyHalf h | orIyHalf h | cpIyHalf h => cases h <;> rfl
  -- pairs (R131), conditions (R42, R132) and superseding prefixes (R124)
  case addHlSs ss | incSs ss | decSs ss | sbcHlSs ss | adcHlSs ss | popQq ss | pushQq ss | addIxPp ss | addIyPp ss
      | jrCc ss _ | retCc ss | supersededDd ss | supersededFd ss => cases ss <;> rfl
  -- a word operand is its two bytes (R128)
  case ldMemNnHl nn | ldMemNnA nn | ldHlMemNn nn | ldAMemNn nn | jpNn nn | callNn nn | ldIxNn nn | ldMemNnIx nn
      | ldIxMemNn nn | ldIyNn nn | ldMemNnIy nn | ldIyMemNn nn =>
    conv_rhs => rw [← wordOf_hi_lo nn]
    rfl
  case ldDdNn dd nn | ldMemNnDd dd nn | ldDdMemNn dd nn | jpCcNn dd nn | callCcNn dd nn =>
    conv_rhs => rw [← wordOf_hi_lo nn]
    cases dd <;> rfl
  -- bit numbers and restart addresses
  case rst t =>
    show Except.ok (decodeWindow (opXyz 3 t 7) r0 r1 r2).instr = _
    rw [decodeWindow_main (by revert t; decide)]
    simp [decodeMain, decodeMain3]
  case bitBR b _ | resBR b _ | setBR b _ | bitBHl b | resBHl b | setBHl b =>
    show Except.ok (decodeCb (opXyz _ b _)) = _
    simp [decodeCb]
  case bitBIxD b _ d | resBIxD b d | setBIxD b d | ldRResBIxD _ b d | ldRSetBIxD _ b d =>
    show Except.ok (decodeDdCb d (opXyz _ b _)) = _
    simp [decodeDdCb]
  case bitBIyD b _ d | resBIyD b d | setBIyD b d | ldRResBIyD _ b d | ldRSetBIyD _ b d =>
    show Except.ok (decodeFdCb d (opXyz _ b _)) = _
    simp [decodeFdCb]
  -- the mirrors (R137, R145) and holes (R148) of the `ED` table
  case neg y | retn y | im1 y | im2 y | noni00 y | noniC0 y | noni80 y =>
    exact congrArg Except.ok (decodeEd_eq_of_opcode (by revert y; decide) rfl _ _)
  case im0 hi lo | noniA4 hi lo =>
    exact congrArg Except.ok (decodeEd_eq_of_opcode (by revert hi lo; decide) rfl _ _)
  -- the ignored prefixes (R662)
  case ignoredDd op =>
    obtain ⟨hcb, hd⟩ := decodeDd_ignored op hw
    show Except.ok (decodeWindow 0xDD op r0 r1).instr = _
    rw [decodeWindow_dd hcb]
    exact congrArg Except.ok (decodeDd_eq_of_opcode hd rfl _ _)
  case ignoredFd op =>
    obtain ⟨hcb, hd⟩ := decodeFd_ignored op hw
    show Except.ok (decodeWindow 0xFD op r0 r1).instr = _
    rw [decodeWindow_fd hcb]
    exact congrArg Except.ok (decodeFd_eq_of_opcode hd rfl _ _)
  -- no operand, or bytes
  all_goals rfl

/-- The bytes that select a table lead through the row of their own, whatever follows them (log 6). -/
theorem mem_path_of_tablePrefix {i : Instr} (hp : i.isTablePrefix = true) (r0 r1 r2 : Byte) (rest : List Byte) :
    ∃ d, decode (encode i ++ r0 :: r1 :: r2 :: rest) = .ok d ∧ i ∈ d.path := by
  cases i
  case prefixCb | prefixEd => exact ⟨_, rfl, .head _⟩
  case prefixDdCb | prefixFdCb => exact ⟨_, rfl, .tail _ (.head _)⟩
  case prefixDd =>
    refine ⟨decodeWindow 0xDD r0 r1 r2, rfl, ?_⟩
    by_cases h : r0 = 0xCB#8
    · subst h
      exact .head _
    · rw [decodeWindow_dd h]
      exact .head _
  case prefixFd =>
    refine ⟨decodeWindow 0xFD r0 r1 r2, rfl, ?_⟩
    by_cases h : r0 = 0xCB#8
    · subst h
      exact .head _
    · rw [decodeWindow_fd h]
      exact .head _
  all_goals cases hp

/-- What the decoder answers is a window's row behind table-selecting prefixes. -/
theorem path_of_decode {bs : List Byte} {d : Decoded} (h : decode bs = .ok d) : ∀ p ∈ d.path, p.isTablePrefix = true := by
  rcases bs with _ | ⟨b0, _ | ⟨b1, _ | ⟨b2, _ | ⟨b3, rest⟩⟩⟩⟩
  case cons.cons.cons.cons =>
    cases h
    exact decodeWindow_path b0 b1 b2 b3
  all_goals cases h

/-- Settles O1: a row that selects a table stands on the path (`mem_path_of_tablePrefix`), and any other row is what its
encoding decodes to (`decode_encode`). -/
theorem decodeOfEncode : Obligations.DecodeOfEncode := by
  rintro i rest hw hlen
  obtain ⟨r0, r1, r2, rest, rfl⟩ : ∃ r0 r1 r2 tail, rest = r0 :: r1 :: r2 :: tail := by
    rcases rest with _ | ⟨r0, _ | ⟨r1, _ | ⟨r2, tail⟩⟩⟩
    case cons.cons.cons => exact ⟨r0, r1, r2, tail, rfl⟩
    all_goals simp at hlen
  cases hp : i.isTablePrefix
  · have he := decode_encode hw hp r0 r1 r2 rest
    cases hd : decode (encode i ++ r0 :: r1 :: r2 :: rest) with
    | error e => rw [hd] at he; cases he
    | ok d =>
      rw [hd] at he
      exact ⟨d, rfl, Except.ok.inj he, path_of_decode hd⟩
  · exact mem_path_of_tablePrefix hp r0 r1 r2 rest

/-! ### Ignored prefixes and the step (R124, R662, R712) -/

/-- Settles O5: the step is `execute_one`, which either reaches the row after the prefixes (`executeOne_runs`) or uses all
65536 up (`executeOne_endless`). -/
theorem ignoredPrefixesJoinTheStep : Obligations.IgnoredPrefixesJoinTheStep := by
  intro s hx
  rw [step_executes hx]
  refine ⟨?_, fun pre next hn hp ha => executeOne_endless hn ha hp, ?_⟩
  · rintro pre bs i u hf hn rfl
    rw [executeOne_runs hf hn]
    exact ⟨fun t h => by rw [h]; rfl, fun a x y b h => by rw [h]; rfl, fun r h => by rw [h]; rfl⟩
  · rcases executeOne_cases s with hrow | ⟨-, pre, next, hn, ha, hp⟩
    · exact .inl hrow
    · exact .inr ⟨pre, next, hn, hp, ha⟩

/-! ### The `ED` holes (R148, R661, R711) -/

/-- Each hole is the shared operation of holes with its opcode byte, and has two bytes and two M1 fetches. -/
theorem opOf_hole {i : Instr} {op : Byte} (h : Forms.hole i = some op) : opOf i = .edHole op ∧ HasShape i 2 2 := by
  cases i <;> cases h <;> exact ⟨rfl, shape rfl⟩

/-- Settles O15: by the two policies of the shared operation (`edHole_spec`). -/
theorem edHoles : Obligations.EdHoles := by
  intro i op s h
  obtain ⟨ho, hs⟩ := opOf_hole h
  rw [exec_eq, ho]
  rcases edHole_spec hs op s with ⟨hp, he⟩ | ⟨hp, t, he, hr⟩
  · exact ⟨fun _ => he, fun hn => absurd (hp.symm.trans hn) nofun⟩
  · exact ⟨fun hn => absurd (hp.symm.trans hn) nofun, fun _ => ⟨t, he, hr.pc.trans (nextPc_eq hs s), hr⟩⟩

/-! ### Rows of prefixes (R124, R127, R662) -/

/-- Settles O60: a row that selects a table is run by doing nothing (`runRow_tablePrefix`), an ignored one by consuming its
byte (`consumeByte_spec`). -/
theorem prefixRows : Obligations.PrefixRows := by
  refine fun i s => ⟨fun h => ?_, fun h => ?_⟩
  · rw [← runRow_noAccess (tablePrefix_noAccess h), runRow_tablePrefix h]
  · have ho : opOf i = .consumeByte := by
      cases i <;> first | rfl | cases h
    rw [exec_eq, ho]
    exact consumeByte_spec s

end Sys2Proof.Machine
end

section
/-! The flag engine (40_flag_engine.md): 8-bit arithmetic and logic, decimal adjust, 16-bit arithmetic, rotates, bit tests
and the passes of the block instructions. Each proof names the shared operation of its instructions (`opOf_…`), what that
operation does (`…_spec`) and what the flag engine computes (`…_result`, `…_flags`). A theorem whose own name is that of an
operation of the model stands in the namespace `FlagEngine`. -/

namespace Sys2Proof.Machine

open Sys2Proof Sys2Proof.Laws

/-! ### Arithmetic and logic on A (R183 to R186, R300 to R339, R350) -/

/-- The rows of the ALU table are one shared operation. -/
theorem opOf_aluOn {i : Instr} {op : AluOp} {src : Src8} (h : Forms.aluOn i = some (op, src)) :
    opOf i = .aluOnA op src ∧ HasShape i (Shape.bytes i) (Shape.fetches i) := by
  cases i <;> cases h <;> exact ⟨rfl, shape rfl⟩

/-- An ALU row puts the result of `alu` into A and F. -/
theorem exec_aluOn {i : Instr} {op : AluOp} {src : Src8} (h : Forms.aluOn i = some (op, src)) (s : State) :
    ∃ t, exec i s = .next t ∧ Retires i { regs := [.a], f := true } (src.readEvents s) s t ∧
      t.main.a = (alu op s.main.a (src.read s) s.main.f).1 ∧ t.main.f = (alu op s.main.a (src.read s) s.main.f).2 := by
  obtain ⟨ho, hs⟩ := opOf_aluOn h
  rw [exec_eq, ho]
  exact aluOnA_spec hs op src s

/-- `ADD` and `ADC` are `add8` with the carry that each adds (R183). -/
theorem alu_eq_add8 {op : AluOp} {c : Nat} {f : Byte}
    (h : op = .add ∧ c = 0 ∨ op = .adc ∧ c = (flagC f).toNat) (a v : Byte) :
    ∃ b : Bool, c = b.toNat ∧ alu op a v f = add8 a v b := by
  rcases h with ⟨rfl, rfl⟩ | ⟨rfl, rfl⟩
  · exact ⟨false, rfl, rfl⟩
  · exact ⟨flagC f, rfl, rfl⟩

/-- `SUB` and `SBC` are `sub8` with the borrow that each takes (R184). -/
theorem alu_eq_sub8 {op : AluOp} {c : Nat} {f : Byte}
    (h : op = .sub ∧ c = 0 ∨ op = .sbc ∧ c = (flagC f).toNat) (a v : Byte) :
    ∃ b : Bool, c = b.toNat ∧ alu op a v f = sub8 a v b := by
  rcases h with ⟨rfl, rfl⟩ | ⟨rfl, rfl⟩
  · exact ⟨false, rfl, rfl⟩
  · exact ⟨flagC f, rfl, rfl⟩

/-- Settles O34: by the sum and the flags of `add8`. -/
theorem addToA : Obligations.AddToA := by
  intro i op src s c h hop
  obtain ⟨t, he, hr, ha, hf⟩ := exec_aluOn h s
  obtain ⟨b, rfl, hb⟩ := alu_eq_add8 hop s.main.a (src.read s)
  rw [hb] at ha hf
  refine ⟨t, he, hr, ha ▸ add8_result _ _ b, ?_⟩
  rw [hf, ha]
  exact add8_flags _ _ b

/-- A row that changes A and F alone, A being its operand. -/
theorem changeA_spec {i : Instr} {n k : Nat} (h : HasShape i n k) (g : Byte → Byte → Byte × Byte) (s : State) :
    ∃ t, changeByte g (.reg .a) n k s = .next t ∧ Retires i { regs := [.a], f := true } [] s t ∧
      t.main.a = (g s.main.a s.main.f).1 ∧ t.main.f = (g s.main.a s.main.f).2 :=
  changeByte_spec h g (.reg .a) s

/-- Settles O35: `NEG` too puts a difference of `sub8` into A and F. -/
theorem subtractFromA : Obligations.SubtractFromA := by
  intro i op src s a v c es h
  obtain ⟨b, rfl, t, he, hr, ha, hf⟩ : ∃ b : Bool, c = b.toNat ∧ ∃ t, exec i s = .next t ∧
      Retires i { regs := [.a], f := true } es s t ∧ t.main.a = (sub8 a v b).1 ∧ t.main.f = (sub8 a v b).2 := by
    rcases h with ⟨h, rfl, rfl, rfl, hop⟩ | ⟨⟨y, rfl⟩, rfl, rfl, rfl, rfl⟩
    · obtain ⟨b, rfl, hb⟩ := alu_eq_sub8 hop s.main.a (src.read s)
      exact ⟨b, rfl, hb ▸ exec_aluOn h s⟩
    · exact ⟨false, rfl, changeA_spec (shape (i := .neg y) rfl) _ s⟩
  refine ⟨t, he, hr, ha ▸ sub8_result a v b, ?_⟩
  rw [hf, ha]
  exact sub8_flags a v b

/-- Settles O36: `CP` leaves A alone (`compare_spec`), with the flags of `cp8`. -/
theorem compareWithA : Obligations.CompareWithA := by
  intro i src s h
  obtain ⟨ho, hs⟩ := opOf_aluOn h
  rw [exec_eq, ho]
  obtain ⟨t, he, hr, hf⟩ := compare_spec hs src s
  exact ⟨t, he, hr, hf ▸ cp8_flags _ _⟩

/-- `AND`, `XOR` and `OR` work bit by bit, with the flags of `logic8` (R186). -/
theorem alu_eq_logic8 {op : AluOp} {bit : Bool → Bool → Bool}
    (h : op = .and ∧ bit = Bool.and ∨ op = .xor ∧ bit = Bool.xor ∨ op = .or ∧ bit = Bool.or) (a v f : Byte) :
    (∀ k < 8, (alu op a v f).1.getLsbD k = bit (a.getLsbD k) (v.getLsbD k)) ∧
      (alu op a v f).2 = logic8 (alu op a v f).1 (decide (op = .and)) := by
  rcases h with ⟨rfl, rfl⟩ | ⟨rfl, rfl⟩ | ⟨rfl, rfl⟩
  · exact ⟨fun k _ => BitVec.getLsbD_and, rfl⟩
  · exact ⟨fun k _ => BitVec.getLsbD_xor, rfl⟩
  · exact ⟨fun k _ => BitVec.getLsbD_or, rfl⟩

/-- Settles O37: the parity of R181 counts the bits that are 1 (`parity8_card`). -/
theorem logicOnA : Obligations.LogicOnA := by
  intro i op src s bit h hop
  obtain ⟨t, he, hr, ha, hf⟩ := exec_aluOn h s
  obtain ⟨hk, hl⟩ := alu_eq_logic8 hop s.main.a (src.read s) s.main.f
  rw [← ha] at hk hl
  rw [hl] at hf
  refine ⟨t, he, hr, hk, ?_⟩
  rw [← parity8_card, hf]
  exact logic8_flags _ _

/-! ### Byte increments and decimal adjust (R187, R188, R194) -/

/-- The rows of 8-bit `INC` are one shared operation. -/
theorem opOf_increment {i : Instr} {l : Loc8} (h : Forms.increment i = some l) :
    opOf i = .changeByte inc8 l ∧ HasShape i (Shape.bytes i) (Shape.fetches i) := by
  cases i <;> cases h <;> exact ⟨rfl, shape rfl⟩

/-- The rows of 8-bit `DEC` are one shared operation. -/
theorem opOf_decrement {i : Instr} {l : Loc8} (h : Forms.decrement i = some l) :
    opOf i = .changeByte dec8 l ∧ HasShape i (Shape.bytes i) (Shape.fetches i) := by
  cases i <;> cases h <;> exact ⟨rfl, shape rfl⟩

/-- Settles O38: the operand is read, changed and written back, with the flags of `inc8` and `dec8`. -/
theorem incrementAndDecrementByte : Obligations.IncrementAndDecrementByte := by
  constructor
  · intro i l s h
    obtain ⟨ho, hs⟩ := opOf_increment h
    rw [exec_eq, ho]
    obtain ⟨t, he, hr, hv, hf⟩ := changeByte_spec hs inc8 l s
    exact ⟨t, he, hr, hv, hf ▸ inc8_flags _ _⟩
  · intro i l s h
    obtain ⟨ho, hs⟩ := opOf_decrement h
    rw [exec_eq, ho]
    obtain ⟨t, he, hr, hv, hf⟩ := changeByte_spec hs dec8 l s
    exact ⟨t, he, hr, hv, hf ▸ dec8_flags _ _⟩

/-- Settles O39: by the corrected A and the flags of `daa`. -/
theorem decimalAdjust : Obligations.DecimalAdjust := by
  rintro s _ _ rfl rfl
  obtain ⟨t, he, hr, ha, hf⟩ := changeA_spec (shape (i := .daa) rfl) daa s
  refine ⟨t, he, hr, ha ▸ daa_result _ _, ?_⟩
  rw [hf, ha]
  exact daa_flags _ _

/-! ### 16-bit arithmetic (R191 to R193) -/

/-- The rows of 16-bit `ADD` are one shared operation, and none of them adds to AF. -/
theorem opOf_addWord {i : Instr} {dst src : Loc16} (h : Forms.addWord i = some (dst, src)) :
    opOf i = .addWord add16 dst src ∧ dst ≠ .af ∧ HasShape i (Shape.bytes i) (Shape.fetches i) := by
  cases i <;> cases h <;> exact ⟨rfl, nofun, shape rfl⟩

/-- Settles O41: by the sum and the flags of `add16`. -/
theorem FlagEngine.addWord : Obligations.AddWord := by
  intro i dst src s h
  obtain ⟨ho, hd, hs⟩ := opOf_addWord h
  rw [exec_eq, ho]
  obtain ⟨t, he, hr, hv, hf⟩ := addWord_spec hs add16 dst src hd s
  refine ⟨t, he, hr, hv ▸ add16_result _ _ _, ?_⟩
  rw [hf, hv]
  exact add16_flags _ _ _

/-- Settles O42: by the sum and the difference with carry, and the flags of `adc16` and `sbc16`. -/
theorem addWordWithCarry : Obligations.AddWordWithCarry := by
  rintro ss s _ rfl
  constructor
  · obtain ⟨t, he, hr, hv, hf⟩ := addWord_spec (shape (i := .adcHlSs ss) rfl) adc16 .hl ss.loc nofun s
    refine ⟨t, he, hr, (congrArg BitVec.toNat hv).trans (adc16_result _ _ _), ?_⟩
    rw [hf, show t.hl = _ from hv]
    exact adc16_flags _ _ _
  · obtain ⟨t, he, hr, hv, hf⟩ := addWord_spec (shape (i := .sbcHlSs ss) rfl) sbc16 .hl ss.loc nofun s
    refine ⟨t, he, hr, ?_, ?_⟩
    · rw [show t.hl = _ from hv]
      exact sbc16_result _ _ _
    · rw [hf, show t.hl = _ from hv]
      exact sbc16_flags _ _ _

/-! ### Rotates (R189, R190, R400 to R435) -/

/-- A shift to the left, in integers: the bit `b` comes in at the bottom. -/
theorem toNat_shiftLeftWith (v : Byte) (b : Bool) :
    (v.extractLsb' 0 7 ++ BitVec.ofBool b : Byte).toNat = v.toNat * 2 % 256 + b.toNat := by
  revert v b; decide

/-- A shift to the right, in integers: the bit `b` comes in at the top. -/
theorem toNat_shiftRightWith (v : Byte) (b : Bool) :
    (BitVec.ofBool b ++ v.extractLsb' 1 7 : Byte).toNat = v.toNat / 2 + 128 * b.toNat := by
  revert v b; decide

/-- The result of `rot8` in integers (R189). -/
theorem rot8_result (op : RotOp) (v : Byte) (c : Bool) :
    (rot8 op v c).1.toNat =
      if Forms.movesLeft op then v.toNat * 2 % 256 + (Forms.bitIn op v c).toNat
      else v.toNat / 2 + 128 * (Forms.bitIn op v c).toNat := by
  cases op
  case rlc | rl | sla | sll => exact toNat_shiftLeftWith _ _
  case rrc | rr | sra | srl => exact toNat_shiftRightWith _ _

/-- The carry out of `rot8` (R189). -/
theorem rot8_carry (op : RotOp) (v : Byte) (c : Bool) :
    (rot8 op v c).2 = if Forms.movesLeft op then v.getLsbD 7 else v.getLsbD 0 := by
  cases op <;> rfl

/-- The accumulator rotates are one shared operation. -/
theorem opOf_rotateA {i : Instr} {op : RotOp} (h : Forms.rotateA i = some op) :
    opOf i = .rotateA op ∧ HasShape i (Shape.bytes i) (Shape.fetches i) := by
  cases i <;> cases h <;> exact ⟨rfl, shape rfl⟩

/-- Settles O44: by the result and the carry of `rot8`, with the flags of `rota_flags`. -/
theorem FlagEngine.rotateA : Obligations.RotateA := by
  intro i op s h
  obtain ⟨ho, hs⟩ := opOf_rotateA h
  rw [exec_eq, ho]
  obtain ⟨t, he, hr, ha, hf⟩ := rotateA_spec hs op s
  refine ⟨t, he, hr, ha ▸ rot8_result _ _ _, ?_⟩
  rw [hf, ha, ← rot8_carry op s.main.a (flagC s.main.f)]
  exact rotaFlags_flags _ _ _

/-- The `CB` rotates and shifts are one shared operation. -/
theorem opOf_rotate {i : Instr} {op : RotOp} {l : Loc8} {copy : Option Reg8}
    (h : Forms.rotate i = some (op, l, copy)) :
    opOf i = .rotateByte op l copy ∧ HasShape i (Shape.bytes i) (Shape.fetches i) := by
  cases i <;> cases h <;> exact ⟨rfl, shape rfl⟩

/-- Settles O45: the result of `rot8` is written to the operand and its copy. -/
theorem FlagEngine.rotateByte : Obligations.RotateByte := by
  intro i op l copy s h
  obtain ⟨ho, hs⟩ := opOf_rotate h
  rw [exec_eq, ho]
  obtain ⟨t, he, hr, hv, hc, hf⟩ := rotateByte_spec hs op l copy s
  refine ⟨t, _, he, hr, rot8_result _ _ _, hv, hc, ?_⟩
  rw [hf, ← rot8_carry op (l.read s) (flagC s.main.f)]
  exact rotCb_flags _ _ _

/-! ### Bit tests (R198, R450 to R452) -/

/-- The rows of `BIT` that name a source of Y and X are one shared operation, whose source is the operand or the
high byte of an address. -/
theorem opOf_testBit {s : State} {i : Instr} {b : BitVec 3} {l : Loc8} {xy : Byte}
    (h : Forms.testBit s i = some (b, l, xy)) :
    ∃ src, opOf i = .testBit b l src ∧
      (src = .operand ∧ xy = l.read s ∨ ∃ e, src = .address e ∧ xy = hiByte (e.addr s)) ∧
      HasShape i (Shape.bytes i) (Shape.fetches i) := by
  cases i <;> cases h
  case bitBR => exact ⟨_, rfl, .inl ⟨rfl, rfl⟩, shape rfl⟩
  case bitBIxD | bitBIyD => exact ⟨_, rfl, .inr ⟨_, rfl, rfl⟩, shape rfl⟩

/-- Settles O47: by `bit_flags`, with Y and X from the source that the row names, or drawn. -/
theorem bitTests : Obligations.BitTests := by
  constructor
  · intro i b l xy s h
    obtain ⟨src, ho, hxy, hs⟩ := opOf_testBit h
    rw [exec_eq, ho]
    obtain ⟨t, he, hr, hf⟩ := testBit_spec hs b l src s
    refine ⟨t, he, hr, ?_⟩
    rw [hf]
    rcases hxy with ⟨rfl, rfl⟩ | ⟨e, rfl, rfl⟩ <;> exact bit_flags _ _ _ _
  · intro b s
    obtain ⟨t, he, hr, hf⟩ := testBit_spec (shape (i := .bitBHl b) rfl) b (.mem .hl) .free s
    refine ⟨t, he, hr, ?_⟩
    rw [hf]
    have k := bit_flags b (memRead s s.hl) s.draw s.main.f
    exact ⟨k.s, k.z, k.h, k.pv, k.n, k.c⟩

/-! ### Block instructions (R195 to R197, R550 to R566) -/

/-- A pass, repeating or not: PC goes back to the `ED` byte exactly when a repeating form goes on, and the flags are those
of the single pass, but that Y and X of a pass that goes on are free under `REPEAT_PASS_FLAGS = draw` (R566). -/
theorem pass_spec {i : Instr} (h : HasShape i 2 2) {w : Effect} {es : List BusEvent} (hw : w.f = true) (repeats : Bool)
    (again : State → Bool) {pass : State → State} {s : State} {b : FlagBits}
    (hp : IsPass w es (advance 2 2 s) (pass (advance 2 2 s))) (hF : FlagsAre (pass (advance 2 2 s)).main.f b) :
    ∃ t, (if repeats then repeatPass again pass s else singlePass pass s) = .next t ∧
      RetiresAt (if repeats ∧ again (pass (advance 2 2 s)) then s.pc else s.pc + 2) i w es s t ∧
      Frame { f := true } (pass (advance 2 2 s)) t ∧
      (∀ y x, FlagsButYXAre t.main.f { b with y := y, x := x }) ∧
      ((repeats = false ∨ again (pass (advance 2 2 s)) = false ∨ s.params.repeatPassFlags = .singlePass) →
        flagY t.main.f = b.y ∧ flagX t.main.f = b.x) := by
  have hB : ∀ y x, FlagsButYXAre (pass (advance 2 2 s)).main.f { b with y := y, x := x } :=
    fun _ _ => ⟨hF.s, hF.z, hF.h, hF.pv, hF.n, hF.c⟩
  cases repeats
  case false =>
    obtain ⟨t, he, rfl, hr⟩ := singlePass_spec h pass s hp
    exact ⟨_, he, by simpa using hr, Frame.refl _ _, hB, fun _ => ⟨hF.y, hF.x⟩⟩
  case true =>
    obtain ⟨t, he, hr, f, hb, hk⟩ := repeatPass_spec h hw again pass s hp
    refine ⟨t, he, by simpa using hr, f, fun y x => hb _ (hB y x), fun hx => ?_⟩
    rw [hk (by simpa using hx)]
    exact ⟨hF.y, hF.x⟩

/-- `LDI`, `LDD` and their repeating forms are one shared operation, its direction the sign of the delta. -/
theorem opOf_blockMove {i : Instr} {k : Forms.Block} (h : Forms.blockMove i = some k) :
    ∃ up, opOf i = .blockMove up k.repeats ∧ k.delta = (if up then 1 else -1) ∧ HasShape i 2 2 := by
  cases i <;> cases h
  case ldi | ldir => exact ⟨true, rfl, rfl, shape rfl⟩
  case ldd | lddr => exact ⟨false, rfl, rfl, shape rfl⟩

/-- `CPI`, `CPD` and their repeating forms are one shared operation. -/
theorem opOf_blockCompare {i : Instr} {k : Forms.Block} (h : Forms.blockCompare i = some k) :
    ∃ up, opOf i = .blockCompare up k.repeats ∧ k.delta = (if up then 1 else -1) ∧ HasShape i 2 2 := by
  cases i <;> cases h
  case cpi | cpir => exact ⟨true, rfl, rfl, shape rfl⟩
  case cpd | cpdr => exact ⟨false, rfl, rfl, shape rfl⟩

/-- `INI`, `IND` and their repeating forms are one shared operation. -/
theorem opOf_blockInput {i : Instr} {k : Forms.Block} (h : Forms.blockInput i = some k) :
    ∃ up, opOf i = .blockInput up k.repeats ∧ k.delta = (if up then 1 else -1) ∧ HasShape i 2 2 := by
  cases i <;> cases h
  case ini | inir => exact ⟨true, rfl, rfl, shape rfl⟩
  case ind | indr => exact ⟨false, rfl, rfl, shape rfl⟩

/-- `OUTI`, `OUTD` and their repeating forms are one shared operation. -/
theorem opOf_blockOutput {i : Instr} {k : Forms.Block} (h : Forms.blockOutput i = some k) :
    ∃ up, opOf i = .blockOutput up k.repeats ∧ k.delta = (if up then 1 else -1) ∧ HasShape i 2 2 := by
  cases i <;> cases h
  case outi | otir => exact ⟨true, rfl, rfl, shape rfl⟩
  case outd | otdr => exact ⟨false, rfl, rfl, shape rfl⟩

/-- A change of F alone keeps the pairs, and so B and L. -/
theorem kept_of_frame_f {s t : State} (h : Frame { f := true } s t) :
    t.main.b = s.main.b ∧ t.main.l = s.main.l ∧ t.bc = s.bc ∧ t.de = s.de ∧ t.hl = s.hl :=
  ⟨h.regs .b nofun, h.regs .l nofun, frame_bc h nofun nofun, frame_de h nofun nofun, frame_hl h nofun nofun⟩

/-- Settles O52: one pass (`blockMove_pass`) with the flags of `ldx_flags`, going on while BC is not 0. -/
theorem FlagEngine.blockMove : Obligations.BlockMove := by
  intro i k s h
  obtain ⟨up, ho, hd, hs⟩ := opOf_blockMove h
  obtain ⟨hp, hhl, hde, hbc, hF⟩ := blockMove_pass up (advance 2 2 s)
  simp only [advance_hl, advance_de, advance_bc, advance_memRead, advance_main] at hp hhl hde hbc hF
  obtain ⟨t, he, hr, f, hb, hk⟩ := pass_spec hs rfl k.repeats counterLeft hp (hF ▸ ldx_flags _ _ _ _)
  obtain ⟨-, -, ebc, ede, ehl⟩ := kept_of_frame_f f
  have hc : counterLeft (Machine.blockMove up (advance 2 2 s)) = (s.bc - 1 != 0) := by rw [counterLeft, hbc]
  rw [hc] at hr hk
  refine ⟨t, by rw [exec_eq, ho]; exact he, ?_⟩
  rw [ehl, ede, ebc, hhl, hde, hbc, hd]
  exact ⟨by simpa using hr, hr.bus.byte_stored (es := [_]) hr.frame.params, stepWord_toNat _ _, stepWord_toNat _ _, rfl,
    hb _ _, fun hx => hk (by simpa using hx)⟩

/-- Settles O53: one pass (`blockCompare_pass`) with the flags of `cpx_flags`, whose Z ends the search. -/
theorem FlagEngine.blockCompare : Obligations.BlockCompare := by
  rintro i k s _ _ h rfl rfl
  obtain ⟨up, ho, hd, hs⟩ := opOf_blockCompare h
  obtain ⟨hp, hhl, hbc, hF⟩ := blockCompare_pass up (advance 2 2 s)
  simp only [advance_hl, advance_bc, advance_memRead, advance_main] at hp hhl hbc hF
  have hfl := hF ▸ cpx_flags s.main.a (memRead s s.hl) (s.bc - 1) s.main.f
  obtain ⟨t, he, hr, f, hb, hk⟩ := pass_spec hs rfl k.repeats searchGoesOn hp hfl
  obtain ⟨-, -, ebc, -, ehl⟩ := kept_of_frame_f f
  have hc : searchGoesOn (Machine.blockCompare up (advance 2 2 s)) =
      (s.bc - 1 != 0 && !decide (s.main.a = memRead s s.hl)) := by rw [searchGoesOn, hbc, hfl.z]
  rw [hc] at hr hk
  refine ⟨t, by rw [exec_eq, ho]; exact he, ?_⟩
  rw [ehl, ebc, hhl, hbc, hd]
  exact ⟨by simpa using hr, stepWord_toNat _ _, rfl, hb _ _, fun hx => hk (by simpa [imp_iff_not_or, or_assoc] using hx)⟩

/-- C stepped (R197), in integers. -/
theorem stepC_toNat (up : Bool) (c : Byte) :
    ((if up then c + 1 else c - 1).toNat : Int) = (c.toNat + (if up then 1 else -1)) % 256 := by
  cases up <;> simp only [if_true, Bool.false_eq_true, if_false] <;> bv_omega

/-- Settles O54: one pass (`blockInput_pass`) with the flags of `blkio_flags`, going on while B is not 0. -/
theorem FlagEngine.blockInput : Obligations.BlockInput := by
  rintro i k s _ sum h rfl hsum
  obtain ⟨up, ho, hd, hs⟩ := opOf_blockInput h
  obtain ⟨hp, hhl, hB, hF⟩ := blockInput_pass up (advance 2 2 s)
  simp only [advance_hl, advance_bc, advance_portAnswer, advance_main] at hp hhl hB hF
  have hv : (portAnswer s s.bc).toNat + (if up then s.main.c + 1 else s.main.c - 1).toNat = sum := by
    have hstep := stepC_toNat up s.main.c
    rw [← hd] at hstep
    omega
  rw [hv] at hF
  obtain ⟨t, he, hr, f, hb, hk⟩ := pass_spec hs rfl k.repeats portCounterLeft hp (hF ▸ blkio_flags _ _ _)
  obtain ⟨eb, -, -, -, ehl⟩ := kept_of_frame_f f
  have hc : portCounterLeft (Machine.blockInput up (advance 2 2 s)) = (s.main.b - 1 != 0) := by rw [portCounterLeft, hB]
  rw [hc] at hr hk
  refine ⟨t, by rw [exec_eq, ho]; exact he, ?_⟩
  rw [ehl, eb, hhl, hB, hd]
  exact ⟨by simpa using hr, hr.bus.byte_stored (es := [_]) hr.frame.params, stepWord_toNat _ _, rfl, hb _ _,
    fun hx => hk (by simpa using hx)⟩

/-- Settles O55: one pass (`blockOutput_pass`) with the flags of `blkio_flags`, going on while B is not 0; the port has the
B of after the pass and the C that no pass writes. -/
theorem FlagEngine.blockOutput : Obligations.BlockOutput := by
  rintro i k s _ h rfl
  obtain ⟨up, ho, hd, hs⟩ := opOf_blockOutput h
  obtain ⟨hp, hhl, hB, hF⟩ := blockOutput_pass up (advance 2 2 s)
  simp only [advance_hl, advance_memRead, advance_main] at hp hhl hB hF
  obtain ⟨t, he, hr, f, hb, hk⟩ := pass_spec hs rfl k.repeats portCounterLeft hp (hF ▸ blkio_flags _ _ _)
  obtain ⟨eb, el, -, -, ehl⟩ := kept_of_frame_f f
  have ebc : t.bc = wordOf (s.main.b - 1) s.main.c := congrArg₂ wordOf (eb.trans hB) (hr.frame.regs .c (by decide))
  have hc : portCounterLeft (Machine.blockOutput up (advance 2 2 s)) = (s.main.b - 1 != 0) := by rw [portCounterLeft, hB]
  rw [hc] at hr hk
  refine ⟨t, by rw [exec_eq, ho]; exact he, ?_⟩
  rw [ehl, ebc, eb, el, hhl, hB, hd]
  exact ⟨by simpa using hr, stepWord_toNat _ _, rfl, hb _ _, fun hx => hk (by simpa using hx)⟩

end Sys2Proof.Machine
end

section
/-! The 8-bit loads (41_load8.md): the words written out from the encodings of the rules, and what every load does. -/

namespace Sys2Proof.Machine

open Sys2Proof Sys2Proof.Laws

/-! ### Words from the encodings of the rules (R201, R250, R303, R409, R455, R501, R551, R601, R656, R662) -/

/-- Settles O3: the words are closed, and the decoder computes the row of each. -/
theorem decodesTheSpecsWords : Obligations.DecodesTheSpecsWords :=
  ⟨rfl, rfl, rfl, rfl, rfl, rfl, rfl, rfl, rfl, rfl⟩

/-! ### The 8-bit loads (R200 to R215) -/

/-- The rows of the 8-bit loads are one shared operation. -/
theorem opOf_byteLoad {i : Instr} {dst : Loc8} {src : Src8} (h : Forms.byteLoad i = some (dst, src)) :
    opOf i = .loadByte dst src ∧ HasShape i (Shape.bytes i) (Shape.fetches i) := by
  cases i <;> cases h <;> exact ⟨rfl, shape rfl⟩

/-- Settles O30: by what the shared load does (`loadByte_spec`). -/
theorem byteLoads : Obligations.ByteLoads := by
  intro i dst src s h
  obtain ⟨ho, hs⟩ := opOf_byteLoad h
  rw [exec_eq, ho]
  exact loadByte_spec hs dst src s

end Sys2Proof.Machine
end

section
/-! The 16-bit loads and stores and the exchanges (42_load16.md, R250 to R259 and R264 to R268). -/

namespace Sys2Proof.Machine

open Sys2Proof Sys2Proof.Laws

/-! ### The 16-bit loads and stores (R250 to R259) -/

/-- The loads of a word that is in the instruction or in a register are two shared operations: `loadWord` with the word of
the instruction, and `loadSp`, whose word is its register's. -/
theorem opOf_wordLoad {i : Instr} {dst : Loc16} {w : Word} {s : State} (h : Forms.wordLoad s i = some (dst, w)) :
    (opOf i = .loadWord dst w ∨ ∃ src, opOf i = .loadSp src ∧ dst = .sp ∧ w = src.read s) ∧
      HasShape i (Shape.bytes i) (Shape.fetches i) := by
  cases i <;> cases h
  case ldDdNn | ldIxNn | ldIyNn => exact ⟨.inl rfl, shape rfl⟩
  case ldSpHl | ldSpIx | ldSpIy => exact ⟨.inr ⟨_, rfl, rfl, rfl⟩, shape rfl⟩

/-- The 16-bit loads from memory are one shared operation. -/
theorem opOf_wordLoadAt {i : Instr} {dst : Loc16} {nn : Word} (h : Forms.wordLoadAt i = some (dst, nn)) :
    opOf i = .loadWordAt dst nn ∧ HasShape i (Shape.bytes i) (Shape.fetches i) := by
  cases i <;> cases h <;> exact ⟨rfl, shape rfl⟩

/-- The 16-bit stores are one shared operation. -/
theorem opOf_wordStore {i : Instr} {a : Word} {src : Loc16} (h : Forms.wordStore i = some (a, src)) :
    opOf i = .storeWordAt a src ∧ HasShape i (Shape.bytes i) (Shape.fetches i) := by
  cases i <;> cases h <;> exact ⟨rfl, shape rfl⟩

/-- Settles O31: by what the shared loads and the shared store do; the bytes a store wrote last read back
(`Transacts.word_stored`). -/
theorem wordLoadsAndStores : Obligations.WordLoadsAndStores := by
  refine ⟨fun i dst w s h => ?_, fun i dst nn s h => ?_, fun i a src s h => ?_⟩
  · obtain ⟨ho | ⟨src, ho, rfl, rfl⟩, hs⟩ := opOf_wordLoad h <;> rw [exec_eq, ho]
    · exact loadWord_spec hs dst w s
    · exact loadSp_spec hs src s
  · obtain ⟨ho, hs⟩ := opOf_wordLoadAt h
    obtain ⟨t, he, hr, hv⟩ := loadWordAt_spec hs dst nn s
    exact ⟨t, highFirst s, _, _, orderAllowed_highFirst s, by rw [exec_eq, ho]; exact he, hr, hv⟩
  · obtain ⟨ho, hs⟩ := opOf_wordStore h
    obtain ⟨t, he, hr⟩ := storeWordAt_spec hs a src s
    exact ⟨t, highFirst s, orderAllowed_highFirst s, by rw [exec_eq, ho]; exact he, hr,
      Transacts.word_stored (es := []) hr.bus hr.frame.params⟩

/-! ### The exchanges (R264 to R268) -/

/-- The exchanges with the top of the stack are one shared operation. -/
theorem opOf_exchangeTop {i : Instr} {l : Loc16} (h : Forms.exchangeTop i = some l) :
    opOf i = .exchangeTop l ∧ HasShape i (Shape.bytes i) (Shape.fetches i) := by
  cases i <;> cases h <;> exact ⟨rfl, shape rfl⟩

/-- Settles O33: by what each register exchange does, and by what the exchange with the top of the stack does, whose write
comes after its read and so is what stands at SP. -/
theorem exchanges : Obligations.Exchanges := by
  refine ⟨fun s => ⟨swapDeHl_spec (shape rfl) s, swapAf_spec (shape rfl) s, swapExx_spec (shape rfl) s⟩,
    fun i l s h => ?_⟩
  obtain ⟨ho, hs⟩ := opOf_exchangeTop h
  obtain ⟨t, high, hhigh, he, hr, hv⟩ := exchangeTop_spec hs l s
  exact ⟨t, highFirst s, high, _, _, orderAllowed_highFirst s, hhigh, by rw [exec_eq, ho]; exact he, hr, hv,
    hr.bus.word_stored hr.frame.params⟩

end Sys2Proof.Machine
end

section
/-! Complement, the carry operations and the 16-bit increments (43_arith.md, R349, R351, R352 and R357 to R360).
A theorem whose own name is that of an operation of the model stands in the namespace `Arith`. -/

namespace Sys2Proof.Machine

open Sys2Proof Sys2Proof.Laws

/-! ### Complement and the carry operations (R349, R351, R352) -/

/-- The result of `CPL` in integers (R349). -/
theorem cplA_result (a f : Byte) : (cplA a f).1.toNat = 255 - a.toNat :=
  BitVec.toNat_not

/-- Flags of which Y and X are drawn are those of `b` but for these two. -/
theorem flagsButYX_of_drawn {f : Byte} {b : FlagBits} {y x : Bool} (h : FlagsAre f { b with y := y, x := x }) :
    FlagsButYXAre f b :=
  ⟨h.s, h.z, h.h, h.pv, h.n, h.c⟩

/-- Settles O40: `CPL` is a change of A with the flags of `cplA`; `CCF` and `SCF` change F alone, with the flags of
`ccfFlags` and `scfFlags` at a drawn byte. -/
theorem complementAndCarryOperations : Obligations.ComplementAndCarryOperations := by
  refine ⟨fun s => ?_, fun s => ⟨?_, ?_⟩⟩
  · obtain ⟨t, he, hr, ha, hf⟩ := changeA_spec (shape (i := .cpl) rfl) cplA s
    refine ⟨t, he, hr, ha ▸ cplA_result _ s.main.f, ?_⟩
    rw [hf, ha]
    exact cplA_flags _ _
  · obtain ⟨t, he, hr, hf⟩ := drawFlags_spec (shape (i := .ccf) rfl) ccfFlags s
    exact ⟨t, he, hr, hf ▸ flagsButYX_of_drawn (ccf_flags _ _)⟩
  · obtain ⟨t, he, hr, hf⟩ := drawFlags_spec (shape (i := .scf) rfl) scfFlags s
    exact ⟨t, he, hr, hf ▸ flagsButYX_of_drawn (scf_flags _ _)⟩

/-! ### 16-bit increments (R357 to R360) -/

/-- 16-bit `INC` and `DEC` are one shared operation, up or down by the sign of what is added. -/
theorem opOf_stepWord {i : Instr} {l : Loc16} {d : Int} (h : Forms.stepWord i = some (l, d)) :
    ∃ up, opOf i = .changeWord (stepWord up) l ∧ d = (if up then 1 else -1) ∧
      HasShape i (Shape.bytes i) (Shape.fetches i) := by
  cases i <;> cases h
  case incSs | incIx | incIy => exact ⟨true, rfl, rfl, shape rfl⟩
  case decSs | decIx | decIy => exact ⟨false, rfl, rfl, shape rfl⟩

/-- Settles O43: the register is read, stepped and written back (`changeWord_spec`), in integers by `stepWord_toNat`. -/
theorem Arith.stepWord : Obligations.StepWord := by
  intro i l d s h
  obtain ⟨up, ho, rfl, hs⟩ := opOf_stepWord h
  rw [exec_eq, ho]
  obtain ⟨t, he, hr, hv⟩ := changeWord_spec hs (Machine.stepWord up) l s
  exact ⟨t, he, hr, hv ▸ stepWord_toNat up _⟩

end Sys2Proof.Machine
end

section
/-! The digit rotates (44_rotate.md, R436 and R437). -/

namespace Sys2Proof.Machine

open Sys2Proof Sys2Proof.Laws

/-! ### RLD and RRD (R436, R437) -/

/-- A byte, in integers, from its two digits. -/
theorem toNat_digits (h l : BitVec 4) : (h ++ l : Byte).toNat = h.toNat * 16 + l.toNat := by
  rw [BitVec.toNat_append, ← Nat.shiftLeft_add_eq_or_of_lt l.isLt, Nat.shiftLeft_eq]

/-- The high digit of a byte in integers. -/
theorem toNat_highDigit (v : Byte) : (v.extractLsb' 4 4).toNat = v.toNat / 16 := by
  have := v.isLt
  rw [BitVec.extractLsb'_toNat, Nat.shiftRight_eq_div_pow]
  omega

/-- The low digit of a byte in integers. -/
theorem toNat_lowDigit (v : Byte) : (v.extractLsb' 0 4).toNat = v.toNat % 16 :=
  BitVec.extractLsb'_toNat ..

/-- The bytes of `RLD` in integers (R436). -/
theorem rldPair_result (a v : Byte) :
    (rldPair a v).1.toNat = a.toNat / 16 * 16 + v.toNat / 16 ∧
      (rldPair a v).2.toNat = v.toNat % 16 * 16 + a.toNat % 16 := by
  simp only [rldPair, toNat_digits, toNat_highDigit, toNat_lowDigit, and_self]

/-- The bytes of `RRD` in integers (R437). -/
theorem rrdPair_result (a v : Byte) :
    (rrdPair a v).1.toNat = a.toNat / 16 * 16 + v.toNat % 16 ∧
      (rrdPair a v).2.toNat = a.toNat % 16 * 16 + v.toNat / 16 := by
  simp only [rrdPair, toNat_digits, toNat_highDigit, toNat_lowDigit, and_self]

/-- `RLD` and `RRD` are one shared operation, each with its own moves of the digits. -/
theorem opOf_rotateDigits {i : Instr} (h : i = .rld ∨ i = .rrd) :
    ∃ g, opOf i = .rotateDigits g ∧ HasShape i (Shape.bytes i) (Shape.fetches i) ∧ ∀ a v : Byte,
      (g a v).1.toNat = a.toNat / 16 * 16 + (if i = .rld then v.toNat / 16 else v.toNat % 16) ∧
      (g a v).2.toNat = (if i = .rld then v.toNat % 16 * 16 + a.toNat % 16 else a.toNat % 16 * 16 + v.toNat / 16) := by
  rcases h with rfl | rfl
  · exact ⟨rldPair, rfl, shape rfl, rldPair_result⟩
  · exact ⟨rrdPair, rfl, shape rfl, rrdPair_result⟩

/-- Settles O46: by what the shared operation does (`rotateDigits_spec`) and where each row moves the digits; the byte stored
at HL comes after the read, so it reads back (`Transacts.byte_stored`). -/
theorem Rotate.rotateDigits : Obligations.RotateDigits := by
  rintro s i _ rfl h
  obtain ⟨g, ho, hs, hg⟩ := opOf_rotateDigits h
  obtain ⟨t, he, hr, ha, hf⟩ := rotateDigits_spec hs g s
  obtain ⟨hA, hM⟩ := hg s.main.a (memRead s s.hl)
  exact ⟨t, _, by rw [exec_eq, ho]; exact he, hr, ha ▸ hA, hM, hr.bus.byte_stored (es := [_]) hr.frame.params,
    hf ▸ in_flags _ _ _⟩

end Sys2Proof.Machine
end

section
/-! `SET` and `RES` (45_bit.md, R453 to R460). The theorem whose own name is that of an operation of the model stands in the
namespace `Bit`. -/

namespace Sys2Proof.Machine

open Sys2Proof Sys2Proof.Laws

/-! ### The mask of a bit number (R453, R457) -/

/-- The mask `1 << b` has the bit `b` and no other. -/
theorem bitMask_getLsbD (b : BitVec 3) (k : Nat) : (1#8 <<< b.toNat).getLsbD k = decide (k = b.toNat) := by
  have hb : b.toNat < 8 := b.isLt
  have h := BitVec.getLsbD_twoPow (w := 8) b.toNat k
  simpa [BitVec.twoPow, hb, eq_comm] using h

/-- `v | (1 << b)` bit by bit (R453). -/
theorem setBit_getLsbD (b : BitVec 3) (v : Byte) (k : Nat) :
    (setBit b v).getLsbD k = if k = b.toNat then true else v.getLsbD k := by
  rw [setBit, BitVec.getLsbD_or, bitMask_getLsbD]
  split <;> simp [*]

/-- `v & ~(1 << b)` bit by bit (R457). -/
theorem resBit_getLsbD (b : BitVec 3) (v : Byte) {k : Nat} (hk : k < 8) :
    (resBit b v).getLsbD k = if k = b.toNat then false else v.getLsbD k := by
  rw [resBit, BitVec.getLsbD_and, BitVec.getLsbD_not, bitMask_getLsbD]
  split <;> simp [*]

/-! ### SET and RES (R453 to R460) -/

/-- `SET` and `RES` are one shared operation, which gives the bit that the row names its new value and keeps the others. -/
theorem opOf_changeBit {i : Instr} {b : BitVec 3} {v : Bool} {l : Loc8} {copy : Option Reg8}
    (h : Forms.changeBit i = some (b, v, l, copy)) :
    ∃ g, opOf i = .changeBit g l copy ∧ HasShape i (Shape.bytes i) (Shape.fetches i) ∧
      ∀ old, ∀ k < 8, (g old).getLsbD k = if k = b.toNat then v else old.getLsbD k := by
  cases i <;> cases h
  case setBR | setBHl | setBIxD | setBIyD | ldRSetBIxD | ldRSetBIyD =>
    exact ⟨setBit b, rfl, shape rfl, fun old k _ => setBit_getLsbD b old k⟩
  case resBR | resBHl | resBIxD | resBIyD | ldRResBIxD | ldRResBIyD =>
    exact ⟨resBit b, rfl, shape rfl, fun old _ hk => resBit_getLsbD b old hk⟩

/-- Settles O48: the result is written to the operand and its copy, and F is not (`changeBit_spec`). -/
theorem Bit.changeBit : Obligations.ChangeBit := by
  intro i b v l copy s h
  obtain ⟨g, ho, hs, hg⟩ := opOf_changeBit h
  obtain ⟨t, he, hr, hv, hc⟩ := changeBit_spec hs g l copy s
  exact ⟨t, g (l.read s), by rw [exec_eq, ho]; exact he, hr, hg _, hv, hc⟩

end Sys2Proof.Machine
end

section
/-! Control flow (46_control.md, R500 to R513): the jumps and `DJNZ`, the calls and `RST`, the returns. -/

namespace Sys2Proof.Machine

open Sys2Proof Sys2Proof.Laws

/-! ### The conditions (R42, R132) -/

/-- The model's conditions are the bits of F that the rules name. -/
theorem holds_eq_condition (cc : Cond) (f : Byte) : cc.holds f = Forms.condition f cc := by
  cases cc <;> rfl

/-- The model's conditions of `JR` are the bits of F that the rules name. -/
theorem holds_eq_conditionJr (cc : CondJr) (f : Byte) : cc.holds f = Forms.conditionJr f cc := by
  cases cc <;> rfl

/-! ### The jumps and DJNZ (R500 to R506) -/

/-- The jumps are three shared operations: to the address in the instruction, relative to the next instruction, and to the
word of a register. -/
theorem opOf_jump {i : Instr} {taken : Bool} {target : Word} {s : State} (h : Forms.jump s i = some (taken, target)) :
    ((∃ cond, opOf i = .jumpIf cond target ∧ cond s.main.f = taken) ∨
      (∃ cond e, opOf i = .jumpRelativeIf cond e ∧ cond s.main.f = taken ∧
        s.pc + BitVec.ofNat 16 (Shape.bytes i) + e.signExtend 16 = target) ∨
      ∃ l, opOf i = .jumpTo l ∧ true = taken ∧ l.read s = target) ∧
      HasShape i (Shape.bytes i) (Shape.fetches i) := by
  cases i <;> cases h
  case jpNn => exact ⟨.inl ⟨_, rfl, rfl⟩, shape rfl⟩
  case jpCcNn cc => exact ⟨.inl ⟨_, rfl, holds_eq_condition cc _⟩, shape rfl⟩
  case jr => exact ⟨.inr (.inl ⟨_, _, rfl, rfl, rfl⟩), shape rfl⟩
  case jrCc cc e => exact ⟨.inr (.inl ⟨_, _, rfl, holds_eq_conditionJr cc _, rfl⟩), shape rfl⟩
  case jpHl | jpIx | jpIy => exact ⟨.inr (.inr ⟨_, rfl, rfl, rfl⟩), shape rfl⟩

/-- Settles O49: by what each shared jump does; `DJNZ` jumps unless B was 1, which is when it becomes 0
(`decrementAndJump_spec`). -/
theorem jumpsAndDjnz : Obligations.JumpsAndDjnz := by
  refine ⟨fun i taken target s h => ?_, fun e s => decrementAndJump_spec (shape (i := .djnz e) rfl) e s⟩
  obtain ⟨⟨cond, ho, rfl⟩ | ⟨cond, e, ho, rfl, rfl⟩ | ⟨l, ho, rfl, rfl⟩, hs⟩ := opOf_jump h <;> rw [exec_eq, ho]
  · exact jumpIf_spec hs cond target s
  · exact jumpRelativeIf_spec hs cond e s
  · exact jumpTo_spec hs l s

/-! ### The calls and RST (R507, R508, R513) -/

/-- The target of `RST` in integers (R513). -/
theorem rstTarget_eq : ∀ y : BitVec 3, rstTarget y = BitVec.ofNat 16 (8 * y.toNat) := by decide

/-- The calls and `RST` are one shared operation. -/
theorem opOf_call {i : Instr} {taken : Bool} {target : Word} {s : State} (h : Forms.call s i = some (taken, target)) :
    ∃ cond, opOf i = .callIf cond target ∧ cond s.main.f = taken ∧ HasShape i (Shape.bytes i) (Shape.fetches i) := by
  cases i <;> cases h
  case callNn => exact ⟨_, rfl, rfl, shape rfl⟩
  case callCcNn cc => exact ⟨_, rfl, holds_eq_condition cc _, shape rfl⟩
  case rst y => exact ⟨_, congrArg _ (rstTarget_eq y), rfl, shape rfl⟩

/-- Settles O50: by what the shared call does (`callIf_spec`); the word it pushed reads back (`Transacts.word_stored`). -/
theorem calls : Obligations.Calls := by
  intro i taken target s h
  obtain ⟨cond, ho, rfl, hs⟩ := opOf_call h
  obtain ⟨t, he, htaken, hnot⟩ := callIf_spec hs cond target s
  refine ⟨t, highFirst s, orderAllowed_highFirst s, by rw [exec_eq, ho]; exact he, fun hc => ?_, hnot⟩
  obtain ⟨hsp, hr⟩ := htaken hc
  exact ⟨hr, hsp, Transacts.word_stored (es := []) hr.bus hr.frame.params⟩

/-! ### The returns (R509 to R512) -/

/-- The returns are two shared operations: `RETI` and `RETN`, which are always taken, and the others. -/
theorem opOf_returnFrom {i : Instr} {taken fromInterrupt : Bool} {s : State}
    (h : Forms.returnFrom s i = some (taken, fromInterrupt)) :
    ((∃ cond, opOf i = .returnIf cond ∧ cond s.main.f = taken ∧ fromInterrupt = false) ∨
      opOf i = .interruptReturn ∧ taken = true ∧ fromInterrupt = true) ∧
      HasShape i (Shape.bytes i) (Shape.fetches i) := by
  cases i <;> cases h
  case ret => exact ⟨.inl ⟨_, rfl, rfl, rfl⟩, shape rfl⟩
  case retCc cc => exact ⟨.inl ⟨_, rfl, holds_eq_condition cc _, rfl⟩, shape rfl⟩
  case reti | retn => exact ⟨.inr ⟨rfl, rfl, rfl⟩, shape rfl⟩

/-- Settles O51: by what the two shared returns do (`returnIf_spec`, whose frame keeps IFF1, and `interruptReturn_spec`). -/
theorem returns : Obligations.Returns := by
  intro i taken fromInterrupt s h
  obtain ⟨⟨cond, ho, rfl, rfl⟩ | ⟨ho, rfl, rfl⟩, hs⟩ := opOf_returnFrom h
  · obtain ⟨t, he, htaken, hnot⟩ := returnIf_spec hs cond s
    refine ⟨t, highFirst s, loRead s s.sp, hiRead s s.sp, orderAllowed_highFirst s, by rw [exec_eq, ho]; exact he,
      fun hc => ?_, hnot⟩
    obtain ⟨hsp, hr⟩ := htaken hc
    exact ⟨hr, hsp, hr.frame.iff1 rfl⟩
  · obtain ⟨t, he, hsp, hiff, hr⟩ := interruptReturn_spec hs s
    exact ⟨t, highFirst s, _, _, orderAllowed_highFirst s, by rw [exec_eq, ho]; exact he, fun _ => ⟨hr, hsp, hiff⟩, nofun⟩

end Sys2Proof.Machine
end

section
/-! Interrupts and stops (60_exceptions.md): no instruction looks at the requests, what an accepted NMI and an accepted
maskable interrupt do and where they go, and where no step stops. The theorem whose own name is that of an operation of the
model stands in the namespace `Interrupt`. -/

namespace Sys2Proof.Machine

open Sys2Proof

/-! ### Requests are examined at step boundaries (R700, R714, R719) -/

/-- Agreement in all registers does not look at the interrupt requests. -/
theorem agree_setRequests {s t : State} (h : AgreeBut (fun _ => False) s t) (n l : Bool) (v : Byte) :
    AgreeBut (fun _ => False) { s with nmiPending := n, intLine := l, intVector := v } t :=
  { h with main := h.main, alt := h.alt, half := h.half }

/-- Two states that agree in all registers and have the same requests are one state. -/
theorem eq_of_agree {s t : State} (h : AgreeBut (fun _ => False) s t) (hn : t.nmiPending = s.nmiPending)
    (hl : t.intLine = s.intLine) (hv : t.intVector = s.intVector) : t = s := by
  have halt : t.alt = s.alt :=
    regSet_eq (h.alt .a id) (h.altF id) (h.alt .b id) (h.alt .c id) (h.alt .d id) (h.alt .e id) (h.alt .h id) (h.alt .l id)
  exact agree_eq h (fun _ => id) (fun _ _ => id) id id halt hn hl hv

/-- Settles O23: with other requests the state agrees in all registers, so the instruction goes to one that does
(`agree_exec`), and its frame keeps the requests. -/
theorem instructionsIgnoreRequests : Obligations.InstructionsIgnoreRequests := by
  intro i s t n l v ht
  have hs : AgreeBut (fun _ => False) s { s with nmiPending := n, intLine := l, intVector := v } :=
    { agree_refl (fun _ => False) s with main := fun _ _ => rfl, alt := fun _ _ => rfl, half := fun _ _ _ => rfl }
  obtain ⟨t', ht', k⟩ := agree_exec hs (fun _ _ => id) ht
  have f := exec_frame ht'
  refine ht'.trans (congrArg _ ?_)
  exact eq_of_agree (agree_setRequests (agree_mono k fun _ u => u.1) n l v) (f.nmi (effect_nmi _)) f.intLine f.intVector

/-! ### An accepted NMI (R717, R718, R720, R722) -/

/-- Settles O6: the step is `accept_nmi` (`acceptNmi_spec`), whose push is its last transaction and so reads back. -/
theorem nmiIsAccepted : Obligations.NmiIsAccepted := by
  rintro s ret hm hn rfl
  obtain ⟨hpc, hnmi, hh, h1, hi, hsp, hc, f, k⟩ := acceptNmi_spec s
  exact ⟨acceptNmi s, highFirst s, orderAllowed_highFirst s, step_nmi hm hn, hpc, hnmi, hh, h1, hi, hsp, hc, k,
    Transacts.word_stored (es := []) k f.params, f⟩

/-! ### Transactions that store nothing -/

theorem memWrite_notMem_wordReads (x : Word) (v : Byte) (high : Bool) (a : Word) (lo hi : Byte) :
    .memWrite x v ∉ wordReads high a lo hi := by
  cases high <;> simp [wordReads]

/-- Transactions `fs` that store nothing change what no storage address reads, in a machine that does nothing of its own. -/
theorem memRead_after_reads {es fs : List BusEvent} {s t : State} (h : Transacts (es ++ fs) s t) (hp : t.params = s.params)
    (hw : ∀ a v, .memWrite a v ∉ fs) (hq : Quiet s) {x : Word} (hx : ¬ IsDevice s.bus.map x) :
    memRead t x = memRead (s.didAll es) x := by
  rw [h.memRead_eq hp hq hx, lastStored_append, lastStored_other _ _ _ fs (fun a v hm => absurd hm (hw a v)),
    memRead_didAll hq es hx]

/-- A word stored before them still reads back. -/
theorem wordStored_before_reads {high : Bool} {a v : Word} {fs : List BusEvent} {s t : State}
    (h : Transacts (wordWrites high a v ++ fs) s t) (hp : t.params = s.params) (hw : ∀ b w, .memWrite b w ∉ fs) :
    WordStored a v s t := by
  have stored : WordStored a v s (s.didAll (wordWrites high a v)) :=
    Transacts.word_stored (es := []) (transacts_didAll (answered_wordWrites _ _ _ _)) rfl
  constructor
  · intro hq ha hd
    rw [memRead_after_reads h hp hw hq (not_device_of_ram ha)]
    exact stored.low hq ha hd
  · intro hq ha hd
    rw [memRead_after_reads h hp hw hq (not_device_of_ram ha)]
    exact stored.high hq ha hd

/-- The bytes that a plain machine answers to a word read are those that stand there. -/
theorem memRead_of_answered_wordReads {s : State} (h : Plain s) {high : Bool} {a : Word} {lo hi : Byte}
    (ha : Answered (wordReads high a lo hi) s) : memRead s a = lo ∧ memRead s (a + 1) = hi := by
  cases high
  · obtain ⟨hlo, hhi, -⟩ := ha
    exact ⟨hlo.symm, (hhi.trans (memRead_did h.1 _ (plain_not_device h _))).symm⟩
  · obtain ⟨hhi, hlo, -⟩ := ha
    exact ⟨(hlo.trans (memRead_did h.1 _ (plain_not_device h _))).symm, hhi.symm⟩

/-- So the bytes that it answered to the last word read stand there after it. -/
theorem memRead_of_last_wordReads {es : List BusEvent} {high : Bool} {a : Word} {lo hi : Byte} {s t : State}
    (h : Transacts (es ++ wordReads high a lo hi) s t) (hp : t.params = s.params) (hs : Plain s)
    (he : Answered es s) : memRead t a = lo ∧ memRead t (a + 1) = hi := by
  have hu : Plain (s.didAll es) := plain_of_transacts hs (transacts_didAll he)
  have keeps : ∀ x, memRead t x = memRead (s.didAll es) x := fun x =>
    memRead_after_reads h hp (fun b w => memWrite_notMem_wordReads b w high a lo hi) hs.1 (plain_not_device hs x)
  rw [keeps, keeps]
  exact memRead_of_answered_wordReads hu ((answered_append _ _ _).mp h.answered).2

/-! ### An accepted maskable interrupt (R715, R716, R720, R724 to R726) -/

/-- With nothing to refuse an interrupt that is taken is accepted (R712, R716). -/
theorem acceptInt_next {s : State} (ht : TakesInt s) (h0 : mode0NonRst s = false)
    (h2 : s.im = .im2 → s.params.resetUnspec = .faultOnRead → .i ∉ s.unwritten) : ∃ t, acceptInt s = .next t := by
  rcases acceptInt_cases s with ⟨hm, hv, -⟩ | ⟨hm, hf, hi, -⟩ | ⟨-, -, e⟩
  · exact absurd (h0.symm.trans ((mode0NonRst_iff ht).mpr ⟨hm, hv⟩)) nofun
  · exact absurd hi (h2 hm hf)
  · exact ⟨_, e⟩

/-- After its push, an accepted interrupt reads the word at `I : v` in mode 2, and does nothing more on the bus in the other
modes (R724, R725). -/
theorem acceptInt_transacts {s t : State} (ht : acceptInt s = .next t) :
    ∃ reads high lo hi, OrderAllowed s high ∧
      reads = (if s.im = .im2 then wordReads high (wordOf s.i s.intVector) lo hi else []) ∧
      Transacts (wordWrites (highFirst s) (s.sp - 2)
        (if s.halted ∧ s.params.haltResume = .next then s.pc + 1 else s.pc) ++ reads) s t := by
  obtain ⟨-, -, -, -, -, -, -, target, reads, -, k, m0, m1, m2⟩ := acceptInt_spec ht
  cases hm : s.im
  case im0 =>
    obtain ⟨-, -, hr⟩ := m0 hm
    exact ⟨reads, highFirst s, 0, 0, orderAllowed_highFirst s, hr, k⟩
  case im1 =>
    obtain ⟨-, hr⟩ := m1 hm
    exact ⟨reads, highFirst s, 0, 0, orderAllowed_highFirst s, hr, k⟩
  case im2 =>
    obtain ⟨high, lo, hi, ho, -, hr⟩ := m2 hm
    exact ⟨reads, high, lo, hi, ho, hr, k⟩

/-- Settles O7: the step is `accept_int`, with nothing to refuse (`acceptInt_next`); what follows the push only reads
(`acceptInt_transacts`), so the pushed word reads back. -/
theorem intIsAccepted : Obligations.IntIsAccepted := by
  rintro s ret ht h0 h2 rfl
  obtain ⟨t, hn⟩ := acceptInt_next ht h0 h2
  obtain ⟨hh, h1, hiff2, hinh, hsp, hc, f, -⟩ := acceptInt_spec hn
  obtain ⟨reads, high2, lo, hi, ho2, rfl, k⟩ := acceptInt_transacts hn
  have ⟨_, _, hline, _⟩ := ht
  refine ⟨t, highFirst s, high2, lo, hi, orderAllowed_highFirst s, ho2, (step_int ht).trans hn, hh, h1, hiff2, hinh,
    f.intLine.trans hline, hsp, hc, k, wordStored_before_reads k f.params fun b w => ?_, f⟩
  split
  · exact memWrite_notMem_wordReads b w _ _ _ _
  · nofun

/-- The target of mode 0 in integers: bits 3 to 5 of the byte (R724). -/
theorem mode0Target_toNat : ∀ v : Byte, ((v &&& 0x38).setWidth 16).toNat = v.toNat / 8 % 8 * 8 := by decide

/-- Settles O8: by the target that `acceptInt_spec` gives in each mode; in a plain machine the bytes read last still stand in
memory (`memRead_of_last_wordReads`). -/
theorem Interrupt.intTarget : Obligations.IntTarget := by
  rintro s t ret ht h rfl
  rw [step_int ht] at h
  obtain ⟨-, -, -, -, -, -, f, target, reads, rfl, k, m0, m1, m2⟩ := acceptInt_spec h
  refine ⟨fun hm => ?_, fun hm => (m1 hm).1, fun hm => ?_⟩
  · obtain ⟨-, hpc, -⟩ := m0 hm
    rw [hpc]
    exact mode0Target_toNat _
  · obtain ⟨high2, lo, hi, ho2, hpc, rfl⟩ := m2 hm
    refine ⟨⟨_, high2, lo, hi, orderAllowed_highFirst s, ho2, hpc, k⟩, fun hs => ?_⟩
    obtain ⟨hlo, hhi⟩ := memRead_of_last_wordReads k f.params hs (answered_wordWrites _ _ _ _)
    rw [hpc, hlo, hhi]

/-- The `RST` opcodes are the bytes `11ttt111`. -/
theorem isRst_eq_false_iff : ∀ v : Byte, isRst v = false ↔ v.toNat / 64 ≠ 3 ∨ v.toNat % 8 ≠ 7 := by decide

/-- Settles O9: by the first refusal of `accept_int`. -/
theorem mode0NonRstIsRefused : Obligations.Mode0NonRstIsRefused := by
  intro s ht hm hv
  have hr := (isRst_eq_false_iff _).mpr hv
  rw [step_int ht]
  rcases acceptInt_cases s with ⟨-, -, e⟩ | ⟨h2, -⟩ | ⟨h0, -⟩
  · exact e
  · exact absurd (hm.symm.trans h2) nofun
  · exact absurd (hr.symm.trans (h0 hm)) nofun

/-! ### Where no step stops (R148, R710, R712) -/

/-- Settles O12: a fault needs the policy `strict`, and each refusal needs its situation of R712, which the parameters or
the premises exclude. -/
theorem defaultParametersNeverStop : Obligations.DefaultParametersNeverStop := by
  intro s (hp : s.params = Config.Params.default) h0 hb
  obtain ⟨refusals, -⟩ := refusesOnlyWhatTheSpecRefuses
  rcases h : step s with t | f | r
  · exact ⟨t, h⟩
  · obtain ⟨hstrict, -⟩ := faultsOnlyOnStrictHoles s f h
    exact absurd (hp ▸ hstrict) nofun
  · rcases refusals s r h with ⟨-, hm⟩ | ⟨-, -, hv⟩ | ⟨-, hx, hi⟩ | ⟨hf, -⟩
    · exact absurd (hp ▸ hm) nofun
    · exact absurd (h0.symm.trans hv) nofun
    · exact absurd hi (hb hx)
    · exact absurd (hp ▸ hf) nofun

end Sys2Proof.Machine
end

section
/-! Input, output and CPU control (48_io.md, R600 to R605; 49_cpu_control.md, R650 to R660), and a halted core (R651,
R721). -/

namespace Sys2Proof.Machine

open Sys2Proof Sys2Proof.Laws

/-! ### Input and output (R600 to R605) -/

/-- `IN r,(C)` and `IN (C)` are one shared operation, with and without a destination. -/
theorem opOf_inputFromC {i : Instr} {dst : Option Reg8}
    (h : i = .inC ∧ dst = none ∨ ∃ r, i = .inRC r ∧ dst = some r) :
    opOf i = .inputFromC dst ∧ HasShape i (Shape.bytes i) (Shape.fetches i) := by
  rcases h with ⟨rfl, rfl⟩ | ⟨r, rfl, rfl⟩ <;> exact ⟨rfl, shape rfl⟩

/-- Settles O56: by what the two shared inputs do (`inputToA_spec`, `inputFromC_spec`) and the flags of `in_flags`. -/
theorem portInput : Obligations.PortInput := by
  refine fun s => ⟨?_, ?_⟩
  · rintro n _ rfl
    exact inputToA_spec (shape (i := .inAN n) rfl) n s
  · rintro i dst _ rfl h
    obtain ⟨ho, hs⟩ := opOf_inputFromC h
    obtain ⟨t, he, hr, hv, hf⟩ := inputFromC_spec hs dst s
    exact ⟨t, by rw [exec_eq, ho]; exact he, hr, hv, hf ▸ in_flags _ _ _⟩

/-- Settles O57: by what the two shared outputs do (`outputA_spec`, `outputToC_spec`). -/
theorem portOutput : Obligations.PortOutput := by
  intro i port v s h
  cases i <;> cases h
  case outNA n => exact outputA_spec (shape (i := .outNA n) rfl) n s
  case outCR r => exact outputToC_spec (shape (i := .outCR r) rfl) (·.reg r) s (advance_reg 2 2 s r)
  case outC0 => exact outputToC_spec (shape (i := .outC0) rfl) (fun _ => 0x00) s rfl

/-! ### CPU control (R650 to R660) -/

/-- `IM n` and its mirrors are one shared operation. -/
theorem opOf_setMode {i : Instr} {m : IntMode} (h : Forms.setMode i = some m) : opOf i = .setMode m ∧ HasShape i 2 2 := by
  cases i <;> cases h <;> exact ⟨rfl, shape rfl⟩

/-- Settles O58: by what each shared operation does. -/
theorem cpuControl : Obligations.CpuControl := by
  refine ⟨fun s => ⟨noOperation_spec (shape (i := .nop) rfl) s, ?_, disableInterrupts_spec (shape (i := .di) rfl) s⟩,
    fun i m s h => ?_⟩
  · obtain ⟨t, he, hh, hr⟩ := enterHalt_spec (shape (i := .halt) rfl) s
    exact ⟨t, he, hr, hh⟩
  · obtain ⟨ho, hs⟩ := opOf_setMode h
    rw [exec_eq, ho]
    exact setMode_spec hs m s

/-- Settles O59: by what each of the four moves does; the two that load A have the flags of `in_flags` at the new A. -/
theorem movesOfIAndR : Obligations.MovesOfIAndR := by
  refine ⟨fun s => ⟨loadIFromA_spec (shape (i := .ldIA) rfl) s, loadRFromA_spec s⟩, ?_⟩
  rintro s i (rfl | rfl)
  · obtain ⟨t, he, hr, ha, hf⟩ := loadAFromI_spec (shape (i := .ldAI) rfl) s
    exact ⟨t, he, hr, fun _ => ha, nofun, by rw [hf, ha]; exact in_flags _ _ _⟩
  · obtain ⟨t, he, hr, ha, hf⟩ := loadAFromR_spec (shape (i := .ldAR) rfl) s
    exact ⟨t, he, hr, nofun, fun _ => ha, hf ▸ in_flags _ _ _⟩

/-! ### A halted core (R651, R721) -/

/-- Settles O11: the step is a fetch and then `HALT` (`step_halted`), which keeps PC and leaves the core as halted as it was
(`enterHalt_spec`). -/
theorem haltedStepReexecutesHalt : Obligations.HaltedStepReexecutesHalt := by
  intro s hm ha hh
  have hs := shape (i := .halt) rfl
  obtain ⟨t, he, ht, hr⟩ := enterHalt_spec hs (memReadDone s.pc s)
  have fetch : Transacts [.memRead s.pc (memRead s s.pc)] s (memReadDone s.pc s) := transacts_didAll ⟨rfl, trivial⟩
  have f : Frame { halted := true } s t := (did_frame _ _ s).trans hr.frame
  refine ⟨t, (step_halted hm ha hh).trans he, ht, hr.pc, hr.inhibit, ⟨hr.r.bit7, hr.r.low⟩, ?_,
    { f with halted := fun _ => ht.trans hh.symm }⟩
  exact fetch.trans hr.bus rfl hr.frame.params

end Sys2Proof.Machine
end
